-- ==== Sys2Proof/Word.lean ====
section
/-! DEFINITION. The word types of the block (spec/00_scope.md R10, R11). -/

namespace Sys2Proof

/-- One byte of a buffer or one s8 sample component. -/
abbrev Byte := BitVec 8

/-- A u16: a length operand, a byte count, a TX16 word, a CRC. -/
abbrev Half := BitVec 16

/-- A u32: a command word, a register as the host reads it, a time value (TICK_WIDTH = 32, R8). -/
abbrev Word := BitVec 32

end Sys2Proof
end

