-- ==== Sys2Proof/Syntax.lean ====
section
/-! DEFINITION. The instruction set: the 19 commands of the opcode map (spec/30_encoding.md R126), each with the
operand fields of its format (R122). -/

namespace Sys2Proof

/-- One constructor per row of spec/opcode_table.json. -/
inductive Instr where
  /-- TOSEND.RESET (R171): empty the send buffer. -/
  | tosendReset
  /-- TOSEND.STUFF b (R172): append one bit. -/
  | tosendStuff (b : Bool)
  /-- TOSEND.STUFF4 b (R173): append one bit four times. -/
  | tosendStuff4 (b : Bool)
  /-- CODE.READER n (R174): encode CMDBUF[0..n-1] as a reader frame. -/
  | codeReader (n : Half)
  /-- CODE.TAG n (R175): encode CMDBUF[0..n-1] as a tag frame. -/
  | codeTag (n : Half)
  /-- UART.INIT n (R201): reset the Uart with frame limit n. -/
  | uartInit (n : Half)
  /-- UART.STEP b (R204): one Uart step on the sliced bit b. -/
  | uartStep (b : Bool)
  /-- DEMOD.INIT n (R235): reset the Demod with frame limit n. -/
  | demodInit (n : Half)
  /-- DEMOD.STEP i, q (R238): one Demod step on the s8 sample pair (i, q). -/
  | demodStep (i q : Byte)
  /-- TRX.TX_READER (R273): transmit the send buffer as a reader, from the slot of ARG0. -/
  | trxTxReader
  /-- TRX.TX_TAG sel (R276): transmit the selected buffer as a tag. -/
  | trxTxTag (sel : BitVec 2)
  /-- TRX.RX_TAG n (R280): receive one tag frame of at most n bytes within ARG0 samples. -/
  | trxRxTag (n : Half)
  /-- TRX.CODE_TX_READER n (R278): encode CMDBUF[0..n-1], transmit it and trace it. -/
  | trxCodeTxReader (n : Half)
  /-- TRX.SET_TIMEOUT (R286): TRX_TIMEOUT from ARG0. -/
  | trxSetTimeout
  /-- TRX.SET_MAX_FRAME (R287): TRX_FRAMEMAX from ARG0. -/
  | trxSetMaxFrame
  /-- EMU.INIT (R311): build ATQB, EATQB and EOK with the PUPI of ARG0. -/
  | emuInit
  /-- EMU.FIELD (R312): field detection from FIELD_V. -/
  | emuField
  /-- EMU.FRAME (R313): classify the last reader frame and respond. -/
  | emuFrame
  /-- EMU.RX n (R320): receive one reader frame of at most n bytes through the Uart. -/
  | emuRx (n : Half)
deriving DecidableEq, Repr

end Sys2Proof
end

