-- ==== Sys2Proof/WellFormed.lean ====
section
/-! DEFINITION. Well-formed instructions: the terms of `Instr` whose command word R120 accepts. The field widths of R122
stand in the types, so the one check left is the reserved selector of TRX.TX_TAG. -/

namespace Sys2Proof

/-- R120: "if op = TRX.TX_TAG and cw[1:0] = 3: raise Fault(ILLEGAL, cw)". Every other term is well formed. -/
def Instr.wf : Instr → Bool
  | .trxTxTag sel => sel != 3
  | .tosendReset => true
  | .tosendStuff _ => true
  | .tosendStuff4 _ => true
  | .codeReader _ => true
  | .codeTag _ => true
  | .uartInit _ => true
  | .uartStep _ => true
  | .demodInit _ => true
  | .demodStep _ _ => true
  | .trxTxReader => true
  | .trxRxTag _ => true
  | .trxCodeTxReader _ => true
  | .trxSetTimeout => true
  | .trxSetMaxFrame => true
  | .emuInit => true
  | .emuField => true
  | .emuFrame => true
  | .emuRx _ => true

end Sys2Proof
end

