-- ==== Sys2Proof/Decode.lean ====
section
/-! DEFINITION. Command words (spec/30_encoding.md R120, R122, R126): the decoder, total on every 32-bit word and
refusing by name, and after it the encoder, written from the same tables. Registers have no byte view (R92), so a
command word is one 32-bit number and no byte order enters. -/

namespace Sys2Proof

/-- The five formats of R122. -/
inductive Format where
  | none | bit | sample | length | source
deriving DecidableEq, Repr

/-- MASK of a format (R122): a 1 at every fixed bit. -/
def Format.mask : Format → Word
  | .none => 0xFFFFFFFF
  | .bit => 0xFFFFFFFE
  | .sample => 0xFFFF0000
  | .length => 0xFFFF0000
  | .source => 0xFFFFFFFC

/-- Why a command word is no instruction; R341 gives all three the one code ILLEGAL. -/
inductive DecodeError where
  /-- The opcode is not in the map of R126. -/
  | reservedOpcode
  /-- A reserved bit is set (R120, R122). -/
  | reservedBits
  /-- TRX.TX_TAG with sel = 3 (R120). -/
  | reservedSelector
deriving DecidableEq, Repr

/-- The opcode map of R126: opcode and format of each command. -/
def formatOf (op : Byte) : Option Format :=
  match op.toNat with
  | 0x01 => some .none
  | 0x02 => some .bit
  | 0x03 => some .bit
  | 0x04 => some .length
  | 0x05 => some .length
  | 0x10 => some .length
  | 0x11 => some .bit
  | 0x20 => some .length
  | 0x21 => some .sample
  | 0x30 => some .none
  | 0x31 => some .source
  | 0x32 => some .length
  | 0x33 => some .length
  | 0x34 => some .none
  | 0x35 => some .none
  | 0x40 => some .none
  | 0x41 => some .none
  | 0x42 => some .none
  | 0x43 => some .length
  | _ => Option.none

/-- The operand fields of R122, as slices of the command word. -/
def fieldB (cw : Word) : Bool := cw.getLsbD 0

/-- `n = cw[15:0]` (R122). -/
def fieldN (cw : Word) : Half := cw.extractLsb' 0 16

/-- `i = cw[15:8]` (R122). -/
def fieldI (cw : Word) : Byte := cw.extractLsb' 8 8

/-- `q = cw[7:0]` (R122). -/
def fieldQ (cw : Word) : Byte := cw.extractLsb' 0 8

/-- `sel = cw[1:0]` (R122). -/
def fieldSel (cw : Word) : BitVec 2 := cw.extractLsb' 0 2

/-- The command an opcode of R126 names, with its fields; a reserved opcode names none. -/
def commandOf (op : Byte) (cw : Word) : Option Instr :=
  match op.toNat with
  | 0x01 => some .tosendReset
  | 0x02 => some (.tosendStuff (fieldB cw))
  | 0x03 => some (.tosendStuff4 (fieldB cw))
  | 0x04 => some (.codeReader (fieldN cw))
  | 0x05 => some (.codeTag (fieldN cw))
  | 0x10 => some (.uartInit (fieldN cw))
  | 0x11 => some (.uartStep (fieldB cw))
  | 0x20 => some (.demodInit (fieldN cw))
  | 0x21 => some (.demodStep (fieldI cw) (fieldQ cw))
  | 0x30 => some .trxTxReader
  | 0x31 => some (.trxTxTag (fieldSel cw))
  | 0x32 => some (.trxRxTag (fieldN cw))
  | 0x33 => some (.trxCodeTxReader (fieldN cw))
  | 0x34 => some .trxSetTimeout
  | 0x35 => some .trxSetMaxFrame
  | 0x40 => some .emuInit
  | 0x41 => some .emuField
  | 0x42 => some .emuFrame
  | 0x43 => some (.emuRx (fieldN cw))
  | _ => Option.none

/-- `op = cw[31:24]` (R122). -/
def fieldOp (cw : Word) : Byte := cw.extractLsb' 24 8

/-- `op << 24` as a word: the value the fixed bits must have (R122, "match"). -/
def matchOf (op : Byte) : Word := op ++ (0 : BitVec 24)

/-- The checks of R120 in their order: opcode, reserved bits, then the reserved selector. -/
def decode (cw : Word) : Except DecodeError Instr :=
  match formatOf (fieldOp cw), commandOf (fieldOp cw) cw with
  | some f, some i =>
    if cw &&& f.mask = matchOf (fieldOp cw) then
      if i.wf then .ok i else .error .reservedSelector
    else .error .reservedBits
  | _, _ => .error .reservedOpcode

/-- The opcode of each command (R126). -/
def Instr.opcode : Instr → Byte
  | .tosendReset => 0x01
  | .tosendStuff _ => 0x02
  | .tosendStuff4 _ => 0x03
  | .codeReader _ => 0x04
  | .codeTag _ => 0x05
  | .uartInit _ => 0x10
  | .uartStep _ => 0x11
  | .demodInit _ => 0x20
  | .demodStep _ _ => 0x21
  | .trxTxReader => 0x30
  | .trxTxTag _ => 0x31
  | .trxRxTag _ => 0x32
  | .trxCodeTxReader _ => 0x33
  | .trxSetTimeout => 0x34
  | .trxSetMaxFrame => 0x35
  | .emuInit => 0x40
  | .emuField => 0x41
  | .emuFrame => 0x42
  | .emuRx _ => 0x43

/-- A format N word: every operand bit reserved (R122). -/
def wordN (op : Byte) : Word := op ++ (0 : BitVec 24)

/-- A format B word (R122). -/
def wordB (op : Byte) (b : Bool) : Word := op ++ (0 : BitVec 23) ++ BitVec.ofBool b

/-- A format S word (R122). -/
def wordS (op i q : Byte) : Word := op ++ (0 : Byte) ++ i ++ q

/-- A format L word (R122). -/
def wordL (op : Byte) (n : Half) : Word := op ++ (0 : Byte) ++ n

/-- A format T word (R122). -/
def wordT (op : Byte) (sel : BitVec 2) : Word := op ++ (0 : BitVec 22) ++ sel

/-- The command word of an instruction (R122, R126). -/
def encode (i : Instr) : Word :=
  match i with
  | .tosendReset => wordN 0x01
  | .tosendStuff b => wordB 0x02 b
  | .tosendStuff4 b => wordB 0x03 b
  | .codeReader n => wordL 0x04 n
  | .codeTag n => wordL 0x05 n
  | .uartInit n => wordL 0x10 n
  | .uartStep b => wordB 0x11 b
  | .demodInit n => wordL 0x20 n
  | .demodStep x y => wordS 0x21 x y
  | .trxTxReader => wordN 0x30
  | .trxTxTag sel => wordT 0x31 sel
  | .trxRxTag n => wordL 0x32 n
  | .trxCodeTxReader n => wordL 0x33 n
  | .trxSetTimeout => wordN 0x34
  | .trxSetMaxFrame => wordN 0x35
  | .emuInit => wordN 0x40
  | .emuField => wordN 0x41
  | .emuFrame => wordN 0x42
  | .emuRx n => wordL 0x43 n

/-- The low `nbits` bits of `w` as a command word, the bits above zero. Every command is one 32-bit word (R120). -/
def tableWord (nbits w : Nat) : Word := BitVec.ofNat 32 (w % 2 ^ nbits)

/-- The instruction the decoder reads from a row's bits, numbered as spec/opcode_table.json numbers them. -/
def decodeTableWord (nbits w : Nat) : Option Instr := (decode (tableWord nbits w)).toOption

end Sys2Proof
end

