-- ==== Sys2Proof/Config.lean ====
section
/-! DEFINITION. The implementation parameters of spec/00_scope.md R8: the constants the spec fixes, and `Config`,
the parameters it leaves OPEN or decides with alternatives. A `Config` stands in `State`, where no step writes it
(log entry 1), so a statement about every state is a statement about every value of the parameters. -/

namespace Sys2Proof

/-- SUBCARRIER_DETECT_THRESHOLD (R8, R232). -/
def subcarrierDetectThreshold : Nat := 8

/-- ARM_TO_TAG, ticks (R8, R270, R271). -/
def armToTag : Word := 16

/-- TAG_TO_ARM, ticks (R8, R270, R283). -/
def tagToArm : Word := 32

/-- VICC_TO_VCD, ticks; no command reads it (R288). -/
def viccToVcd : Word := 600

/-- VCD_TO_VICC, ticks; no command reads it (R288). -/
def vcdToVicc : Word := 600

/-- READER_RX_TIMEOUT, samples; the operand a host passes to TRX.RX_TAG (R288). -/
def readerRxTimeout : Word := 1700

/-- FWT_DEFAULT, ticks: the reset value of TRX_TIMEOUT (R57, R288). -/
def fwtDefault : Word := 35312

/-- SGN_ZERO, the value of sgn(0) (R8, R233; decided -1). -/
inductive SgnZero where
  | minusOne | zero | plusOne
deriving DecidableEq, Repr

/-- UART_OVF_CHECK, where the Uart's overflow test stands (R8, R208; decided before_store). -/
inductive UartOvfCheck where
  | beforeStore | afterStore
deriving DecidableEq, Repr

/-- SLIP_POLICY, how a late TX slot slips (R8, R271; decided next_slot_after_now). -/
inductive SlipPolicy where
  | nextSlotAfterNow | targetPlus16
deriving DecidableEq, Repr

/-- The parameters of R8 that the spec leaves OPEN or lets a model vary. -/
structure Config where
  /-- SGN_ZERO. -/
  sgnZero : SgnZero
  /-- UART_OVF_CHECK. -/
  uartOvfCheck : UartOvfCheck
  /-- SLIP_POLICY. -/
  slipPolicy : SlipPolicy
  /-- MAX_TIMEOUT, ticks. -/
  maxTimeout : Word
  /-- MAX_FRAME_SIZE, bytes. -/
  maxFrameSize : Word
  /-- FIELD_THRESHOLD, in the units of FIELD_V. -/
  fieldThreshold : Word
  /-- TOSEND_SIZE, 1..4096. -/
  tosendSize : Nat
  /-- CMDBUF_SIZE, 1..4096. -/
  cmdbufSize : Nat
  /-- UOUT_SIZE, 1..4096. -/
  uoutSize : Nat
  /-- DOUT_SIZE, 1..4096. -/
  doutSize : Nat
  /-- SRING_ENTRIES, 1..4096. -/
  sringEntries : Nat
deriving DecidableEq, Repr

/-- The ranges R8 gives the capacities. -/
def Config.wf (c : Config) : Bool :=
  [c.tosendSize, c.cmdbufSize, c.uoutSize, c.doutSize, c.sringEntries].all
    fun n => decide (1 ≤ n) && decide (n ≤ 4096)

/-- The column "vectors" of R8, with the decided values. State.reset takes it (DESIGN CHOICE, log entry 1). -/
def Config.vectors : Config where
  sgnZero := .minusOne
  uartOvfCheck := .beforeStore
  slipPolicy := .nextSlotAfterNow
  maxTimeout := 40542464
  maxFrameSize := 256
  fieldThreshold := 1
  tosendSize := 2048
  cmdbufSize := 256
  uoutSize := 512
  doutSize := 512
  sringEntries := 1024

end Sys2Proof
end

