-- ==== Sys2Proof/Machine/State.lean ====
section
/-! DEFINITION. The architectural state (spec/10_state.md), as plain data: every register, buffer and port the spec
names, with the environment's inputs and the outputs made so far, and the state after RESET (R57, R58, R370). -/

namespace Sys2Proof.Machine

/-- U_STATE, in the architectural order of R40. -/
inductive UState where
  | unsynced | gotFallingEdgeOfSof | awaitingStartBit | receivingData
deriving DecidableEq, Repr

/-- D_STATE, in the architectural order of R44; the encodings 6 and 7 are never written and have no value here (U15). -/
inductive DState where
  | unsynced | phaseRefTraining | awaitingFallingEdgeOfSof | gotFallingEdgeOfSof | awaitingStartBit | receivingData
deriving DecidableEq, Repr

/-- E_STATE, "card_state" (R50). -/
inductive EState where
  | nofield | idle | halted | selecting | halting | acknowledge | work
deriving DecidableEq, Repr

/-- TX_MODE (R36); 3 is never written. -/
inductive TxMode where
  | off | readerAsk | tagBpsk
deriving DecidableEq, Repr

/-- The buffer a tag transmission reads (R276). -/
inductive TxSource where
  | tosend | eatqb | eok
deriving DecidableEq, Repr

/-- The fault codes 1 to 7 of R341. -/
inductive FaultCode where
  | illegal | bus | busy | tosendOvf | range | overrun | unwritten
deriving DecidableEq, Repr

/-- The direction of a trace record (R361). -/
inductive Direction where
  | reader | tag
deriving DecidableEq, Repr

/-- A trace record (R361). -/
structure TraceRec where
  bytes : List Byte
  startTs : Word
  endTs : Word
  /-- `crc_ok`, none in every record but the emulator's log record. -/
  crcOk : Option Bool
  direction : Direction
deriving DecidableEq, Repr

/-- A word handed to the TX consumer (R272): TX16 of a reader transmission, TX8 of a tag transmission. -/
inductive TxWord where
  | tx16 (w : Half)
  | tx8 (b : Byte)
deriving DecidableEq, Repr

/-- Where the command in flight stands: one of the holds of R351, with what the command has latched (log entries 10, 11). -/
inductive Hold where
  /-- No hold: the engine is idle. -/
  | none
  /-- `wait until now >= TX_TARGET` (R273). `frame` is the frame a TRX.CODE_TX_READER traces when it completes. -/
  | slot (frame : Option (List Byte))
  /-- `emit TX16` of send-buffer bit TX_IDX (R273), its first word or its second. -/
  | readerWord (second : Bool) (frame : Option (List Byte))
  /-- `emit TX8` of byte TX_IDX of the source (R276). -/
  | tagByte (src : TxSource)
  /-- `next_sample()` of TRX.RX_TAG (R95, R280). -/
  | sample
  /-- `next_rbit()` of EMU.RX (R97, R320). -/
  | rbit
deriving DecidableEq, Repr

/-- One move of an external agent (R7, R53, R105). -/
inductive Move where
  /-- `MemWrite(addr, n, v)` of the host (R84). -/
  | hostWrite (addr : Half) (n : Nat) (v : Word)
  /-- `MemRead(addr, n)` of the host (R84). -/
  | hostRead (addr : Half) (n : Nat)
  /-- The sample producer writes one entry (R94). -/
  | produce (i q : Byte)
  /-- The front end delivers one sliced bit (R97). -/
  | readerBit (b : Bool)
  /-- The clock increments `now` (R355). -/
  | clock
  /-- The TX consumer is ready for one more word (R272). -/
  | txReady
  /-- FIELD_V takes a value (R53). -/
  | field (v : Word)
  /-- CANCEL takes a level (R53, R350). -/
  | cancel (level : Bool)
  /-- RESET (R370). -/
  | reset
deriving DecidableEq, Repr

/-- The send buffer's cursors (R37): TS_MAX (s32) and TS_BIT (u4). -/
structure SendCursor where
  max : Word
  bit : BitVec 4
deriving DecidableEq, Repr

/-- The Uart's registers (R40, R41). -/
structure Uart where
  state : UState
  shift : BitVec 10
  bitCnt : Byte
  byteCnt : Half
  byteCntMax : Half
  posCnt : Byte
deriving DecidableEq, Repr

/-- The Demod's registers (R44 to R46); sumI, sumQ and thisBit are s32. -/
structure Demod where
  state : DState
  sumI : Word
  sumQ : Word
  posCount : Byte
  bitCount : Byte
  thisBit : Word
  shift : BitVec 10
  len : Half
  maxLen : Half
  overflow : Bool
deriving DecidableEq, Repr

/-- The command engine's state (R32), and the hold the command in flight stands at. -/
structure Engine where
  /-- ENG_BUSY. -/
  busy : Bool
  /-- ENG_OP. -/
  op : Byte
  hold : Hold
  /-- TX_TARGET. -/
  txTarget : Word
  /-- TX_IDX. -/
  txIdx : Word
  /-- RX_SAMPLES. -/
  rxSamples : Word
  /-- RX_T0. -/
  rxT0 : Word
  /-- RX_LIMIT. -/
  rxLimit : Word
deriving DecidableEq, Repr

/-- The reader session's registers (R49): TRX_TIMEOUT and TRX_FRAMEMAX. -/
structure Session where
  timeout : Word
  frameMax : Word
deriving DecidableEq, Repr

/-- The tag emulator's registers (R50, R51): E_STATE, EATQB_LEN, EOK_LEN. -/
structure Emulator where
  state : EState
  eatqbLen : Half
  eokLen : Half
deriving DecidableEq, Repr

/-- The sample ring's counters (R52): SR_PRODUCED and SR_CONSUMED. -/
structure Ring where
  produced : Nat
  consumed : Nat
deriving DecidableEq, Repr

/-- The input ports (R53) and the external agents' moves still to come, oldest first (log entries 2 to 5). -/
structure Env where
  /-- `now`. -/
  now : Word
  /-- FIELD_V. -/
  fieldV : Word
  /-- CANCEL. -/
  cancel : Bool
  /-- RBITS: the bits delivered and not yet taken, oldest first. -/
  rbits : List Bool
  /-- How many more words the TX consumer has said it will accept. -/
  txReady : Nat
  moves : List Move
deriving DecidableEq, Repr

/-- The output ports (R54) and the data of the host's reads (R84), each oldest first. -/
structure Out where
  tx : List TxWord
  trace : List TraceRec
  bus : List Word
deriving DecidableEq, Repr

/-- The buffers of R81 as cells at their host-bus byte addresses, strictly rising; a byte that nothing has written since
RESET has no cell (R58, R90; log entry 15). -/
abbrev Memory := List Host.Cell

/-- The machine's state. -/
structure State where
  cfg : Config
  arg0 : Word
  res0 : Word
  res1 : Word
  uDone : Bool
  dDone : Bool
  /-- FAULT and FAULT_CODE (R35, R56): none is FAULT = 0. -/
  fault : Option FaultCode
  faultInfo : Word
  txMode : TxMode
  eng : Engine
  ts : SendCursor
  uart : Uart
  demod : Demod
  session : Session
  emu : Emulator
  ring : Ring
  mem : Memory
  env : Env
  out : Out
deriving DecidableEq, Repr

/-- Why the MODEL stops. The spec's own faults are next states (R340, log entry 9); no run reaches these two. -/
inductive Fault where
  /-- Raised by an engine access to a buffer at an index the buffer does not have (R81). Safe: the spec gives such an index
  no byte, and R39, R210 and R249 keep every index in range. -/
  | bufferIndex
  /-- Raised by an engine read of a buffer byte nothing has written since RESET (R58), other than the CMDBUF reads for which
  R174 names the spec's fault. Safe: the engine reads back only bytes it or the producer has written. -/
  | unwrittenByte
deriving DecidableEq, Repr

/-- Why the model gives an instruction no meaning. -/
inductive Refusal where
  /-- Raised by `exec` for an instruction with no meaning yet. Safe. -/
  | notModelled (mnemonic : String)
deriving DecidableEq, Repr

/-- The engine state after RESET (R57, R370): idle, every register of R32 zero. -/
def Engine.idle : Engine where
  busy := false
  op := 0
  hold := .none
  txTarget := 0
  txIdx := 0
  rxSamples := 0
  rxT0 := 0
  rxLimit := 0

/-- RESET (R57, R58, R370) of a block with parameters `cfg`: every register at its reset value, no buffer byte written.
The input ports and what has already left the block are not the block's to reset (log entry 7). -/
def State.afterReset (cfg : Config) (env : Env) (out : Out) : State where
  cfg := cfg
  arg0 := 0
  res0 := 0
  res1 := 0
  uDone := false
  dDone := false
  fault := none
  faultInfo := 0
  txMode := .off
  eng := .idle
  ts := { max := -1, bit := 8 }
  uart := { state := .unsynced, shift := 0, bitCnt := 0, byteCnt := 0, byteCntMax := 0, posCnt := 0 }
  demod := { state := .unsynced, sumI := 0, sumQ := 0, posCount := 0, bitCount := 0, thisBit := 0, shift := 0,
             len := 0, maxLen := 0, overflow := false }
  session := { timeout := fwtDefault, frameMax := cfg.maxFrameSize }
  emu := { state := .nofield, eatqbLen := 0, eokLen := 0 }
  ring := { produced := 0, consumed := 0 }
  mem := []
  env := env
  out := out

/-- The environment of `State.reset` (DESIGN CHOICE, log entry 4): clock and field at 0, CANCEL low, nothing delivered,
the TX consumer not ready, no move to come. -/
def Env.quiet : Env where
  now := 0
  fieldV := 0
  cancel := false
  rbits := []
  txReady := 0
  moves := []

/-- The machine right after RESET, with the parameters of R8's column "vectors" (log entry 1). -/
def State.reset : State := State.afterReset .vectors .quiet { tx := [], trace := [], bus := [] }

end Sys2Proof.Machine
end

