-- ==== Sys2Proof/Machine/Ops.lean ====
section
/-! DEFINITION. The shared operations: memory and its windows (spec/20_memory.md R81), the result of a command's rule,
`raise Fault` (spec/60_exceptions.md R340), cancellation (R350), completion, and the ports (R13, R94 to R97, R272, R359). -/

namespace Sys2Proof.Machine

/-! ### Memory -/

/-- The byte at an address, none where nothing has written since RESET (R58). -/
def Memory.read : Memory → Nat → Option Byte
  | [], _ => none
  | (k, v) :: rest, a => if k = a then some v else Memory.read rest a

/-- Write one byte, keeping the addresses strictly rising. -/
def Memory.write : Memory → Nat → Byte → Memory
  | [], a, v => [(a, v)]
  | (k, w) :: rest, a, v =>
    if a < k then (a, v) :: (k, w) :: rest
    else if a = k then (a, v) :: rest
    else (k, w) :: Memory.write rest a v

/-- The canonical form: addresses strictly rising. An unlisted address reads as no value, so no entry can equal it. -/
def Memory.wf : Memory → Bool
  | [] => true
  | [_] => true
  | (a, _) :: (b, w) :: rest => decide (a < b) && Memory.wf ((b, w) :: rest)

/-- The buffer windows of R81. -/
inductive Window where
  | cmdbuf | tosend | uout | dout | atqb | eatqb | eok | sring
deriving DecidableEq, Repr

/-- base(B) of R81. -/
def Window.base : Window → Nat
  | .cmdbuf => 0x1000
  | .tosend => 0x2000
  | .uout => 0x3000
  | .dout => 0x4000
  | .atqb => 0x5000
  | .eatqb => 0x5100
  | .eok => 0x5200
  | .sring => 0x6000

/-- The column "capacity used" of R81, in bytes. -/
def Window.capacity (c : Config) : Window → Nat
  | .cmdbuf => c.cmdbufSize
  | .tosend => c.tosendSize
  | .uout => c.uoutSize
  | .dout => c.doutSize
  | .atqb => 14
  | .eatqb => 92
  | .eok => 37
  | .sring => 2 * c.sringEntries

/-- Every buffer window. -/
def Window.all : List Window := [.cmdbuf, .tosend, .uout, .dout, .atqb, .eatqb, .eok, .sring]

/-- The address lies in the window's capacity used. -/
def Window.holds (c : Config) (a : Nat) (w : Window) : Bool := decide (w.base ≤ a) && decide (a < w.base + w.capacity c)

/-- The window an address lies in; none where the address is reserved (R81). -/
def windowAt (c : Config) (a : Nat) : Option Window := Window.all.find? (Window.holds c a)

/-! ### The result of a command's rule -/

/-- How a command's rule ends without its effect: a fault of the spec (R340) or a stop of the model. -/
inductive Abort where
  | raise (code : FaultCode) (info : Word)
  | stop (f : Fault)
deriving DecidableEq, Repr

/-- The result of a rule that may end in a fault. -/
abbrev Res (α : Type) := Except Abort α

/-- The engine idle (R120 "on completion: ENG_BUSY <- 0; ENG_OP <- 0"); the other registers of R32 keep their values. -/
def State.complete (s : State) : State := { s with eng := { s.eng with busy := false, op := 0, hold := .none } }

/-- `raise Fault(code, info)` (R340): the first fault is recorded, and a command in flight is abandoned. -/
def State.raise (code : FaultCode) (info : Word) (s : State) : State :=
  match s.fault with
  | none => { s.complete with fault := some code, faultInfo := info }
  | some _ => s.complete

/-- The outcome of a rule begun in `s`. A fault of the rule leaves the state before it, with the fault raised: R340 "raised
before the command writes anything, so it is precise". -/
def commit (s : State) : Res State → Host.Outcome State Fault Refusal
  | .ok t => .next t
  | .error (.raise code info) => .next (s.raise code info)
  | .error (.stop f) => .fault f

/-! ### The engine's buffer accesses -/

/-- The engine reads byte `k` of a buffer. -/
def readByte (c : Config) (w : Window) (k : Nat) (m : Memory) : Res Byte :=
  if k < w.capacity c then
    match m.read (w.base + k) with
    | some v => .ok v
    | none => .error (.stop .unwrittenByte)
  else .error (.stop .bufferIndex)

/-- The engine writes byte `k` of a buffer (`B[k] <- v`, R12). -/
def writeByte (c : Config) (w : Window) (k : Nat) (v : Byte) (m : Memory) : Res Memory :=
  if k < w.capacity c then .ok (m.write (w.base + k) v) else .error (.stop .bufferIndex)

/-- Bytes `k .. k+n-1` of a buffer. -/
def readBytes (c : Config) (w : Window) : (k n : Nat) → Memory → Res (List Byte)
  | _, 0, _ => .ok []
  | k, n + 1, m =>
    match readByte c w k m, readBytes c w (k + 1) n m with
    | .ok v, .ok rest => .ok (v :: rest)
    | .error e, _ => .error e
    | .ok _, .error e => .error e

/-- Write a list of bytes from index `k` up. -/
def writeBytes (c : Config) (w : Window) : (k : Nat) → List Byte → Memory → Res Memory
  | _, [], m => .ok m
  | k, v :: rest, m =>
    match writeByte c w k v m with
    | .ok m' => writeBytes c w (k + 1) rest m'
    | .error e => .error e

/-! ### Engine holds, completion and cancellation -/

/-- A waiting command is in flight at hold `h` (R120 "if op waits: ENG_BUSY <- 1", "ENG_OP <- op"). -/
def State.begin (op : Byte) (h : Hold) (s : State) : State := { s with eng := { s.eng with busy := true, op := op, hold := h } }

/-- The command in flight moves to its next hold. -/
def State.holdAt (h : Hold) (s : State) : State := { s with eng := { s.eng with hold := h } }

/-- RES0 of a timeout, -1 (R121, R343). -/
def resTimeout : Word := 0xFFFFFFFF

/-- RES0 of an overflow, -2 (R121, R343). -/
def resOverflow : Word := 0xFFFFFFFE

/-- RES0 of a cancellation, -3 (R350). -/
def resCancelled : Word := 0xFFFFFFFD

/-- `cancel()` (R350): nothing else changes. -/
def State.cancelled (s : State) : State := { s.complete with res0 := resCancelled, txMode := .off }

/-! ### Ports -/

/-- The TX consumer accepts one word (R272). -/
def State.emitTx (w : TxWord) (s : State) : State :=
  { s with out := { s.out with tx := s.out.tx ++ [w] }, env := { s.env with txReady := s.env.txReady - 1 } }

/-- `emit TRACE(rec)` (R359): the port accepts every record at once and in order. -/
def State.emitTrace (r : TraceRec) (s : State) : State := { s with out := { s.out with trace := s.out.trace ++ [r] } }

/-- The value a host read returns (R84). -/
def State.reply (v : Word) (s : State) : State := { s with out := { s.out with bus := s.out.bus ++ [v] } }

/-- `next_sample()` past its wait (R95): the entry's two bytes, and the state with the entry consumed. -/
def nextSample (s : State) : Res (Byte × Byte × State) :=
  let k := s.ring.consumed % s.cfg.sringEntries
  match readByte s.cfg .sring (2 * k) s.mem, readByte s.cfg .sring (2 * k + 1) s.mem with
  | .ok i, .ok q => .ok (i, q, { s with ring := { s.ring with consumed := s.ring.consumed + 1 } })
  | .error e, _ => .error e
  | .ok _, .error e => .error e

/-- The producer writes entry number p = SR_PRODUCED at slot p mod SRING_ENTRIES, i then q, and publishes it (R94); a write
into a full ring raises Fault(OVERRUN, p) and writes nothing (R96, R340; log entry 16). -/
def producerWrite (i q : Byte) (s : State) : Res State :=
  if s.cfg.sringEntries ≤ s.ring.produced - s.ring.consumed then
    .error (.raise .overrun (BitVec.ofNat 32 s.ring.produced))
  else
    let k := s.ring.produced % s.cfg.sringEntries
    match writeByte s.cfg .sring (2 * k) i s.mem with
    | .error e => .error e
    | .ok m =>
      match writeByte s.cfg .sring (2 * k + 1) q m with
      | .error e => .error e
      | .ok m' => .ok { s with mem := m', ring := { s.ring with produced := s.ring.produced + 1 } }

/-- RESET as an event (R370, R371): the block's state is the reset state, whatever was in flight. -/
def State.resetEvent (s : State) : State := State.afterReset s.cfg s.env s.out

/-! ### Bits shared by the decoders -/

/-- `(r >> 1) | (b << 9)` of a 10-bit shift register (R208, R244). -/
def shiftIn (b : Bool) (r : BitVec 10) : BitVec 10 := (r >>> 1) ||| ((BitVec.ofBool b).setWidth 10 <<< 9)

/-- "shift_reg & 0x201 == 0x200": start bit 0, stop bit 1 (R123). -/
def validCharacter (r : BitVec 10) : Bool := r &&& 0x201 == 0x200

/-- "(shift_reg >> 1) & 0xFF" (R123). -/
def characterByte (r : BitVec 10) : Byte := (r >>> 1).setWidth 8

end Sys2Proof.Machine
end

