-- ==== Sys2Proof/Machine/Operands.lean ====
section
/-! DEFINITION. Operand forms of the commands (spec/30_encoding.md R121, R122, R129): sample components, the length
operand's range check, the CMDBUF operand, the transmit source. ARG0 is latched when the command is accepted (R34): a
meaning reads it in the state it begins in. -/

namespace Sys2Proof.Machine

/-- `sext_32` of a sample component (R95, R122). -/
def sext32 (b : Byte) : Word := b.signExtend 32

/-- Fault(RANGE, cw) when the length operand exceeds the buffer it addresses (R129). -/
def checkRange (n : Half) (size : Nat) (i : Instr) : Res Unit :=
  if size < n.toNat then .error (.raise .range (encode i)) else .ok ()

/-- CMDBUF[k .. k+n-1]; the least unwritten one raises Fault(UNWRITTEN, its bus address) (R174). -/
def latchFrom : (k n : Nat) → Memory → Res (List Byte)
  | _, 0, _ => .ok []
  | k, n + 1, m =>
    match m.read (Window.cmdbuf.base + k) with
    | none => .error (.raise .unwritten (BitVec.ofNat 32 (Window.cmdbuf.base + k)))
    | some v =>
      match latchFrom (k + 1) n m with
      | .ok rest => .ok (v :: rest)
      | .error e => .error e

/-- The operand `cmd = CMDBUF[0..n-1]` with its checks in the order RANGE, UNWRITTEN (R174, R342). -/
def latchCommand (n : Half) (i : Instr) (s : State) : Res (List Byte) :=
  match checkRange n s.cfg.cmdbufSize i with
  | .error e => .error e
  | .ok () => latchFrom 0 n.toNat s.mem

/-- The transmit source of a selector (R122, R276); 3 is reserved. -/
def txSourceOf (sel : BitVec 2) : Option TxSource :=
  match sel.toNat with
  | 0 => some .tosend
  | 1 => some .eatqb
  | 2 => some .eok
  | _ => none

/-- The window a transmit source reads. -/
def TxSource.window : TxSource → Window
  | .tosend => .tosend
  | .eatqb => .eatqb
  | .eok => .eok

end Sys2Proof.Machine
end

