-- ==== Sys2Proof/Machine/Demod.lean ====
section
/-! DEFINITION. The reader-side tag decoder Demod (C2, spec/42_demod.md) and the meanings of DEMOD.INIT and DEMOD.STEP. -/

namespace Sys2Proof.Machine

/-- `amplitude(i, q)` (R232), a non-negative integer. -/
def amplitude (i q : Byte) : Nat :=
  max i.toInt.natAbs q.toInt.natAbs + min i.toInt.natAbs q.toInt.natAbs / 2

/-- The presence test, strictly greater (R232). -/
def aboveThreshold (i q : Byte) : Bool := decide (subcarrierDetectThreshold < amplitude i q)

/-- The value SGN_ZERO names (R8, R233). -/
def sgnZeroValue : SgnZero → Int
  | .minusOne => -1
  | .zero => 0
  | .plusOne => 1

/-- `sgn(x)` (R233). -/
def sgn (c : Config) (x : Int) : Int := if 0 < x then 1 else if x < 0 then -1 else sgnZeroValue c.sgnZero

/-- The soft decision `v(i, q)` with the sums as they stand (R234). -/
def softDecision (c : Config) (d : Demod) (i q : Byte) : Int :=
  sgn c d.sumI.toInt * i.toInt + sgn c d.sumQ.toInt * q.toInt

/-- `demod_init(n)` past its check (R235). -/
def demodReset (n : Half) : Demod :=
  { state := .unsynced, sumI := 0, sumQ := 0, posCount := 0, bitCount := 0, thisBit := 0, shift := 0, len := 0,
    maxLen := n, overflow := false }

/-- `demod_frame_end()` (R237): D_LEN is kept. -/
def demodFrameEnd (d : Demod) : Demod :=
  { d with state := .unsynced, sumI := 0, sumQ := 0, posCount := 0, bitCount := 0, thisBit := 0, shift := 0 }

/-- `demod_abort()` (R236): D_OVERFLOW and D_MAXLEN are kept. -/
def demodAbort (d : Demod) : Demod := { demodFrameEnd d with len := 0 }

/-- UNSYNCED (R239). -/
def demodUnsynced (i q : Byte) (d : Demod) : Demod :=
  if aboveThreshold i q then
    { d with sumI := sext32 i, sumQ := sext32 q, posCount := 1, state := .phaseRefTraining }
  else d

/-- PHASE_REF_TRAINING (R240): the seed is the first of the 8 samples. -/
def demodTraining (i q : Byte) (d : Demod) : Demod :=
  if aboveThreshold i q then
    let d := { d with sumI := d.sumI + sext32 i, sumQ := d.sumQ + sext32 q, posCount := d.posCount + 1 }
    if d.posCount = 8 then { d with state := .awaitingFallingEdgeOfSof } else d
  else demodAbort d

/-- AWAITING_FALLING_EDGE_OF_SOF (R241). -/
def demodAwaitFall (v : Int) (d : Demod) : Demod :=
  if v < 0 then { d with state := .gotFallingEdgeOfSof, posCount := 1 }
  else
    let d := { d with posCount := d.posCount + 1 }
    if 50 < d.posCount.toNat then demodAbort d else d

/-- GOT_FALLING_EDGE_OF_SOF (R242). -/
def demodGotFall (v : Int) (d : Demod) : Demod :=
  if 0 < v then
    if 18 ≤ d.posCount.toNat then { d with state := .awaitingStartBit, posCount := 0, len := 0, bitCount := 0 }
    else demodAbort d
  else
    let d := { d with posCount := d.posCount + 1 }
    if 28 < d.posCount.toNat then demodAbort d else d

/-- What a decoder step of the Demod leaves: its registers, memory, and its return value (R238). -/
structure DemodRun where
  demod : Demod
  mem : Memory
  done : Bool
deriving DecidableEq, Repr

/-- AWAITING_START_BIT (R243); a soft decision of 0 starts a character (R247). -/
def demodAwaitStart (v : Int) (d : Demod) (m : Memory) : DemodRun :=
  if 0 < v then
    let d := { d with posCount := d.posCount + 1 }
    if 12 < d.posCount.toNat then
      if d.len = 0 ∧ d.bitCount = 0 then { demod := demodFrameEnd d, mem := m, done := true }
      else { demod := demodAbort d, mem := m, done := false }
    else { demod := d, mem := m, done := false }
  else
    { demod := { d with thisBit := BitVec.ofInt 32 v, posCount := 1, shift := 0, state := .receivingData }, mem := m,
      done := false }

/-- The return to AWAITING_START_BIT after a stored byte (R245). -/
def demodNextCharacter (d : Demod) : Demod :=
  { d with state := .awaitingStartBit, posCount := 0, bitCount := 0, thisBit := 0, shift := 0 }

/-- Character completion (R245). -/
def demodCharacter (c : Config) (d : Demod) (m : Memory) : Res DemodRun :=
  if validCharacter d.shift then
    if d.maxLen ≤ d.len then .ok { demod := { demodAbort d with overflow := true }, mem := m, done := true }
    else
      match writeByte c .dout d.len.toNat (characterByte d.shift) m with
      | .error e => .error e
      | .ok m' => .ok { demod := demodNextCharacter { d with len := d.len + 1 }, mem := m', done := false }
  else if d.shift = 0 then .ok { demod := demodFrameEnd d, mem := m, done := true }
  else .ok { demod := demodAbort d, mem := m, done := false }

/-- RECEIVING_DATA (R244): two samples a bit. -/
def demodReceiving (c : Config) (v : Int) (d : Demod) (m : Memory) : Res DemodRun :=
  if d.posCount = 0 then .ok { demod := { d with thisBit := BitVec.ofInt 32 v, posCount := 1 }, mem := m, done := false }
  else
    let bit := d.thisBit + BitVec.ofInt 32 v
    let d := { d with thisBit := bit, shift := shiftIn (decide (0 < bit.toInt)) d.shift, bitCount := d.bitCount + 1,
                      posCount := 0 }
    if d.bitCount.toNat < 10 then .ok { demod := d, mem := m, done := false } else demodCharacter c d m

/-- `demod_step(i, q)` without the flag it writes (R238). -/
def demodStep (c : Config) (i q : Byte) (d : Demod) (m : Memory) : Res DemodRun :=
  match d.state with
  | .unsynced => .ok { demod := demodUnsynced i q d, mem := m, done := false }
  | .phaseRefTraining => .ok { demod := demodTraining i q d, mem := m, done := false }
  | .awaitingFallingEdgeOfSof => .ok { demod := demodAwaitFall (softDecision c d i q) d, mem := m, done := false }
  | .gotFallingEdgeOfSof => .ok { demod := demodGotFall (softDecision c d i q) d, mem := m, done := false }
  | .awaitingStartBit => .ok (demodAwaitStart (softDecision c d i q) d m)
  | .receivingData => demodReceiving c (softDecision c d i q) d m

/-- A state with what a Demod step left, D_DONE its return value (R238). -/
def State.withDemodRun (r : DemodRun) (s : State) : State := { s with demod := r.demod, mem := r.mem, dDone := r.done }

/-- `demod_step(i, q)` on the machine (R238). -/
def demodStepState (i q : Byte) (s : State) : Res (Bool × State) :=
  match demodStep s.cfg i q s.demod s.mem with
  | .error e => .error e
  | .ok r => .ok (r.done, s.withDemodRun r)

/-- `demod_init(n)` (R235): RANGE before any write, DOUT kept, D_DONE and D_OVERFLOW cleared. -/
def demodInit (n : Half) (i : Instr) (s : State) : Res State :=
  match checkRange n s.cfg.doutSize i with
  | .error e => .error e
  | .ok () => .ok { s with demod := demodReset n, dDone := false }

/-- DEMOD.INIT n (R235). -/
def execDemodInit (n : Half) (s : State) : Host.Outcome State Fault Refusal := commit s (demodInit n (.demodInit n) s)

/-- DEMOD.STEP i, q (R238). -/
def execDemodStep (i q : Byte) (s : State) : Host.Outcome State Fault Refusal :=
  commit s ((demodStepState i q s).map Prod.snd)

end Sys2Proof.Machine
end

