-- ==== Sys2Proof/Machine/Frames.lean ====
section
/-! DEFINITION. Air-interface encodings (spec/30_encoding.md, sections 3 and 6 to 8): characters and delimiters, CRC_B,
the Type B frames the emulator uses, and its frame classifier. -/

namespace Sys2Proof.Machine

/-! ### Characters and delimiters, one Bool per ETU -/

/-- The eight data bits, "LSB-first (b&1, (b>>1)&1, …, (b>>7)&1)" (R123). -/
def dataBits (b : Byte) : List Bool :=
  [b.getLsbD 0, b.getLsbD 1, b.getLsbD 2, b.getLsbD 3, b.getLsbD 4, b.getLsbD 5, b.getLsbD 6, b.getLsbD 7]

/-- A character: start bit 0, the data bits, stop bit 1 (R123). -/
def characterBits (b : Byte) : List Bool := false :: (dataBits b ++ [true])

/-- The characters of a frame, back to back (R124). -/
def charactersBits (cmd : List Byte) : List Bool := cmd.flatMap characterBits

/-- SOF: 10 ETUs of 0, then 2 ETUs of 1 (R124). -/
def sofBits : List Bool := List.replicate 10 false ++ List.replicate 2 true

/-- EOF: 10 ETUs of 0 (R124). -/
def eofBits : List Bool := List.replicate 10 false

/-- A reader frame without its padding: SOF, characters, EOF (R124, R174). -/
def readerEtus (cmd : List Byte) : List Bool := sofBits ++ charactersBits cmd ++ eofBits

/-- A tag frame: TR1, SOF, characters, EOF and the trailer of two ones (R124, R175). -/
def tagEtus (cmd : List Byte) : List Bool :=
  List.replicate 20 true ++ sofBits ++ charactersBits cmd ++ eofBits ++ List.replicate 2 true

/-! ### CRC_B -/

/-- One of the eight shifts of R131. -/
def crcShift (c : Half) : Half := if c.getLsbD 0 then (c >>> 1) ^^^ 0x8408 else c >>> 1

/-- `n` shifts. -/
def crcShifts : Nat → Half → Half
  | 0, c => c
  | n + 1, c => crcShifts n (crcShift c)

/-- One byte of R131's loop. -/
def crcByte (c : Half) (b : Byte) : Half := crcShifts 8 (c ^^^ b.setWidth 16)

/-- `crc_b` (R131). -/
def crcB (bytes : List Byte) : Half := bytes.foldl crcByte 0xFFFF ^^^ 0xFFFF

/-- The two CRC bytes, low byte first (R131, R132). -/
def crcBytes (bytes : List Byte) : List Byte := [(crcB bytes).extractLsb' 0 8, (crcB bytes).extractLsb' 8 8]

/-- `append_crc` (R132). -/
def appendCrc (bytes : List Byte) : List Byte := bytes ++ crcBytes bytes

/-- `check_crc` (R133): false for fewer than two bytes. -/
def checkCrc (f : List Byte) : Bool :=
  decide (2 ≤ f.length) && (f.drop (f.length - 2) == crcBytes (f.take (f.length - 2)))

/-! ### Frames of the emulator -/

/-- The canned ATQB (R136). -/
def cannedAtqb : List Byte := [0x50, 0x82, 0x0D, 0xE1, 0x74, 0x20, 0x38, 0x19, 0x22, 0x00, 0x21, 0x85, 0x5E, 0xD7]

/-- The PUPI's bytes, most significant first (R91, R311). -/
def pupiBytes (pupi : Word) : List Byte :=
  [pupi.extractLsb' 24 8, pupi.extractLsb' 16 8, pupi.extractLsb' 8 8, pupi.extractLsb' 0 8]

/-- ATQB for a PUPI (R311): 0 keeps the canned frame, any other replaces bytes 1..4 and recomputes the CRC. -/
def atqbFor (pupi : Word) : List Byte :=
  if pupi = 0 then cannedAtqb
  else appendCrc ([0x50] ++ pupiBytes pupi ++ [0x20, 0x38, 0x19, 0x22, 0x00, 0x21, 0x85])

/-- The OK response (R137). -/
def okFrame : List Byte := [0x00, 0x78, 0xF0]

/-! ### The classifier -/

/-- The events of R142. -/
inductive FrameEvent where
  | wupb | reqb | attrib | hltb | other
deriving DecidableEq, Repr

/-- `classify(F)`: the tests of R142 in their order. -/
def classify (f : List Byte) : FrameEvent :=
  match f with
  | [b0, _, b2, _, _] =>
    if b0 = 0x05 then (if b2 &&& 0x08 ≠ 0 then .wupb else .reqb) else .other
  | b0 :: _ =>
    if f.length = 11 ∧ b0 = 0x1D then .attrib
    else if f.length = 7 ∧ b0 = 0x50 then .hltb
    else .other
  | [] => .other

end Sys2Proof.Machine
end

