-- ==== Sys2Proof/Machine/Encoder.lean ====
section
/-! DEFINITION. The send buffer and the encoders (C1, spec/40_encoder.md): stuff_bit, stuff4, code_as_reader, code_as_tag,
and the meanings of TOSEND.RESET, TOSEND.STUFF, TOSEND.STUFF4, CODE.READER, CODE.TAG. -/

namespace Sys2Proof.Machine

/-- What the send-buffer primitives read and write: the cursors and memory (R37, R170). -/
structure SendState where
  ts : SendCursor
  mem : Memory
deriving DecidableEq, Repr

/-- The send buffer of a state. -/
def State.send (s : State) : SendState := { ts := s.ts, mem := s.mem }

/-- A state with another send buffer. -/
def State.withSend (x : SendState) (s : State) : State := { s with ts := x.ts, mem := x.mem }

/-- `ts_len = TS_MAX + 1` (R38), a count of bytes. -/
def SendCursor.len (t : SendCursor) : Nat := (t.max.toInt + 1).toNat

/-- `reset()` (R171): the bytes of TOSEND keep their values. -/
def SendCursor.empty : SendCursor := { max := -1, bit := 8 }

/-- TS_MAX as a buffer index; negative where no byte is open. -/
def tosendIndex (t : SendCursor) : Res Nat :=
  if t.max.toInt < 0 then .error (.stop .bufferIndex) else .ok t.max.toInt.toNat

/-- A new byte would need an index the buffer does not have: "TS_MAX + 1 >= TOSEND_SIZE" (R172). -/
def tosendFull (c : Config) (t : SendCursor) : Bool := decide ((c.tosendSize : Int) ≤ t.max.toInt + 1)

/-- Fault(TOSEND_OVF, TS_MAX + 1) (R172). -/
def tosendOverflow (t : SendCursor) : Abort := .raise .tosendOvf (t.max + 1)

/-- The opening of a new byte in stuff_bit (R172). -/
def openByte (c : Config) (x : SendState) : Res SendState :=
  if tosendFull c x.ts then .error (tosendOverflow x.ts)
  else
    let t : SendCursor := { max := x.ts.max + 1, bit := 0 }
    match tosendIndex t with
    | .error e => .error e
    | .ok k =>
      match writeByte c .tosend k 0x00 x.mem with
      | .error e => .error e
      | .ok m => .ok { ts := t, mem := m }

/-- `TOSEND[TS_MAX] <- TOSEND[TS_MAX] | (0x80 >> TS_BIT)` (R172). -/
def setBit (c : Config) (x : SendState) : Res SendState :=
  match tosendIndex x.ts with
  | .error e => .error e
  | .ok k =>
    match readByte c .tosend k x.mem with
    | .error e => .error e
    | .ok v =>
      match writeByte c .tosend k (v ||| ((0x80 : Byte) >>> x.ts.bit.toNat)) x.mem with
      | .error e => .error e
      | .ok m => .ok { x with mem := m }

/-- The end of stuff_bit in an open byte: the bit, then `TS_BIT <- TS_BIT + 1` (R172). -/
def putBit (c : Config) (b : Bool) (x : SendState) : Res SendState :=
  match (if b then setBit c x else .ok x) with
  | .error e => .error e
  | .ok y => .ok { y with ts := { y.ts with bit := y.ts.bit + 1 } }

/-- `stuff_bit(b)` (R172). -/
def stuffBit (c : Config) (b : Bool) (x : SendState) : Res SendState :=
  if x.ts.bit = 8 then
    match openByte c x with
    | .error e => .error e
    | .ok y => putBit c b y
  else putBit c b x

/-- stuff_bit of each bit in order. -/
def stuffBits (c : Config) : List Bool → SendState → Res SendState
  | [], x => .ok x
  | b :: rest, x =>
    match stuffBit c b x with
    | .error e => .error e
    | .ok y => stuffBits c rest y

/-- `stuff4(b)` (R173): the overflow test for the four bits together, before any write. -/
def stuff4 (c : Config) (b : Bool) (x : SendState) : Res SendState :=
  if decide (4 < x.ts.bit.toNat) && tosendFull c x.ts then .error (tosendOverflow x.ts)
  else stuffBits c [b, b, b, b] x

/-- stuff4 of each ETU in order. -/
def stuffEtus (c : Config) : List Bool → SendState → Res SendState
  | [], x => .ok x
  | b :: rest, x =>
    match stuff4 c b x with
    | .error e => .error e
    | .ok y => stuffEtus c rest y

/-- "while TS_BIT != 8: stuff_bit(1)" (R174, R175), at most `fuel` times; an open byte has at most 7 bits left. -/
def padOnes (c : Config) : (fuel : Nat) → SendState → Res SendState
  | 0, x => .ok x
  | n + 1, x =>
    if x.ts.bit = 8 then .ok x
    else
      match stuffBit c true x with
      | .error e => .error e
      | .ok y => padOnes c n y

/-- The encoding steps of code_as_reader after its checks (R174). -/
def encodeReader (c : Config) (cmd : List Byte) (m : Memory) : Res SendState :=
  match stuffBits c (readerEtus cmd) { ts := .empty, mem := m } with
  | .error e => .error e
  | .ok x => padOnes c 7 x

/-- The encoding steps of code_as_tag after its checks: encode_tag of R311 (R175). -/
def encodeTag (c : Config) (cmd : List Byte) (m : Memory) : Res SendState :=
  match stuffEtus c (tagEtus cmd) { ts := .empty, mem := m } with
  | .error e => .error e
  | .ok x => padOnes c 7 x

/-- ts_len of a reader frame of n bytes: ceil((22 + 10·n) / 8) (R176). -/
def readerLen (n : Nat) : Nat := (22 + 10 * n + 7) / 8

/-- ts_len of a tag frame of n bytes: 22 + 5·n (R176). -/
def tagLen (n : Nat) : Nat := 22 + 5 * n

/-- Fault(TOSEND_OVF, TOSEND_SIZE) when the frame would need more bytes than the buffer has (R174, R175, R311). -/
def checkTosend (c : Config) (need : Nat) : Res Unit :=
  if c.tosendSize < need then .error (.raise .tosendOvf (BitVec.ofNat 32 c.tosendSize)) else .ok ()

/-- `code_as_reader(CMDBUF[0..n-1])` with its checks in order (R174): the frame and the new send buffer. -/
def codeAsReader (n : Half) (i : Instr) (s : State) : Res (List Byte × SendState) :=
  match latchCommand n i s with
  | .error e => .error e
  | .ok cmd =>
    match checkTosend s.cfg (readerLen n.toNat) with
    | .error e => .error e
    | .ok () =>
      match encodeReader s.cfg cmd s.mem with
      | .error e => .error e
      | .ok x => .ok (cmd, x)

/-- `code_as_tag(CMDBUF[0..n-1])` with its checks in order (R175). -/
def codeAsTag (n : Half) (i : Instr) (s : State) : Res SendState :=
  match latchCommand n i s with
  | .error e => .error e
  | .ok cmd =>
    match checkTosend s.cfg (tagLen n.toNat) with
    | .error e => .error e
    | .ok () => encodeTag s.cfg cmd s.mem

/-- A rule whose only effect is on the send buffer. -/
def commitSend (s : State) (r : Res SendState) : Host.Outcome State Fault Refusal :=
  commit s (r.map (fun x => s.withSend x))

/-- TOSEND.RESET (R171). -/
def execTosendReset (s : State) : Host.Outcome State Fault Refusal := .next { s with ts := .empty }

/-- TOSEND.STUFF b (R172). -/
def execTosendStuff (b : Bool) (s : State) : Host.Outcome State Fault Refusal := commitSend s (stuffBit s.cfg b s.send)

/-- TOSEND.STUFF4 b (R173). -/
def execTosendStuff4 (b : Bool) (s : State) : Host.Outcome State Fault Refusal := commitSend s (stuff4 s.cfg b s.send)

/-- CODE.READER n (R174). -/
def execCodeReader (n : Half) (s : State) : Host.Outcome State Fault Refusal :=
  commitSend s ((codeAsReader n (.codeReader n) s).map Prod.snd)

/-- CODE.TAG n (R175). -/
def execCodeTag (n : Half) (s : State) : Host.Outcome State Fault Refusal := commitSend s (codeAsTag n (.codeTag n) s)

end Sys2Proof.Machine
end

