-- ==== Sys2Proof/Machine/Flags.lean ====
section
/-! DEFINITION. The status flags and STATUS (spec/10_state.md R35, R55), the numeric encodings of the state registers
(R36, R40, R44, R50, R341), and the order tests the encodings exist for. -/

namespace Sys2Proof.Machine

/-- R40: the listing order from 0. -/
def UState.code : UState → BitVec 2
  | .unsynced => 0
  | .gotFallingEdgeOfSof => 1
  | .awaitingStartBit => 2
  | .receivingData => 3

/-- R44: the listing order from 0. -/
def DState.code : DState → BitVec 3
  | .unsynced => 0
  | .phaseRefTraining => 1
  | .awaitingFallingEdgeOfSof => 2
  | .gotFallingEdgeOfSof => 3
  | .awaitingStartBit => 4
  | .receivingData => 5

/-- R50: the listing order from 0. -/
def EState.code : EState → BitVec 3
  | .nofield => 0
  | .idle => 1
  | .halted => 2
  | .selecting => 3
  | .halting => 4
  | .acknowledge => 5
  | .work => 6

/-- R36. -/
def TxMode.code : TxMode → BitVec 2
  | .off => 0
  | .readerAsk => 1
  | .tagBpsk => 2

/-- R341. -/
def FaultCode.code : FaultCode → BitVec 4
  | .illegal => 1
  | .bus => 2
  | .busy => 3
  | .tosendOvf => 4
  | .range => 5
  | .overrun => 6
  | .unwritten => 7

/-- FAULT_CODE: "the fault code when FAULT = 1, else 0" (R35). -/
def faultCodeField : Option FaultCode → BitVec 4
  | none => 0
  | some c => c.code

/-- STATUS (R35): bits 11:8 FAULT_CODE, 4 FAULT, 3 BUSY, 2 D_OVF, 1 D_DONE, 0 U_DONE, every other bit 0. -/
def statusWord (s : State) : Word :=
  (0 : BitVec 20) ++ faultCodeField s.fault ++ (0 : BitVec 3) ++ BitVec.ofBool s.fault.isSome
    ++ BitVec.ofBool s.eng.busy ++ BitVec.ofBool s.demod.overflow ++ BitVec.ofBool s.dDone ++ BitVec.ofBool s.uDone

/-- "state < PHASE_REF_TRAINING" (R250, R282). -/
def demodIdle (d : Demod) : Bool := decide (d.state.code < DState.phaseRefTraining.code)

/-- "reader_is_active := Uart.state > GOT_FALLING_EDGE_OF_SOF", as a host computes it (R213, R387). -/
def readerIsActive (u : Uart) : Bool := decide (UState.gotFallingEdgeOfSof.code < u.state.code)

/-- "tag_is_active := Demod.state > GOT_FALLING_EDGE_OF_SOF", as a host computes it (R250, R387). -/
def tagIsActive (d : Demod) : Bool := decide (DState.gotFallingEdgeOfSof.code < d.state.code)

end Sys2Proof.Machine
end

