-- ==== Sys2Proof/Machine/Transceiver.lean ====
section
/-! DEFINITION. The transceiver (C4, spec/43_transceiver.md): the reader TX slot, both transmissions, the receive, the
session parameters. A command that waits is its meaning (everything up to its first hold) and the segments that follow,
each from one hold to the next (R33, R351). -/

namespace Sys2Proof.Machine

/-! ### The reader TX slot -/

/-- The slot of a start time before any slip: `(max(st, 16) - 16) & ~0xF` (R271, R274). -/
def slotFor (st : Word) : Word := ((if st < armToTag then armToTag else st) - armToTag) &&& 0xFFFFFFF0

/-- `tx_slot(st_in)` with the clock reading `t` (R271). -/
def txSlot (c : Config) (t st : Word) : Word :=
  let target := slotFor st
  if target < t then
    match c.slipPolicy with
    | .nextSlotAfterNow => (t + 16) &&& 0xFFFFFFF0
    | .targetPlus16 => target + 16
  else target

/-! ### Reader transmission -/

/-- transmit_as_reader up to its slot wait (R273). `frame` is what TRX.CODE_TX_READER traces (R278). -/
def startReader (op : Byte) (frame : Option (List Byte)) (s : State) : State :=
  let s := s.begin op (.slot frame)
  { s with txMode := .readerAsk, eng := { s.eng with txTarget := txSlot s.cfg s.env.now s.arg0, txIdx := 0 } }

/-- The advanced start time, `TX_TARGET + ARM_TO_TAG` (R273). -/
def readerStart (s : State) : Word := s.eng.txTarget + armToTag

/-- `eof = start + 32·8·ts_len` (R279). -/
def readerEof (s : State) : Word := readerStart s + BitVec.ofNat 32 (256 * s.ts.len)

/-- The end of a reader transmission: RES0 (R273), and for TRX.CODE_TX_READER RES1 and the trace record (R278). -/
def finishReader (frame : Option (List Byte)) (s : State) : State :=
  match frame with
  | none => { s.complete with res0 := readerStart s }
  | some bytes =>
    let rec' : TraceRec :=
      { bytes := bytes, startTs := readerStart s, endTs := readerEof s, crcOk := none, direction := .reader }
    { s.complete.emitTrace rec' with res0 := readerStart s, res1 := readerEof s }

/-- The next hold of a reader transmission: the first word of bit TX_IDX, or the end after the last bit (R273). -/
def readerNext (frame : Option (List Byte)) (s : State) : State :=
  if s.eng.txIdx.toNat < 8 * s.ts.len then s.holdAt (.readerWord false frame) else finishReader frame s

/-- Bit TX_IDX of the send buffer: byte TX_IDX/8, bit 7 first (R91, R272). -/
def sendBit (s : State) : Res Bool :=
  match readByte s.cfg .tosend (s.eng.txIdx.toNat / 8) s.mem with
  | .error e => .error e
  | .ok v => .ok (v.getLsbD (7 - s.eng.txIdx.toNat % 8))

/-- "0x0000 for a 1, 0xFFFF for a 0" (R273, R275). -/
def askWord (b : Bool) : Half := if b then 0x0000 else 0xFFFF

/-- The segment that emits one TX16 word (R273): each bit becomes two equal words. -/
def readerSegment (second : Bool) (frame : Option (List Byte)) (s : State) : Res State :=
  match sendBit s with
  | .error e => .error e
  | .ok b =>
    let s := s.emitTx (.tx16 (askWord b))
    if second then .ok (readerNext frame { s with eng := { s.eng with txIdx := s.eng.txIdx + 1 } })
    else .ok (s.holdAt (.readerWord true frame))

/-- TRX.TX_READER (R273). -/
def execTrxTxReader (s : State) : Host.Outcome State Fault Refusal := .next (startReader 0x30 none s)

/-- TRX.CODE_TX_READER n (R278): the encoding with its faults, then the transmission; its operand bytes are latched for the
trace (R85, log entry 10). -/
def codeTxReader (n : Half) (s : State) : Res State :=
  match codeAsReader n (.trxCodeTxReader n) s with
  | .error e => .error e
  | .ok (cmd, x) => .ok (startReader 0x33 (some cmd) (s.withSend x))

/-- TRX.CODE_TX_READER n (R278). -/
def execTrxCodeTxReader (n : Half) (s : State) : Host.Outcome State Fault Refusal := commit s (codeTxReader n s)

/-! ### Tag transmission -/

/-- The length of a transmit source (R276). -/
def txLen (src : TxSource) (s : State) : Nat :=
  match src with
  | .tosend => s.ts.len
  | .eatqb => s.emu.eatqbLen.toNat
  | .eok => s.emu.eokLen.toNat

/-- The next hold of a tag transmission: byte TX_IDX, or the end after the last byte (R276). -/
def tagNext (src : TxSource) (s : State) : State :=
  if s.eng.txIdx.toNat < txLen src s then s.holdAt (.tagByte src) else s.complete

/-- `transmit_as_tag` up to its first hold (R276); an empty buffer emits nothing and completes at once. -/
def startTag (op : Byte) (src : TxSource) (s : State) : State :=
  let s := s.begin op (.tagByte src)
  tagNext src { s with txMode := .tagBpsk, eng := { s.eng with txIdx := 0 } }

/-- The segment that emits one TX8 byte (R276). -/
def tagSegment (src : TxSource) (s : State) : Res State :=
  match readByte s.cfg src.window s.eng.txIdx.toNat s.mem with
  | .error e => .error e
  | .ok v =>
    let s := s.emitTx (.tx8 v)
    .ok (tagNext src { s with eng := { s.eng with txIdx := s.eng.txIdx + 1 } })

/-- TRX.TX_TAG sel (R276); the reserved selector is Fault(ILLEGAL, cw) (R120). -/
def trxTxTag (sel : BitVec 2) (s : State) : Res State :=
  match txSourceOf sel with
  | none => .error (.raise .illegal (encode (.trxTxTag sel)))
  | some src => .ok (startTag 0x31 src s)

/-- TRX.TX_TAG sel (R276). -/
def execTrxTxTag (sel : BitVec 2) (s : State) : Host.Outcome State Fault Refusal := commit s (trxTxTag sel s)

/-! ### Receive -/

/-- get_answer_from_tag up to its first hold (R280): Demod reset, ring flushed (R281), clock and budget latched. -/
def trxRxTag (n : Half) (s : State) : Res State :=
  match demodInit n (.trxRxTag n) s with
  | .error e => .error e
  | .ok s =>
    let s := { s with ring := { s.ring with consumed := s.ring.produced } }
    let s := s.begin 0x32 .sample
    .ok { s with eng := { s.eng with rxT0 := s.env.now, rxSamples := 0, rxLimit := s.arg0 } }

/-- `eof = RX_T0 + 16·RX_SAMPLES - TAG_TO_ARM` (R283). -/
def rxEof (s : State) : Word := s.eng.rxT0 + 16 * s.eng.rxSamples - tagToArm

/-- `sof = eof - 1024·D_LEN - 512` (R284). -/
def rxSof (s : State) : Word := rxEof s - 1024 * s.demod.len.setWidth 32 - 512

/-- The end of a receive whose Demod step returned true: overflow, or success with RES0, RES1 and the trace (R280). -/
def finishReceive (s : State) : Res State :=
  if s.demod.overflow then .ok { s.complete with res0 := resOverflow }
  else
    match readBytes s.cfg .dout 0 s.demod.len.toNat s.mem with
    | .error e => .error e
    | .ok bytes =>
      let rec' : TraceRec :=
        { bytes := bytes, startTs := rxSof s, endTs := rxEof s, crcOk := none, direction := .tag }
      .ok { s.complete.emitTrace rec' with res0 := s.demod.len.setWidth 32, res1 := rxEof s }

/-- What follows the Demod step of a receive (R280): the end of a frame, the timeout test (R282), or the next sample. -/
def afterSample (done : Bool) (s : State) : Res State :=
  if done then finishReceive s
  else if decide (s.eng.rxLimit < s.eng.rxSamples) && demodIdle s.demod then
    .ok { s.complete with res0 := resTimeout }
  else .ok s

/-- The segment that takes one sample (R280). -/
def sampleSegment (s : State) : Res State :=
  match nextSample s with
  | .error e => .error e
  | .ok (i, q, s) =>
    match demodStepState i q { s with eng := { s.eng with rxSamples := s.eng.rxSamples + 1 } } with
    | .error e => .error e
    | .ok (done, s) => afterSample done s

/-- TRX.RX_TAG n (R280). -/
def execTrxRxTag (n : Half) (s : State) : Host.Outcome State Fault Refusal := commit s (trxRxTag n s)

/-! ### Session parameters -/

/-- TRX.SET_TIMEOUT (R286): unsigned clamp to MAX_TIMEOUT. -/
def execTrxSetTimeout (s : State) : Host.Outcome State Fault Refusal :=
  .next { s with session := { s.session with timeout := if s.arg0 ≤ s.cfg.maxTimeout then s.arg0 else s.cfg.maxTimeout } }

/-- TRX.SET_MAX_FRAME (R287): the comparison is with 256, "preserve literally". -/
def execTrxSetMaxFrame (s : State) : Host.Outcome State Fault Refusal :=
  .next { s with session := { s.session with frameMax := if (256 : Word) < s.arg0 then s.cfg.maxFrameSize else s.arg0 } }

end Sys2Proof.Machine
end

