-- ==== Sys2Proof/Machine/Uart.lean ====
section
/-! DEFINITION. The tag-side reader decoder Uart (C3, spec/41_uart.md) and the meanings of UART.INIT and UART.STEP. -/

namespace Sys2Proof.Machine

/-- `uart_init(n)` past its check (R201). -/
def uartReset (n : Half) : Uart :=
  { state := .unsynced, shift := 0, bitCnt := 0, byteCnt := 0, byteCntMax := n, posCnt := 0 }

/-- `uart_abort()` (R202). -/
def uartAbort (u : Uart) : Uart := { u with state := .unsynced, shift := 0, bitCnt := 0, byteCnt := 0, posCnt := 0 }

/-- `uart_frame_end()` (R203): U_BYTECNT is kept. -/
def uartFrameEnd (u : Uart) : Uart := { u with state := .unsynced, shift := 0, bitCnt := 0, posCnt := 0 }

/-- UNSYNCED (R205). -/
def uartUnsynced (b : Bool) (u : Uart) : Uart :=
  if b then u else { u with state := .gotFallingEdgeOfSof, posCnt := 0, bitCnt := 0 }

/-- A mid-bit sample: "pos_cnt == 2 mod 4" (R206, R208). -/
def midBit (pos : Byte) : Bool := pos.toNat % 4 == 2

/-- GOT_FALLING_EDGE_OF_SOF (R206). -/
def uartGotFalling (b : Bool) (u : Uart) : Uart :=
  let u := { u with posCnt := u.posCnt + 1 }
  if midBit u.posCnt then
    if b then
      if 9 < u.bitCnt.toNat then { u with state := .awaitingStartBit, posCnt := 0, bitCnt := 0, byteCnt := 0 }
      else uartAbort u
    else
      let u := { u with bitCnt := u.bitCnt + 1 }
      if 12 < u.bitCnt.toNat then uartAbort u else u
  else u

/-- AWAITING_START_BIT (R207). -/
def uartAwaitStart (b : Bool) (u : Uart) : Uart :=
  if b then
    let u := { u with posCnt := u.posCnt + 1 }
    if 25 < u.posCnt.toNat then uartAbort u else u
  else { u with state := .receivingData, posCnt := 0, bitCnt := 0, shift := 0 }

/-- What a decoder step of the Uart leaves: its registers, memory, and its return value (R204). -/
structure UartRun where
  uart : Uart
  mem : Memory
  done : Bool
deriving DecidableEq, Repr

/-- The return to AWAITING_START_BIT after a stored byte (R208). -/
def uartNextCharacter (u : Uart) : Uart := { u with state := .awaitingStartBit, posCnt := 0, bitCnt := 0, shift := 0 }

/-- `UOUT[U_BYTECNT] <- byte; U_BYTECNT <- U_BYTECNT + 1` (R208). -/
def uartStore (c : Config) (u : Uart) (m : Memory) : Res (Uart × Memory) :=
  match writeByte c .uout u.byteCnt.toNat (characterByte u.shift) m with
  | .error e => .error e
  | .ok m' => .ok ({ u with byteCnt := u.byteCnt + 1 }, m')

/-- The frame limit's test, "byte_cnt >= byte_cnt_max" (R208). -/
def uartLimit (u : Uart) : Bool := decide (u.byteCntMax ≤ u.byteCnt)

/-- A valid character, with the overflow test where UART_OVF_CHECK puts it (R208). -/
def uartCharacter (c : Config) (u : Uart) (m : Memory) : Res UartRun :=
  match c.uartOvfCheck with
  | .beforeStore =>
    if uartLimit u then .ok { uart := uartAbort u, mem := m, done := false }
    else
      match uartStore c u m with
      | .error e => .error e
      | .ok (u', m') => .ok { uart := uartNextCharacter u', mem := m', done := false }
  | .afterStore =>
    match uartStore c u m with
    | .error e => .error e
    | .ok (u', m') =>
      if uartLimit u' then .ok { uart := uartAbort u', mem := m', done := false }
      else .ok { uart := uartNextCharacter u', mem := m', done := false }

/-- The tenth mid-bit sample of a character (R208, R209): valid character, EOF, or error. -/
def uartTenBits (c : Config) (u : Uart) (m : Memory) : Res UartRun :=
  if validCharacter u.shift then uartCharacter c u m
  else if u.shift = 0 then .ok { uart := uartFrameEnd u, mem := m, done := decide (0 < u.byteCnt.toNat) }
  else .ok { uart := uartAbort u, mem := m, done := false }

/-- RECEIVING_DATA (R208). -/
def uartReceiving (c : Config) (b : Bool) (u : Uart) (m : Memory) : Res UartRun :=
  let u := { u with posCnt := u.posCnt + 1 }
  if midBit u.posCnt then
    let u := { u with shift := shiftIn b u.shift, bitCnt := u.bitCnt + 1 }
    if u.bitCnt.toNat < 10 then .ok { uart := u, mem := m, done := false } else uartTenBits c u m
  else .ok { uart := u, mem := m, done := false }

/-- `uart_step(b)` without the flag it writes (R204). -/
def uartStep (c : Config) (b : Bool) (u : Uart) (m : Memory) : Res UartRun :=
  match u.state with
  | .unsynced => .ok { uart := uartUnsynced b u, mem := m, done := false }
  | .gotFallingEdgeOfSof => .ok { uart := uartGotFalling b u, mem := m, done := false }
  | .awaitingStartBit => .ok { uart := uartAwaitStart b u, mem := m, done := false }
  | .receivingData => uartReceiving c b u m

/-- A state with what a Uart step left, U_DONE its return value (R204). -/
def State.withUartRun (r : UartRun) (s : State) : State := { s with uart := r.uart, mem := r.mem, uDone := r.done }

/-- `uart_step(b)` on the machine (R204). -/
def uartStepState (b : Bool) (s : State) : Res (Bool × State) :=
  match uartStep s.cfg b s.uart s.mem with
  | .error e => .error e
  | .ok r => .ok (r.done, s.withUartRun r)

/-- `uart_init(n)` (R201): RANGE before any write, UOUT kept, U_DONE cleared. -/
def uartInit (n : Half) (i : Instr) (s : State) : Res State :=
  match checkRange n s.cfg.uoutSize i with
  | .error e => .error e
  | .ok () => .ok { s with uart := uartReset n, uDone := false }

/-- UART.INIT n (R201). -/
def execUartInit (n : Half) (s : State) : Host.Outcome State Fault Refusal := commit s (uartInit n (.uartInit n) s)

/-- UART.STEP b (R204). -/
def execUartStep (b : Bool) (s : State) : Host.Outcome State Fault Refusal :=
  commit s ((uartStepState b s).map Prod.snd)

end Sys2Proof.Machine
end

