-- ==== Sys2Proof/Machine/Emulator.lean ====
section
/-! DEFINITION. The tag emulator (C6, spec/44_emulator.md): EMU.INIT, EMU.FIELD, EMU.FRAME with the transition function,
EMU.RX and its segment. -/

namespace Sys2Proof.Machine

/-! ### Initialisation and field detection -/

/-- "EATQB[0..91] <- TOSEND[0..91]" and its like (R311): copy the first `n` bytes of the send buffer into a window. -/
def copyTosend (c : Config) (w : Window) (n : Nat) (m : Memory) : Res Memory :=
  match readBytes c .tosend 0 n m with
  | .error e => .error e
  | .ok bytes => writeBytes c w 0 bytes m

/-- Encode a frame through the send buffer and keep its `n` bytes in a window (R311). -/
def buildResponse (c : Config) (frame : List Byte) (w : Window) (n : Nat) (m : Memory) : Res SendState :=
  match encodeTag c frame m with
  | .error e => .error e
  | .ok x =>
    match copyTosend c w n x.mem with
    | .error e => .error e
    | .ok m' => .ok { x with mem := m' }

/-- `emu_init(pupi)` (R311). -/
def emuInit (s : State) : Res State :=
  match checkTosend s.cfg 92 with
  | .error e => .error e
  | .ok () =>
    match writeBytes s.cfg .atqb 0 (atqbFor s.arg0) s.mem with
    | .error e => .error e
    | .ok m =>
      match buildResponse s.cfg (atqbFor s.arg0) .eatqb 92 m with
      | .error e => .error e
      | .ok x =>
        match buildResponse s.cfg okFrame .eok 37 x.mem with
        | .error e => .error e
        | .ok y => .ok { s.withSend y with emu := { state := .nofield, eatqbLen := 92, eokLen := 37 } }

/-- EMU.INIT (R311). -/
def execEmuInit (s : State) : Host.Outcome State Fault Refusal := commit s (emuInit s)

/-- The field-detect transition (R312): strictly above the threshold is a field. -/
def fieldTransition (c : Config) (v : Word) (e : EState) : EState :=
  match e with
  | .nofield => if c.fieldThreshold < v then .idle else .nofield
  | e => if v ≤ c.fieldThreshold then .nofield else e

/-- EMU.FIELD (R312). -/
def execEmuField (s : State) : Host.Outcome State Fault Refusal :=
  .next { s with emu := { s.emu with state := fieldTransition s.cfg s.env.fieldV s.emu.state } }

/-! ### Classification and response -/

/-- What a transition records: nothing, the reader record of R314, or the log record of R316. -/
inductive TraceKind where
  | none | reader | log
deriving DecidableEq, Repr

/-- The rows of the table that a frame selects (R314 to R317): the state entered, before any immediate state is left, and
the record. A pair without a row changes nothing (R317); NOFIELD ignores every frame. -/
def tableRow : EState → FrameEvent → EState × TraceKind
  | .idle, .wupb => (.selecting, .reader)
  | .idle, .reqb => (.selecting, .reader)
  | .halted, .wupb => (.selecting, .reader)
  | .work, .wupb => (.selecting, .reader)
  | .work, .attrib => (.acknowledge, .none)
  | .work, .hltb => (.halted, .none)
  | .work, .reqb => (.idle, .log)
  | .work, .other => (.idle, .log)
  | e, _ => (e, .none)

/-- The immediate rows (R318): the state an entered state is left for at once, and the response transmitted. -/
def leaveImmediate : EState → EState × Option TxSource
  | .selecting => (.work, some .eatqb)
  | .acknowledge => (.idle, some .eok)
  | .halting => (.halted, some .eok)
  | e => (e, none)

/-- `transition(E_STATE, ev, F)` (R313): next state, response, record. A row that changes nothing enters no state, so it
leaves none (log entry 13). -/
def transition (e : EState) (ev : FrameEvent) : EState × Option TxSource × TraceKind :=
  let (entered, kind) := tableRow e ev
  if entered = e then (e, none, kind)
  else
    let (final, resp) := leaveImmediate entered
    (final, resp, kind)

/-- The record of a transition (R314, R316): both timestamps are `now`; the log record carries check_crc. -/
def emulatorRecord (kind : TraceKind) (f : List Byte) (now : Word) : Option TraceRec :=
  match kind with
  | .none => Option.none
  | .reader => some { bytes := f, startTs := now, endTs := now, crcOk := Option.none, direction := .reader }
  | .log => some { bytes := f, startTs := now, endTs := now, crcOk := some (checkCrc f), direction := .reader }

/-- Emit a record if there is one. -/
def State.emitRecord (r : Option TraceRec) (s : State) : State :=
  match r with
  | none => s
  | some r => s.emitTrace r

/-- `emu_frame()` up to its first hold (R313): classify UOUT[0..U_BYTECNT-1], record, move, respond. -/
def emuFrame (s : State) : Res State :=
  if s.emu.state = .nofield then .ok s
  else
    match readBytes s.cfg .uout 0 s.uart.byteCnt.toNat s.mem with
    | .error e => .error e
    | .ok f =>
      let (next, resp, kind) := transition s.emu.state (classify f)
      let s := s.emitRecord (emulatorRecord kind f s.env.now)
      let s := { s with emu := { s.emu with state := next } }
      match resp with
      | none => .ok s
      | some src => .ok (startTag 0x42 src s)

/-- EMU.FRAME (R313). -/
def execEmuFrame (s : State) : Host.Outcome State Fault Refusal := commit s (emuFrame s)

/-! ### Receiving reader frames -/

/-- `emu_rx(n)` up to its first hold (R320). -/
def emuRx (n : Half) (s : State) : Res State :=
  match uartInit n (.emuRx n) s with
  | .error e => .error e
  | .ok s => .ok (s.begin 0x43 .rbit)

/-- EMU.RX n (R320). -/
def execEmuRx (n : Half) (s : State) : Host.Outcome State Fault Refusal := commit s (emuRx n s)

/-- The segment that takes one reader bit (R97, R320); it is run only when a bit is there. -/
def rbitSegment (s : State) : Res State :=
  match s.env.rbits with
  | [] => .ok s
  | b :: rest =>
    match uartStepState b { s with env := { s.env with rbits := rest } } with
    | .error e => .error e
    | .ok (done, s) =>
      if done then .ok { s.complete with res0 := s.uart.byteCnt.setWidth 32 } else .ok s

end Sys2Proof.Machine
end

