-- ==== Sys2Proof/Machine/Dispatch.lean ====
section
/-! DEFINITION. One arm per command: the meaning of each instruction. -/

namespace Sys2Proof.Machine

def exec (i : Instr) (s : State) : Host.Outcome State Fault Refusal :=
  match i with
  | .tosendReset => Sys2Proof.Machine.execTosendReset s
  | .tosendStuff b => Sys2Proof.Machine.execTosendStuff b s
  | .tosendStuff4 b => Sys2Proof.Machine.execTosendStuff4 b s
  | .codeReader n => Sys2Proof.Machine.execCodeReader n s
  | .codeTag n => Sys2Proof.Machine.execCodeTag n s
  | .uartInit n => Sys2Proof.Machine.execUartInit n s
  | .uartStep b => Sys2Proof.Machine.execUartStep b s
  | .demodInit n => Sys2Proof.Machine.execDemodInit n s
  | .demodStep x y => Sys2Proof.Machine.execDemodStep x y s
  | .trxTxReader => Sys2Proof.Machine.execTrxTxReader s
  | .trxTxTag sel => Sys2Proof.Machine.execTrxTxTag sel s
  | .trxRxTag n => Sys2Proof.Machine.execTrxRxTag n s
  | .trxCodeTxReader n => Sys2Proof.Machine.execTrxCodeTxReader n s
  | .trxSetTimeout => Sys2Proof.Machine.execTrxSetTimeout s
  | .trxSetMaxFrame => Sys2Proof.Machine.execTrxSetMaxFrame s
  | .emuInit => Sys2Proof.Machine.execEmuInit s
  | .emuField => Sys2Proof.Machine.execEmuField s
  | .emuFrame => Sys2Proof.Machine.execEmuFrame s
  | .emuRx n => Sys2Proof.Machine.execEmuRx n s

end Sys2Proof.Machine
end

