-- ==== Sys2Proof/Machine/Engine.lean ====
section
/-! DEFINITION. The command engine: what a command word submitted to CMD does (spec/30_encoding.md R120), and the segments of
a command in flight with the cancellation test of every hold (spec/60_exceptions.md R350 to R352). -/

namespace Sys2Proof.Machine

/-- A word written to CMD (R120), in the priority of R342: ignored after a fault, BUSY, ILLEGAL, then the command. -/
def submit (cw : Word) (s : State) : Host.Outcome State Fault Refusal :=
  if s.fault.isSome then .next s
  else if s.eng.busy then .next (s.raise .busy cw)
  else
    match decode cw with
    | .error _ => .next (s.raise .illegal cw)
    | .ok i => exec i s

/-- The condition of the hold the command in flight stands at (R351). -/
def holdReady (s : State) : Bool :=
  match s.eng.hold with
  | .none => false
  | .slot _ => decide (s.eng.txTarget ≤ s.env.now)
  | .readerWord _ _ => decide (0 < s.env.txReady)
  | .tagByte _ => decide (0 < s.env.txReady)
  | .sample => s.ring.produced != s.ring.consumed
  | .rbit => !s.env.rbits.isEmpty

/-- What the command in flight does from its hold, whose condition holds, to its next hold or its end. -/
def segment (s : State) : Res State :=
  match s.eng.hold with
  | .none => .ok s
  | .slot frame => .ok (readerNext frame s)
  | .readerWord second frame => readerSegment second frame s
  | .tagByte src => tagSegment src s
  | .sample => sampleSegment s
  | .rbit => rbitSegment s

/-- The engine has a move: a command in flight, and CANCEL or its hold's condition (R350, R352). -/
def engineReady (s : State) : Bool := s.eng.busy && (s.env.cancel || holdReady s)

/-- The engine's move: "at every hold the engine tests CANCEL before testing the hold's own condition" (R350). -/
def engineMove (s : State) : Host.Outcome State Fault Refusal :=
  if s.env.cancel then .next s.cancelled else commit s (segment s)

end Sys2Proof.Machine
end

