-- ==== Sys2Proof/Machine/Bus.lean ====
section
/-! DEFINITION. The host bus (spec/20_memory.md R80 to R93): the register window (spec/10_state.md R57), the buffer windows,
and the accesses MemRead and MemWrite with their faults. -/

namespace Sys2Proof.Machine

/-- The register at a byte address of the register window, as the host reads it: zero-extended, TS_MAX and the s32 registers
as they are (R57). None at CMD, which is write-only, and at every address R57 does not list. -/
def readReg (addr : Nat) (s : State) : Option Word :=
  match addr with
  | 0x000 => some s.arg0
  | 0x004 => some s.res0
  | 0x008 => some s.res1
  | 0x00C => some (statusWord s)
  | 0x014 => some (s.txMode.code.setWidth 32)
  | 0x018 => some s.session.timeout
  | 0x01C => some s.session.frameMax
  | 0x020 => some s.ts.max
  | 0x024 => some (s.ts.bit.setWidth 32)
  | 0x028 => some (s.uart.state.code.setWidth 32)
  | 0x02C => some (s.uart.shift.setWidth 32)
  | 0x030 => some (s.uart.bitCnt.setWidth 32)
  | 0x034 => some (s.uart.byteCnt.setWidth 32)
  | 0x038 => some (s.uart.byteCntMax.setWidth 32)
  | 0x03C => some (s.uart.posCnt.setWidth 32)
  | 0x040 => some (s.demod.state.code.setWidth 32)
  | 0x044 => some s.demod.sumI
  | 0x048 => some s.demod.sumQ
  | 0x04C => some (s.demod.posCount.setWidth 32)
  | 0x050 => some (s.demod.bitCount.setWidth 32)
  | 0x054 => some s.demod.thisBit
  | 0x058 => some (s.demod.shift.setWidth 32)
  | 0x05C => some (s.demod.len.setWidth 32)
  | 0x060 => some (s.demod.maxLen.setWidth 32)
  | 0x064 => some (s.emu.state.code.setWidth 32)
  | 0x068 => some (BitVec.ofNat 32 s.ring.consumed)
  | 0x06C => some (s.emu.eatqbLen.setWidth 32)
  | 0x070 => some (s.emu.eokLen.setWidth 32)
  | 0x074 => some s.faultInfo
  | _ => none

/-- The byte address of CMD (R57). -/
def cmdAddr : Half := 0x010

/-- The byte address of ARG0 (R57). -/
def arg0Addr : Half := 0x000

/-- The address lies in the register window 0x0000 to 0x00FF (R81). -/
def inRegWindow (addr : Half) : Bool := decide (addr.toNat < 0x100)

/-- Fault(BUS, addr) (R86). -/
def busFault (addr : Half) (s : State) : State := s.raise .bus (addr.setWidth 32)

/-- `MemRead(addr, n)` (R84, R86, R90): the value returned, or the fault. Reads have no other effect (R88). -/
def hostRead (addr : Half) (n : Nat) (s : State) : State :=
  if inRegWindow addr then
    if n = 4 ∧ addr.toNat % 4 = 0 then
      match readReg addr.toNat s with
      | some v => s.reply v
      | none => busFault addr s
    else busFault addr s
  else
    match windowAt s.cfg addr.toNat with
    | none => busFault addr s
    | some _ =>
      if n = 1 then
        match s.mem.read addr.toNat with
        | some b => s.reply (b.setWidth 32)
        | none => s.raise .unwritten (addr.setWidth 32)
      else busFault addr s

/-- `MemWrite(addr, n, v)` (R84 to R86): ARG0, CMD and CMDBUF are the only places the host writes. -/
def hostWrite (addr : Half) (n : Nat) (v : Word) (s : State) : Host.Outcome State Fault Refusal :=
  if n = 4 ∧ addr = cmdAddr then submit v s
  else if n = 4 ∧ addr = arg0Addr then .next { s with arg0 := v }
  else if n = 1 ∧ windowAt s.cfg addr.toNat = some .cmdbuf then
    .next { s with mem := s.mem.write addr.toNat (v.setWidth 8) }
  else .next (busFault addr s)

end Sys2Proof.Machine
end

