-- ==== Sys2Proof/Machine/Moves.lean ====
section
/-! DEFINITION. The moves of the external agents (spec/00_scope.md R7, spec/20_memory.md R105), each one atomic event, and
the scheduler: the engine moves while it can, then the next external move happens (R352; log entry 3). -/

namespace Sys2Proof.Machine

/-- One external move. -/
def applyMove (mv : Move) (s : State) : Host.Outcome State Fault Refusal :=
  match mv with
  | .hostWrite addr n v => hostWrite addr n v s
  | .hostRead addr n => .next (hostRead addr n s)
  | .produce i q => commit s (producerWrite i q s)
  | .readerBit b => .next { s with env := { s.env with rbits := s.env.rbits ++ [b] } }
  | .clock => .next { s with env := { s.env with now := s.env.now + 1 } }
  | .txReady => .next { s with env := { s.env with txReady := s.env.txReady + 1 } }
  | .field v => .next { s with env := { s.env with fieldV := v } }
  | .cancel level => .next { s with env := { s.env with cancel := level } }
  | .reset => .next s.resetEvent

/-- The state with other moves to come. -/
def State.withMoves (ms : List Move) (s : State) : State := { s with env := { s.env with moves := ms } }

/-- One event: the engine's move if it has one, else the next external move. With neither, the machine stays as it is: idle,
or stuck at a hold (R349, R377; log entry 12). -/
def nextEvent (s : State) : Host.Outcome State Fault Refusal :=
  if engineReady s then engineMove s
  else
    match s.env.moves with
    | [] => .next s
    | mv :: rest => applyMove mv (s.withMoves rest)

/-- The engine idle with no fault, and the host's write of `cw` to CMD as the next external move (log entry 2). -/
def offerCommand (cw : Word) (s : State) : State :=
  { (s.complete.withMoves (.hostWrite cmdAddr 4 cw :: s.env.moves)) with fault := none }

end Sys2Proof.Machine
end

