-- ==== Sys2Proof/Machine/Step.lean ====
section
/-! DEFINITION. One step of the machine, and how a command word is put where the next step takes it. -/

namespace Sys2Proof.Machine

/-- One atomic event of the machine (R342, R352). -/
def step (s : State) : Host.Outcome State Fault Refusal := nextEvent s

/-- `s` with the command word of a table row as the next write to CMD, and the engine able to accept it (log entry 2). -/
def State.withFetchWord (s : State) (nbits w : Nat) : State := offerCommand (tableWord nbits w) s

end Sys2Proof.Machine
end

