-- ==== Sys2Proof/Safety.lean ====
section
/-! DEFINITION. What claims call safe: the invariant of the machine, one part per function of the block, and the runs it
allows. In a state that meets it no step stops: the spec's faults are next states, and the model's two stops cannot occur.
After it, the terms in which claims speak of runs, of buffer bits and of frames. -/

namespace Sys2Proof.Machine

/-- A byte of a window has been written since RESET. -/
abbrev written (w : Window) (k : Nat) (m : Memory) : Prop := (m.read (w.base + k)).isSome = true

/-- Memory is in canonical form and holds cells only at addresses the parameters give a buffer (R81). -/
structure MemInv (c : Config) (m : Memory) : Prop where
  canonical : m.wf = true
  mapped : ∀ cell ∈ m, (windowAt c cell.1).isSome = true

/-- R39, and that every byte of the buffer has been written. -/
structure SendInv (c : Config) (t : SendCursor) (m : Memory) : Prop where
  low : -1 ≤ t.max.toInt
  high : t.max.toInt < c.tosendSize
  emptyBit : t.max.toInt = -1 → t.bit = 8
  openBit : 0 ≤ t.max.toInt → 1 ≤ t.bit.toNat ∧ t.bit.toNat ≤ 8
  bytesWritten : ∀ k < t.len, written .tosend k m
  /-- "the not yet written positions are 0". -/
  tailClear : 0 ≤ t.max.toInt →
    (m.read (Window.tosend.base + t.max.toInt.toNat)).all (fun v : Byte => v <<< t.bit.toNat == 0) = true

/-- R42 and R210, with the relation of the two position counters that makes the bounds inductive. -/
structure UartInv (c : Config) (u : Uart) (m : Memory) : Prop where
  limit : u.byteCntMax.toNat ≤ c.uoutSize
  count : u.byteCnt ≤ u.byteCntMax
  room : c.uartOvfCheck = .afterStore → u.byteCnt = 0 ∨ u.byteCnt < u.byteCntMax
  bytesWritten : ∀ k < u.byteCnt.toNat, written .uout k m
  unsynced : u.state = .unsynced → u.shift = 0 ∧ u.bitCnt = 0 ∧ u.posCnt = 0
  gotFalling : u.state = .gotFallingEdgeOfSof → u.bitCnt.toNat ≤ 12 ∧ u.bitCnt.toNat = (u.posCnt.toNat + 2) / 4
  awaiting : u.state = .awaitingStartBit → u.bitCnt = 0 ∧ u.posCnt.toNat ≤ 25
  receiving : u.state = .receivingData → u.bitCnt.toNat ≤ 9 ∧ u.bitCnt.toNat = (u.posCnt.toNat + 2) / 4

/-- A signed register lies in a range. -/
abbrev inRange (lo hi : Int) (x : Word) : Prop := lo ≤ x.toInt ∧ x.toInt ≤ hi

/-- R45, R47 and R249, state by state. -/
structure DemodInv (c : Config) (d : Demod) (m : Memory) : Prop where
  limit : d.maxLen.toNat ≤ c.doutSize
  count : d.len ≤ d.maxLen
  bytesWritten : ∀ k < d.len.toNat, written .dout k m
  sumI : inRange (-1024) 1016 d.sumI
  sumQ : inRange (-1024) 1016 d.sumQ
  thisBit : inRange (-512) 512 d.thisBit
  unsynced : d.state = .unsynced →
    d.sumI = 0 ∧ d.sumQ = 0 ∧ d.posCount = 0 ∧ d.bitCount = 0 ∧ d.thisBit = 0 ∧ d.shift = 0
  training : d.state = .phaseRefTraining → 1 ≤ d.posCount.toNat ∧ d.posCount.toNat ≤ 7 ∧
    inRange (-128 * d.posCount.toNat) (127 * d.posCount.toNat) d.sumI ∧
    inRange (-128 * d.posCount.toNat) (127 * d.posCount.toNat) d.sumQ
  awaitingFall : d.state = .awaitingFallingEdgeOfSof → 8 ≤ d.posCount.toNat ∧ d.posCount.toNat ≤ 50
  gotFall : d.state = .gotFallingEdgeOfSof → 1 ≤ d.posCount.toNat ∧ d.posCount.toNat ≤ 28
  awaiting : d.state = .awaitingStartBit → d.posCount.toNat ≤ 12 ∧ d.bitCount = 0
  receiving : d.state = .receivingData → d.posCount.toNat ≤ 1 ∧ d.bitCount.toNat ≤ 9 ∧
    (d.posCount = 1 → inRange (-256) 256 d.thisBit)
  idleBits : d.state ≠ .receivingData → d.bitCount = 0

/-- The ring holds at most SRING_ENTRIES entries not yet consumed, each of them written (R52, R94, R96). -/
structure RingInv (c : Config) (r : Ring) (m : Memory) : Prop where
  order : r.consumed ≤ r.produced
  room : r.produced - r.consumed ≤ c.sringEntries
  entriesWritten : ∀ j < r.produced - r.consumed,
    written .sring (2 * ((r.consumed + j) % c.sringEntries)) m ∧
    written .sring (2 * ((r.consumed + j) % c.sringEntries) + 1) m

/-- E_STATE is no immediate state (R318), and a response buffer that has a length is written (R51). -/
structure EmuInv (e : Emulator) (m : Memory) : Prop where
  settled : e.state = .nofield ∨ e.state = .idle ∨ e.state = .halted ∨ e.state = .work
  eatqb : (e.eatqbLen = 0 ∨ e.eatqbLen = 92) ∧ ∀ k < e.eatqbLen.toNat, written .eatqb k m
  eok : (e.eokLen = 0 ∨ e.eokLen = 37) ∧ ∀ k < e.eokLen.toNat, written .eok k m

/-- The opcode in flight at a hold of a reader transmission (R273, R278). -/
def readerOp : Option (List Byte) → Byte
  | none => 0x30
  | some _ => 0x33

/-- What a hold says of the registers of the command that stands at it (R32, R351). -/
def holdInv (s : State) : Prop :=
  match s.eng.hold with
  | .none => s.eng.op = 0
  | .slot frame =>
    s.eng.op = readerOp frame ∧ s.txMode = .readerAsk ∧ s.eng.txIdx = 0 ∧ s.eng.txTarget &&& 0xF = 0
  | .readerWord _ frame =>
    s.eng.op = readerOp frame ∧ s.txMode = .readerAsk ∧ s.eng.txIdx.toNat < 8 * s.ts.len ∧ s.eng.txTarget &&& 0xF = 0
  | .tagByte src => (s.eng.op = 0x31 ∨ s.eng.op = 0x42) ∧ s.txMode = .tagBpsk ∧ s.eng.txIdx.toNat < txLen src s
  | .sample => s.eng.op = 0x32
  | .rbit => s.eng.op = 0x43

/-- The engine is busy exactly when a command stands at a hold, and never after a fault (R340). -/
structure EngineInv (s : State) : Prop where
  busyIffHeld : s.eng.busy = true ↔ s.eng.hold ≠ .none
  noFault : s.eng.busy = true → s.fault = none
  hold : holdInv s
  /-- FAULT_INFO is written only with a fault (R340). -/
  info : s.fault = none → s.faultInfo = 0

/-- The invariant of the machine. -/
structure State.Inv (s : State) : Prop where
  config : s.cfg.wf = true
  memory : MemInv s.cfg s.mem
  send : SendInv s.cfg s.ts s.mem
  uart : UartInv s.cfg s.uart s.mem
  demod : DemodInv s.cfg s.demod s.mem
  ring : RingInv s.cfg s.ring s.mem
  emulator : EmuInv s.emu s.mem
  engine : EngineInv s

/-! ### Runs -/

/-- The step function of one outcome after another. -/
def andThen (o : Host.Outcome State Fault Refusal) (f : State → Host.Outcome State Fault Refusal) :
    Host.Outcome State Fault Refusal :=
  match o with
  | .next t => f t
  | .fault r => .fault r
  | .refused r => .refused r

/-- A pure update of the next state of an outcome. -/
def mapNext (f : State → State) (o : Host.Outcome State Fault Refusal) : Host.Outcome State Fault Refusal :=
  andThen o fun t => .next (f t)

/-- `k` steps. -/
def runSteps : (k : Nat) → State → Host.Outcome State Fault Refusal
  | 0, s => .next s
  | k + 1, s => andThen (step s) (runSteps k)

/-- Commands accepted one after another, each up to its first hold. -/
def runCommands : List Instr → State → Host.Outcome State Fault Refusal
  | [], s => .next s
  | i :: rest, s => andThen (exec i s) (runCommands rest)

/-- A safe run: `k` steps, none of which stops. -/
def safeRun : (k : Nat) → State → Prop
  | 0, _ => True
  | k + 1, s => ∃ t, step s = .next t ∧ safeRun k t

/-- The engine can accept a command: no fault, no command in flight (R120). -/
structure State.Accepts (s : State) : Prop where
  noFault : s.fault = none
  idle : s.eng.busy = false
  atNoHold : s.eng.hold = .none
  noOp : s.eng.op = 0

/-! ### States that rules name -/

/-- The engine registers of an idle engine (R120 "ENG_BUSY <- 0; ENG_OP <- 0"). -/
def idled (e : Engine) : Engine := { e with busy := false, op := 0, hold := .none }

/-- The state a first fault leaves (R340). -/
def faulted (code : FaultCode) (info : Word) (s : State) : State :=
  { s with fault := some code, faultInfo := info, eng := idled s.eng }

/-- The commands of R127 that wait; EMU.FRAME waits when it transmits a response. -/
def waits : Instr → Bool
  | .trxTxReader | .trxTxTag _ | .trxRxTag _ | .trxCodeTxReader _ | .emuRx _ | .emuFrame => true
  | .tosendReset | .tosendStuff _ | .tosendStuff4 _ | .codeReader _ | .codeTag _ => false
  | .uartInit _ | .uartStep _ | .demodInit _ | .demodStep _ _ => false
  | .trxSetTimeout | .trxSetMaxFrame | .emuInit | .emuField => false

/-- The commands whose rule reads ARG0 (R121). -/
def readsArg0 : Instr → Bool
  | .trxTxReader | .trxRxTag _ | .trxCodeTxReader _ | .trxSetTimeout | .trxSetMaxFrame | .emuInit => true
  | .tosendReset | .tosendStuff _ | .tosendStuff4 _ | .codeReader _ | .codeTag _ => false
  | .uartInit _ | .uartStep _ | .demodInit _ | .demodStep _ _ => false
  | .trxTxTag _ | .emuField | .emuFrame | .emuRx _ => false

/-- The opcode map of R126 with the masks of R122, written out a second time for the claims about legal words. -/
def opcodeMap : List (Nat × Nat) :=
  [(0x01, 0xFFFFFFFF), (0x02, 0xFFFFFFFE), (0x03, 0xFFFFFFFE), (0x04, 0xFFFF0000), (0x05, 0xFFFF0000)]
  ++ [(0x10, 0xFFFF0000), (0x11, 0xFFFFFFFE), (0x20, 0xFFFF0000), (0x21, 0xFFFF0000)]
  ++ [(0x30, 0xFFFFFFFF), (0x31, 0xFFFFFFFC), (0x32, 0xFFFF0000), (0x33, 0xFFFF0000), (0x34, 0xFFFFFFFF), (0x35, 0xFFFFFFFF)]
  ++ [(0x40, 0xFFFFFFFF), (0x41, 0xFFFFFFFF), (0x42, 0xFFFFFFFF), (0x43, 0xFFFF0000)]

/-- A legal command word (R120): a row of the map whose fixed bits it has, and no TRX.TX_TAG with sel = 3. -/
def legalWord (cw : Word) : Prop :=
  ∃ row ∈ opcodeMap, cw >>> 24 = BitVec.ofNat 32 row.1 ∧
    cw &&& BitVec.ofNat 32 row.2 = BitVec.ofNat 32 (row.1 * 0x1000000) ∧ ¬ (row.1 = 0x31 ∧ cw &&& 3 = 3)

/-- A flag as a number. -/
def flag (b : Bool) : Nat := if b then 1 else 0

/-- The register table of R57: the byte address of every readable register, and what the host reads there. -/
def registerTable (s : State) : List (Nat × Word) :=
  [(0x000, s.arg0), (0x004, s.res0), (0x008, s.res1),
   (0x00C, BitVec.ofNat 32 (flag s.uDone + 2 * flag s.dDone + 4 * flag s.demod.overflow + 8 * flag s.eng.busy
      + 16 * flag s.fault.isSome + 256 * (faultCodeField s.fault).toNat)),
   (0x014, BitVec.ofNat 32 s.txMode.code.toNat), (0x018, s.session.timeout), (0x01C, s.session.frameMax)]
  ++ [(0x020, s.ts.max), (0x024, BitVec.ofNat 32 s.ts.bit.toNat)]
  ++ [(0x028, BitVec.ofNat 32 s.uart.state.code.toNat), (0x02C, BitVec.ofNat 32 s.uart.shift.toNat),
      (0x030, BitVec.ofNat 32 s.uart.bitCnt.toNat), (0x034, BitVec.ofNat 32 s.uart.byteCnt.toNat),
      (0x038, BitVec.ofNat 32 s.uart.byteCntMax.toNat), (0x03C, BitVec.ofNat 32 s.uart.posCnt.toNat)]
  ++ [(0x040, BitVec.ofNat 32 s.demod.state.code.toNat), (0x044, s.demod.sumI), (0x048, s.demod.sumQ),
      (0x04C, BitVec.ofNat 32 s.demod.posCount.toNat), (0x050, BitVec.ofNat 32 s.demod.bitCount.toNat),
      (0x054, s.demod.thisBit), (0x058, BitVec.ofNat 32 s.demod.shift.toNat), (0x05C, BitVec.ofNat 32 s.demod.len.toNat),
      (0x060, BitVec.ofNat 32 s.demod.maxLen.toNat)]
  ++ [(0x064, BitVec.ofNat 32 s.emu.state.code.toNat), (0x068, BitVec.ofNat 32 s.ring.consumed),
      (0x06C, BitVec.ofNat 32 s.emu.eatqbLen.toNat), (0x070, BitVec.ofNat 32 s.emu.eokLen.toNat), (0x074, s.faultInfo)]

/-! ### Bits of a buffer, and frames by position -/

/-- Bit `p` of a buffer in append order: bit 7 - p mod 8 of byte p / 8 (R37, R91). -/
def bufferBit (w : Window) (m : Memory) (p : Nat) : Option Bool :=
  (m.read (w.base + p / 8)).map fun v : Byte => v.getLsbD (7 - p % 8)

/-- How many bits the send buffer holds (R37). -/
def SendCursor.bitCount (t : SendCursor) : Nat := if t.len = 0 then 0 else 8 * (t.len - 1) + t.bit.toNat

/-- Bit `r` of the characters of a frame (R123, R125): start bit 0, data bit j of d[k] at 10k + 1 + j, stop bit 1. -/
def characterBit (d : List Byte) (r : Nat) : Bool :=
  if r % 10 = 0 then false else if r % 10 = 9 then true else ((d[r / 10]?).getD 0).getLsbD (r % 10 - 1)

/-- The reader column of R125: the send-buffer bit at position `p` of a frame of bytes `d`. -/
def readerBit (d : List Byte) (p : Nat) : Bool :=
  if p < 10 then false
  else if p < 12 then true
  else if p < 12 + 10 * d.length then characterBit d (p - 12)
  else if p < 22 + 10 * d.length then false
  else true

/-- The tag column of R125: the ETU at position `e` of a frame of bytes `d`. -/
def tagBit (d : List Byte) (e : Nat) : Bool :=
  if e < 20 then true
  else if e < 30 then false
  else if e < 32 then true
  else if e < 32 + 10 * d.length then characterBit d (e - 32)
  else if e < 42 + 10 * d.length then false
  else true

/-- Bytes `d` stand in a window from its index 0. -/
def holdsBytes (w : Window) (d : List Byte) (m : Memory) : Prop := ∀ k (h : k < d.length), m.read (w.base + k) = some d[k]

/-- Memory is unchanged outside the first `n` bytes of a window. -/
def unchangedOutside (w : Window) (n : Nat) (m m' : Memory) : Prop :=
  ∀ a, ¬ (w.base ≤ a ∧ a < w.base + n) → m'.read a = m.read a

/-- The send buffer of `t` is the whole reader frame of `d`, built over memory `m` (R125, R174, R176). -/
structure ReaderEncoded (d : List Byte) (m : Memory) (t : SendCursor) (m' : Memory) : Prop where
  cursor : t = { max := BitVec.ofNat 32 ((22 + 10 * d.length + 7) / 8 - 1), bit := 8 }
  bits : ∀ p < 8 * ((22 + 10 * d.length + 7) / 8), bufferBit .tosend m' p = some (readerBit d p)
  frame : unchangedOutside .tosend ((22 + 10 * d.length + 7) / 8) m m'

/-- The send buffer of `t` is the whole tag frame of `d`, each ETU four bits, built over memory `m` (R125, R175, R176). -/
structure TagEncoded (d : List Byte) (m : Memory) (t : SendCursor) (m' : Memory) : Prop where
  cursor : t = { max := BitVec.ofNat 32 (22 + 5 * d.length - 1), bit := 8 }
  bits : ∀ p < 8 * (22 + 5 * d.length), bufferBit .tosend m' p = some (tagBit d (p / 4))
  frame : unchangedOutside .tosend (22 + 5 * d.length) m m'

/-- The sliced reader stream of bits at four samples a bit (R17, R200). -/
def sliced (bits : List Bool) : List Bool := bits.flatMap fun b => [b, b, b, b]

/-- The ideal channel of a reader frame: eight idle samples, then SOF, characters and EOF (R200, R204). -/
def readerChannel (d : List Byte) : List Bool :=
  List.replicate 8 true ++ sliced ((List.range (22 + 10 * d.length)).map (readerBit d))

/-- The ideal channel of a tag frame up to the end of its EOF: two samples of the reference phase for a 1, of the opposite
phase for a 0 (R231, R248). -/
def tagChannel (i q : Byte) (d : List Byte) : List (Byte × Byte) :=
  (List.range (42 + 10 * d.length)).flatMap fun e =>
    if tagBit d e then [(i, q), (i, q)] else [(-i, -q), (-i, -q)]

/-! ### The last bit of a character, and the emulator's table -/

/-- UART.STEP takes the tenth mid-bit sample of a character, whose image is `r` (R208). -/
def uartImage (b : Bool) (u : Uart) (r : BitVec 10) : Prop :=
  u.state = .receivingData ∧ (u.posCnt.toNat + 1) % 4 = 2 ∧ u.bitCnt.toNat = 9 ∧
    r = BitVec.ofBool b ++ u.shift.extractLsb' 1 9

/-- DEMOD.STEP takes the second half of the tenth bit of a character, whose image is `r` (R244). -/
def demodImage (v : Int) (d : Demod) (r : BitVec 10) : Prop :=
  d.state = .receivingData ∧ d.posCount ≠ 0 ∧ d.bitCount.toNat = 9 ∧
    r = BitVec.ofBool (decide (0 < d.thisBit.toInt + v)) ++ d.shift.extractLsb' 1 9

/-- The Uart after an abort (R202, §8 property 8): UNSYNCED, every counter 0, the limit kept. -/
def uartLost (u : Uart) : Uart :=
  { state := .unsynced, shift := 0, bitCnt := 0, byteCnt := 0, byteCntMax := u.byteCntMax, posCnt := 0 }

/-- The Demod after an abort (R236, §8 property 8): UNSYNCED, every counter and sum 0, limit and overflow flag kept. -/
def demodLost (d : Demod) : Demod :=
  { state := .unsynced, sumI := 0, sumQ := 0, posCount := 0, bitCount := 0, thisBit := 0, shift := 0, len := 0,
    maxLen := d.maxLen, overflow := d.overflow }

/-- A ten-bit image with start bit 0 and stop bit 1 (R123). -/
def wellFramed (r : BitVec 10) : Prop := r.getLsbD 9 = true ∧ r.getLsbD 0 = false

/-- The conditions under which UART.STEP gives up a frame: SOF low phase too short, its thirteenth low bit (R206), the 26th
sample of an idle gap (R207), a framing error, the overflow where UART_OVF_CHECK puts it (R208). -/
def uartError (c : Config) (b : Bool) (u : Uart) : Prop :=
  (u.state = .gotFallingEdgeOfSof ∧ (u.posCnt.toNat + 1) % 4 = 2 ∧ b = true ∧ u.bitCnt.toNat ≤ 9) ∨
  (u.state = .gotFallingEdgeOfSof ∧ (u.posCnt.toNat + 1) % 4 = 2 ∧ b = false ∧ u.bitCnt.toNat = 12) ∨
  (u.state = .awaitingStartBit ∧ b = true ∧ u.posCnt.toNat = 25) ∨
  (∃ r, uartImage b u r ∧ r ≠ 0 ∧ ¬ wellFramed r) ∨
  ∃ r, uartImage b u r ∧ wellFramed r ∧
    u.byteCntMax.toNat ≤ (if c.uartOvfCheck = .beforeStore then u.byteCnt.toNat else u.byteCnt.toNat + 1)

/-- The conditions under which DEMOD.STEP gives up a frame in silence, `v` the soft decision: the subcarrier drops in training
(R240), the 51st sample of TR1 (R241), a SOF low phase too short or of 29 samples (R242), the 13th sample of an idle gap
after a byte (R243), a framing error (R245). -/
def demodError (v : Int) (i q : Byte) (d : Demod) : Prop :=
  (d.state = .phaseRefTraining ∧ amplitude i q ≤ 8) ∨
  (d.state = .awaitingFallingEdgeOfSof ∧ 0 ≤ v ∧ d.posCount.toNat = 50) ∨
  (d.state = .gotFallingEdgeOfSof ∧ 0 < v ∧ d.posCount.toNat < 18) ∨
  (d.state = .gotFallingEdgeOfSof ∧ v ≤ 0 ∧ d.posCount.toNat = 28) ∨
  (d.state = .awaitingStartBit ∧ 0 < v ∧ d.posCount.toNat = 12 ∧ d.len ≠ 0) ∨
  ∃ r, demodImage v d r ∧ r ≠ 0 ∧ ¬ wellFramed r

/-- The overflow of R245: a well-framed character at the limit. -/
def demodOverflow (v : Int) (d : Demod) : Prop := ∃ r, demodImage v d r ∧ wellFramed r ∧ d.maxLen ≤ d.len

/-- The table of R319; none for the states that are never current at the start of EMU.FRAME. -/
def emuTable : EState → FrameEvent → Option (EState × Option TxSource × TraceKind)
  | .nofield, _ => some (.nofield, none, .none)
  | .idle, .wupb => some (.work, some .eatqb, .reader)
  | .idle, .reqb => some (.work, some .eatqb, .reader)
  | .idle, .attrib => some (.idle, none, .none)
  | .idle, .hltb => some (.idle, none, .none)
  | .idle, .other => some (.idle, none, .none)
  | .halted, .wupb => some (.work, some .eatqb, .reader)
  | .halted, .reqb => some (.halted, none, .none)
  | .halted, .attrib => some (.halted, none, .none)
  | .halted, .hltb => some (.halted, none, .none)
  | .halted, .other => some (.halted, none, .none)
  | .work, .wupb => some (.work, some .eatqb, .reader)
  | .work, .reqb => some (.idle, none, .log)
  | .work, .attrib => some (.idle, some .eok, .none)
  | .work, .hltb => some (.halted, none, .none)
  | .work, .other => some (.idle, none, .log)
  | .selecting, _ => none
  | .halting, _ => none
  | .acknowledge, _ => none

/-- The records of R314 and R316, both timestamps the clock's reading. -/
def frameRecords (kind : TraceKind) (f : List Byte) (now : Word) : List TraceRec :=
  match kind with
  | .none => []
  | .reader => [{ bytes := f, startTs := now, endTs := now, crcOk := none, direction := .reader }]
  | .log => [{ bytes := f, startTs := now, endTs := now, crcOk := some (checkCrc f), direction := .reader }]

/-- What a transmission as a tag changes up to its first hold (R276): nothing is emitted yet, and a source of length 0
leaves the engine idle. -/
def tagBegun (op : Byte) (src : TxSource) (s : State) : State :=
  { s with
    txMode := .tagBpsk
    eng := if txLen src s = 0 then { idled s.eng with txIdx := 0 }
           else { s.eng with busy := true, op := op, hold := .tagByte src, txIdx := 0 } }

end Sys2Proof.Machine
end

