-- ==== Sys2Proof/Certificates/Slice0/Obligations.lean ====
section
/-! DEFINITION. The statements about the model, each from the rules of spec/ its docstring names. An equation
`t = { s with a := …, m := t.m }` says that every field it does not name is unchanged. -/

section

open Sys2Proof Sys2Proof.Machine

/-! ### Command words -/

/-- R120, R122, R126: the decoder reads back the word of every well-formed command, with every operand; the one ill-formed
selector is refused. -/
def Obligations.DecodeReadsEveryEncodedCommand : Prop :=
  (∀ i : Instr, i.wf = true →
    decode (encode i) = .ok i ∧ decodeTableWord 32 (encode i).toNat = some i) ∧
  decode (encode (.trxTxTag 3)) = .error .reservedSelector

/-- R120, R122: a word that decodes is the word of the instruction it decodes to, so no bit of it is ignored. -/
def Obligations.DecodeIgnoresNoBit : Prop :=
  ∀ (cw : Word) (i : Instr), decode cw = .ok i → encode i = cw ∧ i.wf = true

/-- R120, R126, R341: a word decodes exactly when the map and the masks make it legal, and any other word written to CMD of
an idle engine raises Fault(ILLEGAL, cw). -/
def Obligations.WordsOutsideTheMapAreIllegal : Prop :=
  (∀ cw : Word, (∃ i, decode cw = .ok i) ↔ legalWord cw) ∧
  ∀ (s : State) (cw : Word), s.fault = none → s.eng.busy = false → ¬ legalWord cw →
    hostWrite 0x010 4 cw s = .next (faulted .illegal cw s)

/-- R122, R126: words written out bit by bit decode to the commands they stand for. -/
def Obligations.SampleWordsDecode : Prop :=
  decode 0b00000001000000000000000000000000 = .ok .tosendReset ∧
  decode 0b00000011000000000000000000000001 = .ok (.tosendStuff4 true) ∧
  decode 0b00000100000000000000000000000101 = .ok (.codeReader 5) ∧
  decode 0b00010001000000000000000000000000 = .ok (.uartStep false) ∧
  decode 0b00100001000000000010100011101100 = .ok (.demodStep 40 (-20)) ∧
  decode 0b00110001000000000000000000000010 = .ok (.trxTxTag 2) ∧
  decode 0b01000011000000000000000100000000 = .ok (.emuRx 256)

/-- R120, R342: with the engine idle and no fault, the step that takes a host write of a legal word to CMD is `exec` of the
command it decodes to, with that move consumed. -/
def Obligations.StepRunsTheDecodedCommand : Prop :=
  ∀ (s : State) (cw : Word) (rest : List Move) (i : Instr),
    s.fault = none → s.eng.busy = false → s.env.moves = .hostWrite 0x010 4 cw :: rest → decode cw = .ok i →
    step s = exec i (s.withMoves rest)

/-! ### Faults, cancellation, reset -/

/-- R56. -/
def Obligations.FaultIsSticky : Prop :=
  ∀ s : State, s.fault ≠ none →
    (∀ cw : Word, hostWrite 0x010 4 cw s = .next s) ∧
    (∀ (i : Instr) (t : State), exec i s = .next t → t.fault = s.fault ∧ t.faultInfo = s.faultInfo) ∧
    (∀ t : State, (engineReady s = true ∨ s.env.moves.head? ≠ some .reset) → step s = .next t →
      t.fault = s.fault ∧ t.faultInfo = s.faultInfo)

/-- R340: what raising a fault does, that a command's own fault is precise, that a fault of the host or the producer
abandons the command in flight, and what still works afterwards. -/
def Obligations.FaultsArePreciseAndAbandonTheCommand : Prop :=
  (∀ (code : FaultCode) (info : Word) (s : State),
    (s.fault = none → s.raise code info = faulted code info s) ∧
    (s.fault ≠ none → s.raise code info = { s with eng := idled s.eng })) ∧
  (∀ (i : Instr) (s t : State), s.fault = none → exec i s = .next t → t.fault ≠ none →
    ∃ code ∈ [FaultCode.illegal, .range, .unwritten, .tosendOvf], ∃ info, t = faulted code info s) ∧
  (∀ (s : State) (cw : Word), s.fault = none → s.eng.busy = true →
    hostWrite 0x010 4 cw s = .next (faulted .busy cw s)) ∧
  (∀ (s : State) (i q : Byte), s.fault = none → s.ring.produced - s.ring.consumed = s.cfg.sringEntries →
    applyMove (.produce i q) s = .next (faulted .overrun (BitVec.ofNat 32 s.ring.produced) s)) ∧
  (∀ s : State, s.fault ≠ none →
    (∀ cw : Word, hostWrite 0x010 4 cw s = .next s) ∧
    (∀ v : Word, hostWrite 0x000 4 v s = .next { s with arg0 := v }) ∧
    (∀ (k : Nat) (v : Word), k < s.cfg.cmdbufSize → s.cfg.cmdbufSize ≤ 4096 →
      hostWrite (BitVec.ofNat 16 (0x1000 + k)) 1 v s = .next { s with mem := s.mem.write (0x1000 + k) (v.setWidth 8) }) ∧
    (∀ (addr : Nat) (v : Word), (addr, v) ∈ registerTable s →
      hostRead (BitVec.ofNat 16 addr) 4 s = { s with out := { s.out with bus := s.out.bus ++ [v] } }) ∧
    (∀ (addr : Half) (w : Window) (k : Nat) (v : Byte), k < w.capacity s.cfg → addr.toNat = w.base + k →
      s.mem.read addr.toNat = some v →
      hostRead addr 1 s = { s with out := { s.out with bus := s.out.bus ++ [v.setWidth 32] } }) ∧
    (∀ (addr : Half) (n : Nat), (hostRead addr n s).fault = s.fault ∧ (hostRead addr n s).faultInfo = s.faultInfo))

/-- R350: cancellation at a hold, that no command looks at CANCEL before its first hold, and that CANCEL high at acceptance
cancels there. -/
def Obligations.CancelEndsTheCommandAtItsHold : Prop :=
  (∀ s : State, s.eng.busy = true → s.env.cancel = true →
    step s = .next { s with res0 := 0xFFFFFFFD, txMode := .off, eng := idled s.eng }) ∧
  (∀ (i : Instr) (s : State) (level : Bool),
    exec i { s with env := { s.env with cancel := level } } =
      mapNext (fun t => { t with env := { t.env with cancel := level } }) (exec i s)) ∧
  (∀ (i : Instr) (s t : State), s.env.cancel = true → exec i s = .next t → t.eng.busy = true →
    step t = .next { t with res0 := 0xFFFFFFFD, txMode := .off, eng := idled t.eng })

/-- R53, R97, R272, R349, R355: with the engine idle, or at a hold that is not met, nothing changes while no move comes (log
entry 12), and a move of the clock, the TX consumer (a count: log entry 5), the front end, the field or the cancel source
changes its own input and nothing else. -/
def Obligations.UnmetHoldChangesNothing : Prop :=
  ∀ s : State, s.eng.busy = false ∨ (s.env.cancel = false ∧ holdReady s = false) →
    (s.env.moves = [] → step s = .next s) ∧
    ∀ rest : List Move,
      let waitsWith := fun (mv : Move) (env : Env) =>
        s.env.moves = mv :: rest → step s = .next { s with env := { env with moves := rest } }
      waitsWith .clock { s.env with now := s.env.now + 1 } ∧
      waitsWith .txReady { s.env with txReady := s.env.txReady + 1 } ∧
      (∀ b, waitsWith (.readerBit b) { s.env with rbits := s.env.rbits ++ [b] }) ∧
      (∀ v, waitsWith (.field v) { s.env with fieldV := v }) ∧
      ∀ level, waitsWith (.cancel level) { s.env with cancel := level }

/-- R370, R371: RESET in any state, at whatever hold: every register at its reset value, every buffer byte unwritten, no
word and no record emitted. Nothing is said of the input ports, which are not the block's. -/
def Obligations.ResetGivesEveryRegisterItsResetValue : Prop :=
  ∀ s : State, ∃ t, applyMove .reset s = .next t ∧ t.mem = [] ∧ (∀ a, t.mem.read a = none) ∧ t = {
    cfg := s.cfg, arg0 := 0, res0 := 0, res1 := 0, uDone := false, dDone := false, fault := none, faultInfo := 0
    txMode := .off
    eng := { busy := false, op := 0, hold := .none, txTarget := 0, txIdx := 0, rxSamples := 0, rxT0 := 0, rxLimit := 0 }
    ts := { max := 0xFFFFFFFF, bit := 8 }
    uart := { state := .unsynced, shift := 0, bitCnt := 0, byteCnt := 0, byteCntMax := 0, posCnt := 0 }
    demod := { state := .unsynced, sumI := 0, sumQ := 0, posCount := 0, bitCount := 0, thisBit := 0, shift := 0, len := 0,
               maxLen := 0, overflow := false }
    session := { timeout := 35312, frameMax := s.cfg.maxFrameSize }
    emu := { state := .nofield, eatqbLen := 0, eokLen := 0 }
    ring := { produced := 0, consumed := 0 }
    mem := t.mem, env := t.env, out := s.out }

/-- The invariant holds after RESET, whatever the parameters in their ranges, and at `State.reset`. -/
def Obligations.ResetMeetsTheInvariant : Prop :=
  (∀ (c : Config) (env : Env) (out : Out), c.wf = true → (State.afterReset c env out).Inv) ∧ State.reset.Inv

/-- R39, R42, R45, R47, R210, R249 and the canonical form of memory: every step keeps the invariant. -/
def Obligations.StepKeepsTheInvariant : Prop :=
  ∀ s t : State, s.Inv → step s = .next t → t.Inv

/-- From a state that meets the invariant no run stops: neither of the model's own stops can occur (log entry 8). -/
def Obligations.RunsNeverStop : Prop :=
  ∀ (k : Nat) (s : State), s.Inv → safeRun k s

/-! ### The host bus and the ring -/

/-- R35, R57: what the host reads at every register's address, that it writes ARG0 and CMD and no other, that CMD and every
other address of the window read as a bus fault, and the values after RESET. -/
def Obligations.RegisterTableReadsAndResets : Prop :=
  (∀ (s : State) (addr : Nat) (v : Word), (addr, v) ∈ registerTable s →
    hostRead (BitVec.ofNat 16 addr) 4 s = { s with out := { s.out with bus := s.out.bus ++ [v] } } ∧
    (addr ≠ 0 → s.fault = none → ∀ x : Word,
      hostWrite (BitVec.ofNat 16 addr) 4 x s = .next (faulted .bus (BitVec.ofNat 32 addr) s))) ∧
  (∀ (s : State) (x : Word), hostWrite 0x000 4 x s = .next { s with arg0 := x } ∧ hostWrite 0x010 4 x s = submit x s) ∧
  (∀ (s : State) (addr : Half), s.fault = none → addr.toNat < 0x100 → (∀ v, (addr.toNat, v) ∉ registerTable s) →
    hostRead addr 4 s = faulted .bus (addr.setWidth 32) s) ∧
  (∀ (c : Config) (env : Env) (out : Out), registerTable (State.afterReset c env out) =
    [(0x000, 0), (0x004, 0), (0x008, 0), (0x00C, 0), (0x014, 0), (0x018, 35312), (0x01C, c.maxFrameSize),
     (0x020, 0xFFFFFFFF), (0x024, 8), (0x028, 0), (0x02C, 0), (0x030, 0), (0x034, 0), (0x038, 0), (0x03C, 0), (0x040, 0),
     (0x044, 0), (0x048, 0), (0x04C, 0), (0x050, 0), (0x054, 0), (0x058, 0), (0x05C, 0), (0x060, 0), (0x064, 0),
     (0x068, 0), (0x06C, 0), (0x070, 0), (0x074, 0)] ∧
    (State.afterReset c env out).eng =
      { busy := false, op := 0, hold := .none, txTarget := 0, txIdx := 0, rxSamples := 0, rxT0 := 0, rxLimit := 0 })

/-- R81, R83, R84, R86, R88, R90, R340: every host read that is not a register of R57, in every state, one with a fault too: a
written byte of a buffer is returned and nothing else changes; an unwritten one raises UNWRITTEN; anything else BUS. -/
def Obligations.HostReadOutcomes : Prop :=
  ∀ (addr : Half) (n : Nat) (s : State),
    (∀ (w : Window) (k : Nat) (v : Byte), n = 1 → k < w.capacity s.cfg → addr.toNat = w.base + k →
      s.mem.read addr.toNat = some v →
      hostRead addr n s = { s with out := { s.out with bus := s.out.bus ++ [v.setWidth 32] } }) ∧
    (∀ (w : Window) (k : Nat), n = 1 → k < w.capacity s.cfg → addr.toNat = w.base + k →
      s.mem.read addr.toNat = none → hostRead addr n s = s.raise .unwritten (addr.setWidth 32)) ∧
    (¬ (n = 4 ∧ ∃ v, (addr.toNat, v) ∈ registerTable s) →
      ¬ (n = 1 ∧ ∃ w : Window, w.base ≤ addr.toNat ∧ addr.toNat < w.base + w.capacity s.cfg) →
      hostRead addr n s = s.raise .bus (addr.setWidth 32))

/-- R84, R85, R86, R340: in every state, one with a fault too, the host writes ARG0, CMDBUF and nothing else; a write that is
neither, nor of CMD, raises Fault(BUS, addr). -/
def Obligations.HostWriteOutcomes : Prop :=
  ∀ (addr : Half) (n : Nat) (v : Word) (s : State),
    (addr = 0x000 → n = 4 → hostWrite addr n v s = .next { s with arg0 := v }) ∧
    (∀ k, k < s.cfg.cmdbufSize → addr.toNat = 0x1000 + k → n = 1 →
      ∃ t, hostWrite addr n v s = .next t ∧ t = { s with mem := t.mem } ∧ t.mem.read (0x1000 + k) = some (v.setWidth 8) ∧
        ∀ a, a ≠ 0x1000 + k → t.mem.read a = s.mem.read a) ∧
    (¬ (n = 4 ∧ (addr = 0x000 ∨ addr = 0x010)) →
      ¬ (n = 1 ∧ 0x1000 ≤ addr.toNat ∧ addr.toNat < 0x1000 + s.cfg.cmdbufSize) →
      hostWrite addr n v s = .next (s.raise .bus (addr.setWidth 32)))

/-- R94, R95, R96, R99: the producer's entry goes to slot p mod SRING_ENTRIES and no older unconsumed entry changes; a full
ring is an overrun; the engine takes the entries in the order they were written. -/
def Obligations.RingIsFirstInFirstOut : Prop :=
  ∀ (s : State) (i q : Byte), s.cfg.wf = true → RingInv s.cfg s.ring s.mem →
    (s.ring.produced - s.ring.consumed = s.cfg.sringEntries →
      applyMove (.produce i q) s = .next (s.raise .overrun (BitVec.ofNat 32 s.ring.produced))) ∧
    (s.ring.produced - s.ring.consumed < s.cfg.sringEntries →
      ∃ t, applyMove (.produce i q) s = .next t ∧
        t = { s with mem := t.mem, ring := { s.ring with produced := s.ring.produced + 1 } } ∧
        t.mem.read (0x6000 + 2 * (s.ring.produced % s.cfg.sringEntries)) = some i ∧
        t.mem.read (0x6000 + 2 * (s.ring.produced % s.cfg.sringEntries) + 1) = some q ∧
        (∀ a, a ≠ 0x6000 + 2 * (s.ring.produced % s.cfg.sringEntries) →
          a ≠ 0x6000 + 2 * (s.ring.produced % s.cfg.sringEntries) + 1 → t.mem.read a = s.mem.read a) ∧
        RingInv t.cfg t.ring t.mem ∧
        (s.ring.produced = s.ring.consumed → ∃ u, nextSample t = .ok (i, q, u) ∧ u.ring.consumed = t.ring.produced) ∧
        (s.ring.consumed < s.ring.produced → ∃ x y u u', nextSample s = .ok (x, y, u) ∧ nextSample t = .ok (x, y, u')))

/-! ### Rules about all commands -/

/-- R127: which commands leave the engine busy. -/
def Obligations.OnlyWaitingCommandsLeaveTheEngineBusy : Prop :=
  ∀ (i : Instr) (s t : State), s.Accepts → exec i s = .next t →
    (waits i = false → t.eng.busy = false ∧ t.eng.op = 0) ∧
    (waits i = true → t.fault = none →
      (t.eng.busy = true ∧ t.eng.op = i.opcode ∧ t.eng.hold ≠ .none) ∨
      (t.eng.busy = false ∧ ((∃ sel src, i = .trxTxTag sel ∧ txSourceOf sel = some src ∧ txLen src s = 0) ∨ i = .emuFrame)))

/-- R34, R121: a command that the table does not list ignores ARG0; no command writes RES0 or RES1 before its first hold; a
tag transmission in flight never does. -/
def Obligations.OtherCommandsIgnoreArg0AndKeepResults : Prop :=
  (∀ (i : Instr) (s : State) (v : Word), readsArg0 i = false →
    exec i { s with arg0 := v } = mapNext (fun t => { t with arg0 := v }) (exec i s)) ∧
  (∀ (i : Instr) (s t : State), exec i s = .next t → t.res0 = s.res0 ∧ t.res1 = s.res1) ∧
  (∀ (src : TxSource) (s t : State), s.eng.hold = .tagByte src → s.env.cancel = false → engineMove s = .next t →
    t.res0 = s.res0 ∧ t.res1 = s.res1)

/-- R34, R85, R385: a later write of ARG0 or CMDBUF does not affect a command in flight. -/
def Obligations.CommandInFlightIgnoresLaterOperands : Prop :=
  (∀ (s : State) (v : Word), engineMove { s with arg0 := v } = mapNext (fun t => { t with arg0 := v }) (engineMove s)) ∧
  (∀ (s : State) (k : Nat) (v : Byte), s.Inv → k < s.cfg.cmdbufSize →
    engineMove { s with mem := s.mem.write (0x1000 + k) v } =
      mapNext (fun t => { t with mem := t.mem.write (0x1000 + k) v }) (engineMove s))

/-- R277: what writes TX_MODE, RESET apart. -/
def Obligations.TxModeIsWrittenByTransmissionsAndCancellation : Prop :=
  ∀ s t : State, step s = .next t → t.txMode ≠ s.txMode →
    (t.txMode = .off ∧ ((engineReady s = true ∧ s.env.cancel = true) ∨ s.env.moves.head? = some .reset)) ∨
    (engineReady s = false ∧ ∃ cw i rest, s.env.moves = .hostWrite 0x010 4 cw :: rest ∧ decode cw = .ok i ∧
      ((t.txMode = .readerAsk ∧ (i = .trxTxReader ∨ ∃ n, i = .trxCodeTxReader n)) ∨
       (t.txMode = .tagBpsk ∧ (i = .emuFrame ∨ ∃ sel, i = .trxTxTag sel))))

/-- R359, R360, R361: a step emits at most one trace record, and only at the end of a TRX.CODE_TX_READER, at a successful
end of a TRX.RX_TAG, or in an EMU.FRAME. -/
def Obligations.TraceRecordsComeFromThreeCommands : Prop :=
  ∀ s t : State, step s = .next t → t.out.trace ≠ s.out.trace → ∃ r, t.out.trace = s.out.trace ++ [r] ∧
    ((∃ f, (s.eng.hold = .slot (some f) ∨ s.eng.hold = .readerWord true (some f)) ∧ r.bytes = f ∧ r.crcOk = none ∧
        r.direction = .reader ∧ t.eng.busy = false) ∨
     (s.eng.hold = .sample ∧ t.dDone = true ∧ t.demod.overflow = false ∧ r.crcOk = none ∧ r.direction = .tag ∧
        t.eng.busy = false) ∨
     (engineReady s = false ∧ (∃ cw rest, s.env.moves = .hostWrite 0x010 4 cw :: rest ∧ decode cw = .ok .emuFrame) ∧
        r.direction = .reader ∧ r.startTs = s.env.now ∧ r.endTs = s.env.now))

/-- R30, R53, R80, R85: which registers, ports and buffers each command may write; the rest of the block is unchanged. -/
def Obligations.CommandsWriteOnlyTheirOwnState : Prop :=
  ∀ (i : Instr) (s t : State), exec i s = .next t →
    t.cfg = s.cfg ∧ t.arg0 = s.arg0 ∧ t.env = s.env ∧ t.out.tx = s.out.tx ∧ t.out.bus = s.out.bus ∧
    (i ≠ .trxSetTimeout → t.session.timeout = s.session.timeout) ∧
    (i ≠ .trxSetMaxFrame → t.session.frameMax = s.session.frameMax) ∧
    ((∀ n, i ≠ .uartInit n) → (∀ b, i ≠ .uartStep b) → (∀ n, i ≠ .emuRx n) → t.uart = s.uart ∧ t.uDone = s.uDone) ∧
    ((∀ n, i ≠ .demodInit n) → (∀ x y, i ≠ .demodStep x y) → (∀ n, i ≠ .trxRxTag n) →
      t.demod = s.demod ∧ t.dDone = s.dDone) ∧
    (i ≠ .emuInit → i ≠ .emuField → i ≠ .emuFrame → t.emu = s.emu) ∧
    ((∀ n, i ≠ .trxRxTag n) → t.ring = s.ring) ∧
    (i ≠ .tosendReset → (∀ b, i ≠ .tosendStuff b) → (∀ b, i ≠ .tosendStuff4 b) → (∀ n, i ≠ .codeReader n) →
      (∀ n, i ≠ .codeTag n) → (∀ n, i ≠ .trxCodeTxReader n) → i ≠ .emuInit → t.ts = s.ts) ∧
    (∀ a, t.mem.read a ≠ s.mem.read a →
      (Window.tosend.holds s.cfg a = true ∧ ((∃ b, i = .tosendStuff b) ∨ (∃ b, i = .tosendStuff4 b) ∨
        (∃ n, i = .codeReader n) ∨ (∃ n, i = .codeTag n) ∨ (∃ n, i = .trxCodeTxReader n) ∨ i = .emuInit)) ∨
      (Window.uout.holds s.cfg a = true ∧ ∃ b, i = .uartStep b) ∨
      (Window.dout.holds s.cfg a = true ∧ ∃ x y, i = .demodStep x y) ∨
      ((Window.atqb.holds s.cfg a = true ∨ Window.eatqb.holds s.cfg a = true ∨ Window.eok.holds s.cfg a = true) ∧
        i = .emuInit))

/-! ### The send buffer and the encoders -/

/-- R171. -/
def Obligations.TosendResetEmptiesTheBuffer : Prop :=
  encode .tosendReset = 0x01000000 ∧
  ∀ s : State, exec .tosendReset s = .next { s with ts := { max := 0xFFFFFFFF, bit := 8 } } ∧
    SendCursor.len { max := 0xFFFFFFFF, bit := 8 } = 0

/-- R172: one bit, most significant first, in the open byte or in a new one; the overflow writes nothing. -/
def Obligations.StuffAppendsOneBit : Prop :=
  encode (.tosendStuff false) = 0x02000000 ∧ encode (.tosendStuff true) = 0x02000001 ∧
  ∀ (b : Bool) (s : State), s.cfg.wf = true → SendInv s.cfg s.ts s.mem →
    (s.ts.bit = 8 → s.cfg.tosendSize ≤ s.ts.len →
      exec (.tosendStuff b) s = .next (s.raise .tosendOvf (s.ts.max + 1))) ∧
    (s.ts.bit = 8 → s.ts.len < s.cfg.tosendSize →
      ∃ t, exec (.tosendStuff b) s = .next t ∧
        t = { s with ts := { max := s.ts.max + 1, bit := 1 }, mem := t.mem } ∧
        t.mem.read (Window.tosend.base + s.ts.len) = some (if b then 0x80 else 0x00) ∧
        ∀ a, a ≠ Window.tosend.base + s.ts.len → t.mem.read a = s.mem.read a) ∧
    (s.ts.bit ≠ 8 →
      ∃ v t, s.mem.read (Window.tosend.base + s.ts.max.toInt.toNat) = some v ∧ exec (.tosendStuff b) s = .next t ∧
        t = { s with ts := { max := s.ts.max, bit := s.ts.bit + 1 }, mem := t.mem } ∧
        t.mem.read (Window.tosend.base + s.ts.max.toInt.toNat) =
          some (if b then v ||| ((0x80 : Byte) >>> s.ts.bit.toNat) else v) ∧
        ∀ a, a ≠ Window.tosend.base + s.ts.max.toInt.toNat → t.mem.read a = s.mem.read a)

/-- R173: four equal bits, with one overflow test before any write. -/
def Obligations.Stuff4AppendsFourBits : Prop :=
  encode (.tosendStuff4 false) = 0x03000000 ∧ encode (.tosendStuff4 true) = 0x03000001 ∧
  ∀ (b : Bool) (s : State), s.cfg.wf = true → SendInv s.cfg s.ts s.mem →
    (4 < s.ts.bit.toNat → s.cfg.tosendSize ≤ s.ts.len →
      exec (.tosendStuff4 b) s = .next (s.raise .tosendOvf (s.ts.max + 1))) ∧
    (¬ (4 < s.ts.bit.toNat ∧ s.cfg.tosendSize ≤ s.ts.len) →
      ∃ t, exec (.tosendStuff4 b) s = .next t ∧ t = { s with ts := t.ts, mem := t.mem } ∧
        t.ts.bitCount = s.ts.bitCount + 4 ∧ SendInv t.cfg t.ts t.mem ∧
        (∀ p < s.ts.bitCount, bufferBit .tosend t.mem p = bufferBit .tosend s.mem p) ∧
        (∀ p, s.ts.bitCount ≤ p → p < s.ts.bitCount + 4 → bufferBit .tosend t.mem p = some b) ∧
        ∀ a, ¬ (Window.tosend.base + s.ts.bitCount / 8 ≤ a ∧ a ≤ Window.tosend.base + (s.ts.bitCount + 3) / 8) →
          t.mem.read a = s.mem.read a)

/-- R123, R124, R125, R174, R176: with its checks passed, CODE.READER builds the reader frame of CMDBUF[0..n-1] bit for bit,
and changes nothing else. -/
def Obligations.CodeReaderBuildsTheReaderFrame : Prop :=
  ∀ (n : Half) (s : State) (d : List Byte), s.cfg.wf = true → d.length = n.toNat → d.length ≤ s.cfg.cmdbufSize →
    holdsBytes .cmdbuf d s.mem → (22 + 10 * d.length + 7) / 8 ≤ s.cfg.tosendSize →
    ∃ t, exec (.codeReader n) s = .next t ∧ t = { s with ts := t.ts, mem := t.mem } ∧ ReaderEncoded d s.mem t.ts t.mem

/-- R123, R124, R125, R175, R176: with its checks passed, CODE.TAG builds the tag frame of CMDBUF[0..n-1], four bits an ETU,
and changes nothing else. -/
def Obligations.CodeTagBuildsTheTagFrame : Prop :=
  ∀ (n : Half) (s : State) (d : List Byte), s.cfg.wf = true → d.length = n.toNat → d.length ≤ s.cfg.cmdbufSize →
    holdsBytes .cmdbuf d s.mem → 22 + 5 * d.length ≤ s.cfg.tosendSize →
    ∃ t, exec (.codeTag n) s = .next t ∧ t = { s with ts := t.ts, mem := t.mem } ∧ TagEncoded d s.mem t.ts t.mem

/-- R129, R174, R175, R278, R342: the checks of the three encoding commands, in their order, each before any write. -/
def Obligations.EncodingChecksInOrder : Prop :=
  ∀ (n : Half) (s : State) (i : Instr) (need : Nat),
    ((i = .codeReader n ∨ i = .trxCodeTxReader n) ∧ need = (22 + 10 * n.toNat + 7) / 8 ∨
      i = .codeTag n ∧ need = 22 + 5 * n.toNat) →
    (s.cfg.cmdbufSize < n.toNat → exec i s = .next (s.raise .range (encode i))) ∧
    (∀ k, n.toNat ≤ s.cfg.cmdbufSize → k < n.toNat → s.mem.read (0x1000 + k) = none →
      (∀ j < k, (s.mem.read (0x1000 + j)).isSome = true) →
      exec i s = .next (s.raise .unwritten (BitVec.ofNat 32 (0x1000 + k)))) ∧
    (n.toNat ≤ s.cfg.cmdbufSize → (∀ j < n.toNat, (s.mem.read (0x1000 + j)).isSome = true) → s.cfg.tosendSize < need →
      exec i s = .next (s.raise .tosendOvf (BitVec.ofNat 32 s.cfg.tosendSize)))

/-- R131 to R134: the CRC by its recurrence (reflected polynomial 0x8408, initial value 0xFFFF, complement), the framed constants,
the order of its two bytes; a CRC appended verifies, and a frame that verifies ends in the CRC of the rest. -/
def Obligations.CrcAppendThenVerifyIsAFixedPoint : Prop :=
  crcB [] = 0x0000 ∧
  (∀ (b : List Byte) (x : Byte),
    let shift : Half → Half := fun c => if c.getLsbD 0 then (c >>> 1) ^^^ 0x8408 else c >>> 1
    crcB (b ++ [x]) = (shift^[8] ((crcB b ^^^ 0xFFFF) ^^^ x.setWidth 16)) ^^^ 0xFFFF) ∧
  crcB [0x05, 0x00, 0x08] = 0x7339 ∧ crcB [0x06, 0x00] = 0x5B97 ∧ crcB [0x00] = 0xF078 ∧
  (∀ b : List Byte, appendCrc b = b ++ [(crcB b).extractLsb' 0 8, (crcB b).extractLsb' 8 8]) ∧
  (∀ b : List Byte, checkCrc (appendCrc b) = true) ∧
  (∀ f : List Byte, checkCrc f = true → ∃ b, f = appendCrc b) ∧
  appendCrc [] = [0x00, 0x00] ∧ checkCrc [0x00, 0x00] = true

/-! ### The Uart -/

/-- R201. -/
def Obligations.UartInitResetsTheUart : Prop :=
  ∀ (n : Half) (s : State),
    encode (.uartInit n) = 0x10000000 ||| n.setWidth 32 ∧
    (n.toNat ≤ s.cfg.uoutSize → exec (.uartInit n) s = .next { s with
      uart := { state := .unsynced, shift := 0, bitCnt := 0, byteCnt := 0, byteCntMax := n, posCnt := 0 }
      uDone := false }) ∧
    (s.cfg.uoutSize < n.toNat → exec (.uartInit n) s = .next (s.raise .range (0x10000000 ||| n.setWidth 32)))

/-- R204, R209, R210: UART.STEP always completes; U_DONE is 1 exactly at the EOF of a frame with a byte; it writes its own
registers, and at most the byte UOUT[U_BYTECNT], and that only for a valid character. -/
def Obligations.UartStepCompletes : Prop :=
  ∀ (b : Bool) (s : State), s.cfg.wf = true → UartInv s.cfg s.uart s.mem →
    ∃ t, exec (.uartStep b) s = .next t ∧ t = { s with uart := t.uart, mem := t.mem, uDone := t.uDone } ∧
      UartInv t.cfg t.uart t.mem ∧ t.uart.byteCntMax = s.uart.byteCntMax ∧
      (t.uDone = true ↔ uartImage b s.uart 0 ∧ 0 < s.uart.byteCnt.toNat) ∧
      (uartImage b s.uart 0 → t.uart.state = .unsynced ∧ t.uart.byteCnt = s.uart.byteCnt) ∧
      ∀ a, (a = Window.uout.base + s.uart.byteCnt.toNat →
          ¬ ∃ r, uartImage b s.uart r ∧ r.getLsbD 9 = true ∧ r.getLsbD 0 = false) →
        t.mem.read a = s.mem.read a

/-- R205, R206, R207, R208: UART.STEP before the tenth mid-bit sample of a character, sample by sample. -/
def Obligations.UartStepsSampleBySample : Prop :=
  ∀ (b : Bool) (s : State),
    (s.uart.state = .receivingData → s.uart.bitCnt.toNat < 9 ∨ (s.uart.posCnt.toNat + 1) % 4 ≠ 2) →
    ∃ u : Uart, exec (.uartStep b) s = .next { s with uart := u, uDone := false } ∧
    (s.uart.state = .unsynced →
      u = if b then s.uart else { s.uart with state := .gotFallingEdgeOfSof, posCnt := 0, bitCnt := 0 }) ∧
    (s.uart.state = .gotFallingEdgeOfSof →
      u = if (s.uart.posCnt + 1).toNat % 4 = 2 then
            if b then
              if 9 < s.uart.bitCnt.toNat then
                { s.uart with state := .awaitingStartBit, posCnt := 0, bitCnt := 0, byteCnt := 0 }
              else uartLost s.uart
            else if 12 < (s.uart.bitCnt + 1).toNat then uartLost s.uart
            else { s.uart with posCnt := s.uart.posCnt + 1, bitCnt := s.uart.bitCnt + 1 }
          else { s.uart with posCnt := s.uart.posCnt + 1 }) ∧
    (s.uart.state = .awaitingStartBit →
      u = if b then
            if 25 < (s.uart.posCnt + 1).toNat then uartLost s.uart
            else { s.uart with posCnt := s.uart.posCnt + 1 }
          else { s.uart with state := .receivingData, posCnt := 0, bitCnt := 0, shift := 0 }) ∧
    (s.uart.state = .receivingData →
      u = if (s.uart.posCnt.toNat + 1) % 4 = 2 then
            { s.uart with
              posCnt := s.uart.posCnt + 1, bitCnt := s.uart.bitCnt + 1
              shift := BitVec.ofBool b ++ s.uart.shift.extractLsb' 1 9 }
          else { s.uart with posCnt := s.uart.posCnt + 1 })

/-- R123, R208: the end of a valid character, with the overflow test where UART_OVF_CHECK puts it. -/
def Obligations.UartStoresAValidCharacter : Prop :=
  ∀ (b : Bool) (s : State) (r : BitVec 10), s.cfg.wf = true → UartInv s.cfg s.uart s.mem → uartImage b s.uart r →
    r.getLsbD 9 = true → r.getLsbD 0 = false →
    ∃ t, exec (.uartStep b) s = .next t ∧ t = { s with uart := t.uart, mem := t.mem, uDone := false } ∧
      (s.cfg.uartOvfCheck = .beforeStore → s.uart.byteCntMax ≤ s.uart.byteCnt →
        t.mem = s.mem ∧
        t.uart = { s.uart with state := .unsynced, shift := 0, bitCnt := 0, byteCnt := 0, posCnt := 0 }) ∧
      (¬ (s.cfg.uartOvfCheck = .beforeStore ∧ s.uart.byteCntMax ≤ s.uart.byteCnt) →
        t.mem.read (Window.uout.base + s.uart.byteCnt.toNat) = some (r.extractLsb' 1 8) ∧
        (∀ a, a ≠ Window.uout.base + s.uart.byteCnt.toNat → t.mem.read a = s.mem.read a) ∧
        t.uart =
          if s.cfg.uartOvfCheck = .afterStore ∧ s.uart.byteCntMax ≤ s.uart.byteCnt + 1 then
            { s.uart with state := .unsynced, shift := 0, bitCnt := 0, byteCnt := 0, posCnt := 0 }
          else
            { s.uart with
              state := .awaitingStartBit, shift := 0, bitCnt := 0, byteCnt := s.uart.byteCnt + 1, posCnt := 0 })

/-- R42, R202, R206, R207, R208, R344: every error of UART.STEP leaves the Uart UNSYNCED with every counter zero and reports
nothing; and a step leaves a frame for UNSYNCED only by an error or at its EOF. -/
def Obligations.UartErrorsLeaveItUnsyncedAndZero : Prop :=
  ∀ (b : Bool) (s : State), s.cfg.wf = true → UartInv s.cfg s.uart s.mem →
    (uartError s.cfg b s.uart →
      ∃ t, exec (.uartStep b) s = .next t ∧ t = { s with uart := uartLost s.uart, mem := t.mem, uDone := false } ∧
        ((s.cfg.uartOvfCheck = .beforeStore ∨ ¬ ∃ r, uartImage b s.uart r ∧ wellFramed r) → t.mem = s.mem) ∧
        ∀ a, a ≠ Window.uout.base + s.uart.byteCnt.toNat → t.mem.read a = s.mem.read a) ∧
    (∀ r, uartImage b s.uart r → r ≠ 0 → ¬ wellFramed r →
      exec (.uartStep b) s = .next { s with uart := uartLost s.uart, uDone := false }) ∧
    (∀ t, exec (.uartStep b) s = .next t → s.uart.state ≠ .unsynced → t.uart.state = .unsynced →
      uartError s.cfg b s.uart ∨ uartImage b s.uart 0)

/-- R178, R209: over the ideal channel of a reader frame, UART.INIT and one UART.STEP a sample return true exactly at the
last mid-bit sample of the EOF, with the frame's bytes in UOUT. -/
def Obligations.UartDecodesTheReaderEncoding : Prop :=
  ∀ (n : Half) (s : State) (d : List Byte), 1 ≤ d.length → n.toNat ≤ s.cfg.uoutSize →
    (d.length < n.toNat ∨ (d.length = n.toNat ∧ s.cfg.uartOvfCheck = .beforeStore)) →
    (∃ t, runCommands (.uartInit n :: (readerChannel d).dropLast.map .uartStep) s = .next t ∧
      t.uDone = true ∧ t.uart.byteCnt.toNat = d.length ∧ t.uart.state = .unsynced ∧ holdsBytes .uout d t.mem) ∧
    ∀ k < (readerChannel d).length - 1,
      ∃ t, runCommands (.uartInit n :: ((readerChannel d).take k).map .uartStep) s = .next t ∧ t.uDone = false

/-! ### The Demod -/

/-- R235. -/
def Obligations.DemodInitResetsTheDemod : Prop :=
  ∀ (n : Half) (s : State),
    encode (.demodInit n) = 0x20000000 ||| n.setWidth 32 ∧
    (n.toNat ≤ s.cfg.doutSize → exec (.demodInit n) s = .next { s with
      demod := { state := .unsynced, sumI := 0, sumQ := 0, posCount := 0, bitCount := 0, thisBit := 0, shift := 0, len := 0,
                 maxLen := n, overflow := false }
      dDone := false }) ∧
    (s.cfg.doutSize < n.toNat → exec (.demodInit n) s = .next (s.raise .range (0x20000000 ||| n.setWidth 32)))

/-- R238, R245, R246, R249: DEMOD.STEP always completes; D_DONE is 1 in exactly three cases; D_OVERFLOW is set by the
overflow alone; a byte is stored only for a valid character below the limit. R239 to R244, R247: before the end of a
character, sample by sample; a soft decision of 0 is no falling edge, is low in a SOF, and is a start bit. -/
def Obligations.DemodStepCompletes : Prop :=
  ∀ (i q : Byte) (s : State), DemodInv s.cfg s.demod s.mem →
    (∃ t, exec (.demodStep i q) s = .next t ∧ t = { s with demod := t.demod, mem := t.mem, dDone := t.dDone } ∧
      DemodInv t.cfg t.demod t.mem ∧ t.demod.maxLen = s.demod.maxLen ∧
      (let v := softDecision s.cfg s.demod i q
       let eof := demodImage v s.demod 0
       let sofOnly := s.demod.state = .awaitingStartBit ∧ 0 < v ∧ s.demod.posCount.toNat = 12 ∧ s.demod.len = 0
       let character := fun r => demodImage v s.demod r ∧ r.getLsbD 9 = true ∧ r.getLsbD 0 = false
       let overflow := (∃ r, character r) ∧ s.demod.maxLen ≤ s.demod.len
       (t.dDone = true ↔ eof ∨ sofOnly ∨ overflow) ∧
       (eof → t.demod = { demodLost s.demod with len := s.demod.len }) ∧
       (sofOnly → t.demod = demodLost s.demod) ∧
       (overflow → t.demod = { demodLost s.demod with overflow := true }) ∧
       (t.demod.overflow = true ↔ s.demod.overflow = true ∨ overflow) ∧
       (∀ r, character r → s.demod.len < s.demod.maxLen →
         t.demod = { s.demod with
           state := .awaitingStartBit, posCount := 0, bitCount := 0, thisBit := 0, shift := 0, len := s.demod.len + 1 } ∧
         t.mem.read (Window.dout.base + s.demod.len.toNat) = some (r.extractLsb' 1 8) ∧
         ∀ a, a ≠ Window.dout.base + s.demod.len.toNat → t.mem.read a = s.mem.read a) ∧
       (¬ ((∃ r, character r) ∧ s.demod.len < s.demod.maxLen) → ∀ a, t.mem.read a = s.mem.read a))) ∧
    (let v := softDecision s.cfg s.demod i q
     let d := s.demod
     let answers := fun (d' : Demod) (done : Bool) => exec (.demodStep i q) s = .next { s with demod := d', dDone := done }
     (d.state = .unsynced →
       answers (if 8 < amplitude i q then
         { d with state := .phaseRefTraining, sumI := i.signExtend 32, sumQ := q.signExtend 32, posCount := 1 } else d) false) ∧
     (d.state = .phaseRefTraining →
       answers (if 8 < amplitude i q then
         { d with
           state := if d.posCount = 7 then .awaitingFallingEdgeOfSof else .phaseRefTraining
           sumI := d.sumI + i.signExtend 32, sumQ := d.sumQ + q.signExtend 32, posCount := d.posCount + 1 }
         else demodLost d) false) ∧
     (d.state = .awaitingFallingEdgeOfSof →
       answers (if v < 0 then { d with state := .gotFallingEdgeOfSof, posCount := 1 }
         else if d.posCount = 50 then demodLost d else { d with posCount := d.posCount + 1 }) false) ∧
     (d.state = .gotFallingEdgeOfSof →
       answers (if 0 < v then
           if 18 ≤ d.posCount.toNat then { d with state := .awaitingStartBit, posCount := 0, len := 0, bitCount := 0 }
           else demodLost d
         else if d.posCount = 28 then demodLost d else { d with posCount := d.posCount + 1 }) false) ∧
     (d.state = .awaitingStartBit →
       if 0 < v then
         if d.posCount = 12 then answers (demodLost d) (decide (d.len = 0))
         else answers { d with posCount := d.posCount + 1 } false
       else answers { d with state := .receivingData, thisBit := BitVec.ofInt 32 v, posCount := 1, shift := 0 } false) ∧
     (d.state = .receivingData → d.posCount = 0 → answers { d with thisBit := BitVec.ofInt 32 v, posCount := 1 } false) ∧
     (d.state = .receivingData → d.posCount ≠ 0 → d.bitCount.toNat < 9 →
       answers { d with
         thisBit := d.thisBit + BitVec.ofInt 32 v, posCount := 0, bitCount := d.bitCount + 1
         shift := BitVec.ofBool (decide (0 < d.thisBit.toInt + v)) ++ d.shift.extractLsb' 1 9 } false))

/-- R232, R233, R234: the amplitude, its range and its largest value; the sign; the soft decision and its range. -/
def Obligations.AmplitudeAndSoftDecision : Prop :=
  (∀ i q : Byte, amplitude i q = max i.toInt.natAbs q.toInt.natAbs + (min i.toInt.natAbs q.toInt.natAbs) / 2 ∧
    amplitude i q ≤ 192 ∧ (amplitude i q = 192 ↔ i = 0x80 ∧ q = 0x80) ∧
    amplitude 0x80 q = 128 + q.toInt.natAbs / 2 ∧ (aboveThreshold i q = true ↔ 8 < amplitude i q)) ∧
  (∀ (c : Config) (x : Int), (0 < x → sgn c x = 1) ∧ (x < 0 → sgn c x = -1) ∧
    (x = 0 → (c.sgnZero = .minusOne → sgn c x = -1) ∧ (c.sgnZero = .zero → sgn c x = 0) ∧
      (c.sgnZero = .plusOne → sgn c x = 1))) ∧
  (∀ (c : Config) (d : Demod) (i q : Byte),
    softDecision c d i q = sgn c d.sumI.toInt * i.toInt + sgn c d.sumQ.toInt * q.toInt ∧
    -256 ≤ softDecision c d i q ∧ softDecision c d i q ≤ 256)

/-- R241, R242, R248: after TR1, a low phase of L samples and one sample of 1 is accepted exactly when L is 18 to 28. -/
def Obligations.DemodAcceptsLowPhasesOf18To28Samples : Prop :=
  ∀ (s : State) (lows : List (Byte × Byte)) (i q : Byte), s.demod.state = .awaitingFallingEdgeOfSof →
    1 ≤ lows.length → lows.length ≤ 29 → (∀ x ∈ lows, softDecision s.cfg s.demod x.1 x.2 < 0) →
    0 < softDecision s.cfg s.demod i q →
    ∃ t, runCommands ((lows ++ [(i, q)]).map fun x => .demodStep x.1 x.2) s = .next t ∧
      (t.demod.state = .awaitingStartBit ↔ 18 ≤ lows.length ∧ lows.length ≤ 28)

/-- R178, R248: after any silence, over the ideal channel of a tag frame with a reference of amplitude above 8, DEMOD.INIT
and one DEMOD.STEP a sample return true exactly at the last sample of the EOF, with the frame's bytes in DOUT. -/
def Obligations.DemodDecodesTheTagEncoding : Prop :=
  ∀ (n : Half) (s : State) (d : List Byte) (silence : List (Byte × Byte)) (i q : Byte),
    d.length ≤ n.toNat → n.toNat ≤ s.cfg.doutSize → (∀ x ∈ silence, amplitude x.1 x.2 ≤ 8) → 8 < amplitude i q →
    i ≠ 0x80 → q ≠ 0x80 →
    (∃ t, runCommands (.demodInit n :: (silence ++ tagChannel i q d).map fun x => .demodStep x.1 x.2) s = .next t ∧
      t.dDone = true ∧ t.demod.len.toNat = d.length ∧ t.demod.overflow = false ∧ t.demod.state = .unsynced ∧
      holdsBytes .dout d t.mem) ∧
    ∀ k < (silence ++ tagChannel i q d).length,
      ∃ t, runCommands (.demodInit n :: ((silence ++ tagChannel i q d).take k).map fun x => .demodStep x.1 x.2) s = .next t ∧
        t.dDone = false

/-- R47: the sums stay constant after training and len never exceeds max_len; every error return, a silent one (R240 to
R245) or the overflow, leaves UNSYNCED and zero, and a silent return to UNSYNCED is one of them. -/
def Obligations.DemodSumsAreConstantAfterTraining : Prop :=
  ∀ (i q : Byte) (s : State), DemodInv s.cfg s.demod s.mem →
    (∀ t, exec (.demodStep i q) s = .next t →
      (2 ≤ s.demod.state.code.toNat →
        (t.demod.sumI = s.demod.sumI ∧ t.demod.sumQ = s.demod.sumQ) ∨
        (t.demod.state = .unsynced ∧ t.demod.sumI = 0 ∧ t.demod.sumQ = 0)) ∧
      t.demod.len ≤ t.demod.maxLen ∧
      (s.demod.state ≠ .unsynced → t.demod.state = .unsynced → t.dDone = false →
        demodError (softDecision s.cfg s.demod i q) i q s.demod)) ∧
    (demodError (softDecision s.cfg s.demod i q) i q s.demod →
      exec (.demodStep i q) s = .next { s with demod := demodLost s.demod, dDone := false }) ∧
    (demodOverflow (softDecision s.cfg s.demod i q) s.demod →
      exec (.demodStep i q) s = .next { s with demod := { demodLost s.demod with overflow := true }, dDone := true })

/-! ### The transceiver -/

/-- R271, R274: the slot of a reader transmission. The clock's wrap (R383) is the premise of the slipped slot. -/
def Obligations.SlotsAreMultiplesOf16AndSlipByPolicy : Prop :=
  ∀ (c : Config) (now st : Word),
    (txSlot c now st).toNat % 16 = 0 ∧
    (slotFor st).toNat = (max st.toNat 16 - 16) / 16 * 16 ∧
    (now.toNat ≤ (slotFor st).toNat → txSlot c now st = slotFor st) ∧
    ((slotFor st).toNat < now.toNat → c.slipPolicy = .targetPlus16 →
      (txSlot c now st).toNat = (slotFor st).toNat + 16) ∧
    ((slotFor st).toNat < now.toNat → c.slipPolicy = .nextSlotAfterNow → now.toNat + 16 < 2 ^ 32 →
      now.toNat < (txSlot c now st).toNat ∧ (txSlot c now st).toNat ≤ now.toNat + 16) ∧
    (now.toNat + 16 < 2 ^ 32 → (slotFor st).toNat ≤ (txSlot c now st).toNat)

/-- R34, R271, R273: TRX.TX_READER accepted, up to its slot wait. -/
def Obligations.TxReaderIsAccepted : Prop :=
  encode .trxTxReader = 0x30000000 ∧
  ∀ s : State, exec .trxTxReader s = .next { s with
    txMode := .readerAsk
    eng := { s.eng with
      busy := true, op := 0x30, hold := .slot none, txTarget := txSlot s.cfg s.env.now s.arg0, txIdx := 0 } }

/-- R273, R275, R278, R279: from its slot on, with the slot reached and the consumer ready for the frame, a reader
transmission emits two equal words for each bit of the send buffer in order, one word a step, then writes its results; a
TRX.CODE_TX_READER also writes RES1 and its trace record. -/
def Obligations.ReaderTransmissionRunsToItsEnd : Prop :=
  ∀ (s : State) (frame : Option (List Byte)), s.cfg.wf = true → SendInv s.cfg s.ts s.mem → s.eng.busy = true →
    s.eng.hold = .slot frame → s.eng.txIdx = 0 → s.env.cancel = false → s.eng.txTarget ≤ s.env.now →
    16 * s.ts.len ≤ s.env.txReady →
    runSteps (1 + 16 * s.ts.len) s = .next { s with
      res0 := s.eng.txTarget + 16
      res1 := if frame.isSome then s.eng.txTarget + 16 + BitVec.ofNat 32 (256 * s.ts.len) else s.res1
      eng := { idled s.eng with txIdx := BitVec.ofNat 32 (8 * s.ts.len) }
      env := { s.env with txReady := s.env.txReady - 16 * s.ts.len }
      out := { s.out with
        tx := s.out.tx ++ (List.range (8 * s.ts.len)).flatMap fun p =>
          let w : Half := if bufferBit .tosend s.mem p = some true then 0x0000 else 0xFFFF
          [.tx16 w, .tx16 w]
        trace := s.out.trace ++ frame.toList.map fun bytes =>
          { bytes := bytes, startTs := s.eng.txTarget + 16,
            endTs := s.eng.txTarget + 16 + BitVec.ofNat 32 (256 * s.ts.len), crcOk := none, direction := .reader } } }

/-- R278: TRX.CODE_TX_READER accepted: the reader frame of CMDBUF[0..n-1] in the send buffer, then the slot wait. That it
carries the frame's bytes for its trace is log entry 10. -/
def Obligations.CodeTxReaderIsAccepted : Prop :=
  ∀ (n : Half) (s : State) (d : List Byte), s.cfg.wf = true → d.length = n.toNat → d.length ≤ s.cfg.cmdbufSize →
    holdsBytes .cmdbuf d s.mem → (22 + 10 * d.length + 7) / 8 ≤ s.cfg.tosendSize →
    ∃ t, exec (.trxCodeTxReader n) s = .next t ∧ ReaderEncoded d s.mem t.ts t.mem ∧
      t = { s with
        ts := t.ts, mem := t.mem, txMode := .readerAsk
        eng := { s.eng with
          busy := true, op := 0x33, hold := .slot (some d), txTarget := txSlot s.cfg s.env.now s.arg0, txIdx := 0 } }

/-- R120, R276: TRX.TX_TAG accepted, for its three sources; the reserved selector. -/
def Obligations.TxTagIsAccepted : Prop :=
  ∀ s : State,
    exec (.trxTxTag 0) s = .next (tagBegun 0x31 .tosend s) ∧ encode (.trxTxTag 0) = 0x31000000 ∧
    exec (.trxTxTag 1) s = .next (tagBegun 0x31 .eatqb s) ∧ encode (.trxTxTag 1) = 0x31000001 ∧
    exec (.trxTxTag 2) s = .next (tagBegun 0x31 .eok s) ∧ encode (.trxTxTag 2) = 0x31000002 ∧
    exec (.trxTxTag 3) s = .next (s.raise .illegal 0x31000003)

/-- R276, R277: with the consumer ready, a tag transmission emits the bytes of its source in index order, one a step, and
leaves TX_MODE as it is. -/
def Obligations.TagTransmissionRunsToItsEnd : Prop :=
  ∀ (s : State) (src : TxSource) (bytes : List Byte), s.eng.busy = true → s.eng.hold = .tagByte src → s.eng.txIdx = 0 →
    s.env.cancel = false → bytes.length = txLen src s → 1 ≤ bytes.length → bytes.length ≤ src.window.capacity s.cfg →
    bytes.length ≤ 4096 → holdsBytes src.window bytes s.mem → bytes.length ≤ s.env.txReady →
    runSteps bytes.length s = .next { s with
      eng := { idled s.eng with txIdx := BitVec.ofNat 32 bytes.length }
      env := { s.env with txReady := s.env.txReady - bytes.length }
      out := { s.out with tx := s.out.tx ++ bytes.map .tx8 } }

/-- R235, R280, R281: TRX.RX_TAG accepted, up to its first sample. -/
def Obligations.RxTagIsAccepted : Prop :=
  ∀ (n : Half) (s : State),
    encode (.trxRxTag n) = 0x32000000 ||| n.setWidth 32 ∧
    (n.toNat ≤ s.cfg.doutSize → exec (.trxRxTag n) s = .next { s with
      demod := { state := .unsynced, sumI := 0, sumQ := 0, posCount := 0, bitCount := 0, thisBit := 0, shift := 0, len := 0,
                 maxLen := n, overflow := false }
      dDone := false
      ring := { s.ring with consumed := s.ring.produced }
      eng := { s.eng with
        busy := true, op := 0x32, hold := .sample, rxT0 := s.env.now, rxSamples := 0, rxLimit := s.arg0 } }) ∧
    (s.cfg.doutSize < n.toNat → exec (.trxRxTag n) s = .next (s.raise .range (0x32000000 ||| n.setWidth 32)))

/-- R95, R280, R282, R283, R284: one sample of a receive: the entry is consumed, the Demod steps on it as DEMOD.STEP does,
and then the receive ends in overflow, success or timeout, or goes on. -/
def Obligations.RxTagStepsTheDemodOncePerSample : Prop :=
  ∀ s : State, s.Inv → s.eng.busy = true → s.eng.hold = .sample → s.env.cancel = false →
    s.ring.consumed < s.ring.produced →
    ∃ i q u t, s.mem.read (0x6000 + 2 * (s.ring.consumed % s.cfg.sringEntries)) = some i ∧
      s.mem.read (0x6000 + 2 * (s.ring.consumed % s.cfg.sringEntries) + 1) = some q ∧
      exec (.demodStep i q) { s with
        ring := { s.ring with consumed := s.ring.consumed + 1 }
        eng := { s.eng with rxSamples := s.eng.rxSamples + 1 } } = .next u ∧
      step s = .next t ∧
      (let eof := u.eng.rxT0 + 16 * u.eng.rxSamples - 32
       (u.dDone = true → u.demod.overflow = true → t = { u with res0 := 0xFFFFFFFE, eng := idled u.eng }) ∧
       (u.dDone = true → u.demod.overflow = false →
         ∃ bytes, bytes.length = u.demod.len.toNat ∧ holdsBytes .dout bytes u.mem ∧
           t = { u with
             res0 := BitVec.ofNat 32 bytes.length, res1 := eof, eng := idled u.eng
             out := { u.out with trace := u.out.trace ++ [{
               bytes := bytes, startTs := eof - BitVec.ofNat 32 (1024 * bytes.length) - 512, endTs := eof, crcOk := none,
               direction := .tag }] } }) ∧
       (u.dDone = false → u.eng.rxLimit < u.eng.rxSamples → u.demod.state = .unsynced →
         t = { u with res0 := 0xFFFFFFFF, eng := idled u.eng }) ∧
       (u.dDone = false → ¬ (u.eng.rxLimit < u.eng.rxSamples ∧ u.demod.state = .unsynced) → t = u))

/-- R282, R352: with no carrier, a receive of a budget of a0 samples times out at sample a0 + 1. -/
def Obligations.SilenceTimesOut : Prop :=
  ∀ (s : State) (silence : List (Byte × Byte)) (rest : List Move), s.Inv → s.eng.busy = true → s.eng.hold = .sample →
    s.env.cancel = false → s.demod.state = .unsynced → s.eng.rxSamples = 0 → s.ring.consumed = s.ring.produced →
    silence.length = s.eng.rxLimit.toNat + 1 → silence.length < 2 ^ 32 → (∀ x ∈ silence, amplitude x.1 x.2 ≤ 8) →
    s.env.moves = silence.map (fun x => .produce x.1 x.2) ++ rest →
    ∃ t, runSteps (2 * silence.length) s = .next t ∧ t.res0 = 0xFFFFFFFF ∧ t.res1 = s.res1 ∧ t.eng.busy = false ∧
      t.eng.rxSamples.toNat = silence.length ∧ t.fault = none ∧ t.out = s.out ∧ t.env.moves = rest

/-- R178, R280, R283: TRX.RX_TAG over the ideal channel of a tag frame, delivered sample by sample after its acceptance,
ends with the frame in DOUT, its length in RES0 and its end time in RES1. -/
def Obligations.RxTagReceivesTheTagEncoding : Prop :=
  ∀ (n : Half) (s : State) (d : List Byte) (silence : List (Byte × Byte)) (i q : Byte) (rest : List Move),
    s.Inv → s.Accepts → s.env.cancel = false → d.length ≤ n.toNat → n.toNat ≤ s.cfg.doutSize →
    (∀ x ∈ silence, amplitude x.1 x.2 ≤ 8) → silence.length ≤ s.arg0.toNat → 8 < amplitude i q → i ≠ 0x80 → q ≠ 0x80 →
    silence.length + (tagChannel i q d).length < 2 ^ 32 →
    s.env.moves = (silence ++ tagChannel i q d).map (fun x => .produce x.1 x.2) ++ rest →
    ∃ t, andThen (exec (.trxRxTag n) s) (runSteps (2 * (silence ++ tagChannel i q d).length)) = .next t ∧
      t.res0 = BitVec.ofNat 32 d.length ∧
      t.res1 = s.env.now + BitVec.ofNat 32 (16 * (silence ++ tagChannel i q d).length) - 32 ∧
      holdsBytes .dout d t.mem ∧ t.eng.busy = false ∧ t.fault = none ∧ t.out.tx = s.out.tx ∧ t.env.moves = rest

/-- R286, R287. -/
def Obligations.SessionParametersAreClamped : Prop :=
  encode .trxSetTimeout = 0x34000000 ∧ encode .trxSetMaxFrame = 0x35000000 ∧
  ∀ s : State,
    exec .trxSetTimeout s = .next { s with session := {
      timeout := if s.arg0.toNat ≤ s.cfg.maxTimeout.toNat then s.arg0 else s.cfg.maxTimeout
      frameMax := s.session.frameMax } } ∧
    exec .trxSetMaxFrame s = .next { s with session := {
      timeout := s.session.timeout
      frameMax := if 256 < s.arg0.toNat then s.cfg.maxFrameSize else s.arg0 } }

/-! ### The emulator -/

/-- R136, R137, R175, R311: EMU.INIT builds ATQB for the PUPI of ARG0, the encoded images of it and of the OK response, and
leaves the OK response in the send buffer. -/
def Obligations.EmuInitBuildsTheResponses : Prop :=
  encode .emuInit = 0x40000000 ∧
  ∀ s : State, s.cfg.wf = true →
    (s.cfg.tosendSize < 92 → exec .emuInit s = .next (s.raise .tosendOvf (BitVec.ofNat 32 s.cfg.tosendSize))) ∧
    (92 ≤ s.cfg.tosendSize →
      let atqb : List Byte :=
        if s.arg0 = 0 then [0x50, 0x82, 0x0D, 0xE1, 0x74, 0x20, 0x38, 0x19, 0x22, 0x00, 0x21, 0x85, 0x5E, 0xD7]
        else appendCrc [0x50, s.arg0.extractLsb' 24 8, s.arg0.extractLsb' 16 8, s.arg0.extractLsb' 8 8,
          s.arg0.extractLsb' 0 8, 0x20, 0x38, 0x19, 0x22, 0x00, 0x21, 0x85]
      ∃ t, exec .emuInit s = .next t ∧
        t = { s with
          ts := { max := 36, bit := 8 }, mem := t.mem, emu := { state := .nofield, eatqbLen := 92, eokLen := 37 } } ∧
        atqb.length = 14 ∧ holdsBytes .atqb atqb t.mem ∧
        (∀ p < 8 * 92, bufferBit .eatqb t.mem p = some (tagBit atqb (p / 4))) ∧
        (∀ p < 8 * 37, bufferBit .eok t.mem p = some (tagBit [0x00, 0x78, 0xF0] (p / 4))) ∧
        (∀ p < 8 * 37, bufferBit .tosend t.mem p = some (tagBit [0x00, 0x78, 0xF0] (p / 4))) ∧
        ∀ a, ¬ (0x2000 ≤ a ∧ a < 0x2000 + 92) → ¬ (0x5000 ≤ a ∧ a < 0x5000 + 14) → ¬ (0x5100 ≤ a ∧ a < 0x5100 + 92) →
          ¬ (0x5200 ≤ a ∧ a < 0x5200 + 37) → t.mem.read a = s.mem.read a)

/-- R312. -/
def Obligations.EmuFieldFollowsTheThreshold : Prop :=
  encode .emuField = 0x41000000 ∧
  ∀ s : State, exec .emuField s = .next { s with emu := { s.emu with
    state :=
      if s.emu.state = .nofield then (if s.cfg.fieldThreshold.toNat < s.env.fieldV.toNat then .idle else .nofield)
      else (if s.env.fieldV.toNat ≤ s.cfg.fieldThreshold.toNat then .nofield else s.emu.state) } }

/-- R142, R143: the classifier, by length and first byte. -/
def Obligations.ClassifierTestsLengthAndFirstByte : Prop :=
  ∀ f : List Byte,
    (classify f = .wupb ↔ f.length = 5 ∧ f[0]? = some 0x05 ∧ ∃ p, f[2]? = some p ∧ p.getLsbD 3 = true) ∧
    (classify f = .reqb ↔ f.length = 5 ∧ f[0]? = some 0x05 ∧ ∃ p, f[2]? = some p ∧ p.getLsbD 3 = false) ∧
    (classify f = .attrib ↔ f.length = 11 ∧ f[0]? = some 0x1D) ∧
    (classify f = .hltb ↔ f.length = 7 ∧ f[0]? = some 0x50) ∧
    (classify f = .other ↔
      ¬ (f.length = 5 ∧ f[0]? = some 0x05) ∧ ¬ (f.length = 11 ∧ f[0]? = some 0x1D) ∧ ¬ (f.length = 7 ∧ f[0]? = some 0x50))

/-- R313 to R319: EMU.FRAME on the frame UOUT[0..U_BYTECNT-1], by the whole table. -/
def Obligations.EmuFrameFollowsTheTable : Prop :=
  encode .emuFrame = 0x42000000 ∧
  ∀ (s : State) (f : List Byte) (next : EState) (resp : Option TxSource) (kind : TraceKind),
    UartInv s.cfg s.uart s.mem → f.length = s.uart.byteCnt.toNat → holdsBytes .uout f s.mem →
    emuTable s.emu.state (classify f) = some (next, resp, kind) →
    let u : State := { s with
      emu := { s.emu with state := next }
      out := { s.out with trace := s.out.trace ++ frameRecords kind f s.env.now } }
    (resp = none → exec .emuFrame s = .next u) ∧
    (∀ src, resp = some src → exec .emuFrame s = .next (tagBegun 0x42 src u))

/-- R201, R320: EMU.RX accepted, up to its first reader bit. -/
def Obligations.EmuRxIsAccepted : Prop :=
  ∀ (n : Half) (s : State),
    encode (.emuRx n) = 0x43000000 ||| n.setWidth 32 ∧
    (n.toNat ≤ s.cfg.uoutSize → exec (.emuRx n) s = .next { s with
      uart := { state := .unsynced, shift := 0, bitCnt := 0, byteCnt := 0, byteCntMax := n, posCnt := 0 }
      uDone := false
      eng := { s.eng with busy := true, op := 0x43, hold := .rbit } }) ∧
    (s.cfg.uoutSize < n.toNat → exec (.emuRx n) s = .next (s.raise .range (0x43000000 ||| n.setWidth 32)))

/-- R97, R204, R320: one reader bit of EMU.RX: the bit is taken, the Uart steps on it as UART.STEP does, and the command ends
exactly when that step returns true. -/
def Obligations.EmuRxStepsTheUartOncePerBit : Prop :=
  ∀ (s : State) (b : Bool) (rest : List Bool), s.Inv → s.eng.busy = true → s.eng.hold = .rbit → s.env.cancel = false →
    s.env.rbits = b :: rest →
    ∃ u, exec (.uartStep b) { s with env := { s.env with rbits := rest } } = .next u ∧
      (u.uDone = false → step s = .next u) ∧
      (u.uDone = true → step s = .next { u with res0 := BitVec.ofNat 32 u.uart.byteCnt.toNat, eng := idled u.eng })

/-- R178, R320: EMU.RX over the ideal channel of a reader frame ends with the frame in UOUT and its length in RES0. -/
def Obligations.EmuRxReceivesTheReaderEncoding : Prop :=
  ∀ (n : Half) (s : State) (d : List Byte) (later : List Bool), s.Accepts → s.env.cancel = false → 1 ≤ d.length →
    n.toNat ≤ s.cfg.uoutSize → (d.length < n.toNat ∨ (d.length = n.toNat ∧ s.cfg.uartOvfCheck = .beforeStore)) →
    s.env.rbits = (readerChannel d).dropLast ++ later →
    ∃ t, andThen (exec (.emuRx n) s) (runSteps ((readerChannel d).length - 1)) = .next t ∧
      t.res0 = BitVec.ofNat 32 d.length ∧ t.uDone = true ∧ holdsBytes .uout d t.mem ∧ t.eng.busy = false ∧
      t.env.rbits = later ∧ t.emu = s.emu ∧ t.fault = none

end
end

