-- ==== Sys2Proof/Laws/Memory.lean ====
section
/-! SUPPORT. What the memory operations do: a read after a write, the frame of a write, and that every write keeps the
canonical form, in which equal reads mean equal memories. -/

namespace Sys2Proof.Machine

@[simp] theorem Memory.read_nil (a : Nat) : Memory.read [] a = none := rfl

@[simp] theorem Memory.read_write_same (m : Memory) (a : Nat) (v : Byte) : (m.write a v).read a = some v := by
  induction m with
  | nil => simp [Memory.write, Memory.read]
  | cons c rest ih =>
    obtain ⟨k, w⟩ := c
    simp only [Memory.write]
    split
    · simp [Memory.read]
    · split
      · simp [Memory.read]
      · rename_i h
        simp only [Memory.read]
        rw [if_neg (Ne.symm h)]
        exact ih

theorem Memory.read_write_other (m : Memory) {a b : Nat} (v : Byte) (h : b ≠ a) : (m.write a v).read b = m.read b := by
  induction m with
  | nil => simp [Memory.write, Memory.read, h.symm]
  | cons c rest ih =>
    obtain ⟨k, w⟩ := c
    simp only [Memory.write]
    split
    · simp [Memory.read, h.symm]
    · split
      · rename_i ha
        subst ha
        simp [Memory.read, h.symm]
      · simp only [Memory.read, ih]

/-- One read after one write. -/
theorem Memory.read_write (m : Memory) (a b : Nat) (v : Byte) :
    (m.write a v).read b = if b = a then some v else m.read b := by
  split
  · rename_i h
    subst h
    exact m.read_write_same b v
  · rename_i h
    exact m.read_write_other v h

/-- Writing never forgets a byte. -/
theorem Memory.write_keeps_written (m : Memory) (a b : Nat) (v : Byte) (h : (m.read b).isSome = true) :
    ((m.write a v).read b).isSome = true := by
  rw [Memory.read_write]
  split
  · rfl
  · exact h

/-! ### The canonical form -/

theorem Memory.wf_nil : Memory.wf [] = true := rfl

/-- The tail of a canonical memory is canonical, and its addresses lie above the head's. -/
theorem Memory.wf_cons (a : Nat) (v : Byte) (m : Memory) :
    Memory.wf ((a, v) :: m) = true ↔ Memory.wf m = true ∧ ∀ c ∈ m, a < c.1 := by
  induction m generalizing a v with
  | nil => simp [Memory.wf]
  | cons c rest ih =>
    obtain ⟨b, w⟩ := c
    rw [Memory.wf, Bool.and_eq_true, decide_eq_true_iff]
    constructor
    · rintro ⟨hab, hw⟩
      refine ⟨hw, ?_⟩
      intro d hd
      rcases List.mem_cons.1 hd with rfl | hd
      · exact hab
      · exact Nat.lt_trans hab (((ih b w).1 hw).2 d hd)
    · rintro ⟨hw, hall⟩
      exact ⟨hall (b, w) (List.mem_cons_self ..), hw⟩

/-- A cell of a memory after a write is the written one or an older one. -/
theorem Memory.mem_write {m : Memory} {a : Nat} {v : Byte} {c : Host.Cell} (h : c ∈ m.write a v) : c = (a, v) ∨ c ∈ m := by
  induction m with
  | nil => simpa [Memory.write] using h
  | cons d rest ih =>
    obtain ⟨k, w⟩ := d
    simp only [Memory.write] at h
    split at h
    · simpa using h
    · split at h
      · rcases List.mem_cons.1 h with h | h
        · exact .inl h
        · exact .inr (List.mem_cons_of_mem _ h)
      · rcases List.mem_cons.1 h with h | h
        · exact .inr (h ▸ List.mem_cons_self ..)
        · rcases ih h with h | h
          · exact .inl h
          · exact .inr (List.mem_cons_of_mem _ h)

/-- Every write keeps the canonical form. -/
theorem Memory.write_wf (m : Memory) (a : Nat) (v : Byte) (h : m.wf = true) : (m.write a v).wf = true := by
  induction m with
  | nil => rfl
  | cons c rest ih =>
    obtain ⟨k, w⟩ := c
    have hk := (Memory.wf_cons k w rest).1 h
    simp only [Memory.write]
    split
    · rename_i hlt
      refine (Memory.wf_cons a v _).2 ⟨h, ?_⟩
      intro d hd
      rcases List.mem_cons.1 hd with rfl | hd
      · exact hlt
      · exact Nat.lt_trans hlt (hk.2 d hd)
    · split
      · rename_i hlt ha
        subst ha
        exact (Memory.wf_cons a v rest).2 hk
      · rename_i hlt hne
        refine (Memory.wf_cons k w _).2 ⟨ih hk.1, ?_⟩
        intro d hd
        rcases Memory.mem_write hd with rfl | hd
        · exact Nat.lt_of_le_of_ne (Nat.le_of_not_lt hlt) (Ne.symm hne)
        · exact hk.2 d hd

/-- In a canonical memory an address below every cell is unlisted. -/
theorem Memory.read_below {m : Memory} {a : Nat} (h : ∀ c ∈ m, a < c.1) : m.read a = none := by
  induction m with
  | nil => rfl
  | cons c rest ih =>
    obtain ⟨k, w⟩ := c
    have hk : a < k := h (k, w) (List.mem_cons_self ..)
    rw [Memory.read, if_neg (by omega)]
    exact ih fun d hd => h d (List.mem_cons_of_mem _ hd)

/-- A read value is a cell. -/
theorem Memory.mem_of_read {m : Memory} {a : Nat} {v : Byte} (h : m.read a = some v) : (a, v) ∈ m := by
  induction m with
  | nil => simp at h
  | cons c rest ih =>
    obtain ⟨k, w⟩ := c
    rw [Memory.read] at h
    split at h
    · rename_i hk
      subst hk
      simp only [Option.some.injEq] at h
      exact h ▸ List.mem_cons_self ..
    · exact List.mem_cons_of_mem _ (ih h)

/-- Equal reads make equal canonical memories: equal memories are equal data. -/
theorem Memory.ext_of_wf {m m' : Memory} (h : m.wf = true) (h' : m'.wf = true) (hr : ∀ a, m.read a = m'.read a) : m = m' := by
  induction m generalizing m' with
  | nil =>
    cases m' with
    | nil => rfl
    | cons c rest =>
      obtain ⟨k, w⟩ := c
      have := hr k
      simp [Memory.read] at this
  | cons c rest ih =>
    obtain ⟨k, w⟩ := c
    have hk := (Memory.wf_cons k w rest).1 h
    cases m' with
    | nil =>
      have := hr k
      simp [Memory.read] at this
    | cons d rest' =>
      obtain ⟨k', w'⟩ := d
      have hk' := (Memory.wf_cons k' w' rest').1 h'
      have e1 := hr k
      have e2 := hr k'
      have hkk : k = k' := by
        rcases Nat.lt_trichotomy k k' with hlt | heq | hgt
        · rw [Memory.read_below (m := (k', w') :: rest') (by
            intro x hx
            rcases List.mem_cons.1 hx with rfl | hx
            · exact hlt
            · exact Nat.lt_trans hlt (hk'.2 x hx))] at e1
          simp [Memory.read] at e1
        · exact heq
        · rw [Memory.read_below (m := (k, w) :: rest) (by
            intro x hx
            rcases List.mem_cons.1 hx with rfl | hx
            · exact hgt
            · exact Nat.lt_trans hgt (hk.2 x hx))] at e2
          simp [Memory.read] at e2
      subst hkk
      have hw : w = w' := by simpa [Memory.read] using e1
      subst hw
      congr 1
      refine ih hk.1 hk'.1 ?_
      intro a
      by_cases hak : k = a
      · subst hak
        rw [Memory.read_below hk.2, Memory.read_below hk'.2]
      · have := hr a
        rwa [Memory.read, Memory.read, if_neg hak, if_neg hak] at this

/-- Writes to two addresses of a canonical memory commute. -/
theorem Memory.write_comm {m : Memory} {a b : Nat} (v w : Byte) (hm : m.wf = true) (h : a ≠ b) :
    (m.write a v).write b w = (m.write b w).write a v := by
  refine Memory.ext_of_wf (Memory.write_wf _ _ _ (Memory.write_wf _ _ _ hm))
    (Memory.write_wf _ _ _ (Memory.write_wf _ _ _ hm)) ?_
  intro x
  simp only [Memory.read_write]
  by_cases hb : x = b
  · subst hb
    rw [if_pos rfl, if_neg (Ne.symm h), if_pos rfl]
  · by_cases ha : x = a
    · subst ha
      simp [hb]
    · simp [hb, ha]

/-! ### Windows -/

/-- An address the map gives a window lies in that window. -/
theorem windowAt_holds {c : Config} {a : Nat} {w : Window} (h : windowAt c a = some w) : w.holds c a = true := by
  have := List.find?_some h
  simpa using this

/-- An address in a window is mapped. -/
theorem windowAt_of_holds {c : Config} {a : Nat} {w : Window} (h : w.holds c a = true) : (windowAt c a).isSome = true := by
  rw [windowAt, List.find?_isSome]
  exact ⟨w, by cases w <;> simp [Window.all], h⟩

/-- Byte `k` of a window that has it is mapped. -/
theorem windowAt_index {c : Config} {w : Window} {k : Nat} (h : k < w.capacity c) :
    (windowAt c (w.base + k)).isSome = true := by
  refine windowAt_of_holds (w := w) ?_
  simp only [Window.holds, Bool.and_eq_true, decide_eq_true_iff]
  omega

end Sys2Proof.Machine
end

