-- ==== Sys2Proof/Laws/State.lean ====
section
/-! SUPPORT. One lemma per field per update of State, each true by unfolding, so that no later proof unfolds a record
update; and what `raise` and `offerCommand` leave. -/

namespace Sys2Proof.Machine

variable (s : State)

/-! ### The engine going idle (R120). -/

@[simp] theorem State.complete_eng : s.complete.eng = { s.eng with busy := false, op := 0, hold := .none } := rfl
@[simp] theorem State.complete_cfg : s.complete.cfg = s.cfg := rfl
@[simp] theorem State.complete_arg0 : s.complete.arg0 = s.arg0 := rfl
@[simp] theorem State.complete_res0 : s.complete.res0 = s.res0 := rfl
@[simp] theorem State.complete_res1 : s.complete.res1 = s.res1 := rfl
@[simp] theorem State.complete_uDone : s.complete.uDone = s.uDone := rfl
@[simp] theorem State.complete_dDone : s.complete.dDone = s.dDone := rfl
@[simp] theorem State.complete_fault : s.complete.fault = s.fault := rfl
@[simp] theorem State.complete_faultInfo : s.complete.faultInfo = s.faultInfo := rfl
@[simp] theorem State.complete_txMode : s.complete.txMode = s.txMode := rfl
@[simp] theorem State.complete_ts : s.complete.ts = s.ts := rfl
@[simp] theorem State.complete_uart : s.complete.uart = s.uart := rfl
@[simp] theorem State.complete_demod : s.complete.demod = s.demod := rfl
@[simp] theorem State.complete_session : s.complete.session = s.session := rfl
@[simp] theorem State.complete_emu : s.complete.emu = s.emu := rfl
@[simp] theorem State.complete_ring : s.complete.ring = s.ring := rfl
@[simp] theorem State.complete_mem : s.complete.mem = s.mem := rfl
@[simp] theorem State.complete_env : s.complete.env = s.env := rfl
@[simp] theorem State.complete_out : s.complete.out = s.out := rfl

/-! ### A waiting command in flight (R120). -/

@[simp] theorem State.begin_eng (op : Byte) (h : Hold) : (s.begin op h).eng = { s.eng with busy := true, op := op, hold := h } := rfl
@[simp] theorem State.begin_cfg (op : Byte) (h : Hold) : (s.begin op h).cfg = s.cfg := rfl
@[simp] theorem State.begin_arg0 (op : Byte) (h : Hold) : (s.begin op h).arg0 = s.arg0 := rfl
@[simp] theorem State.begin_res0 (op : Byte) (h : Hold) : (s.begin op h).res0 = s.res0 := rfl
@[simp] theorem State.begin_res1 (op : Byte) (h : Hold) : (s.begin op h).res1 = s.res1 := rfl
@[simp] theorem State.begin_uDone (op : Byte) (h : Hold) : (s.begin op h).uDone = s.uDone := rfl
@[simp] theorem State.begin_dDone (op : Byte) (h : Hold) : (s.begin op h).dDone = s.dDone := rfl
@[simp] theorem State.begin_fault (op : Byte) (h : Hold) : (s.begin op h).fault = s.fault := rfl
@[simp] theorem State.begin_faultInfo (op : Byte) (h : Hold) : (s.begin op h).faultInfo = s.faultInfo := rfl
@[simp] theorem State.begin_txMode (op : Byte) (h : Hold) : (s.begin op h).txMode = s.txMode := rfl
@[simp] theorem State.begin_ts (op : Byte) (h : Hold) : (s.begin op h).ts = s.ts := rfl
@[simp] theorem State.begin_uart (op : Byte) (h : Hold) : (s.begin op h).uart = s.uart := rfl
@[simp] theorem State.begin_demod (op : Byte) (h : Hold) : (s.begin op h).demod = s.demod := rfl
@[simp] theorem State.begin_session (op : Byte) (h : Hold) : (s.begin op h).session = s.session := rfl
@[simp] theorem State.begin_emu (op : Byte) (h : Hold) : (s.begin op h).emu = s.emu := rfl
@[simp] theorem State.begin_ring (op : Byte) (h : Hold) : (s.begin op h).ring = s.ring := rfl
@[simp] theorem State.begin_mem (op : Byte) (h : Hold) : (s.begin op h).mem = s.mem := rfl
@[simp] theorem State.begin_env (op : Byte) (h : Hold) : (s.begin op h).env = s.env := rfl
@[simp] theorem State.begin_out (op : Byte) (h : Hold) : (s.begin op h).out = s.out := rfl

/-! ### The command in flight at its next hold. -/

@[simp] theorem State.holdAt_eng (h : Hold) : (s.holdAt h).eng = { s.eng with hold := h } := rfl
@[simp] theorem State.holdAt_cfg (h : Hold) : (s.holdAt h).cfg = s.cfg := rfl
@[simp] theorem State.holdAt_arg0 (h : Hold) : (s.holdAt h).arg0 = s.arg0 := rfl
@[simp] theorem State.holdAt_res0 (h : Hold) : (s.holdAt h).res0 = s.res0 := rfl
@[simp] theorem State.holdAt_res1 (h : Hold) : (s.holdAt h).res1 = s.res1 := rfl
@[simp] theorem State.holdAt_uDone (h : Hold) : (s.holdAt h).uDone = s.uDone := rfl
@[simp] theorem State.holdAt_dDone (h : Hold) : (s.holdAt h).dDone = s.dDone := rfl
@[simp] theorem State.holdAt_fault (h : Hold) : (s.holdAt h).fault = s.fault := rfl
@[simp] theorem State.holdAt_faultInfo (h : Hold) : (s.holdAt h).faultInfo = s.faultInfo := rfl
@[simp] theorem State.holdAt_txMode (h : Hold) : (s.holdAt h).txMode = s.txMode := rfl
@[simp] theorem State.holdAt_ts (h : Hold) : (s.holdAt h).ts = s.ts := rfl
@[simp] theorem State.holdAt_uart (h : Hold) : (s.holdAt h).uart = s.uart := rfl
@[simp] theorem State.holdAt_demod (h : Hold) : (s.holdAt h).demod = s.demod := rfl
@[simp] theorem State.holdAt_session (h : Hold) : (s.holdAt h).session = s.session := rfl
@[simp] theorem State.holdAt_emu (h : Hold) : (s.holdAt h).emu = s.emu := rfl
@[simp] theorem State.holdAt_ring (h : Hold) : (s.holdAt h).ring = s.ring := rfl
@[simp] theorem State.holdAt_mem (h : Hold) : (s.holdAt h).mem = s.mem := rfl
@[simp] theorem State.holdAt_env (h : Hold) : (s.holdAt h).env = s.env := rfl
@[simp] theorem State.holdAt_out (h : Hold) : (s.holdAt h).out = s.out := rfl

/-! ### Cancellation (R350). -/

@[simp] theorem State.cancelled_eng : s.cancelled.eng = { s.eng with busy := false, op := 0, hold := .none } := rfl
@[simp] theorem State.cancelled_res0 : s.cancelled.res0 = resCancelled := rfl
@[simp] theorem State.cancelled_txMode : s.cancelled.txMode = .off := rfl
@[simp] theorem State.cancelled_cfg : s.cancelled.cfg = s.cfg := rfl
@[simp] theorem State.cancelled_arg0 : s.cancelled.arg0 = s.arg0 := rfl
@[simp] theorem State.cancelled_res1 : s.cancelled.res1 = s.res1 := rfl
@[simp] theorem State.cancelled_uDone : s.cancelled.uDone = s.uDone := rfl
@[simp] theorem State.cancelled_dDone : s.cancelled.dDone = s.dDone := rfl
@[simp] theorem State.cancelled_fault : s.cancelled.fault = s.fault := rfl
@[simp] theorem State.cancelled_faultInfo : s.cancelled.faultInfo = s.faultInfo := rfl
@[simp] theorem State.cancelled_ts : s.cancelled.ts = s.ts := rfl
@[simp] theorem State.cancelled_uart : s.cancelled.uart = s.uart := rfl
@[simp] theorem State.cancelled_demod : s.cancelled.demod = s.demod := rfl
@[simp] theorem State.cancelled_session : s.cancelled.session = s.session := rfl
@[simp] theorem State.cancelled_emu : s.cancelled.emu = s.emu := rfl
@[simp] theorem State.cancelled_ring : s.cancelled.ring = s.ring := rfl
@[simp] theorem State.cancelled_mem : s.cancelled.mem = s.mem := rfl
@[simp] theorem State.cancelled_env : s.cancelled.env = s.env := rfl
@[simp] theorem State.cancelled_out : s.cancelled.out = s.out := rfl

/-! ### A TX word accepted (R272). -/

@[simp] theorem State.emitTx_env (w : TxWord) : (s.emitTx w).env = { s.env with txReady := s.env.txReady - 1 } := rfl
@[simp] theorem State.emitTx_out (w : TxWord) : (s.emitTx w).out = { s.out with tx := s.out.tx ++ [w] } := rfl
@[simp] theorem State.emitTx_cfg (w : TxWord) : (s.emitTx w).cfg = s.cfg := rfl
@[simp] theorem State.emitTx_arg0 (w : TxWord) : (s.emitTx w).arg0 = s.arg0 := rfl
@[simp] theorem State.emitTx_res0 (w : TxWord) : (s.emitTx w).res0 = s.res0 := rfl
@[simp] theorem State.emitTx_res1 (w : TxWord) : (s.emitTx w).res1 = s.res1 := rfl
@[simp] theorem State.emitTx_uDone (w : TxWord) : (s.emitTx w).uDone = s.uDone := rfl
@[simp] theorem State.emitTx_dDone (w : TxWord) : (s.emitTx w).dDone = s.dDone := rfl
@[simp] theorem State.emitTx_fault (w : TxWord) : (s.emitTx w).fault = s.fault := rfl
@[simp] theorem State.emitTx_faultInfo (w : TxWord) : (s.emitTx w).faultInfo = s.faultInfo := rfl
@[simp] theorem State.emitTx_txMode (w : TxWord) : (s.emitTx w).txMode = s.txMode := rfl
@[simp] theorem State.emitTx_eng (w : TxWord) : (s.emitTx w).eng = s.eng := rfl
@[simp] theorem State.emitTx_ts (w : TxWord) : (s.emitTx w).ts = s.ts := rfl
@[simp] theorem State.emitTx_uart (w : TxWord) : (s.emitTx w).uart = s.uart := rfl
@[simp] theorem State.emitTx_demod (w : TxWord) : (s.emitTx w).demod = s.demod := rfl
@[simp] theorem State.emitTx_session (w : TxWord) : (s.emitTx w).session = s.session := rfl
@[simp] theorem State.emitTx_emu (w : TxWord) : (s.emitTx w).emu = s.emu := rfl
@[simp] theorem State.emitTx_ring (w : TxWord) : (s.emitTx w).ring = s.ring := rfl
@[simp] theorem State.emitTx_mem (w : TxWord) : (s.emitTx w).mem = s.mem := rfl

/-! ### A trace record emitted (R359). -/

@[simp] theorem State.emitTrace_out (r : TraceRec) : (s.emitTrace r).out = { s.out with trace := s.out.trace ++ [r] } := rfl
@[simp] theorem State.emitTrace_cfg (r : TraceRec) : (s.emitTrace r).cfg = s.cfg := rfl
@[simp] theorem State.emitTrace_arg0 (r : TraceRec) : (s.emitTrace r).arg0 = s.arg0 := rfl
@[simp] theorem State.emitTrace_res0 (r : TraceRec) : (s.emitTrace r).res0 = s.res0 := rfl
@[simp] theorem State.emitTrace_res1 (r : TraceRec) : (s.emitTrace r).res1 = s.res1 := rfl
@[simp] theorem State.emitTrace_uDone (r : TraceRec) : (s.emitTrace r).uDone = s.uDone := rfl
@[simp] theorem State.emitTrace_dDone (r : TraceRec) : (s.emitTrace r).dDone = s.dDone := rfl
@[simp] theorem State.emitTrace_fault (r : TraceRec) : (s.emitTrace r).fault = s.fault := rfl
@[simp] theorem State.emitTrace_faultInfo (r : TraceRec) : (s.emitTrace r).faultInfo = s.faultInfo := rfl
@[simp] theorem State.emitTrace_txMode (r : TraceRec) : (s.emitTrace r).txMode = s.txMode := rfl
@[simp] theorem State.emitTrace_eng (r : TraceRec) : (s.emitTrace r).eng = s.eng := rfl
@[simp] theorem State.emitTrace_ts (r : TraceRec) : (s.emitTrace r).ts = s.ts := rfl
@[simp] theorem State.emitTrace_uart (r : TraceRec) : (s.emitTrace r).uart = s.uart := rfl
@[simp] theorem State.emitTrace_demod (r : TraceRec) : (s.emitTrace r).demod = s.demod := rfl
@[simp] theorem State.emitTrace_session (r : TraceRec) : (s.emitTrace r).session = s.session := rfl
@[simp] theorem State.emitTrace_emu (r : TraceRec) : (s.emitTrace r).emu = s.emu := rfl
@[simp] theorem State.emitTrace_ring (r : TraceRec) : (s.emitTrace r).ring = s.ring := rfl
@[simp] theorem State.emitTrace_mem (r : TraceRec) : (s.emitTrace r).mem = s.mem := rfl
@[simp] theorem State.emitTrace_env (r : TraceRec) : (s.emitTrace r).env = s.env := rfl

/-! ### A host read's value (R84). -/

@[simp] theorem State.reply_out (v : Word) : (s.reply v).out = { s.out with bus := s.out.bus ++ [v] } := rfl
@[simp] theorem State.reply_cfg (v : Word) : (s.reply v).cfg = s.cfg := rfl
@[simp] theorem State.reply_arg0 (v : Word) : (s.reply v).arg0 = s.arg0 := rfl
@[simp] theorem State.reply_res0 (v : Word) : (s.reply v).res0 = s.res0 := rfl
@[simp] theorem State.reply_res1 (v : Word) : (s.reply v).res1 = s.res1 := rfl
@[simp] theorem State.reply_uDone (v : Word) : (s.reply v).uDone = s.uDone := rfl
@[simp] theorem State.reply_dDone (v : Word) : (s.reply v).dDone = s.dDone := rfl
@[simp] theorem State.reply_fault (v : Word) : (s.reply v).fault = s.fault := rfl
@[simp] theorem State.reply_faultInfo (v : Word) : (s.reply v).faultInfo = s.faultInfo := rfl
@[simp] theorem State.reply_txMode (v : Word) : (s.reply v).txMode = s.txMode := rfl
@[simp] theorem State.reply_eng (v : Word) : (s.reply v).eng = s.eng := rfl
@[simp] theorem State.reply_ts (v : Word) : (s.reply v).ts = s.ts := rfl
@[simp] theorem State.reply_uart (v : Word) : (s.reply v).uart = s.uart := rfl
@[simp] theorem State.reply_demod (v : Word) : (s.reply v).demod = s.demod := rfl
@[simp] theorem State.reply_session (v : Word) : (s.reply v).session = s.session := rfl
@[simp] theorem State.reply_emu (v : Word) : (s.reply v).emu = s.emu := rfl
@[simp] theorem State.reply_ring (v : Word) : (s.reply v).ring = s.ring := rfl
@[simp] theorem State.reply_mem (v : Word) : (s.reply v).mem = s.mem := rfl
@[simp] theorem State.reply_env (v : Word) : (s.reply v).env = s.env := rfl

/-! ### The send buffer replaced (R170). -/

@[simp] theorem State.withSend_ts (x : SendState) : (s.withSend x).ts = x.ts := rfl
@[simp] theorem State.withSend_mem (x : SendState) : (s.withSend x).mem = x.mem := rfl
@[simp] theorem State.withSend_cfg (x : SendState) : (s.withSend x).cfg = s.cfg := rfl
@[simp] theorem State.withSend_arg0 (x : SendState) : (s.withSend x).arg0 = s.arg0 := rfl
@[simp] theorem State.withSend_res0 (x : SendState) : (s.withSend x).res0 = s.res0 := rfl
@[simp] theorem State.withSend_res1 (x : SendState) : (s.withSend x).res1 = s.res1 := rfl
@[simp] theorem State.withSend_uDone (x : SendState) : (s.withSend x).uDone = s.uDone := rfl
@[simp] theorem State.withSend_dDone (x : SendState) : (s.withSend x).dDone = s.dDone := rfl
@[simp] theorem State.withSend_fault (x : SendState) : (s.withSend x).fault = s.fault := rfl
@[simp] theorem State.withSend_faultInfo (x : SendState) : (s.withSend x).faultInfo = s.faultInfo := rfl
@[simp] theorem State.withSend_txMode (x : SendState) : (s.withSend x).txMode = s.txMode := rfl
@[simp] theorem State.withSend_eng (x : SendState) : (s.withSend x).eng = s.eng := rfl
@[simp] theorem State.withSend_uart (x : SendState) : (s.withSend x).uart = s.uart := rfl
@[simp] theorem State.withSend_demod (x : SendState) : (s.withSend x).demod = s.demod := rfl
@[simp] theorem State.withSend_session (x : SendState) : (s.withSend x).session = s.session := rfl
@[simp] theorem State.withSend_emu (x : SendState) : (s.withSend x).emu = s.emu := rfl
@[simp] theorem State.withSend_ring (x : SendState) : (s.withSend x).ring = s.ring := rfl
@[simp] theorem State.withSend_env (x : SendState) : (s.withSend x).env = s.env := rfl
@[simp] theorem State.withSend_out (x : SendState) : (s.withSend x).out = s.out := rfl

/-! ### Other external moves to come. -/

@[simp] theorem State.withMoves_env (ms : List Move) : (s.withMoves ms).env = { s.env with moves := ms } := rfl
@[simp] theorem State.withMoves_cfg (ms : List Move) : (s.withMoves ms).cfg = s.cfg := rfl
@[simp] theorem State.withMoves_arg0 (ms : List Move) : (s.withMoves ms).arg0 = s.arg0 := rfl
@[simp] theorem State.withMoves_res0 (ms : List Move) : (s.withMoves ms).res0 = s.res0 := rfl
@[simp] theorem State.withMoves_res1 (ms : List Move) : (s.withMoves ms).res1 = s.res1 := rfl
@[simp] theorem State.withMoves_uDone (ms : List Move) : (s.withMoves ms).uDone = s.uDone := rfl
@[simp] theorem State.withMoves_dDone (ms : List Move) : (s.withMoves ms).dDone = s.dDone := rfl
@[simp] theorem State.withMoves_fault (ms : List Move) : (s.withMoves ms).fault = s.fault := rfl
@[simp] theorem State.withMoves_faultInfo (ms : List Move) : (s.withMoves ms).faultInfo = s.faultInfo := rfl
@[simp] theorem State.withMoves_txMode (ms : List Move) : (s.withMoves ms).txMode = s.txMode := rfl
@[simp] theorem State.withMoves_eng (ms : List Move) : (s.withMoves ms).eng = s.eng := rfl
@[simp] theorem State.withMoves_ts (ms : List Move) : (s.withMoves ms).ts = s.ts := rfl
@[simp] theorem State.withMoves_uart (ms : List Move) : (s.withMoves ms).uart = s.uart := rfl
@[simp] theorem State.withMoves_demod (ms : List Move) : (s.withMoves ms).demod = s.demod := rfl
@[simp] theorem State.withMoves_session (ms : List Move) : (s.withMoves ms).session = s.session := rfl
@[simp] theorem State.withMoves_emu (ms : List Move) : (s.withMoves ms).emu = s.emu := rfl
@[simp] theorem State.withMoves_ring (ms : List Move) : (s.withMoves ms).ring = s.ring := rfl
@[simp] theorem State.withMoves_mem (ms : List Move) : (s.withMoves ms).mem = s.mem := rfl
@[simp] theorem State.withMoves_out (ms : List Move) : (s.withMoves ms).out = s.out := rfl

/-! ### What a Uart step leaves (R204). -/

@[simp] theorem State.withUartRun_uart (r : UartRun) : (s.withUartRun r).uart = r.uart := rfl
@[simp] theorem State.withUartRun_mem (r : UartRun) : (s.withUartRun r).mem = r.mem := rfl
@[simp] theorem State.withUartRun_uDone (r : UartRun) : (s.withUartRun r).uDone = r.done := rfl
@[simp] theorem State.withUartRun_cfg (r : UartRun) : (s.withUartRun r).cfg = s.cfg := rfl
@[simp] theorem State.withUartRun_arg0 (r : UartRun) : (s.withUartRun r).arg0 = s.arg0 := rfl
@[simp] theorem State.withUartRun_res0 (r : UartRun) : (s.withUartRun r).res0 = s.res0 := rfl
@[simp] theorem State.withUartRun_res1 (r : UartRun) : (s.withUartRun r).res1 = s.res1 := rfl
@[simp] theorem State.withUartRun_dDone (r : UartRun) : (s.withUartRun r).dDone = s.dDone := rfl
@[simp] theorem State.withUartRun_fault (r : UartRun) : (s.withUartRun r).fault = s.fault := rfl
@[simp] theorem State.withUartRun_faultInfo (r : UartRun) : (s.withUartRun r).faultInfo = s.faultInfo := rfl
@[simp] theorem State.withUartRun_txMode (r : UartRun) : (s.withUartRun r).txMode = s.txMode := rfl
@[simp] theorem State.withUartRun_eng (r : UartRun) : (s.withUartRun r).eng = s.eng := rfl
@[simp] theorem State.withUartRun_ts (r : UartRun) : (s.withUartRun r).ts = s.ts := rfl
@[simp] theorem State.withUartRun_demod (r : UartRun) : (s.withUartRun r).demod = s.demod := rfl
@[simp] theorem State.withUartRun_session (r : UartRun) : (s.withUartRun r).session = s.session := rfl
@[simp] theorem State.withUartRun_emu (r : UartRun) : (s.withUartRun r).emu = s.emu := rfl
@[simp] theorem State.withUartRun_ring (r : UartRun) : (s.withUartRun r).ring = s.ring := rfl
@[simp] theorem State.withUartRun_env (r : UartRun) : (s.withUartRun r).env = s.env := rfl
@[simp] theorem State.withUartRun_out (r : UartRun) : (s.withUartRun r).out = s.out := rfl

/-! ### What a Demod step leaves (R238). -/

@[simp] theorem State.withDemodRun_demod (r : DemodRun) : (s.withDemodRun r).demod = r.demod := rfl
@[simp] theorem State.withDemodRun_mem (r : DemodRun) : (s.withDemodRun r).mem = r.mem := rfl
@[simp] theorem State.withDemodRun_dDone (r : DemodRun) : (s.withDemodRun r).dDone = r.done := rfl
@[simp] theorem State.withDemodRun_cfg (r : DemodRun) : (s.withDemodRun r).cfg = s.cfg := rfl
@[simp] theorem State.withDemodRun_arg0 (r : DemodRun) : (s.withDemodRun r).arg0 = s.arg0 := rfl
@[simp] theorem State.withDemodRun_res0 (r : DemodRun) : (s.withDemodRun r).res0 = s.res0 := rfl
@[simp] theorem State.withDemodRun_res1 (r : DemodRun) : (s.withDemodRun r).res1 = s.res1 := rfl
@[simp] theorem State.withDemodRun_uDone (r : DemodRun) : (s.withDemodRun r).uDone = s.uDone := rfl
@[simp] theorem State.withDemodRun_fault (r : DemodRun) : (s.withDemodRun r).fault = s.fault := rfl
@[simp] theorem State.withDemodRun_faultInfo (r : DemodRun) : (s.withDemodRun r).faultInfo = s.faultInfo := rfl
@[simp] theorem State.withDemodRun_txMode (r : DemodRun) : (s.withDemodRun r).txMode = s.txMode := rfl
@[simp] theorem State.withDemodRun_eng (r : DemodRun) : (s.withDemodRun r).eng = s.eng := rfl
@[simp] theorem State.withDemodRun_ts (r : DemodRun) : (s.withDemodRun r).ts = s.ts := rfl
@[simp] theorem State.withDemodRun_uart (r : DemodRun) : (s.withDemodRun r).uart = s.uart := rfl
@[simp] theorem State.withDemodRun_session (r : DemodRun) : (s.withDemodRun r).session = s.session := rfl
@[simp] theorem State.withDemodRun_emu (r : DemodRun) : (s.withDemodRun r).emu = s.emu := rfl
@[simp] theorem State.withDemodRun_ring (r : DemodRun) : (s.withDemodRun r).ring = s.ring := rfl
@[simp] theorem State.withDemodRun_env (r : DemodRun) : (s.withDemodRun r).env = s.env := rfl
@[simp] theorem State.withDemodRun_out (r : DemodRun) : (s.withDemodRun r).out = s.out := rfl

/-! ### `raise Fault` (R340) -/

variable (code : FaultCode) (info : Word)

@[simp] theorem State.raise_cfg : (s.raise code info).cfg = s.cfg := by
  unfold State.raise; split <;> rfl
@[simp] theorem State.raise_arg0 : (s.raise code info).arg0 = s.arg0 := by
  unfold State.raise; split <;> rfl
@[simp] theorem State.raise_res0 : (s.raise code info).res0 = s.res0 := by
  unfold State.raise; split <;> rfl
@[simp] theorem State.raise_res1 : (s.raise code info).res1 = s.res1 := by
  unfold State.raise; split <;> rfl
@[simp] theorem State.raise_uDone : (s.raise code info).uDone = s.uDone := by
  unfold State.raise; split <;> rfl
@[simp] theorem State.raise_dDone : (s.raise code info).dDone = s.dDone := by
  unfold State.raise; split <;> rfl
@[simp] theorem State.raise_txMode : (s.raise code info).txMode = s.txMode := by
  unfold State.raise; split <;> rfl
@[simp] theorem State.raise_ts : (s.raise code info).ts = s.ts := by
  unfold State.raise; split <;> rfl
@[simp] theorem State.raise_uart : (s.raise code info).uart = s.uart := by
  unfold State.raise; split <;> rfl
@[simp] theorem State.raise_demod : (s.raise code info).demod = s.demod := by
  unfold State.raise; split <;> rfl
@[simp] theorem State.raise_session : (s.raise code info).session = s.session := by
  unfold State.raise; split <;> rfl
@[simp] theorem State.raise_emu : (s.raise code info).emu = s.emu := by
  unfold State.raise; split <;> rfl
@[simp] theorem State.raise_ring : (s.raise code info).ring = s.ring := by
  unfold State.raise; split <;> rfl
@[simp] theorem State.raise_mem : (s.raise code info).mem = s.mem := by
  unfold State.raise; split <;> rfl
@[simp] theorem State.raise_env : (s.raise code info).env = s.env := by
  unfold State.raise; split <;> rfl
@[simp] theorem State.raise_out : (s.raise code info).out = s.out := by
  unfold State.raise; split <;> rfl

/-- A raise always leaves the engine idle. -/
@[simp] theorem State.raise_eng : (s.raise code info).eng = { s.eng with busy := false, op := 0, hold := .none } := by
  unfold State.raise; split <;> rfl

/-- The first fault is the one recorded. -/
theorem State.raise_first (h : s.fault = none) :
    s.raise code info = { s.complete with fault := some code, faultInfo := info } := by
  simp [State.raise, h]

/-- A later fault records nothing (R347). -/
theorem State.raise_later (h : s.fault ≠ none) : s.raise code info = s.complete := by
  unfold State.raise; split
  · exact absurd ‹_› h
  · rfl

/-- After a raise a fault stands. -/
theorem State.raise_fault_isSome : (s.raise code info).fault.isSome = true := by
  unfold State.raise; split
  · rfl
  · rename_i h; simp [h]

/-- A fault that stands keeps its code and info under a raise (R56). -/
theorem State.raise_keeps_fault (h : s.fault ≠ none) :
    (s.raise code info).fault = s.fault ∧ (s.raise code info).faultInfo = s.faultInfo := by
  rw [State.raise_later s code info h]; exact ⟨rfl, rfl⟩

/-! ### A command offered to the next step -/

@[simp] theorem offerCommand_fault (cw : Word) : (offerCommand cw s).fault = none := rfl
@[simp] theorem offerCommand_busy (cw : Word) : (offerCommand cw s).eng.busy = false := rfl
@[simp] theorem offerCommand_moves (cw : Word) :
    (offerCommand cw s).env.moves = .hostWrite cmdAddr 4 cw :: s.env.moves := rfl

end Sys2Proof.Machine
end

