-- ==== Sys2Proof/Laws/Ops.lean ====
section
/-! SUPPORT. One lemma per shared operation: everything it can do, for later proofs to cite instead of unfolding it. -/

namespace Sys2Proof.Machine

/-! ### The outcome of a rule -/

@[simp] theorem commit_ok (s t : State) : commit s (.ok t) = .next t := rfl
@[simp] theorem commit_raise (s : State) (code : FaultCode) (info : Word) :
    commit s (.error (.raise code info)) = .next (s.raise code info) := rfl
@[simp] theorem commit_stop (s : State) (f : Fault) : commit s (.error (.stop f)) = .fault f := rfl

/-- A rule answers a next state in two ways: with its effect, or with a fault raised in the state before it. -/
theorem commit_next_iff (s t : State) (r : Res State) :
    commit s r = .next t ↔ r = .ok t ∨ ∃ code info, r = .error (.raise code info) ∧ t = s.raise code info := by
  cases r with
  | ok u => simp
  | error e =>
    cases e with
    | raise code info => simp [eq_comm]
    | stop f => simp

/-- A rule stops the model only at one of the model's own stops. -/
theorem commit_fault_iff (s : State) (f : Fault) (r : Res State) : commit s r = .fault f ↔ r = .error (.stop f) := by
  cases r with
  | ok u => simp
  | error e => cases e <;> simp

/-- A rule never refuses. -/
theorem commit_ne_refused (s : State) (r : Res State) (x : Refusal) : commit s r ≠ .refused x := by
  cases r with
  | ok u => simp
  | error e => cases e <;> simp

/-- A rule followed by a pure update. -/
theorem Res.map_eq_ok_iff {α β : Type} (f : α → β) (r : Res α) (b : β) : r.map f = .ok b ↔ ∃ a, r = .ok a ∧ f a = b := by
  cases r <;> simp [Except.map]

@[simp] theorem Res.map_ok {α β : Type} (f : α → β) (a : α) : Except.map f (.ok a : Res α) = .ok (f a) := rfl
@[simp] theorem Res.map_error {α β : Type} (f : α → β) (e : Abort) : Except.map f (.error e : Res α) = .error e := rfl

/-! ### Buffer bytes -/

/-- The engine reads a byte exactly when the buffer has it and it has been written. -/
theorem readByte_eq_ok_iff (c : Config) (w : Window) (k : Nat) (m : Memory) (v : Byte) :
    readByte c w k m = .ok v ↔ k < w.capacity c ∧ m.read (w.base + k) = some v := by
  unfold readByte
  split
  · split <;> simp_all
  · simp_all

/-- The engine writes a byte exactly when the buffer has it. -/
theorem writeByte_eq_ok_iff (c : Config) (w : Window) (k : Nat) (v : Byte) (m m' : Memory) :
    writeByte c w k v m = .ok m' ↔ k < w.capacity c ∧ m' = m.write (w.base + k) v := by
  unfold writeByte
  split <;> simp_all [eq_comm]

@[simp] theorem writeByte_ok (c : Config) (w : Window) (k : Nat) (v : Byte) (m : Memory) (h : k < w.capacity c) :
    writeByte c w k v m = .ok (m.write (w.base + k) v) := if_pos h

/-- A byte written is the byte read back. -/
theorem readByte_writeByte_same {c : Config} {w : Window} {k : Nat} {v : Byte} {m m' : Memory}
    (h : writeByte c w k v m = .ok m') : readByte c w k m' = .ok v := by
  obtain ⟨hk, rfl⟩ := (writeByte_eq_ok_iff ..).1 h
  exact (readByte_eq_ok_iff ..).2 ⟨hk, Memory.read_write_same ..⟩

/-- A write through a window keeps memory canonical. -/
theorem writeByte_wf {c : Config} {w : Window} {k : Nat} {v : Byte} {m m' : Memory}
    (h : writeByte c w k v m = .ok m') (hm : m.wf = true) : m'.wf = true := by
  obtain ⟨-, rfl⟩ := (writeByte_eq_ok_iff ..).1 h
  exact Memory.write_wf _ _ _ hm

/-- A write through a window lists only mapped addresses. -/
theorem writeByte_mapped {c : Config} {w : Window} {k : Nat} {v : Byte} {m m' : Memory}
    (h : writeByte c w k v m = .ok m') (hm : ∀ x ∈ m, (windowAt c x.1).isSome = true) :
    ∀ x ∈ m', (windowAt c x.1).isSome = true := by
  obtain ⟨hk, rfl⟩ := (writeByte_eq_ok_iff ..).1 h
  intro x hx
  rcases Memory.mem_write hx with rfl | hx
  · exact windowAt_index hk
  · exact hm x hx

/-- `readBytes` answers the bytes at consecutive indices. -/
theorem readBytes_eq_ok_iff (c : Config) (w : Window) (k n : Nat) (m : Memory) (l : List Byte) :
    readBytes c w k n m = .ok l ↔ l.length = n ∧ ∀ j (hj : j < l.length), readByte c w (k + j) m = .ok l[j] := by
  induction n generalizing k l with
  | zero =>
    cases l <;> simp [readBytes]
  | succ n ih =>
    cases l with
    | nil =>
      simp only [readBytes]
      split <;> simp_all
    | cons v rest =>
      have hrest := ih (k + 1) rest
      constructor
      · intro h
        simp only [readBytes] at h
        split at h
        · rename_i v' rest' h1 h2
          simp only [Except.ok.injEq, List.cons.injEq] at h
          obtain ⟨rfl, rfl⟩ := h
          obtain ⟨hlen, hall⟩ := hrest.1 h2
          refine ⟨by simp [hlen], ?_⟩
          intro j hj
          cases j with
          | zero => simpa using h1
          | succ j =>
            have := hall j (by simpa using hj)
            rw [show k + (j + 1) = k + 1 + j by omega]
            simpa using this
        · simp at h
        · simp at h
      · rintro ⟨hlen, hall⟩
        have h1 : readByte c w k m = .ok v := hall 0 (by simp)
        have h2 : readBytes c w (k + 1) n m = .ok rest := by
          refine hrest.2 ⟨by simpa using hlen, ?_⟩
          intro j hj
          have := hall (j + 1) (by simpa using hj)
          rw [show k + 1 + j = k + (j + 1) by omega]
          simpa using this
        simp [readBytes, h1, h2]

/-- `writeBytes` succeeds exactly when the buffer has every index. -/
theorem writeBytes_isOk_iff (c : Config) (w : Window) (k : Nat) (l : List Byte) (m : Memory) :
    (∃ m', writeBytes c w k l m = .ok m') ↔ l = [] ∨ k + l.length ≤ w.capacity c := by
  induction l generalizing k m with
  | nil => simp [writeBytes]
  | cons v rest ih =>
    simp only [writeBytes, writeByte]
    by_cases hk : k < w.capacity c
    · rw [if_pos hk]
      simp only [ih, List.length_cons, reduceCtorEq, false_or]
      constructor
      · rintro (rfl | h)
        · simp; omega
        · omega
      · intro h
        exact .inr (by omega)
    · rw [if_neg hk]
      simp only [reduceCtorEq, exists_false, List.length_cons, false_or, false_iff]
      omega

/-- `writeBytes` writes its bytes at consecutive indices and nothing else. -/
theorem writeBytes_read {c : Config} {w : Window} {k : Nat} {l : List Byte} {m m' : Memory}
    (h : writeBytes c w k l m = .ok m') (a : Nat) :
    m'.read a = if w.base + k ≤ a ∧ a < w.base + k + l.length then l[a - (w.base + k)]? else m.read a := by
  induction l generalizing k m with
  | nil =>
    simp only [writeBytes, Except.ok.injEq] at h
    subst h
    rw [if_neg (by simp)]
  | cons v rest ih =>
    simp only [writeBytes] at h
    split at h
    · rename_i m1 h1
      obtain ⟨hk, rfl⟩ := (writeByte_eq_ok_iff ..).1 h1
      rw [ih h, Memory.read_write]
      by_cases ha : a = w.base + k
      · subst ha
        simp
      · by_cases hin : w.base + (k + 1) ≤ a ∧ a < w.base + (k + 1) + rest.length
        · rw [if_pos hin, if_pos ⟨by omega, by simp; omega⟩,
            show a - (w.base + k) = a - (w.base + (k + 1)) + 1 by omega, List.getElem?_cons_succ]
        · rw [if_neg hin, if_neg ha, if_neg (by simp; omega)]
    · simp at h

/-- `writeBytes` keeps memory canonical. -/
theorem writeBytes_wf {c : Config} {w : Window} {k : Nat} {l : List Byte} {m m' : Memory}
    (h : writeBytes c w k l m = .ok m') (hm : m.wf = true) : m'.wf = true := by
  induction l generalizing k m with
  | nil =>
    simp only [writeBytes, Except.ok.injEq] at h
    exact h ▸ hm
  | cons v rest ih =>
    simp only [writeBytes] at h
    split at h
    · rename_i m1 h1
      exact ih h (writeByte_wf h1 hm)
    · simp at h

/-! ### The sample ring -/

/-- What `next_sample()` takes (R95): the entry at SR_CONSUMED, and that entry alone. -/
theorem nextSample_eq_ok_iff (s t : State) (i q : Byte) :
    nextSample s = .ok (i, q, t) ↔
      readByte s.cfg .sring (2 * (s.ring.consumed % s.cfg.sringEntries)) s.mem = .ok i ∧
      readByte s.cfg .sring (2 * (s.ring.consumed % s.cfg.sringEntries) + 1) s.mem = .ok q ∧
      t = { s with ring := { s.ring with consumed := s.ring.consumed + 1 } } := by
  simp only [nextSample]
  cases readByte s.cfg .sring (2 * (s.ring.consumed % s.cfg.sringEntries)) s.mem with
  | error e => simp
  | ok i' =>
    cases readByte s.cfg .sring (2 * (s.ring.consumed % s.cfg.sringEntries) + 1) s.mem with
    | error e => simp
    | ok q' => simp [eq_comm]

/-- What the producer does (R94, R96): an overrun of a full ring, or its two bytes and the count. -/
theorem producerWrite_cases (i q : Byte) (s : State) (hc : 1 ≤ s.cfg.sringEntries) :
    (s.cfg.sringEntries ≤ s.ring.produced - s.ring.consumed ∧
      producerWrite i q s = .error (.raise .overrun (BitVec.ofNat 32 s.ring.produced))) ∨
    (s.ring.produced - s.ring.consumed < s.cfg.sringEntries ∧
      producerWrite i q s = .ok { s with
        mem := (s.mem.write (Window.sring.base + 2 * (s.ring.produced % s.cfg.sringEntries)) i).write
          (Window.sring.base + (2 * (s.ring.produced % s.cfg.sringEntries) + 1)) q
        ring := { s.ring with produced := s.ring.produced + 1 } }) := by
  have hk : s.ring.produced % s.cfg.sringEntries < s.cfg.sringEntries := Nat.mod_lt _ hc
  by_cases h : s.cfg.sringEntries ≤ s.ring.produced - s.ring.consumed
  · exact .inl ⟨h, by simp [producerWrite, h]⟩
  · refine .inr ⟨by omega, ?_⟩
    have h1 : 2 * (s.ring.produced % s.cfg.sringEntries) < Window.sring.capacity s.cfg := by
      simp only [Window.capacity]; omega
    have h2 : 2 * (s.ring.produced % s.cfg.sringEntries) + 1 < Window.sring.capacity s.cfg := by
      simp only [Window.capacity]; omega
    simp [producerWrite, h, writeByte_ok, h1, h2]

/-! ### Shift registers -/

/-- The new bit enters at bit 9 and the nine newest bits move down one place (R208, R244). -/
theorem shiftIn_eq (b : Bool) (r : BitVec 10) : shiftIn b r = BitVec.ofBool b ++ r.extractLsb' 1 9 := by
  revert b r
  decide +kernel

/-- "shift_reg & 0x201 == 0x200" is a stop bit of 1 and a start bit of 0 (R123, R208). -/
theorem validCharacter_iff (r : BitVec 10) : validCharacter r = true ↔ r.getLsbD 9 = true ∧ r.getLsbD 0 = false := by
  revert r
  decide +kernel

/-- The byte is bits 8 to 1 of the shift register (R123, R208). -/
theorem characterByte_getLsbD (r : BitVec 10) (k : Nat) (hk : k < 8) :
    (characterByte r).getLsbD k = r.getLsbD (k + 1) := by
  simp [characterByte, hk, Nat.add_comm 1 k]

end Sys2Proof.Machine
end

