-- ==== Sys2Proof/Laws/PerInstr.lean ====
section
/-! SUPPORT. The bits of the five word formats (R122), and the family TableRow: every command's word carries its opcode and
has 0 at every reserved bit of its format, one lemma per constructor. -/

namespace Sys2Proof

/-! ### The bits of a word, format by format -/

theorem wordN_getLsbD (op : Byte) (k : Nat) : (wordN op).getLsbD k = if k < 24 then false else op.getLsbD (k - 24) := by
  rw [wordN, BitVec.getLsbD_append]
  split <;> simp

theorem matchOf_getLsbD (op : Byte) (k : Nat) : (matchOf op).getLsbD k = if k < 24 then false else op.getLsbD (k - 24) :=
  wordN_getLsbD op k

theorem wordB_getLsbD (op : Byte) (b : Bool) (k : Nat) :
    (wordB op b).getLsbD k = if k < 1 then b && decide (k = 0) else if k < 24 then false else op.getLsbD (k - 24) := by
  rw [wordB, BitVec.getLsbD_append, BitVec.getLsbD_append]
  by_cases h1 : k < 1
  · obtain rfl : k = 0 := by omega
    simp
  · by_cases h24 : k < 24
    · simp [h1, h24, show k - 1 < 23 by omega]
    · simp [h1, h24, show ¬ k - 1 < 23 by omega, show k - 1 - 23 = k - 24 by omega]

theorem wordS_getLsbD (op x y : Byte) (k : Nat) :
    (wordS op x y).getLsbD k =
      if k < 8 then y.getLsbD k else if k < 16 then x.getLsbD (k - 8) else if k < 24 then false else op.getLsbD (k - 24) := by
  rw [wordS, BitVec.getLsbD_append, BitVec.getLsbD_append, BitVec.getLsbD_append]
  by_cases h8 : k < 8
  · simp [h8]
  · by_cases h16 : k < 16
    · simp [h8, h16, show k - 8 < 8 by omega]
    · by_cases h24 : k < 24
      · simp [h8, h16, h24, show ¬ k - 8 < 8 by omega, show k - 8 - 8 < 8 by omega]
      · simp [h8, h16, h24, show ¬ k - 8 < 8 by omega, show ¬ k - 8 - 8 < 8 by omega, show k - 8 - 8 - 8 = k - 24 by omega]

theorem wordL_getLsbD (op : Byte) (n : Half) (k : Nat) :
    (wordL op n).getLsbD k = if k < 16 then n.getLsbD k else if k < 24 then false else op.getLsbD (k - 24) := by
  rw [wordL, BitVec.getLsbD_append, BitVec.getLsbD_append]
  by_cases h16 : k < 16
  · simp [h16]
  · by_cases h24 : k < 24
    · simp [h16, h24, show k - 16 < 8 by omega]
    · simp [h16, h24, show ¬ k - 16 < 8 by omega, show k - 16 - 8 = k - 24 by omega]

theorem wordT_getLsbD (op : Byte) (sel : BitVec 2) (k : Nat) :
    (wordT op sel).getLsbD k = if k < 2 then sel.getLsbD k else if k < 24 then false else op.getLsbD (k - 24) := by
  rw [wordT, BitVec.getLsbD_append, BitVec.getLsbD_append]
  by_cases h2 : k < 2
  · simp [h2]
  · by_cases h24 : k < 24
    · simp [h2, h24, show k - 2 < 22 by omega]
    · simp [h2, h24, show ¬ k - 2 < 22 by omega, show k - 2 - 22 = k - 24 by omega]

end Sys2Proof

namespace Sys2Proof.Laws.TableRow

/-- The word of an instruction carries its opcode in bits 31 to 24, the map of R126 gives that opcode a format, and every
bit that format fixes has its fixed value (R120, R122). -/
def Statement (i : Instr) : Prop :=
  fieldOp (encode i) = i.opcode ∧ ∃ f, formatOf i.opcode = some f ∧ encode i &&& f.mask = matchOf i.opcode

/-- The opcode field reads back from any word whose top byte it is. -/
theorem fieldOp_eq {w : Word} {op : Byte} (h : ∀ k, 24 ≤ k → w.getLsbD k = op.getLsbD (k - 24)) : fieldOp w = op := by
  apply BitVec.eq_of_getLsbD_eq
  intro k hk
  rw [fieldOp, BitVec.getLsbD_extractLsb', h (24 + k) (by omega)]
  simp [hk]

theorem ofLength {op : Byte} (h : formatOf op = some .length) (n : Half) :
    fieldOp (wordL op n) = op ∧ ∃ f, formatOf op = some f ∧ wordL op n &&& f.mask = matchOf op := by
  refine ⟨fieldOp_eq fun k hk => ?_, .length, h, ?_⟩
  · rw [wordL_getLsbD, if_neg (by omega), if_neg (by omega)]
  · apply BitVec.eq_of_getLsbD_eq
    intro k hk
    rw [BitVec.getLsbD_and, wordL_getLsbD, matchOf_getLsbD, Format.mask]
    interval_cases k <;> simp

theorem ofSample {op : Byte} (h : formatOf op = some .sample) (x y : Byte) :
    fieldOp (wordS op x y) = op ∧ ∃ f, formatOf op = some f ∧ wordS op x y &&& f.mask = matchOf op := by
  refine ⟨fieldOp_eq fun k hk => ?_, .sample, h, ?_⟩
  · rw [wordS_getLsbD, if_neg (by omega), if_neg (by omega), if_neg (by omega)]
  · apply BitVec.eq_of_getLsbD_eq
    intro k hk
    rw [BitVec.getLsbD_and, wordS_getLsbD, matchOf_getLsbD, Format.mask]
    interval_cases k <;> simp

/-- A format with no operand bits beyond a small field is settled by its few words. -/
theorem tosendReset : Statement .tosendReset := ⟨by decide, .none, by decide, by decide⟩
theorem tosendStuff (b : Bool) : Statement (.tosendStuff b) := by
  cases b <;> exact ⟨by decide, .bit, by decide, by decide⟩
theorem tosendStuff4 (b : Bool) : Statement (.tosendStuff4 b) := by
  cases b <;> exact ⟨by decide, .bit, by decide, by decide⟩
theorem codeReader (n : Half) : Statement (.codeReader n) := ofLength (by decide) n
theorem codeTag (n : Half) : Statement (.codeTag n) := ofLength (by decide) n
theorem uartInit (n : Half) : Statement (.uartInit n) := ofLength (by decide) n
theorem uartStep (b : Bool) : Statement (.uartStep b) := by
  cases b <;> exact ⟨by decide, .bit, by decide, by decide⟩
theorem demodInit (n : Half) : Statement (.demodInit n) := ofLength (by decide) n
theorem demodStep (i q : Byte) : Statement (.demodStep i q) := ofSample (by decide) i q
theorem trxTxReader : Statement .trxTxReader := ⟨by decide, .none, by decide, by decide⟩
theorem trxTxTag (sel : BitVec 2) : Statement (.trxTxTag sel) :=
  ⟨by revert sel; decide, .source, rfl, by revert sel; decide⟩
theorem trxRxTag (n : Half) : Statement (.trxRxTag n) := ofLength (by decide) n
theorem trxCodeTxReader (n : Half) : Statement (.trxCodeTxReader n) := ofLength (by decide) n
theorem trxSetTimeout : Statement .trxSetTimeout := ⟨by decide, .none, by decide, by decide⟩
theorem trxSetMaxFrame : Statement .trxSetMaxFrame := ⟨by decide, .none, by decide, by decide⟩
theorem emuInit : Statement .emuInit := ⟨by decide, .none, by decide, by decide⟩
theorem emuField : Statement .emuField := ⟨by decide, .none, by decide, by decide⟩
theorem emuFrame : Statement .emuFrame := ⟨by decide, .none, by decide, by decide⟩
theorem emuRx (n : Half) : Statement (.emuRx n) := ofLength (by decide) n

end Sys2Proof.Laws.TableRow
end

