-- ==== Sys2Proof/Laws/Step.lean ====
section
/-! SUPPORT. What one step can do, said once: the engine's move, an external move, or nothing; what a submitted word does;
which segment a hold runs; when a word decodes. -/

namespace Sys2Proof.Machine

/-! ### The step -/

/-- The engine moves first (R352, log entry 3). -/
theorem step_engine {s : State} (h : engineReady s = true) : step s = engineMove s := by
  simp [step, nextEvent, h]

/-- Otherwise the next external move happens. -/
theorem step_external {s : State} {mv : Move} {rest : List Move} (h : engineReady s = false) (hm : s.env.moves = mv :: rest) :
    step s = applyMove mv (s.withMoves rest) := by
  simp [step, nextEvent, h, hm]

/-- With no move at all the machine stays as it is (R349, R377). -/
theorem step_still {s : State} (h : engineReady s = false) (hm : s.env.moves = []) : step s = .next s := by
  simp [step, nextEvent, h, hm]

/-- Every step is one of the three. -/
theorem step_cases (s : State) :
    (engineReady s = true ∧ step s = engineMove s) ∨
    (engineReady s = false ∧ ∃ mv rest, s.env.moves = mv :: rest ∧ step s = applyMove mv (s.withMoves rest)) ∨
    (engineReady s = false ∧ s.env.moves = [] ∧ step s = .next s) := by
  cases h : engineReady s with
  | true => exact .inl ⟨rfl, step_engine h⟩
  | false =>
    cases hm : s.env.moves with
    | nil => exact .inr (.inr ⟨rfl, rfl, step_still h hm⟩)
    | cons mv rest => exact .inr (.inl ⟨rfl, mv, rest, rfl, step_external h hm⟩)

/-- An idle engine has no move. -/
theorem engineReady_idle {s : State} (h : s.eng.busy = false) : engineReady s = false := by
  simp [engineReady, h]

/-- The engine's move is a cancellation or its segment (R350). -/
theorem engineMove_cases (s : State) :
    (s.env.cancel = true ∧ engineMove s = .next s.cancelled) ∨
    (s.env.cancel = false ∧ engineMove s = commit s (segment s)) := by
  cases h : s.env.cancel <;> simp [engineMove, h]

/-! ### A word written to CMD (R120) -/

theorem submit_ignored {s : State} (cw : Word) (h : s.fault.isSome = true) : submit cw s = .next s := by
  simp [submit, h]

theorem submit_busy {s : State} (cw : Word) (hf : s.fault = none) (h : s.eng.busy = true) :
    submit cw s = .next (s.raise .busy cw) := by
  simp [submit, hf, h]

theorem submit_illegal {s : State} {cw : Word} {e : DecodeError} (hf : s.fault = none) (h : s.eng.busy = false)
    (hd : decode cw = .error e) : submit cw s = .next (s.raise .illegal cw) := by
  simp [submit, hf, h, hd]

theorem submit_exec {s : State} {cw : Word} {i : Instr} (hf : s.fault = none) (h : s.eng.busy = false)
    (hd : decode cw = .ok i) : submit cw s = exec i s := by
  simp [submit, hf, h, hd]

/-- A word decodes to `i` exactly when it passes the three checks of R120 and its fields are those of `i`. -/
theorem decode_eq_ok_iff (cw : Word) (i : Instr) :
    decode cw = .ok i ↔
      ∃ f, formatOf (fieldOp cw) = some f ∧ commandOf (fieldOp cw) cw = some i ∧
        cw &&& f.mask = matchOf (fieldOp cw) ∧ i.wf = true := by
  unfold decode
  split
  · rename_i f j hf hj
    by_cases hm : cw &&& f.mask = matchOf (fieldOp cw)
    · by_cases hw : j.wf = true
      · rw [if_pos hm, if_pos hw]
        simp only [Except.ok.injEq, hf, hj, Option.some.injEq]
        constructor
        · rintro rfl
          exact ⟨f, rfl, rfl, hm, hw⟩
        · rintro ⟨_, _, rfl, _, _⟩
          rfl
      · rw [if_pos hm, if_neg hw]
        simp only [reduceCtorEq, hf, hj, Option.some.injEq, false_iff]
        rintro ⟨_, _, rfl, _, h⟩
        exact hw h
    · rw [if_neg hm]
      simp only [reduceCtorEq, hf, hj, Option.some.injEq, false_iff]
      rintro ⟨_, rfl, _, h, _⟩
      exact hm h
  · rename_i h
    simp only [reduceCtorEq, false_iff]
    rintro ⟨f, hf, hj, -, -⟩
    exact h f i hf hj

/-- The host's write of CMD (R84). -/
theorem hostWrite_cmd (cw : Word) (s : State) : hostWrite cmdAddr 4 cw s = submit cw s := by
  simp [hostWrite]

/-- The host's write of ARG0 (R84). -/
theorem hostWrite_arg0 (v : Word) (s : State) : hostWrite arg0Addr 4 v s = .next { s with arg0 := v } := by
  simp [hostWrite, arg0Addr, cmdAddr]

/-- `withFetchWord` makes the next step run the word offered. -/
theorem step_withFetchWord {s : State} {nbits w : Nat} {i : Instr} (hd : decode (tableWord nbits w) = .ok i) :
    step (s.withFetchWord nbits w) = exec i ((s.withFetchWord nbits w).withMoves s.env.moves) := by
  rw [step_external (engineReady_idle rfl) rfl]
  simp only [applyMove]
  rw [hostWrite_cmd, submit_exec rfl rfl hd]

end Sys2Proof.Machine
end

