-- ==== Sys2Proof/Laws/Writes.lean ====
section
/-! SUPPORT. What memory a rule may change: every operation that writes a buffer writes inside one window, forgets no byte
and keeps the canonical form and the map. Said once per operation. -/

namespace Sys2Proof.Machine

/-- `m'` comes from `m` by writes inside window `w`. -/
structure WritesWithin (c : Config) (w : Window) (m m' : Memory) : Prop where
  wf : m.wf = true → m'.wf = true
  mapped : (∀ x ∈ m, (windowAt c x.1).isSome = true) → ∀ x ∈ m', (windowAt c x.1).isSome = true
  other : ∀ a, w.holds c a = false → m'.read a = m.read a
  written : ∀ a, (m.read a).isSome = true → (m'.read a).isSome = true

namespace WritesWithin

variable {c : Config} {w : Window} {m m₁ m₂ : Memory}

theorem refl (m : Memory) : WritesWithin c w m m := ⟨id, id, fun _ _ => rfl, fun _ => id⟩

theorem trans (h : WritesWithin c w m m₁) (h' : WritesWithin c w m₁ m₂) : WritesWithin c w m m₂ where
  wf := h'.wf ∘ h.wf
  mapped := h'.mapped ∘ h.mapped
  other a ha := (h'.other a ha).trans (h.other a ha)
  written a := h'.written a ∘ h.written a

theorem byte {k : Nat} {v : Byte} (h : writeByte c w k v m = .ok m₁) : WritesWithin c w m m₁ where
  wf := writeByte_wf h
  mapped := writeByte_mapped h
  other a ha := by
    obtain ⟨hk, rfl⟩ := (writeByte_eq_ok_iff ..).1 h
    refine Memory.read_write_other _ _ ?_
    rintro rfl
    simp [Window.holds, hk] at ha
  written a ha := by
    obtain ⟨-, rfl⟩ := (writeByte_eq_ok_iff ..).1 h
    exact Memory.write_keeps_written _ _ _ _ ha

theorem bytes {k : Nat} {l : List Byte} (h : writeBytes c w k l m = .ok m₁) : WritesWithin c w m m₁ := by
  induction l generalizing k m with
  | nil =>
    simp only [writeBytes, Except.ok.injEq] at h
    exact h ▸ refl _
  | cons v rest ih =>
    simp only [writeBytes] at h
    split at h
    · rename_i m' h1
      exact (byte h1).trans (ih h)
    · simp at h

end WritesWithin

/-! ### The send buffer -/

/-- The opening of a byte (R172): the buffer is not full, and a zero byte is written at the new cursor. -/
theorem openByte_eq_ok_iff (c : Config) (x y : SendState) :
    openByte c x = .ok y ↔
      tosendFull c x.ts = false ∧ 0 ≤ (x.ts.max + 1).toInt ∧
      ∃ m, writeByte c .tosend (x.ts.max + 1).toInt.toNat 0 x.mem = .ok m ∧
        y = { ts := { max := x.ts.max + 1, bit := 0 }, mem := m } := by
  unfold openByte
  by_cases hf : tosendFull c x.ts = true
  · simp [hf]
  · simp only [hf, Bool.false_eq_true, if_false, tosendIndex]
    generalize x.ts.max + 1 = t
    by_cases hn : t.toInt < 0
    · simp [hn, Int.not_le.2 hn]
    · simp only [if_neg hn]
      generalize writeByte c .tosend t.toInt.toNat 0 x.mem = r
      cases r with
      | error e => simp
      | ok m => simp [eq_comm, Int.not_lt.1 hn]

/-- The bit of an open byte (R172). -/
theorem setBit_eq_ok_iff (c : Config) (x y : SendState) :
    setBit c x = .ok y ↔
      0 ≤ x.ts.max.toInt ∧ ∃ v m, readByte c .tosend x.ts.max.toInt.toNat x.mem = .ok v ∧
        writeByte c .tosend x.ts.max.toInt.toNat (v ||| ((0x80 : Byte) >>> x.ts.bit.toNat)) x.mem = .ok m ∧
        y = { x with mem := m } := by
  unfold setBit tosendIndex
  generalize (0x80 : Byte) >>> x.ts.bit.toNat = mask
  by_cases hn : x.ts.max.toInt < 0
  · simp [hn, Int.not_le.2 hn]
  · simp only [if_neg hn]
    cases hr : readByte c .tosend x.ts.max.toInt.toNat x.mem with
    | error e => simp
    | ok v =>
      cases hw : writeByte c .tosend x.ts.max.toInt.toNat (v ||| mask) x.mem with
      | error e => simp [hw]
      | ok m => simp [hw, eq_comm, Int.not_lt.1 hn]

/-- stuff_bit in an open byte: the bit if it is 1, and the cursor (R172). -/
theorem putBit_eq_ok_iff (c : Config) (b : Bool) (x y : SendState) :
    putBit c b x = .ok y ↔
      ∃ z, (if b then setBit c x else .ok x) = .ok z ∧ y = { z with ts := { z.ts with bit := z.ts.bit + 1 } } := by
  unfold putBit
  cases h : (if b then setBit c x else .ok x) with
  | error e => simp
  | ok z => simp [eq_comm]

/-- stuff_bit (R172): a full byte is followed by a new one. -/
theorem stuffBit_eq_ok_iff (c : Config) (b : Bool) (x y : SendState) :
    stuffBit c b x = .ok y ↔
      (x.ts.bit = 8 ∧ ∃ z, openByte c x = .ok z ∧ putBit c b z = .ok y) ∨ (x.ts.bit ≠ 8 ∧ putBit c b x = .ok y) := by
  unfold stuffBit
  by_cases h : x.ts.bit = 8
  · simp only [if_pos h]
    cases hz : openByte c x with
    | error e => simp [h]
    | ok z => simp [h]
  · rw [if_neg h]
    simp only [h, false_and, false_or, ne_eq, not_false_eq_true, true_and]

/-- Bits appended one list after another. -/
theorem stuffBits_append (c : Config) (l l' : List Bool) (x : SendState) :
    stuffBits c (l ++ l') x = (stuffBits c l x).bind (stuffBits c l') := by
  induction l generalizing x with
  | nil => rfl
  | cons b rest ih =>
    simp only [List.cons_append, stuffBits]
    cases stuffBit c b x with
    | error e => rfl
    | ok y => exact ih y

theorem openByte_writes {c : Config} {x y : SendState} (h : openByte c x = .ok y) :
    WritesWithin c .tosend x.mem y.mem := by
  obtain ⟨-, -, m, hw, rfl⟩ := (openByte_eq_ok_iff ..).1 h
  exact .byte hw

theorem putBit_writes {c : Config} {b : Bool} {x y : SendState} (h : putBit c b x = .ok y) :
    WritesWithin c .tosend x.mem y.mem := by
  obtain ⟨z, hz, rfl⟩ := (putBit_eq_ok_iff ..).1 h
  cases b with
  | false =>
    simp only [Bool.false_eq_true, if_false, Except.ok.injEq] at hz
    exact hz ▸ .refl _
  | true =>
    simp only [if_true] at hz
    obtain ⟨-, v, m, -, hw, rfl⟩ := (setBit_eq_ok_iff ..).1 hz
    exact .byte hw

/-- stuff_bit writes inside TOSEND. -/
theorem stuffBit_writes {c : Config} {b : Bool} {x y : SendState} (h : stuffBit c b x = .ok y) :
    WritesWithin c .tosend x.mem y.mem := by
  rcases (stuffBit_eq_ok_iff ..).1 h with ⟨-, z, h1, h2⟩ | ⟨-, h2⟩
  · exact (openByte_writes h1).trans (putBit_writes h2)
  · exact putBit_writes h2

theorem stuffBits_writes {c : Config} {l : List Bool} {x y : SendState} (h : stuffBits c l x = .ok y) :
    WritesWithin c .tosend x.mem y.mem := by
  induction l generalizing x with
  | nil =>
    simp only [stuffBits, Except.ok.injEq] at h
    exact h ▸ .refl _
  | cons b rest ih =>
    simp only [stuffBits] at h
    split at h
    · simp at h
    · rename_i z h1
      exact (stuffBit_writes h1).trans (ih h)

theorem stuff4_writes {c : Config} {b : Bool} {x y : SendState} (h : stuff4 c b x = .ok y) :
    WritesWithin c .tosend x.mem y.mem := by
  unfold stuff4 at h
  split at h
  · simp at h
  · exact stuffBits_writes h

theorem stuffEtus_writes {c : Config} {l : List Bool} {x y : SendState} (h : stuffEtus c l x = .ok y) :
    WritesWithin c .tosend x.mem y.mem := by
  induction l generalizing x with
  | nil =>
    simp only [stuffEtus, Except.ok.injEq] at h
    exact h ▸ .refl _
  | cons b rest ih =>
    simp only [stuffEtus] at h
    split at h
    · simp at h
    · rename_i z h1
      exact (stuff4_writes h1).trans (ih h)

theorem padOnes_writes {c : Config} {n : Nat} {x y : SendState} (h : padOnes c n x = .ok y) :
    WritesWithin c .tosend x.mem y.mem := by
  induction n generalizing x with
  | zero =>
    simp only [padOnes, Except.ok.injEq] at h
    exact h ▸ .refl _
  | succ n ih =>
    simp only [padOnes] at h
    split at h
    · simp only [Except.ok.injEq] at h
      exact h ▸ .refl _
    · split at h
      · simp at h
      · rename_i z h1
        exact (stuffBit_writes h1).trans (ih h)

/-- code_as_reader writes inside TOSEND. -/
theorem encodeReader_writes {c : Config} {cmd : List Byte} {m : Memory} {y : SendState} (h : encodeReader c cmd m = .ok y) :
    WritesWithin c .tosend m y.mem := by
  unfold encodeReader at h
  split at h
  · simp at h
  · rename_i x h1
    exact WritesWithin.trans (m₁ := x.mem) (stuffBits_writes h1) (padOnes_writes h)

/-- code_as_tag writes inside TOSEND. -/
theorem encodeTag_writes {c : Config} {cmd : List Byte} {m : Memory} {y : SendState} (h : encodeTag c cmd m = .ok y) :
    WritesWithin c .tosend m y.mem := by
  unfold encodeTag at h
  split at h
  · simp at h
  · rename_i x h1
    exact WritesWithin.trans (m₁ := x.mem) (stuffEtus_writes h1) (padOnes_writes h)

/-! ### The decoders -/

/-- A step of the Uart writes inside UOUT. -/
theorem uartStep_writes {c : Config} {b : Bool} {u : Uart} {m : Memory} {r : UartRun} (h : uartStep c b u m = .ok r) :
    WritesWithin c .uout m r.mem := by
  have hstore : ∀ {u : Uart} {x : Uart × Memory}, uartStore c u m = .ok x → WritesWithin c .uout m x.2 := by
    intro u x hx
    unfold uartStore at hx
    split at hx
    · simp at hx
    · rename_i m' h1
      simp only [Except.ok.injEq] at hx
      exact hx ▸ .byte h1
  have hchar : ∀ {u : Uart} {r : UartRun}, uartCharacter c u m = .ok r → WritesWithin c .uout m r.mem := by
    intro u r hr
    unfold uartCharacter at hr
    split at hr
    · split at hr
      · simp only [Except.ok.injEq] at hr
        exact hr ▸ .refl _
      · split at hr
        · simp at hr
        · rename_i h1
          simp only [Except.ok.injEq] at hr
          exact hr ▸ hstore h1
    · split at hr
      · simp at hr
      · rename_i h1
        split at hr <;>
          (simp only [Except.ok.injEq] at hr; exact hr ▸ hstore h1)
  have hten : ∀ {u : Uart} {r : UartRun}, uartTenBits c u m = .ok r → WritesWithin c .uout m r.mem := by
    intro u r hr
    unfold uartTenBits at hr
    split at hr
    · exact hchar hr
    · split at hr <;>
        (simp only [Except.ok.injEq] at hr; exact hr ▸ .refl _)
  have hrec : ∀ {u : Uart} {r : UartRun}, uartReceiving c b u m = .ok r → WritesWithin c .uout m r.mem := by
    intro u r hr
    simp only [uartReceiving] at hr
    split at hr
    · split at hr
      · simp only [Except.ok.injEq] at hr
        exact hr ▸ .refl _
      · exact hten hr
    · simp only [Except.ok.injEq] at hr
      exact hr ▸ .refl _
  unfold uartStep at h
  split at h
  · simp only [Except.ok.injEq] at h; exact h ▸ .refl _
  · simp only [Except.ok.injEq] at h; exact h ▸ .refl _
  · simp only [Except.ok.injEq] at h; exact h ▸ .refl _
  · exact hrec h

/-- A step of the Demod writes inside DOUT. -/
theorem demodStep_writes {c : Config} {i q : Byte} {d : Demod} {m : Memory} {r : DemodRun}
    (h : demodStep c i q d m = .ok r) : WritesWithin c .dout m r.mem := by
  have hchar : ∀ {d : Demod} {r : DemodRun}, demodCharacter c d m = .ok r → WritesWithin c .dout m r.mem := by
    intro d r hr
    unfold demodCharacter at hr
    split at hr
    · split at hr
      · simp only [Except.ok.injEq] at hr
        exact hr ▸ .refl _
      · split at hr
        · simp at hr
        · rename_i h1
          simp only [Except.ok.injEq] at hr
          exact hr ▸ .byte h1
    · split at hr <;>
        (simp only [Except.ok.injEq] at hr; exact hr ▸ .refl _)
  have hrec : ∀ {v : Int} {d : Demod} {r : DemodRun}, demodReceiving c v d m = .ok r → WritesWithin c .dout m r.mem := by
    intro v d r hr
    simp only [demodReceiving] at hr
    split at hr
    · simp only [Except.ok.injEq] at hr
      exact hr ▸ .refl _
    · split at hr
      · simp only [Except.ok.injEq] at hr
        exact hr ▸ .refl _
      · exact hchar hr
  have hawait : ∀ (v : Int) (d : Demod), (demodAwaitStart v d m).mem = m := by
    intro v d
    simp only [demodAwaitStart]
    repeat' split
    all_goals rfl
  unfold demodStep at h
  split at h
  · simp only [Except.ok.injEq] at h; exact h ▸ .refl _
  · simp only [Except.ok.injEq] at h; exact h ▸ .refl _
  · simp only [Except.ok.injEq] at h; exact h ▸ .refl _
  · simp only [Except.ok.injEq] at h; exact h ▸ .refl _
  · simp only [Except.ok.injEq] at h
    subst h
    rw [hawait]
    exact .refl _
  · exact hrec h

/-! ### The emulator's buffers -/

/-- The copy of a response writes inside its window (R311). -/
theorem copyTosend_writes {c : Config} {w : Window} {n : Nat} {m m' : Memory} (h : copyTosend c w n m = .ok m') :
    WritesWithin c w m m' := by
  unfold copyTosend at h
  split at h
  · simp at h
  · exact .bytes h

end Sys2Proof.Machine
end

