-- ==== Sys2Proof/Machine/Assembler.lean ====
section
/-! DEFINITION. The assembly language of spec/30_encoding.md R130: a line becomes the host's bus moves. -/

namespace Sys2Proof.Machine

/-- A line of a program (R130). -/
inductive Line where
  /-- A command with its fields. -/
  | command (i : Instr)
  /-- `.arg v`. -/
  | arg (v : Word)
  /-- `.buf b0 b1 ... bk`. -/
  | buf (bytes : List Byte)
  /-- `.wait`, a poll loop on STATUS, here its first `polls` reads; the host's loop test is the host's control flow. -/
  | wait (polls : Nat)
  /-- `UART.BITS s`. -/
  | uartBits (bits : List Bool)
  /-- `DEMOD.RUN k × (i, q)`. -/
  | demodRun (k : Nat) (i q : Byte)
  /-- `TX.LOAD_READER bytes`. -/
  | loadReader (bytes : List Byte)
deriving DecidableEq, Repr

/-- The submission of a command: `MemWrite(0x010, 4, word)`. -/
def submitMove (i : Instr) : Move := .hostWrite cmdAddr 4 (encode i)

/-- `MemWrite(0x1000 + j, 1, bj)` from index j up. -/
def bufMoves : (j : Nat) → List Byte → List Move
  | _, [] => []
  | j, b :: rest => .hostWrite (BitVec.ofNat 16 (Window.cmdbuf.base + j)) 1 (b.setWidth 32) :: bufMoves (j + 1) rest

/-- The host moves of a line (R130). -/
def assemble : Line → List Move
  | .command i => [submitMove i]
  | .arg v => [.hostWrite arg0Addr 4 v]
  | .buf bytes => bufMoves 0 bytes
  | .wait polls => List.replicate polls (.hostRead 0x00C 4)
  | .uartBits bits => bits.map fun b => submitMove (.uartStep b)
  | .demodRun k i q => List.replicate k (submitMove (.demodStep i q))
  | .loadReader bytes => bufMoves 0 bytes ++ [submitMove (.codeReader (BitVec.ofNat 16 bytes.length))]

/-- The host moves of a program. -/
def program (lines : List Line) : List Move := lines.flatMap assemble

end Sys2Proof.Machine
end

