-- ==== Sys2Proof/Tests/Slice0.lean ====
section
/-! SUPPORT. The model's own tests. Expected values are the spec's examples and vectors (the rule or vector is named), never
the model's answers. After them, for every statement with hypotheses, states and operands that meet them together, each
clause at a boundary of its range. -/

namespace Sys2Proof.Machine

/-- The next state of an outcome. -/
def nextOf : Host.Outcome State Fault Refusal → Option State
  | .next t => some t
  | .fault _ => none
  | .refused _ => none

/-- One value of the next state. -/
def afterwards {α : Type} (o : Host.Outcome State Fault Refusal) (f : State → α) : Option α := (nextOf o).map f

/-- Memory with bytes from an address up. -/
def bytesAt (a : Nat) (l : List Byte) : Memory := (l.zipIdx a).map fun x => (x.2, x.1)

/-- The first `n` bytes of a window. -/
def windowBytes (w : Window) (n : Nat) (s : State) : List (Option Byte) := (List.range n).map fun k => s.mem.read (w.base + k)

/-- The WUPB of R138. -/
def wupb : List Byte := [0x05, 0x00, 0x08, 0x39, 0x73]

/-- RESET with given memory. -/
def withMem (m : Memory) : State := { State.reset with mem := m }

/-! ### Decoding: words written out from R122 and R126 -/

theorem test_decode_tosend : decode 0b00000010000000000000000000000001 = .ok (.tosendStuff true) := by decide
theorem test_decode_encoder : decode 0b00000101000000000000000000000011 = .ok (.codeTag 3) := by decide
theorem test_decode_uart : decode 0b00010000000000000000000100000000 = .ok (.uartInit 256) := by decide
theorem test_decode_demod : decode 0b00100001000000001101100000010100 = .ok (.demodStep 0xD8 0x14) := by decide
theorem test_decode_demod_init : decode 0b00100000000000000000000100000000 = .ok (.demodInit 256) := by decide
theorem test_decode_transceiver : decode 0b00110001000000000000000000000001 = .ok (.trxTxTag 1) := by decide
theorem test_decode_receive : decode 0b00110010000000000000000100000000 = .ok (.trxRxTag 256) := by decide
theorem test_decode_session : decode 0b00110101000000000000000000000000 = .ok .trxSetMaxFrame := by decide
theorem test_decode_emulator : decode 0b01000010000000000000000000000000 = .ok .emuFrame := by decide
theorem test_decode_emu_rx : decode 0b01000011000000000000000100000000 = .ok (.emuRx 256) := by decide

/-- V3: every constructor's word. -/
theorem test_encode_every_constructor :
    ([.tosendReset, .tosendStuff true, .tosendStuff4 false, .codeReader 5, .codeTag 3, .uartInit 256, .uartStep false,
      .demodInit 256, .demodStep 40 (-20), .trxTxReader, .trxTxTag 2, .trxRxTag 256, .trxCodeTxReader 5, .trxSetTimeout,
      .trxSetMaxFrame, .emuInit, .emuField, .emuFrame, .emuRx 256] : List Instr).map encode =
    [0x01000000, 0x02000001, 0x03000000, 0x04000005, 0x05000003, 0x10000100, 0x11000000,
     0x20000100, 0x210028EC, 0x30000000, 0x31000002, 0x32000100, 0x33000005, 0x34000000,
     0x35000000, 0x40000000, 0x41000000, 0x42000000, 0x43000100] := by decide

/-- V4: words no command has. -/
theorem test_decode_refuses :
    ([0x00000000, 0x06000000, 0x44000000, 0xFF000000] : List Word).map decode =
      List.replicate 4 (.error .reservedOpcode) ∧
    ([0x01000001, 0x02000002, 0x21010000, 0x04800000, 0x31000004] : List Word).map decode =
      List.replicate 5 (.error .reservedBits) ∧
    decode 0x31000003 = .error .reservedSelector := by decide

/-- The one check of WellFormed, with an ill-formed term for it. -/
theorem test_wf_refuses_reserved_selector : (Instr.trxTxTag 3).wf = false ∧ (Instr.trxTxTag 2).wf = true := by decide

/-- The word of an ill-formed term is refused by the decoder too. -/
theorem test_decode_refuses_ill_formed : decode (encode (.trxTxTag 3)) = .error .reservedSelector := by decide

/-- `withFetchWord` runs the word as the first command after RESET. -/
theorem test_fetch_word_runs :
    afterwards (step (State.reset.withFetchWord 32 0x10000100)) (fun t => t.uart.byteCntMax) = some 256 := by decide

/-- A reserved opcode is Fault(ILLEGAL, cw) (V4): STATUS 0x110. -/
theorem test_fetch_word_illegal :
    afterwards (step (State.reset.withFetchWord 32 0x06000000)) (fun t => (statusWord t, t.faultInfo)) =
      some (0x110, 0x06000000) := by decide

/-! ### One step of each command -/

/-- R171. -/
theorem test_tosendReset :
    afterwards (exec .tosendReset { State.reset with ts := { max := 3, bit := 5 } }) (fun t => (t.ts.max, t.ts.bit)) =
      some (0xFFFFFFFF, 8) := by decide

/-- R172: the third of STUFF 1, STUFF 0, STUFF 1. -/
theorem test_tosendStuff :
    afterwards (exec (.tosendStuff true) { withMem (bytesAt 0x2000 [0x80]) with ts := { max := 0, bit := 2 } })
      (fun t => (t.ts, t.mem.read 0x2000)) = some ({ max := 0, bit := 3 }, some 0xA0) := by decide

/-- R172: a new byte where the buffer is full. -/
theorem test_tosendStuff_full :
    afterwards (exec (.tosendStuff true) { withMem (bytesAt 0x2000 [0xFF]) with
      cfg := { Config.vectors with tosendSize := 1 }, ts := { max := 0, bit := 8 } })
      (fun t => (t.fault, t.faultInfo, t.ts.bit)) = some (some .tosendOvf, 1, 8) := by decide

/-- R173: the third of STUFF4 1, STUFF4 0, STUFF4 1. -/
theorem test_tosendStuff4 :
    afterwards (exec (.tosendStuff4 true) { withMem (bytesAt 0x2000 [0xF0]) with ts := { max := 0, bit := 8 } })
      (fun t => (t.ts, windowBytes .tosend 2 t)) = some ({ max := 1, bit := 4 }, [some 0xF0, some 0xF0]) := by decide

/-- R174: the WUPB. -/
theorem test_codeReader_wupb :
    afterwards (exec (.codeReader 5) (withMem (bytesAt 0x1000 wupb))) (fun t => (t.ts, windowBytes .tosend 9 t)) =
      some ({ max := 8, bit := 8 }, [0x00, 0x35, 0x04, 0x01, 0x08, 0x53, 0x96, 0x74, 0x00].map some) := by decide +kernel

/-- R174: the empty frame. -/
theorem test_codeReader_empty :
    afterwards (exec (.codeReader 0) State.reset) (fun t => windowBytes .tosend 3 t) =
      some ([0x00, 0x30, 0x03].map some) := by decide +kernel

/-- R175: the OK response. -/
theorem test_codeTag_ok :
    afterwards (exec (.codeTag 3) (withMem (bytesAt 0x1000 [0x00, 0x78, 0xF0]))) (fun t => (t.ts.max, windowBytes .tosend 37 t)) =
      some (36, ([0xFF, 0xFF, 0xFF, 0xFF, 0xFF, 0xFF, 0xFF, 0xFF, 0xFF, 0xFF, 0x00, 0x00, 0x00, 0x00, 0x00, 0xFF, 0x00, 0x00,
        0x00, 0x00, 0x0F, 0x00, 0x00, 0xFF, 0xFF, 0x0F, 0x00, 0x00, 0x0F, 0xFF, 0xFF, 0x00, 0x00, 0x00, 0x00, 0x00, 0xFF]
        : List Byte).map some) := by decide +kernel

/-- R174: the least unwritten byte. -/
theorem test_codeTag_unwritten :
    afterwards (exec (.codeTag 2) (withMem (bytesAt 0x1000 [0x00]))) (fun t => (t.fault, t.faultInfo)) =
      some (some .unwritten, 0x1001) := by decide

/-- R201. -/
theorem test_uartInit : afterwards (exec (.uartInit 256) State.reset) (fun t => (t.uart.state, t.uart.byteCntMax)) =
    some (.unsynced, 256) := by decide

/-- R129, R201: 513 is more than UOUT_SIZE. -/
theorem test_uartInit_range : afterwards (exec (.uartInit 513) State.reset) (fun t => (t.fault, t.faultInfo)) =
    some (some .range, 0x10000201) := by decide

/-- R208: the tenth mid-bit sample of the character 0xA5 stores it. -/
theorem test_uartStep_character :
    afterwards (exec (.uartStep true) { State.reset with uart := {
      state := .receivingData, shift := 0b1010010100, bitCnt := 9, byteCnt := 0, byteCntMax := 256, posCnt := 37 } })
      (fun t => (t.uart.state, t.uart.byteCnt, t.mem.read 0x3000, t.uDone)) =
      some (.awaitingStartBit, 1, some 0xA5, false) := by decide

/-- R209: the tenth low bit of an EOF after a byte. -/
theorem test_uartStep_eof :
    afterwards (exec (.uartStep false) { withMem (bytesAt 0x3000 [0x05]) with uart := {
      state := .receivingData, shift := 0, bitCnt := 9, byteCnt := 1, byteCntMax := 256, posCnt := 37 } })
      (fun t => (t.uart.state, t.uart.byteCnt, t.uDone)) = some (.unsynced, 1, true) := by decide

/-- R235. -/
theorem test_demodInit : afterwards (exec (.demodInit 256) State.reset) (fun t => (t.demod.state, t.demod.maxLen)) =
    some (.unsynced, 256) := by decide

/-- R239: the seed sample of training. -/
theorem test_demodStep_seed :
    afterwards (exec (.demodStep 40 (-20)) State.reset) (fun t => (t.demod.state, t.demod.sumI, t.demod.sumQ, t.demod.posCount)) =
      some (.phaseRefTraining, 40, 0xFFFFFFEC, 1) := by decide

/-- R245: the first byte of a frame with limit 0 overflows and returns true. -/
theorem test_demodStep_overflow :
    afterwards (exec (.demodStep 40 (-20)) { State.reset with demod := {
      state := .receivingData, sumI := 320, sumQ := -160, posCount := 1, bitCount := 9, thisBit := 60, shift := 0b0000010000,
      len := 0, maxLen := 0, overflow := false } })
      (fun t => (t.demod.state, t.demod.overflow, t.dDone)) = some (.unsynced, true, true) := by decide

/-- R273: a0 = 1000. -/
theorem test_trxTxReader :
    afterwards (exec .trxTxReader { State.reset with arg0 := 1000 }) (fun t => (t.eng.busy, t.eng.txTarget, t.txMode)) =
      some (true, 0x3D0, .readerAsk) := by decide

/-- R271, V32: a past slot slips to the first multiple of 16 after now. -/
theorem test_trxTxReader_slips :
    afterwards (exec .trxTxReader { State.reset with arg0 := 1000, env := { Env.quiet with now := 0x3D9 } })
      (fun t => t.eng.txTarget) = some 0x3E0 := by decide

/-- R276: EOK before any EMU.INIT emits nothing. -/
theorem test_trxTxTag_empty :
    afterwards (exec (.trxTxTag 2) State.reset) (fun t => (t.eng.busy, t.txMode, t.out.tx)) =
      some (false, .tagBpsk, []) := by decide

/-- R276: one byte of a transmission is one engine step. -/
theorem test_trxTxTag_byte :
    afterwards (engineMove { withMem (bytesAt 0x2000 [0xA0]) with
      ts := { max := 0, bit := 8 }, eng := { Engine.idle with busy := true, op := 0x31, hold := .tagByte .tosend }
      env := { Env.quiet with txReady := 1 } })
      (fun t => (t.eng.busy, t.out.tx)) = some (false, [.tx8 0xA0]) := by decide

/-- R280, R281. -/
theorem test_trxRxTag :
    afterwards (exec (.trxRxTag 256) { State.reset with
      arg0 := 1700, ring := { produced := 3, consumed := 1 }, env := { Env.quiet with now := 1000 } })
      (fun t => (t.eng.rxT0, t.eng.rxLimit, t.ring.consumed, t.demod.maxLen, t.eng.busy)) =
      some (1000, 1700, 3, 256, true) := by decide

/-- R282: a0 = 0 times out at the first sample with no carrier. -/
theorem test_trxRxTag_timeout :
    afterwards (engineMove { withMem (bytesAt 0x6000 [0, 0]) with
      ring := { produced := 1, consumed := 0 }, eng := { Engine.idle with busy := true, op := 0x32, hold := .sample } })
      (fun t => (t.eng.busy, t.res0)) = some (false, 0xFFFFFFFF) := by decide

/-- R278: the WUPB is encoded and waits for its slot. -/
theorem test_trxCodeTxReader :
    afterwards (exec (.trxCodeTxReader 5) { withMem (bytesAt 0x1000 wupb) with arg0 := 1000 })
      (fun t => (t.ts.len, t.eng.op, t.eng.hold, t.eng.txTarget)) =
      some (9, 0x33, .slot (some wupb), 0x3D0) := by decide +kernel

/-- R275, R278: the last word of the last bit ends the command; RES1 is 256 ticks a byte after RES0. -/
theorem test_trxCodeTxReader_end :
    afterwards (engineMove { withMem (bytesAt 0x2000 [0x01]) with
      ts := { max := 0, bit := 8 }
      eng := { Engine.idle with busy := true, op := 0x33, hold := .readerWord true (some []), txTarget := 0x3D0, txIdx := 7 }
      env := { Env.quiet with txReady := 1 } })
      (fun t => (t.res0, t.res1, t.out.tx, t.out.trace.length)) = some (992, 992 + 256, [.tx16 0], 1) := by decide

/-- R286. -/
theorem test_trxSetTimeout :
    afterwards (exec .trxSetTimeout { State.reset with arg0 := 40542465 }) (fun t => t.session.timeout) =
      some 40542464 := by decide

/-- R287. -/
theorem test_trxSetMaxFrame :
    afterwards (exec .trxSetMaxFrame { State.reset with arg0 := 1000 }) (fun t => t.session.frameMax) = some 256 := by decide

/-- R311: the PUPI 0x11223344 and its recomputed CRC. -/
theorem test_emuInit_atqb :
    atqbFor 0x11223344 =
      [0x50, 0x11, 0x22, 0x33, 0x44, 0x20, 0x38, 0x19, 0x22, 0x00, 0x21, 0x85, 0x88, 0x60] := by decide +kernel

/-- R311: lengths and state, and the OK response left in the send buffer. -/
theorem test_emuInit :
    afterwards (exec .emuInit State.reset) (fun t => (t.emu, t.ts.len, t.mem.read 0x5101, t.mem.read 0x5224)) =
      some ({ state := .nofield, eatqbLen := 92, eokLen := 37 }, 37, some 0xFF, some 0xFF) := by decide +kernel

/-- R312: strictly above the threshold. -/
theorem test_emuField :
    [1, 5].map (fun v => afterwards (exec .emuField { State.reset with env := { Env.quiet with fieldV := v } })
      (fun t => t.emu.state)) = [some .nofield, some .idle] := by decide

/-- R312: the loss of the field. -/
theorem test_emuField_loss :
    afterwards (exec .emuField { State.reset with
      emu := { state := .work, eatqbLen := 0, eokLen := 0 }, env := { Env.quiet with fieldV := 1 } })
      (fun t => t.emu.state) = some .nofield := by decide

/-- R314: the WUPB in IDLE. -/
theorem test_emuFrame_wupb :
    afterwards (exec .emuFrame { withMem (bytesAt 0x3000 wupb) with
      emu := { state := .idle, eatqbLen := 92, eokLen := 37 }
      uart := { State.reset.uart with byteCnt := 5, byteCntMax := 256 } })
      (fun t => (t.emu.state, t.eng.busy, t.txMode, t.out.trace.map (fun r => r.bytes))) =
      some (.work, true, .tagBpsk, [wupb]) := by decide

/-- R316: another frame in WORK is logged with its check, and not answered. -/
theorem test_emuFrame_log :
    afterwards (exec .emuFrame { withMem (bytesAt 0x3000 [0x06, 0x00, 0x97, 0x5B]) with
      emu := { state := .work, eatqbLen := 92, eokLen := 37 }
      uart := { State.reset.uart with byteCnt := 4, byteCntMax := 256 } })
      (fun t => (t.emu.state, t.eng.busy, t.out.trace.map (fun r => r.crcOk))) =
      some (.idle, false, [some true]) := by decide +kernel

/-- R320. -/
theorem test_emuRx : afterwards (exec (.emuRx 256) State.reset) (fun t => (t.eng.hold, t.uart.byteCntMax)) =
    some (.rbit, 256) := by decide

/-- R131's framed constants. -/
theorem test_crc_constants :
    (crcB [0x05, 0x00, 0x08], crcB [0x06, 0x00], crcB [0x00]) = (0x7339, 0x5B97, 0xF078) := by decide +kernel

/-- R90: a host read of an unwritten byte. -/
theorem test_hostRead_unwritten : (hostRead 0x2000 1 State.reset).fault = some .unwritten := by decide

/-- R130: a line of the assembly language. -/
theorem test_assemble_loadReader :
    assemble (.loadReader [0x05]) = [.hostWrite 0x1000 1 0x05, .hostWrite 0x010 4 0x04000001] := by decide

/-! ### States that meet the hypotheses of the statements -/

/-- Parameters at the lower ends of their ranges. -/
def tiny : Config := { Config.vectors with tosendSize := 1, cmdbufSize := 1, uoutSize := 1, doutSize := 1, sringEntries := 1 }

/-- Parameters at the upper ends of their ranges. -/
def huge : Config :=
  { Config.vectors with tosendSize := 4096, cmdbufSize := 4096, uoutSize := 4096, doutSize := 4096, sringEntries := 4096 }

/-- RESET of a block with given parameters. -/
def resetOf (c : Config) : State := State.afterReset c .quiet { tx := [], trace := [], bus := [] }

/-- The hypothesis of ResetMeetsTheInvariant at both ends. -/
theorem test_witness_config_ranges : tiny.wf = true ∧ huge.wf = true := by decide

theorem test_inv_reset : State.reset.Inv where
  config := by decide
  memory := by constructor <;> decide
  send := by constructor <;> decide
  uart := by constructor <;> decide
  demod := by constructor <;> decide
  ring := by constructor <;> decide
  emulator := by constructor <;> decide
  engine := ⟨by decide, by decide, rfl, by decide⟩

theorem test_accepts_reset : State.reset.Accepts := ⟨rfl, rfl, rfl, rfl⟩

/-- A receive at its sample hold, one entry (0, 0) in the ring. -/
def receiving : State := { withMem (bytesAt 0x6000 [0, 0]) with
  arg0 := 0, ring := { produced := 1, consumed := 0 }, eng := { Engine.idle with busy := true, op := 0x32, hold := .sample } }

theorem test_inv_receiving : receiving.Inv where
  config := by decide
  memory := by constructor <;> decide
  send := by constructor <;> decide
  uart := by constructor <;> decide
  demod := by constructor <;> decide
  ring := by constructor <;> decide
  emulator := by constructor <;> decide
  engine := ⟨by decide, by decide, rfl, by decide⟩

/-- EMU.RX at its bit hold, one bit delivered. -/
def listening : State := { State.reset with
  eng := { Engine.idle with busy := true, op := 0x43, hold := .rbit }, env := { Env.quiet with rbits := [false] } }

theorem test_inv_listening : listening.Inv where
  config := by decide
  memory := by constructor <;> decide
  send := by constructor <;> decide
  uart := by constructor <;> decide
  demod := by constructor <;> decide
  ring := by constructor <;> decide
  emulator := by constructor <;> decide
  engine := ⟨by decide, by decide, rfl, by decide⟩

/-- DecodeReadsEveryEncodedCommand. -/
theorem test_witness_wf : (Instr.trxTxTag 2).wf = true ∧ (Instr.demodStep 0x80 0x7F).wf = true := by decide

/-- DecodeIgnoresNoBit, at the largest length. -/
theorem test_witness_decode : decode 0x0400FFFF = .ok (.codeReader 0xFFFF) := by decide

/-- WordsOutsideTheMapAreIllegal: words on both sides of each check. -/
theorem test_witness_legal :
    (legalWord 0x43000000 ∧ legalWord 0x31000002) ∧
    (¬ legalWord 0x44000000 ∧ ¬ legalWord 0x31000003 ∧ ¬ legalWord 0x31000004 ∧ ¬ legalWord 0x01000001) ∧
    State.reset.fault = none ∧ State.reset.eng.busy = false := by
  unfold legalWord
  decide

/-- StepRunsTheDecodedCommand. -/
theorem test_witness_step :
    let s := State.reset.withMoves [.hostWrite 0x010 4 0x01000000]
    s.fault = none ∧ s.eng.busy = false ∧ s.env.moves = .hostWrite 0x010 4 0x01000000 :: [] ∧
      decode 0x01000000 = .ok .tosendReset := by decide

/-- A state in which a fault stands. -/
def broken : State := { State.reset with fault := some .bus, faultInfo := 0x78 }

/-- FaultIsSticky, each clause: a command, and a step whose move is not RESET. -/
theorem test_witness_sticky :
    broken.fault ≠ none ∧ (nextOf (exec .tosendReset broken)).isSome = true ∧
      ((broken.withMoves [.clock]).fault ≠ none ∧ (broken.withMoves [.clock]).env.moves.head? ≠ some .reset ∧
        (nextOf (step (broken.withMoves [.clock]))).isSome = true) := by decide

/-- FaultsArePreciseAndAbandonTheCommand, each clause at a boundary: a length one too large, a busy engine, a full ring, the
last byte of CMDBUF, the last byte of SRING after a fault. -/
theorem test_witness_precise :
    (State.reset.fault = none ∧ afterwards (exec (.uartInit 513) State.reset) (fun t => t.fault) = some (some .range)) ∧
    (receiving.fault = none ∧ receiving.eng.busy = true) ∧
    (let s : State := { resetOf tiny with ring := { produced := 1, consumed := 0 } }
     s.fault = none ∧ s.ring.produced - s.ring.consumed = s.cfg.sringEntries) ∧
    (broken.fault ≠ none ∧ 255 < broken.cfg.cmdbufSize ∧ broken.cfg.cmdbufSize ≤ 4096) ∧
    (let s : State := { broken with mem := bytesAt 0x67FF [0x11] }
     s.fault ≠ none ∧ 2047 < Window.sring.capacity s.cfg ∧ (0x67FF : Half).toNat = Window.sring.base + 2047 ∧
       s.mem.read (0x67FF : Half).toNat = some 0x11) := by decide

/-- CancelEndsTheCommandAtItsHold. -/
theorem test_witness_cancel :
    let s : State := { State.reset with env := { Env.quiet with cancel := true } }
    ({ receiving with env := s.env } : State).eng.busy = true ∧ s.env.cancel = true ∧
      afterwards (exec .trxTxReader s) (fun t => t.eng.busy) = some true := by decide

/-- UnmetHoldChangesNothing: an idle engine, and a receive with an empty ring, without and with a move of each kind to come. -/
theorem test_witness_unmet :
    let s : State := { receiving with ring := { produced := 1, consumed := 1 } }
    State.reset.eng.busy = false ∧ s.eng.busy = true ∧ s.env.cancel = false ∧ holdReady s = false ∧ s.env.moves = [] ∧
      ∀ mv ∈ [Move.clock, .txReady, .readerBit true, .field 0xFFFFFFFF, .cancel true],
        (s.withMoves [mv]).env.cancel = false ∧ holdReady (s.withMoves [mv]) = false ∧
          (s.withMoves [mv]).env.moves = mv :: [] := by decide

/-- StepKeepsTheInvariant and RunsNeverStop. -/
theorem test_witness_invariant_step : receiving.Inv ∧ (nextOf (step receiving)).isSome = true :=
  ⟨test_inv_receiving, by decide⟩

/-- RegisterTableReadsAndResets: the last register. -/
theorem test_witness_register : (0x074, 0x78) ∈ registerTable broken ∧ (0x074, 0) ∈ registerTable State.reset ∧
    State.reset.fault = none := by decide

/-- HostReadOutcomes: the last byte of SRING written, unwritten, and the first addresses past a window and past the
registers. -/
theorem test_witness_hostRead :
    (let s := withMem (bytesAt 0x67FF [0x11])
     2047 < Window.sring.capacity s.cfg ∧ (0x67FF : Half).toNat = Window.sring.base + 2047 ∧
       s.mem.read (0x67FF : Half).toNat = some 0x11) ∧
    State.reset.mem.read (0x67FF : Half).toNat = none ∧
    (¬ ∃ w ∈ Window.all, w.base ≤ (0x6800 : Half).toNat ∧ (0x6800 : Half).toNat < w.base + w.capacity State.reset.cfg) ∧
    (∀ row ∈ registerTable State.reset, row.1 ≠ (0x078 : Half).toNat ∧ row.1 ≠ (0x010 : Half).toNat) := by decide

/-- HostWriteOutcomes: the last byte of CMDBUF, the first address past it in a state with a fault, a read-only
register. -/
theorem test_witness_hostWrite :
    (255 < State.reset.cfg.cmdbufSize ∧ (0x10FF : Half).toNat = 0x1000 + 255) ∧
    (broken.fault ≠ none ∧ ¬ (0x1000 ≤ (0x1100 : Half).toNat ∧ (0x1100 : Half).toNat < 0x1000 + State.reset.cfg.cmdbufSize)) ∧
    ¬ ((0x004 : Half) = 0x000 ∨ (0x004 : Half) = 0x010) := by decide

/-- RingIsFirstInFirstOut: an empty ring, a ring with room for one more, and a full ring. -/
theorem test_witness_ring :
    let m := bytesAt 0x6000 [1, 2]
    let two : Config := { Config.vectors with sringEntries := 2 }
    (two.wf = true ∧ RingInv two { produced := 0, consumed := 0 } []) ∧
    RingInv two { produced := 1, consumed := 0 } m ∧
    (tiny.wf = true ∧ RingInv tiny { produced := 1, consumed := 0 } m) := by
  refine ⟨⟨by decide, ?_⟩, ?_, by decide, ?_⟩ <;> constructor <;> decide

/-- OnlyWaitingCommandsLeaveTheEngineBusy: a command of each kind, and one with an empty source. -/
theorem test_witness_waits :
    waits .emuField = false ∧ waits .trxTxReader = true ∧ waits (.trxTxTag 1) = true ∧
    (nextOf (exec .emuField State.reset)).isSome = true ∧
    afterwards (exec .trxTxReader State.reset) (fun t => t.fault) = some none ∧
    afterwards (exec (.trxTxTag 1) State.reset) (fun t => t.fault) = some none := by decide

/-- A tag transmission of one byte at its hold, the consumer ready. -/
def answering : State := { withMem (bytesAt 0x2000 [0xA0]) with
  ts := { max := 0, bit := 8 }, txMode := .tagBpsk
  eng := { Engine.idle with busy := true, op := 0x31, hold := .tagByte .tosend }, env := { Env.quiet with txReady := 1 } }

/-- OtherCommandsIgnoreArg0AndKeepResults. -/
theorem test_witness_arg0 :
    readsArg0 .emuFrame = false ∧ (nextOf (exec .trxSetTimeout State.reset)).isSome = true ∧
    answering.eng.hold = .tagByte .tosend ∧ answering.env.cancel = false ∧
    (nextOf (engineMove answering)).isSome = true := by decide

/-- CommandInFlightIgnoresLaterOperands: the last byte of CMDBUF. -/
theorem test_witness_operands : receiving.Inv ∧ 255 < receiving.cfg.cmdbufSize := ⟨test_inv_receiving, by decide⟩

/-- TxModeIsWrittenByTransmissionsAndCancellation: a transmission and a RESET that change it. -/
theorem test_witness_txMode :
    afterwards (step (State.reset.withFetchWord 32 0x30000000)) (fun t => t.txMode) = some .readerAsk ∧
    State.reset.txMode = .off ∧
    afterwards (step ({ State.reset with txMode := .tagBpsk }.withMoves [.reset])) (fun t => t.txMode) = some .off := by
  decide

/-- The end of a coded reader transmission: one word left. -/
def transmitting : State := { withMem (bytesAt 0x2000 [0x01]) with
  ts := { max := 0, bit := 8 }, txMode := .readerAsk
  eng := { Engine.idle with busy := true, op := 0x33, hold := .readerWord true (some [0x05]), txIdx := 7 }
  env := { Env.quiet with txReady := 1 } }

/-- A receive whose next sample ends a SOF-only frame. -/
def sofOnly : State := { withMem (bytesAt 0x6000 [40, 0]) with
  ring := { produced := 1, consumed := 0 }, eng := { Engine.idle with busy := true, op := 0x32, hold := .sample }
  demod := { State.reset.demod with state := .awaitingStartBit, sumI := 320, posCount := 12 } }

/-- TraceRecordsComeFromThreeCommands: a record of each of the three. -/
theorem test_witness_trace :
    afterwards (step transmitting) (fun t => t.out.trace.length) = some 1 ∧
    afterwards (step sofOnly) (fun t => t.out.trace.length) = some 1 ∧
    afterwards (step ({ withMem (bytesAt 0x3000 wupb) with
      emu := { state := .idle, eatqbLen := 0, eokLen := 0 }
      uart := { State.reset.uart with byteCnt := 5, byteCntMax := 256 } }.withMoves [.hostWrite 0x010 4 0x42000000]))
      (fun t => t.out.trace.length) = some 1 := by decide

/-- CommandsWriteOnlyTheirOwnState. -/
theorem test_witness_commands : (nextOf (exec (.codeReader 0) State.reset)).isSome = true := by decide +kernel

/-- StuffAppendsOneBit: the empty buffer, a full one, and an open byte at its last bit. -/
theorem test_witness_stuff :
    (tiny.wf = true ∧ SendInv tiny { max := -1, bit := 8 } [] ∧ SendCursor.len { max := -1, bit := 8 } < tiny.tosendSize) ∧
    (SendInv tiny { max := 0, bit := 8 } (bytesAt 0x2000 [0xFF]) ∧ tiny.tosendSize ≤ SendCursor.len { max := 0, bit := 8 }) ∧
    SendInv tiny { max := 0, bit := 7 } (bytesAt 0x2000 [0xFE]) := by
  refine ⟨⟨by decide, ?_, by decide⟩, ⟨?_, by decide⟩, ?_⟩ <;> constructor <;> decide

/-- Stuff4AppendsFourBits: a full buffer with four bits left, and with three. -/
theorem test_witness_stuff4 :
    (tiny.wf = true ∧ SendInv tiny { max := 0, bit := 4 } (bytesAt 0x2000 [0xF0]) ∧ ¬ 4 < (4 : BitVec 4).toNat) ∧
    (SendInv tiny { max := 0, bit := 5 } (bytesAt 0x2000 [0xF8]) ∧ 4 < (5 : BitVec 4).toNat ∧
      tiny.tosendSize ≤ SendCursor.len { max := 0, bit := 5 }) := by
  refine ⟨⟨by decide, ?_, by decide⟩, ?_, by decide, by decide⟩ <;> constructor <;> decide

/-- CodeReaderBuildsTheReaderFrame and CodeTxReaderIsAccepted: one byte, in buffers that just hold it. -/
theorem test_witness_codeReader :
    let c : Config := { tiny with tosendSize := 4 }
    let m := bytesAt 0x1000 [0xA5]
    c.wf = true ∧ ([0xA5] : List Byte).length = (1 : Half).toNat ∧ ([0xA5] : List Byte).length ≤ c.cmdbufSize ∧
      holdsBytes .cmdbuf [0xA5] m ∧ (22 + 10 * ([0xA5] : List Byte).length + 7) / 8 ≤ c.tosendSize := by
  unfold holdsBytes
  decide

/-- CodeTagBuildsTheTagFrame: one byte, in buffers that just hold it. -/
theorem test_witness_codeTag :
    let c : Config := { tiny with tosendSize := 27 }
    let m := bytesAt 0x1000 [0xA5]
    c.wf = true ∧ ([0xA5] : List Byte).length = (1 : Half).toNat ∧ ([0xA5] : List Byte).length ≤ c.cmdbufSize ∧
      holdsBytes .cmdbuf [0xA5] m ∧ 22 + 5 * ([0xA5] : List Byte).length ≤ c.tosendSize := by
  unfold holdsBytes
  decide

/-- EncodingChecksInOrder: each check one past its boundary. -/
theorem test_witness_checks :
    tiny.cmdbufSize < (2 : Half).toNat ∧
    ((1 : Half).toNat ≤ tiny.cmdbufSize ∧ 0 < (1 : Half).toNat ∧ (resetOf tiny).mem.read (0x1000 + 0) = none) ∧
    (let c : Config := { tiny with tosendSize := 3 }
     (1 : Half).toNat ≤ c.cmdbufSize ∧ (∀ j < (1 : Half).toNat, ((bytesAt 0x1000 [7]).read (0x1000 + j)).isSome = true) ∧
       c.tosendSize < (22 + 10 * (1 : Half).toNat + 7) / 8) := by decide

/-- CrcAppendThenVerifyIsAFixedPoint. -/
theorem test_witness_crc : checkCrc wupb = true := by decide +kernel

/-- UartInitResetsTheUart and EmuRxIsAccepted, DemodInitResetsTheDemod and RxTagIsAccepted: the largest length and one more. -/
theorem test_witness_lengths :
    ((512 : Half).toNat ≤ State.reset.cfg.uoutSize ∧ State.reset.cfg.uoutSize < (513 : Half).toNat) ∧
    (512 : Half).toNat ≤ State.reset.cfg.doutSize ∧ State.reset.cfg.doutSize < (513 : Half).toNat := by decide

/-- A Uart at the tenth mid-bit sample of a character. -/
def uartAtTen (shift : BitVec 10) (cnt max : Half) : Uart :=
  { state := .receivingData, shift := shift, bitCnt := 9, byteCnt := cnt, byteCntMax := max, posCnt := 37 }

/-- UartStepCompletes and UartStoresAValidCharacter: below the limit, at it, and the last byte that after_store stores. -/
theorem test_witness_uart :
    (Config.vectors.wf = true ∧ UartInv Config.vectors (uartAtTen 0b1010010100 0 1) [] ∧
      uartImage true (uartAtTen 0b1010010100 0 1) 0b1101001010) ∧
    (tiny.wf = true ∧ UartInv tiny (uartAtTen 0b1010010100 1 1) (bytesAt 0x3000 [5]) ∧ tiny.uartOvfCheck = .beforeStore) ∧
    UartInv { tiny with uartOvfCheck := .afterStore } (uartAtTen 0b1010010100 0 1) [] ∧
    uartImage false (uartAtTen 0 1 1) 0 := by
  unfold uartImage
  refine ⟨⟨by decide, ?_, by decide⟩, ⟨by decide, ?_, by decide⟩, ?_, by decide⟩ <;> constructor <;> decide

/-- UartStepsSampleBySample: each of its states, the last mid-bit sample before the tenth, and a sample after that. -/
theorem test_witness_uart_states :
    UState.unsynced ≠ .receivingData ∧ UState.gotFallingEdgeOfSof ≠ .receivingData ∧
      UState.awaitingStartBit ≠ .receivingData ∧ { uartAtTen 0 0 1 with bitCnt := 8, posCnt := 33 }.bitCnt.toNat < 9 ∧
      ({ uartAtTen 0 0 1 with posCnt := 36 }.posCnt.toNat + 1) % 4 ≠ 2 := by decide

/-- UartErrorsLeaveItUnsyncedAndZero, each condition of its errors at its boundary: a low phase of nine bits, the thirteenth
low bit, the 26th idle sample, a stop bit of 0, a character at the limit; and a return to UNSYNCED. -/
theorem test_witness_uart_errors :
    let got : Uart := { uartAtTen 0 0 1 with state := .gotFallingEdgeOfSof }
    let late : Uart := { got with bitCnt := 12, posCnt := 49 }
    let idle : Uart := { got with state := .awaitingStartBit, bitCnt := 0, posCnt := 25 }
    let framing : Uart := uartAtTen 0b0000000010 0 1
    let full : Uart := uartAtTen 0b1010010100 0 0
    (∀ u ∈ [got, late, idle, framing, full], UartInv Config.vectors u []) ∧
    uartError Config.vectors true got ∧ uartError Config.vectors false late ∧ uartError Config.vectors true idle ∧
    (uartImage false framing 1 ∧ (1 : BitVec 10) ≠ 0 ∧ ¬ wellFramed 1) ∧ uartError Config.vectors true full ∧
    afterwards (exec (.uartStep true) { State.reset with uart := got }) (fun t => t.uart.state) = some .unsynced := by
  intro got late idle framing full
  refine ⟨?_, .inl (by decide), .inr (.inl (by decide)), .inr (.inr (.inl (by decide))), ?_,
    .inr (.inr (.inr (.inr ⟨0b1101001010, ?_, ?_, by decide⟩))), by decide⟩
  · intro u h
    simp only [List.mem_cons, List.not_mem_nil, or_false] at h
    rcases h with rfl | rfl | rfl | rfl | rfl <;> constructor <;> decide
  · unfold uartImage wellFramed; decide
  · unfold uartImage; decide
  · unfold wellFramed; decide

/-- UartDecodesTheReaderEncoding and EmuRxReceivesTheReaderEncoding: one byte at the tightest limit of each policy. -/
theorem test_witness_uart_decodes :
    1 ≤ ([0xA5] : List Byte).length ∧ (1 : Half).toNat ≤ tiny.uoutSize ∧
    (([0xA5] : List Byte).length = (1 : Half).toNat ∧ tiny.uartOvfCheck = .beforeStore) ∧
    ([0xA5] : List Byte).length < (2 : Half).toNat ∧
    (State.reset.Accepts ∧ State.reset.env.cancel = false) ∧ 0 < (readerChannel [0xA5]).length - 1 := by
  refine ⟨by decide, by decide, by decide, by decide, ⟨test_accepts_reset, by decide⟩, by decide +kernel⟩

/-- A Demod at the second half of the tenth bit of a character. -/
def demodAtTen (shift : BitVec 10) (len max : Half) : Demod :=
  { State.reset.demod with
    state := .receivingData, sumI := 320, posCount := 1, bitCount := 9, thisBit := 40, shift := shift, len := len, maxLen := max }

/-- DemodStepCompletes: a character below the limit, one at it, and the SOF-only frame. -/
theorem test_witness_demod :
    (DemodInv Config.vectors (demodAtTen 0b0000010000 0 1) [] ∧ demodImage 40 (demodAtTen 0b0000010000 0 1) 0b1000001000 ∧
      softDecision Config.vectors (demodAtTen 0b0000010000 0 1) 40 0 = 40) ∧
    DemodInv Config.vectors (demodAtTen 0b0000010000 0 0) [] ∧
    (DemodInv sofOnly.cfg sofOnly.demod sofOnly.mem ∧ 0 < softDecision sofOnly.cfg sofOnly.demod 40 0) := by
  unfold demodImage
  refine ⟨⟨?_, by decide, by decide⟩, ?_, ?_, by decide⟩ <;> constructor <;> decide

/-- DemodStepCompletes: the EOF. -/
theorem test_witness_demod_eof : demodImage (-40) { demodAtTen 0 0 1 with thisBit := -40 } 0 := by
  unfold demodImage
  decide

/-- DemodAcceptsLowPhasesOf18To28Samples: one low sample, then a high one. -/
theorem test_witness_demod_low :
    let d : Demod := { State.reset.demod with state := .awaitingFallingEdgeOfSof, sumI := 320, sumQ := -160, posCount := 8 }
    softDecision Config.vectors d (-40) 20 < 0 ∧ 0 < softDecision Config.vectors d 40 (-20) := by decide

/-- DemodDecodesTheTagEncoding and RxTagReceivesTheTagEncoding: the empty frame, a silence at the threshold, the weakest
reference. -/
theorem test_witness_demod_decodes :
    ([] : List Byte).length ≤ (0 : Half).toNat ∧ (0 : Half).toNat ≤ tiny.doutSize ∧ amplitude 8 0 ≤ 8 ∧ 8 < amplitude 9 0 ∧
    (9 : Byte) ≠ 0x80 ∧ (0 : Byte) ≠ 0x80 ∧ 0 < ([(8, 0)] ++ tagChannel 9 0 []).length ∧
    [(8, 0)].length + (tagChannel 9 0 []).length < 2 ^ 32 := by decide +kernel

/-- RxTagReceivesTheTagEncoding: a state that meets its hypotheses with the empty frame and no silence. -/
def beforeReceive : State := State.reset.withMoves (([] ++ tagChannel 9 0 []).map fun x : Byte × Byte => .produce x.1 x.2)

theorem test_witness_receive : beforeReceive.Inv ∧ beforeReceive.Accepts ∧ beforeReceive.env.cancel = false ∧
    ([] : List (Byte × Byte)).length ≤ beforeReceive.arg0.toNat ∧
    beforeReceive.env.moves = ([] ++ tagChannel 9 0 []).map (fun x : Byte × Byte => .produce x.1 x.2) ++ [] :=
  ⟨⟨test_inv_reset.config, test_inv_reset.memory, test_inv_reset.send, test_inv_reset.uart, test_inv_reset.demod,
    test_inv_reset.ring, test_inv_reset.emulator, ⟨test_inv_reset.engine.1, test_inv_reset.engine.2, rfl, by decide⟩⟩,
    ⟨rfl, rfl, rfl, rfl⟩, rfl, by decide, by simp [beforeReceive, State.withMoves]⟩

/-- DemodStepCompletes, sample by sample: each state, the last of its counts, and the ninth bit. -/
theorem test_witness_demod_samples :
    let d : Demod := { State.reset.demod with sumI := 320, sumQ := -160 }
    (∀ x ∈ [{ d with state := .phaseRefTraining, posCount := 7 }, { d with state := .awaitingFallingEdgeOfSof, posCount := 50 },
        { d with state := .gotFallingEdgeOfSof, posCount := 28 }, { d with state := .awaitingStartBit, posCount := 12 },
        { d with state := .receivingData }, { d with state := .receivingData, posCount := 1, bitCount := 8 }],
      DemodInv Config.vectors x []) ∧ DemodInv Config.vectors State.reset.demod [] ∧
    softDecision Config.vectors d 0 0 = 0 := by
  intro d
  refine ⟨?_, by constructor <;> decide, by decide⟩
  intro x h
  simp only [List.mem_cons, List.not_mem_nil, or_false] at h
  rcases h with rfl | rfl | rfl | rfl | rfl | rfl <;> constructor <;> decide

/-- DemodSumsAreConstantAfterTraining: a trained state, a silent return, each error at its boundary, the overflow. -/
theorem test_witness_demod_sums :
    let d : Demod := { State.reset.demod with sumI := 320, sumQ := -160 }
    let framing := demodAtTen 0b0000000010 0 1
    (2 ≤ sofOnly.demod.state.code.toNat ∧ (nextOf (exec (.demodStep 40 0) sofOnly)).isSome = true ∧
      (let s : State := { sofOnly with demod := { sofOnly.demod with state := .gotFallingEdgeOfSof, posCount := 17 } }
       afterwards (exec (.demodStep 40 0) s) (fun t => (t.demod.state, t.dDone)) = some (.unsynced, false))) ∧
    demodError 8 8 0 { d with state := .phaseRefTraining, posCount := 7 } ∧
    demodError 0 0 0 { d with state := .awaitingFallingEdgeOfSof, posCount := 50 } ∧
    demodError 60 40 (-20) { d with state := .gotFallingEdgeOfSof, posCount := 17 } ∧
    demodError 0 0 0 { d with state := .gotFallingEdgeOfSof, posCount := 28 } ∧
    (let x : Demod := { d with state := .awaitingStartBit, posCount := 12, len := 1, maxLen := 1 }
     demodError 60 40 (-20) x ∧ DemodInv Config.vectors x (bytesAt 0x4000 [7])) ∧
    (DemodInv Config.vectors framing [] ∧ demodError (-90) (-90) 0 framing) ∧
    demodOverflow 40 (demodAtTen 0b0000010000 0 0) := by
  intro d framing
  refine ⟨by decide, .inl (by decide), .inr (.inl (by decide)), .inr (.inr (.inl (by decide))),
    .inr (.inr (.inr (.inl (by decide)))), ⟨.inr (.inr (.inr (.inr (.inl (by decide))))), ?_⟩,
    ⟨?_, .inr (.inr (.inr (.inr (.inr ⟨1, ?_, by decide, ?_⟩))))⟩, 0b1000001000, ?_, ?_, by decide⟩
  · constructor <;> decide
  · constructor <;> decide
  · unfold demodImage; decide
  · unfold wellFramed; decide
  · unfold demodImage; decide
  · unfold wellFramed; decide

/-- SlotsAreMultiplesOf16AndSlipByPolicy: the slot itself, one tick later, and the last reading before the wrap. -/
theorem test_witness_slots :
    (0x3D0 : Word).toNat ≤ (slotFor 1000).toNat ∧ (slotFor 1000).toNat < (0x3D1 : Word).toNat ∧
    (0xFFFFFFEF : Word).toNat + 16 < 2 ^ 32 := by decide

/-- ReaderTransmissionRunsToItsEnd: one byte, the slot just reached, the consumer just ready for it; and an empty buffer. -/
theorem test_witness_reader_run :
    (let s : State := { withMem (bytesAt 0x2000 [0x01]) with
       ts := { max := 0, bit := 8 }, env := { Env.quiet with txReady := 16, now := 0x3D0 }
       eng := { Engine.idle with busy := true, op := 0x30, hold := .slot none, txTarget := 0x3D0 } }
     s.cfg.wf = true ∧ SendInv s.cfg s.ts s.mem ∧ s.eng.busy = true ∧ s.eng.hold = .slot none ∧ s.eng.txIdx = 0 ∧
       s.env.cancel = false ∧ s.eng.txTarget ≤ s.env.now ∧ 16 * s.ts.len ≤ s.env.txReady) ∧
    SendInv State.reset.cfg State.reset.ts State.reset.mem := by
  refine ⟨⟨by decide, ?_, by decide⟩, ?_⟩ <;> constructor <;> decide

/-- TagTransmissionRunsToItsEnd. -/
theorem test_witness_tag_run :
    answering.eng.busy = true ∧ answering.eng.hold = .tagByte .tosend ∧ answering.eng.txIdx = 0 ∧
    answering.env.cancel = false ∧ ([0xA0] : List Byte).length = txLen .tosend answering ∧
    1 ≤ TxSource.tosend.window.capacity answering.cfg ∧ holdsBytes TxSource.tosend.window [0xA0] answering.mem ∧
    ([0xA0] : List Byte).length ≤ answering.env.txReady := by
  unfold holdsBytes
  decide

/-- RxTagStepsTheDemodOncePerSample: at its sample hold with an entry, the timeout next. -/
theorem test_witness_rx_sample :
    receiving.Inv ∧ receiving.eng.busy = true ∧ receiving.eng.hold = .sample ∧ receiving.env.cancel = false ∧
    receiving.ring.consumed < receiving.ring.produced := ⟨test_inv_receiving, by decide⟩

/-- SilenceTimesOut: a budget of 0, so one sample, at the threshold. -/
def silent : State := { withMem (bytesAt 0x6000 [0, 0]) with
  ring := { produced := 1, consumed := 1 }, eng := { Engine.idle with busy := true, op := 0x32, hold := .sample }
  env := { Env.quiet with moves := [.produce 8 0] } }

theorem test_witness_silence : silent.Inv ∧ silent.eng.busy = true ∧ silent.eng.hold = .sample ∧ silent.env.cancel = false ∧
    silent.demod.state = .unsynced ∧ silent.eng.rxSamples = 0 ∧
    silent.ring.consumed = silent.ring.produced ∧ [(8, 0)].length = silent.eng.rxLimit.toNat + 1 ∧ amplitude 8 0 ≤ 8 ∧
    silent.env.moves = ([(8, 0)] : List (Byte × Byte)).map (fun x : Byte × Byte => .produce x.1 x.2) ++ [] := by
  refine ⟨{ config := by decide, memory := ?_, send := ?_, uart := ?_, demod := ?_, ring := ?_, emulator := ?_,
            engine := ⟨by decide, by decide, rfl, by decide⟩ }, by decide, by decide, by decide, by decide, by decide, by decide, by decide,
            by decide, by decide⟩ <;>
    constructor <;> decide

/-- EmuInitBuildsTheResponses: one byte too few, and just enough. -/
theorem test_witness_emuInit :
    (let c : Config := { Config.vectors with tosendSize := 91 }; c.wf = true ∧ c.tosendSize < 92) ∧
    (let c : Config := { Config.vectors with tosendSize := 92 }; c.wf = true ∧ 92 ≤ c.tosendSize) := by decide

/-- EmuFrameFollowsTheTable: the WUPB in IDLE, which is answered, and in NOFIELD, which is not. -/
theorem test_witness_emuFrame :
    let u : Uart := { State.reset.uart with byteCnt := 5, byteCntMax := 5 }
    let m := bytesAt 0x3000 wupb
    UartInv Config.vectors u m ∧ wupb.length = u.byteCnt.toNat ∧ holdsBytes .uout wupb m ∧
    emuTable .idle (classify wupb) = some (.work, some .eatqb, .reader) ∧
    emuTable .nofield (classify wupb) = some (.nofield, none, .none) := by
  unfold holdsBytes
  refine ⟨?_, by decide, by decide, by decide, by decide⟩
  constructor <;> decide

/-- EmuRxStepsTheUartOncePerBit: at its bit hold with a bit. -/
theorem test_witness_emu_bit :
    listening.Inv ∧ listening.eng.busy = true ∧ listening.eng.hold = .rbit ∧ listening.env.cancel = false ∧
    listening.env.rbits = false :: [] := ⟨test_inv_listening, by decide⟩

end Sys2Proof.Machine
end

section
/-! SUPPORT. Rules that never stop the model, and what the parts of the invariant need of memory. -/

namespace Sys2Proof.Machine

/-! ### Rules that never stop the model -/

/-- A rule answers a value with property `P` or raises a fault of the spec; neither stop of the model occurs (log
entry 8). -/
def Res.Safe {α : Type} (r : Res α) (P : α → Prop) : Prop :=
  match r with
  | .ok a => P a
  | .error (.raise _ _) => True
  | .error (.stop _) => False

@[simp] theorem Res.safe_ok {α : Type} (a : α) (P : α → Prop) : Res.Safe (.ok a) P ↔ P a := Iff.rfl
@[simp] theorem Res.safe_raise {α : Type} (code : FaultCode) (info : Word) (P : α → Prop) :
    Res.Safe (.error (.raise code info)) P := trivial

/-- A safe rule ends in one of two ways. -/
theorem Res.Safe.cases {α : Type} {r : Res α} {P : α → Prop} (h : Res.Safe r P) :
    (∃ a, r = .ok a ∧ P a) ∨ ∃ code info, r = .error (.raise code info) := by
  match r, h with
  | .ok a, h => exact .inl ⟨a, rfl, h⟩
  | .error (.raise code info), _ => exact .inr ⟨code, info, rfl⟩

theorem Res.Safe.mono {α : Type} {r : Res α} {P Q : α → Prop} (h : Res.Safe r P)
    (hPQ : ∀ a, r = .ok a → P a → Q a) : Res.Safe r Q := by
  obtain ⟨a, rfl, hP⟩ | ⟨code, info, rfl⟩ := h.cases
  · exact hPQ a rfl hP
  · trivial

theorem Res.safe_map {α β : Type} (f : α → β) (r : Res α) (P : β → Prop) :
    Res.Safe (r.map f) P ↔ Res.Safe r fun a => P (f a) := by
  match r with
  | .ok a => exact Iff.rfl
  | .error (.raise code info) => exact Iff.rfl
  | .error (.stop f) => exact Iff.rfl

/-- An outcome is a next state with property `P`. -/
def Answers (P : State → Prop) (o : Host.Outcome State Fault Refusal) : Prop := ∃ t, o = .next t ∧ P t

@[simp] theorem answers_next (P : State → Prop) (t : State) : Answers P (.next t) ↔ P t := by
  simp [Answers]

/-- A safe rule gives a next state if the raise of a fault does too. -/
theorem commit_answers {s : State} {r : Res State} {P : State → Prop} (h : Res.Safe r P)
    (hr : ∀ code info, P (s.raise code info)) : Answers P (commit s r) := by
  obtain ⟨t, rfl, hP⟩ | ⟨code, info, rfl⟩ := h.cases
  · simpa using hP
  · simpa using hr code info

/-! ### The parameters and the windows -/

/-- The ranges R8 gives the capacities, one by one. -/
theorem Config.wf_iff (c : Config) :
    c.wf = true ↔ (1 ≤ c.tosendSize ∧ c.tosendSize ≤ 4096) ∧ (1 ≤ c.cmdbufSize ∧ c.cmdbufSize ≤ 4096) ∧
      (1 ≤ c.uoutSize ∧ c.uoutSize ≤ 4096) ∧ (1 ≤ c.doutSize ∧ c.doutSize ≤ 4096) ∧
      (1 ≤ c.sringEntries ∧ c.sringEntries ≤ 4096) := by
  simp [Config.wf]

theorem Window.holds_iff (c : Config) (a : Nat) (w : Window) :
    w.holds c a = true ↔ w.base ≤ a ∧ a < w.base + w.capacity c := by
  simp [Window.holds]

theorem Window.holds_index {c : Config} {w : Window} {k : Nat} (h : k < w.capacity c) : w.holds c (w.base + k) = true := by
  rw [Window.holds_iff]; omega

/-- The window whose share of the map an address lies in, by the bases of R81. -/
def windowOf (a : Nat) : Window :=
  if a < 0x2000 then .cmdbuf else if a < 0x3000 then .tosend else if a < 0x4000 then .uout else if a < 0x5000 then .dout
  else if a < 0x5100 then .atqb else if a < 0x5200 then .eatqb else if a < 0x6000 then .eok else .sring

/-- With the parameters in their ranges a window ends before the next one begins (R8, R81). -/
theorem windowOf_eq {c : Config} {a : Nat} {w : Window} (hc : c.wf = true) (h : w.holds c a = true) : windowOf a = w := by
  obtain ⟨⟨-, htosend⟩, ⟨-, hcmdbuf⟩, ⟨-, huout⟩, ⟨-, hdout⟩, -⟩ := (Config.wf_iff c).1 hc
  rw [Window.holds_iff] at h
  cases w <;> simp only [Window.base, Window.capacity] at h <;> simp (disch := omega) only [windowOf, if_pos, if_neg]

/-- With the parameters in their ranges no address lies in two windows. -/
theorem Window.holds_other {c : Config} {a : Nat} {w w' : Window} (hc : c.wf = true) (h : w.holds c a = true)
    (hne : w ≠ w') : w'.holds c a = false := by
  by_contra h'
  rw [Bool.not_eq_false] at h'
  exact hne ((windowOf_eq hc h).symm.trans (windowOf_eq hc h'))

/-! ### Memory that only gains bytes -/

/-- `m'` comes from `m` by writes at mapped addresses. -/
structure Later (c : Config) (m m' : Memory) : Prop where
  wf : m.wf = true → m'.wf = true
  mapped : (∀ x ∈ m, (windowAt c x.1).isSome = true) → ∀ x ∈ m', (windowAt c x.1).isSome = true
  written : ∀ a, (m.read a).isSome = true → (m'.read a).isSome = true

variable {c : Config} {m m' m'' : Memory}

theorem WritesWithin.later {w : Window} (h : WritesWithin c w m m') : Later c m m' := ⟨h.wf, h.mapped, h.written⟩

theorem Later.trans (h : Later c m m') (h' : Later c m' m'') : Later c m m'' :=
  ⟨h'.wf ∘ h.wf, h'.mapped ∘ h.mapped, fun a => h'.written a ∘ h.written a⟩

/-- Bytes of another window keep their values. -/
theorem WritesWithin.read_other {w w' : Window} {k : Nat} (h : WritesWithin c w m m') (hc : c.wf = true) (hne : w' ≠ w)
    (hk : k < w'.capacity c) : m'.read (w'.base + k) = m.read (w'.base + k) :=
  h.other _ (Window.holds_other hc (Window.holds_index hk) hne)

/-- One byte written inside a window. -/
theorem WritesWithin.write {w : Window} {k : Nat} (v : Byte) (hk : k < w.capacity c) :
    WritesWithin c w m (m.write (w.base + k) v) := .byte (writeByte_ok c w k v m hk)

theorem MemInv.later (h : MemInv c m) (hm : Later c m m') : MemInv c m' := ⟨hm.wf h.canonical, hm.mapped h.mapped⟩

theorem UartInv.later {u : Uart} (h : UartInv c u m) (hm : Later c m m') : UartInv c u m' :=
  { h with bytesWritten := fun k hk => hm.written _ (h.bytesWritten k hk) }

theorem DemodInv.later {d : Demod} (h : DemodInv c d m) (hm : Later c m m') : DemodInv c d m' :=
  { h with bytesWritten := fun k hk => hm.written _ (h.bytesWritten k hk) }

theorem RingInv.later {r : Ring} (h : RingInv c r m) (hm : Later c m m') : RingInv c r m' :=
  { h with entriesWritten := fun j hj =>
      ⟨hm.written _ (h.entriesWritten j hj).1, hm.written _ (h.entriesWritten j hj).2⟩ }

theorem EmuInv.later {e : Emulator} (h : EmuInv e m) (hm : Later c m m') : EmuInv e m' :=
  { h with
    eatqb := ⟨h.eatqb.1, fun k hk => hm.written _ (h.eatqb.2 k hk)⟩
    eok := ⟨h.eok.1, fun k hk => hm.written _ (h.eok.2 k hk)⟩ }

/-- Writes outside TOSEND keep the send buffer. -/
theorem SendInv.writes_other {t : SendCursor} {w : Window} (h : SendInv c t m) (hc : c.wf = true)
    (hm : WritesWithin c w m m') (hne : w ≠ .tosend) : SendInv c t m' :=
  { h with
    bytesWritten := fun k hk => hm.written _ (h.bytesWritten k hk)
    tailClear := fun h0 => by
      have hhigh := h.high
      rw [hm.read_other hc hne.symm (by simp only [Window.capacity]; omega)]
      exact h.tailClear h0 }

/-! ### Bytes that have been written -/

/-- A written byte of a window is read. -/
theorem readByte_of_written {w : Window} {k : Nat} (hk : k < w.capacity c) (h : written w k m) :
    ∃ v, readByte c w k m = .ok v ∧ m.read (w.base + k) = some v := by
  obtain ⟨v, hv⟩ := Option.isSome_iff_exists.1 h
  exact ⟨v, (readByte_eq_ok_iff ..).2 ⟨hk, hv⟩, hv⟩

/-- Written bytes of a window are read in a row. -/
theorem readBytes_of_written {w : Window} {k n : Nat} (hn : k + n ≤ w.capacity c) (h : ∀ j < k + n, written w j m) :
    ∃ l, readBytes c w k n m = .ok l ∧ l.length = n := by
  induction n generalizing k with
  | zero => exact ⟨[], rfl, rfl⟩
  | succ n ih =>
    obtain ⟨v, hv, -⟩ := readByte_of_written (c := c) (k := k) (by omega) (h k (by omega))
    obtain ⟨l, hl, hlen⟩ := ih (k := k + 1) (by omega) fun j hj => h j (by omega)
    exact ⟨v :: l, by simp [readBytes, hv, hl], by simp [hlen]⟩

/-- `writeBytes` leaves its bytes written. -/
theorem written_of_writeBytes {w : Window} {l : List Byte} (h : writeBytes c w 0 l m = .ok m') {k : Nat}
    (hk : k < l.length) : written w k m' := by
  rw [written, writeBytes_read h, if_pos (by omega)]
  simp [hk]

end Sys2Proof.Machine
end

section
/-! SUPPORT. The send buffer's invariant under the encoders (R39, R172 to R175), with the count of bits appended. -/

namespace Sys2Proof.Machine

variable {c : Config}

/-- The open byte of stuff_bit (R172): a byte with a free bit, every byte written, the bits not yet appended 0. -/
structure OpenByte (c : Config) (t : SendCursor) (m : Memory) : Prop where
  low : 0 ≤ t.max.toInt
  high : t.max.toInt < c.tosendSize
  bit : t.bit.toNat ≤ 7
  bytesWritten : ∀ k < t.len, written .tosend k m
  tailClear : ∃ v : Byte, m.read (Window.tosend.base + t.max.toInt.toNat) = some v ∧ v <<< t.bit.toNat = 0

theorem SendCursor.len_of_nonneg {t : SendCursor} (h : 0 ≤ t.max.toInt) : t.len = t.max.toInt.toNat + 1 := by
  simp only [SendCursor.len]; omega

theorem SendCursor.bitCount_of_nonneg {t : SendCursor} (h : 0 ≤ t.max.toInt) :
    t.bitCount = 8 * t.max.toInt.toNat + t.bit.toNat := by
  rw [SendCursor.bitCount, SendCursor.len_of_nonneg h]; simp

theorem sendInv_empty (c : Config) (m : Memory) : SendInv c .empty m where
  low := by decide
  high := by simp [SendCursor.empty]; omega
  emptyBit _ := rfl
  openBit h := absurd h (by decide)
  bytesWritten k hk := absurd hk (by simp [show SendCursor.empty.len = 0 from by decide])
  tailClear h := absurd h (by decide)

theorem SendInv.len_le {t : SendCursor} {m : Memory} (h : SendInv c t m) : t.len ≤ c.tosendSize := by
  have := h.high
  simp only [SendCursor.len]; omega

/-- The bits counted lie in the bytes counted. -/
theorem SendInv.bitCount_le {t : SendCursor} {m : Memory} (h : SendInv c t m) : t.bitCount ≤ 8 * t.len := by
  by_cases h0 : 0 ≤ t.max.toInt
  · rw [SendCursor.bitCount_of_nonneg h0, SendCursor.len_of_nonneg h0]
    have := (h.openBit h0).2
    omega
  · have : t.len = 0 := by simp only [SendCursor.len]; omega
    simp [SendCursor.bitCount, this]

/-- A bit appended at position `k` leaves the positions after it 0. -/
theorem tailClear_setBit (v : Byte) {k : Nat} (hk : k ≤ 7) (h : v <<< k = 0) :
    (v ||| (0x80 : Byte) >>> k) <<< (k + 1) = 0 := by
  have hmask : ((0x80 : Byte) >>> k) <<< (k + 1) = 0 := by interval_cases k <;> decide
  rw [BitVec.shiftLeft_or_distrib, hmask, BitVec.shiftLeft_add, h]
  simp

/-- An open byte that keeps its bytes becomes a send buffer again when its next bit is counted. -/
theorem OpenByte.sendInv {t : SendCursor} {m m' : Memory} (h : OpenByte c t m) {v : Byte}
    (hw : ∀ a, (m.read a).isSome = true → (m'.read a).isSome = true)
    (hv : m'.read (Window.tosend.base + t.max.toInt.toNat) = some v) (htail : v <<< (t.bit.toNat + 1) = 0) :
    SendInv c { t with bit := t.bit + 1 } m' := by
  have hbit : (t.bit + 1).toNat = t.bit.toNat + 1 := by have := h.bit; simp; omega
  exact {
    low := by have := h.low; simp only; omega
    high := h.high
    emptyBit := fun h' => absurd h' (by have := h.low; simp only; omega)
    openBit := fun _ => by have := h.bit; simp only [hbit]; omega
    bytesWritten := fun k hk => hw _ (h.bytesWritten k hk)
    tailClear := fun _ => by rw [hv, hbit]; simp [htail] }

/-- The cursor of the next byte (R172), which the range of TOSEND_SIZE keeps from wrapping. -/
theorem toInt_next {x : Word} (hlow : -1 ≤ x.toInt) (hhigh : x.toInt < 4096) : (x + 1).toInt = x.toInt + 1 := by
  rw [BitVec.toInt_add, show (1 : Word).toInt = 1 from rfl]
  exact Int.bmod_eq_of_le (by omega) (by omega)

/-- What appending `n` bits gives: the invariant, and `n` bits more. -/
def Appended (c : Config) (n : Nat) (x y : SendState) : Prop :=
  SendInv c y.ts y.mem ∧ y.ts.bitCount = x.ts.bitCount + n

theorem openByte_safe (hc : c.wf = true) {x : SendState} (h : SendInv c x.ts x.mem) :
    Res.Safe (openByte c x) fun y => OpenByte c y.ts y.mem ∧ y.ts = { max := x.ts.max + 1, bit := 0 } := by
  have hlow := h.low
  have htosend := (Config.wf_iff c).1 hc |>.1
  by_cases hf : (c.tosendSize : Int) ≤ x.ts.max.toInt + 1
  · simp [openByte, tosendFull, hf, tosendOverflow]
  · have hmax : (x.ts.max + 1).toInt = x.ts.max.toInt + 1 := by
      exact toInt_next hlow (by omega)
    have hk : (x.ts.max.toInt + 1).toNat < Window.tosend.capacity c := by simp only [Window.capacity]; omega
    have hnn : ¬ x.ts.max.toInt + 1 < 0 := by omega
    simp only [openByte, tosendFull, hf, decide_false, Bool.false_eq_true, if_false, tosendIndex, hmax, hnn,
      writeByte_ok _ _ _ _ _ hk, Res.safe_ok, and_true]
    exact {
      low := by simp only [hmax]; omega
      high := by simp only [hmax]; omega
      bit := by simp
      bytesWritten := fun k hk' => by
        rw [written, Memory.read_write]
        split
        · rfl
        · refine h.bytesWritten k ?_
          simp only [SendCursor.len, hmax] at hk' ⊢
          omega
      tailClear := ⟨0, by simp only [hmax]; exact Memory.read_write_same .., rfl⟩ }

theorem putBit_safe (b : Bool) {x : SendState} (h : OpenByte c x.ts x.mem) :
    Res.Safe (putBit c b x) fun y => SendInv c y.ts y.mem ∧ y.ts = { x.ts with bit := x.ts.bit + 1 } := by
  obtain ⟨v, hv, htail⟩ := h.tailClear
  cases b with
  | false =>
    simp only [putBit, Bool.false_eq_true, if_false, Res.safe_ok, and_true]
    exact h.sendInv (fun _ => id) hv (by rw [BitVec.shiftLeft_add, htail]; simp)
  | true =>
    have hlow := h.low
    have hhigh := h.high
    have hk : x.ts.max.toInt.toNat < Window.tosend.capacity c := by simp only [Window.capacity]; omega
    let v' : Byte := v ||| (0x80 : Byte) >>> x.ts.bit.toNat
    have hset : setBit c x = .ok { x with mem := x.mem.write (Window.tosend.base + x.ts.max.toInt.toNat) v' } :=
      (setBit_eq_ok_iff ..).2 ⟨hlow, v, _, (readByte_eq_ok_iff ..).2 ⟨hk, hv⟩, writeByte_ok _ _ _ _ _ hk, rfl⟩
    simp only [putBit, if_true, hset, Res.safe_ok, and_true]
    exact h.sendInv (Memory.write_keeps_written _ _ · _) (Memory.read_write_same ..) (tailClear_setBit v h.bit htail)

/-- A send buffer whose last byte is not full is open. -/
theorem SendInv.openByte {t : SendCursor} {m : Memory} (h : SendInv c t m) (hbit : t.bit ≠ 8) : OpenByte c t m := by
  have hlow := h.low
  have h0 : 0 ≤ t.max.toInt := by
    have := mt h.emptyBit hbit
    omega
  have hle := (h.openBit h0).2
  have hlen := SendCursor.len_of_nonneg h0
  obtain ⟨v, hv⟩ := Option.isSome_iff_exists.1 (h.bytesWritten t.max.toInt.toNat (by omega))
  have htail := h.tailClear h0
  exact {
    low := h0
    high := h.high
    bit := by
      have : t.bit.toNat ≠ 8 := fun h8 => hbit (BitVec.eq_of_toNat_eq h8)
      omega
    bytesWritten := h.bytesWritten
    tailClear := ⟨v, hv, by simpa [hv] using htail⟩ }

/-- stuff_bit keeps R39 and appends one bit. -/
theorem stuffBit_safe (hc : c.wf = true) (b : Bool) {x : SendState} (h : SendInv c x.ts x.mem) :
    Res.Safe (stuffBit c b x) (Appended c 1 x) := by
  by_cases h8 : x.ts.bit = 8
  · obtain ⟨y, hy, hopen, hts⟩ | ⟨code, info, he⟩ := (openByte_safe hc h).cases
    · simp only [stuffBit, if_pos h8, hy]
      refine (putBit_safe b hopen).mono fun z _ ⟨hinv, hz⟩ => ⟨hinv, ?_⟩
      have hlow := h.low
      have hmax := hopen.low
      have hsize := (Config.wf_iff c).1 hc |>.1
      have hnext : y.ts.max.toInt.toNat = x.ts.len := by
        have hx := h.high
        rw [hts, SendCursor.len]
        simp only
        rw [toInt_next hlow (by omega)]
      rw [hz, SendCursor.bitCount_of_nonneg (by exact hmax)]
      simp only [hnext]
      by_cases h0 : 0 ≤ x.ts.max.toInt
      · rw [SendCursor.bitCount_of_nonneg h0, SendCursor.len_of_nonneg h0, hts, h8]
        simp; omega
      · have : x.ts.len = 0 := by simp only [SendCursor.len]; omega
        simp [SendCursor.bitCount, this, hts]
    · simp [stuffBit, h8, he]
  · have hopen := h.openByte h8
    simp only [stuffBit, if_neg h8]
    refine (putBit_safe b hopen).mono fun z _ ⟨hinv, hz⟩ => ⟨hinv, ?_⟩
    have hbit := hopen.bit
    rw [hz, SendCursor.bitCount_of_nonneg (by exact hopen.low), SendCursor.bitCount_of_nonneg hopen.low]
    simp; omega

/-- stuff_bit of a list keeps R39 and appends its bits. -/
theorem stuffBits_safe (hc : c.wf = true) (l : List Bool) {x : SendState} (h : SendInv c x.ts x.mem) :
    Res.Safe (stuffBits c l x) (Appended c l.length x) := by
  induction l generalizing x with
  | nil => exact ⟨h, rfl⟩
  | cons b rest ih =>
    obtain ⟨y, hy, hinv, hcount⟩ | ⟨code, info, he⟩ := (stuffBit_safe hc b h).cases
    · simp only [stuffBits, hy]
      exact (ih hinv).mono fun z _ ⟨hz, hzc⟩ => ⟨hz, by simp; omega⟩
    · simp [stuffBits, he]

/-- stuff4 keeps R39 and appends four bits. -/
theorem stuff4_safe (hc : c.wf = true) (b : Bool) {x : SendState} (h : SendInv c x.ts x.mem) :
    Res.Safe (stuff4 c b x) (Appended c 4 x) := by
  unfold stuff4
  split
  · trivial
  · exact stuffBits_safe hc [b, b, b, b] h

/-- stuff4 of each ETU keeps R39 and appends four bits an ETU. -/
theorem stuffEtus_safe (hc : c.wf = true) (l : List Bool) {x : SendState} (h : SendInv c x.ts x.mem) :
    Res.Safe (stuffEtus c l x) (Appended c (4 * l.length) x) := by
  induction l generalizing x with
  | nil => exact ⟨h, rfl⟩
  | cons b rest ih =>
    obtain ⟨y, hy, hinv, hcount⟩ | ⟨code, info, he⟩ := (stuff4_safe hc b h).cases
    · simp only [stuffEtus, hy]
      exact (ih hinv).mono fun z _ ⟨hz, hzc⟩ => ⟨hz, by simp; omega⟩
    · simp [stuffEtus, he]

/-- The padding keeps R39 and takes no bit away. -/
theorem padOnes_safe (hc : c.wf = true) (n : Nat) {x : SendState} (h : SendInv c x.ts x.mem) :
    Res.Safe (padOnes c n x) fun y => SendInv c y.ts y.mem ∧ x.ts.bitCount ≤ y.ts.bitCount := by
  induction n generalizing x with
  | zero => exact ⟨h, le_rfl⟩
  | succ n ih =>
    by_cases h8 : x.ts.bit = 8
    · simpa [padOnes, h8] using h
    · obtain ⟨y, hy, hinv, hcount⟩ | ⟨code, info, he⟩ := (stuffBit_safe hc true h).cases
      · simp only [padOnes, if_neg h8, hy]
        exact (ih hinv).mono fun z _ ⟨hz, hzc⟩ => ⟨hz, by omega⟩
      · simp only [padOnes, if_neg h8, he, Res.safe_raise]

/-- code_as_reader leaves a send buffer that meets R39. -/
theorem encodeReader_safe (hc : c.wf = true) (cmd : List Byte) (m : Memory) :
    Res.Safe (encodeReader c cmd m) fun y => SendInv c y.ts y.mem := by
  obtain ⟨x, hx, hinv, -⟩ | ⟨code, info, he⟩ :=
    (stuffBits_safe hc (readerEtus cmd) (x := { ts := .empty, mem := m }) (sendInv_empty c m)).cases
  · unfold encodeReader
    simp only [hx]
    exact (padOnes_safe hc 7 hinv).mono fun _ _ h => h.1
  · unfold encodeReader
    simp only [he, Res.safe_raise]

theorem tagEtus_length (cmd : List Byte) : (tagEtus cmd).length = 44 + 10 * cmd.length := by
  have : (charactersBits cmd).length = 10 * cmd.length := by
    induction cmd with
    | nil => rfl
    | cons b rest ih =>
      simp only [charactersBits, List.flatMap_cons, List.length_append, List.length_cons] at ih ⊢
      rw [ih]; simp [characterBits, dataBits]; omega
  simp [tagEtus, sofBits, eofBits, this]; omega

/-- code_as_tag leaves a send buffer that meets R39 and holds the whole frame (R176). -/
theorem encodeTag_safe (hc : c.wf = true) (cmd : List Byte) (m : Memory) :
    Res.Safe (encodeTag c cmd m) fun y => SendInv c y.ts y.mem ∧ tagLen cmd.length ≤ y.ts.len := by
  obtain ⟨x, hx, hinv, hcount⟩ | ⟨code, info, he⟩ :=
    (stuffEtus_safe hc (tagEtus cmd) (x := { ts := .empty, mem := m }) (sendInv_empty c m)).cases
  · unfold encodeTag
    simp only [hx]
    refine (padOnes_safe hc 7 hinv).mono fun y _ ⟨hy, hle⟩ => ⟨hy, ?_⟩
    have hbits := hy.bitCount_le
    have hempty : SendCursor.empty.bitCount = 0 := by decide
    rw [hcount, tagEtus_length, hempty] at hle
    rw [tagLen]
    omega
  · unfold encodeTag
    simp only [he, Res.safe_raise]

end Sys2Proof.Machine
end

section
/-! SUPPORT. What UART.STEP does, state by state (R205 to R209), and that it keeps R42 and R210. -/

namespace Sys2Proof.Machine

variable {c : Config} {u : Uart} {m : Memory}

/-! ### The states before a character's end -/

/-- The mid-bit samples, by the position counter before the step (R206, R208). -/
theorem midBit_next (pos : Byte) : midBit (pos + 1#8) = true ↔ (pos.toNat + 1) % 4 = 2 := by
  simp [midBit]

theorem uartAbort_eq_uartLost (u : Uart) : uartAbort u = uartLost u := rfl

theorem uartStep_unsynced (hs : u.state = .unsynced) (b : Bool) :
    uartStep c b u m = .ok { uart := uartUnsynced b u, mem := m, done := false } := by
  simp [uartStep, hs]

theorem uartStep_gotFalling (hs : u.state = .gotFallingEdgeOfSof) (b : Bool) :
    uartStep c b u m = .ok { uart := uartGotFalling b u, mem := m, done := false } := by
  simp [uartStep, hs]

theorem uartStep_awaiting (hs : u.state = .awaitingStartBit) (b : Bool) :
    uartStep c b u m = .ok { uart := uartAwaitStart b u, mem := m, done := false } := by
  simp [uartStep, hs]

theorem uartStep_receiving (hs : u.state = .receivingData) (b : Bool) :
    uartStep c b u m = uartReceiving c b u m := by
  simp [uartStep, hs]

theorem uartGotFalling_between (b : Bool) (hp : (u.posCnt.toNat + 1) % 4 ≠ 2) :
    uartGotFalling b u = { u with posCnt := u.posCnt + 1 } := by
  simp [uartGotFalling, midBit_next, hp]

theorem uartGotFalling_high (hp : (u.posCnt.toNat + 1) % 4 = 2) :
    uartGotFalling true u =
      if 9 < u.bitCnt.toNat then { u with state := .awaitingStartBit, posCnt := 0, bitCnt := 0, byteCnt := 0 }
      else uartLost u := by
  simp [uartGotFalling, midBit_next, hp, uartAbort, uartLost]

theorem uartGotFalling_low (hp : (u.posCnt.toNat + 1) % 4 = 2) :
    uartGotFalling false u =
      if 12 < (u.bitCnt + 1).toNat then uartLost u
      else { u with posCnt := u.posCnt + 1, bitCnt := u.bitCnt + 1 } := by
  simp [uartGotFalling, midBit_next, hp, uartAbort, uartLost]

theorem uartAwaitStart_high (u : Uart) :
    uartAwaitStart true u =
      if 25 < (u.posCnt + 1).toNat then uartLost u else { u with posCnt := u.posCnt + 1 } := by
  simp [uartAwaitStart, uartAbort, uartLost]

theorem uartReceiving_between (b : Bool) (hp : (u.posCnt.toNat + 1) % 4 ≠ 2) :
    uartReceiving c b u m = .ok { uart := { u with posCnt := u.posCnt + 1 }, mem := m, done := false } := by
  simp [uartReceiving, midBit_next, hp]

theorem uartReceiving_bit (b : Bool) (hp : (u.posCnt.toNat + 1) % 4 = 2) (hbit : u.bitCnt.toNat < 9) :
    uartReceiving c b u m = .ok {
      uart := { u with posCnt := u.posCnt + 1, bitCnt := u.bitCnt + 1, shift := shiftIn b u.shift }
      mem := m, done := false } := by
  have : (u.bitCnt.toNat + 1) % 256 < 10 := by omega
  simp [uartReceiving, midBit_next, hp, this]

/-! ### The end of a character (R208, R209) -/

/-- The Uart with the whole character in its shift register. -/
def uartFull (r : BitVec 10) (u : Uart) : Uart :=
  { u with posCnt := u.posCnt + 1, bitCnt := u.bitCnt + 1, shift := r }

theorem uartStep_image {b : Bool} {r : BitVec 10} (h : uartImage b u r) :
    uartStep c b u m = uartTenBits c (uartFull r u) m := by
  obtain ⟨hs, hp, hbit, rfl⟩ := h
  rw [uartStep_receiving hs]
  simp [uartReceiving, midBit_next, hp, hbit, uartFull, shiftIn_eq]

theorem validCharacter_iff_wellFramed (r : BitVec 10) : validCharacter r = true ↔ wellFramed r := validCharacter_iff r

theorem uartTenBits_character (h : wellFramed u.shift) : uartTenBits c u m = uartCharacter c u m := by
  simp [uartTenBits, (validCharacter_iff_wellFramed _).2 h]

theorem uartTenBits_eof (h : u.shift = 0) :
    uartTenBits c u m = .ok { uart := uartFrameEnd u, mem := m, done := decide (0 < u.byteCnt.toNat) } := by
  rw [uartTenBits, h, if_neg (by decide), if_pos rfl]

theorem uartTenBits_framing (h0 : u.shift ≠ 0) (h : ¬ wellFramed u.shift) :
    uartTenBits c u m = .ok { uart := uartLost u, mem := m, done := false } := by
  rw [uartTenBits, if_neg (mt (validCharacter_iff_wellFramed _).1 h), if_neg h0, uartAbort_eq_uartLost]

/-- A character at the limit is dropped where the test stands before the store (R208). -/
theorem uartCharacter_atLimit (hb : c.uartOvfCheck = .beforeStore) (hl : u.byteCntMax ≤ u.byteCnt) :
    uartCharacter c u m = .ok { uart := uartLost u, mem := m, done := false } := by
  simp [uartCharacter, hb, uartLimit, hl, uartAbort_eq_uartLost]

/-- Any other character is stored; where the test stands after the store the last one the limit allows is an overflow
(R208). -/
theorem uartCharacter_stores (hl : ¬ (c.uartOvfCheck = .beforeStore ∧ u.byteCntMax ≤ u.byteCnt))
    (hroom : u.byteCnt.toNat < c.uoutSize) :
    uartCharacter c u m = .ok {
      uart := if c.uartOvfCheck = .afterStore ∧ u.byteCntMax ≤ u.byteCnt + 1 then uartLost u
              else uartNextCharacter { u with byteCnt := u.byteCnt + 1 }
      mem := m.write (Window.uout.base + u.byteCnt.toNat) (characterByte u.shift), done := false } := by
  have hstore : uartStore c u m = .ok ({ u with byteCnt := u.byteCnt + 1 },
      m.write (Window.uout.base + u.byteCnt.toNat) (characterByte u.shift)) := by
    simp [uartStore, writeByte_ok _ _ _ _ _ (show u.byteCnt.toNat < Window.uout.capacity c from hroom)]
  cases hb : c.uartOvfCheck with
  | beforeStore =>
    have hn : ¬ u.byteCntMax ≤ u.byteCnt := fun h => hl ⟨hb, h⟩
    simp only [uartCharacter, hb, uartLimit, hn, decide_false, Bool.false_eq_true, if_false, hstore, reduceCtorEq,
      false_and]
  | afterStore =>
    simp only [uartCharacter, hb, uartLimit, hstore, decide_eq_true_eq, true_and]
    split <;> rfl

/-- Under R42 a character either is at the limit before its store or finds its byte in UOUT. -/
theorem UartInv.room_of_not_atLimit (h : UartInv c u m) (hc : c.wf = true)
    (hl : ¬ (c.uartOvfCheck = .beforeStore ∧ u.byteCntMax ≤ u.byteCnt)) :
    u.byteCnt.toNat < c.uoutSize ∧ u.byteCnt.toNat + 1 < 2 ^ 16 := by
  obtain ⟨-, -, ⟨hpos, hmax⟩, -⟩ := (Config.wf_iff c).1 hc
  have hlimit := h.limit
  have hcases : u.byteCnt = 0 ∨ u.byteCnt < u.byteCntMax := by
    cases hb : c.uartOvfCheck with
    | beforeStore => exact .inr (BitVec.not_le.1 fun hle => hl ⟨hb, hle⟩)
    | afterStore => exact h.room hb
  rcases hcases with h0 | hlt
  · rw [h0]; exact ⟨hpos, by decide⟩
  · rw [BitVec.lt_def] at hlt; omega

/-- The image of an EOF ends the frame (R203, R209). -/
theorem uartStep_eof {b : Bool} (h : uartImage b u 0) :
    uartStep c b u m = .ok { uart := uartFrameEnd u, mem := m, done := decide (0 < u.byteCnt.toNat) } :=
  (uartStep_image h).trans (uartTenBits_eof rfl)

/-- Any other image without start bit 0 and stop bit 1 is a framing error (R208, R344). -/
theorem uartStep_framing {b : Bool} {r : BitVec 10} (h : uartImage b u r) (h0 : r ≠ 0) (hw : ¬ wellFramed r) :
    uartStep c b u m = .ok { uart := uartLost u, mem := m, done := false } :=
  (uartStep_image h).trans (uartTenBits_framing h0 hw)

theorem uartStep_atLimit {b : Bool} {r : BitVec 10} (h : uartImage b u r) (hw : wellFramed r)
    (hb : c.uartOvfCheck = .beforeStore) (hl : u.byteCntMax ≤ u.byteCnt) :
    uartStep c b u m = .ok { uart := uartLost u, mem := m, done := false } :=
  (uartStep_image h).trans
    ((uartTenBits_character (u := uartFull r u) hw).trans (uartCharacter_atLimit (u := uartFull r u) hb hl))

theorem uartStep_stores {b : Bool} {r : BitVec 10} (h : uartImage b u r) (hw : wellFramed r)
    (hl : ¬ (c.uartOvfCheck = .beforeStore ∧ u.byteCntMax ≤ u.byteCnt)) (hroom : u.byteCnt.toNat < c.uoutSize) :
    uartStep c b u m = .ok {
      uart := if c.uartOvfCheck = .afterStore ∧ u.byteCntMax ≤ u.byteCnt + 1 then uartLost u
              else uartNextCharacter { u with byteCnt := u.byteCnt + 1 }
      mem := m.write (Window.uout.base + u.byteCnt.toNat) (characterByte r), done := false } :=
  (uartStep_image h).trans
    ((uartTenBits_character (u := uartFull r u) hw).trans (uartCharacter_stores (u := uartFull r u) hl hroom))

/-! ### The invariant of the Uart -/

theorem uartInv_reset {n : Half} (hn : n.toNat ≤ c.uoutSize) : UartInv c (uartReset n) m where
  limit := hn
  count := by simp [BitVec.le_def, uartReset]
  room _ := .inl rfl
  bytesWritten k hk := absurd hk (by simp [uartReset])
  unsynced _ := ⟨rfl, rfl, rfl⟩
  gotFalling h := nomatch h
  awaiting h := nomatch h
  receiving h := nomatch h

theorem uartInv_lost (h : u.byteCntMax.toNat ≤ c.uoutSize) : UartInv c (uartLost u) m := uartInv_reset h

theorem UartInv.frameEnd (h : UartInv c u m) : UartInv c (uartFrameEnd u) m :=
  { h with
    unsynced := fun _ => ⟨rfl, rfl, rfl⟩
    gotFalling := nofun
    awaiting := nofun
    receiving := nofun }

/-- How a step of the Uart comes to UNSYNCED: by an error, at the EOF, or because it was there. -/
def UartLeaves (c : Config) (b : Bool) (u u' : Uart) : Prop :=
  uartError c b u ∨ uartImage b u 0 ∨ (u'.state = .unsynced → u.state = .unsynced)

theorem UartLeaves.of_state_ne {b : Bool} {u' : Uart} (h : u'.state ≠ .unsynced) : UartLeaves c b u u' :=
  .inr (.inr fun h' => absurd h' h)

theorem UartInv.unsynced_step (h : UartInv c u m) (b : Bool) :
    UartInv c (uartUnsynced b u) m := by
  cases b with
  | true => exact h
  | false => exact { h with
      unsynced := nofun, gotFalling := fun _ => by simp [uartUnsynced], awaiting := nofun, receiving := nofun }

theorem UartInv.gotFalling_step (h : UartInv c u m) (hs : u.state = .gotFallingEdgeOfSof) (b : Bool) :
    UartInv c (uartGotFalling b u) m ∧ UartLeaves c b u (uartGotFalling b u) := by
  obtain ⟨hbit, hpos⟩ := h.gotFalling hs
  by_cases hp : (u.posCnt.toNat + 1) % 4 = 2
  · cases b with
    | true =>
      rw [uartGotFalling_high hp]
      split
      · exact ⟨{
          limit := h.limit, count := by simp [BitVec.le_def], room := fun _ => .inl rfl
          bytesWritten := fun k hk => absurd hk (by simp)
          unsynced := nofun, gotFalling := nofun, receiving := nofun
          awaiting := fun _ => by simp }, .of_state_ne nofun⟩
      · exact ⟨uartInv_lost h.limit, .inl (.inl ⟨hs, hp, rfl, by omega⟩)⟩
    | false =>
      have hnext : (u.bitCnt + 1).toNat = u.bitCnt.toNat + 1 := by simp; omega
      rw [uartGotFalling_low hp, hnext]
      split
      · exact ⟨uartInv_lost h.limit, .inl (.inr (.inl ⟨hs, hp, rfl, by omega⟩))⟩
      · exact ⟨{ h with
          unsynced := by simp [hs], awaiting := by simp [hs], receiving := by simp [hs]
          gotFalling := fun _ => by simp; omega }, .of_state_ne (by simp [hs])⟩
  · rw [uartGotFalling_between b hp]
    exact ⟨{ h with
      unsynced := by simp [hs], awaiting := by simp [hs], receiving := by simp [hs]
      gotFalling := fun _ => by simp; omega }, .of_state_ne (by simp [hs])⟩

theorem UartInv.awaiting_step (h : UartInv c u m) (hs : u.state = .awaitingStartBit) (b : Bool) :
    UartInv c (uartAwaitStart b u) m ∧ UartLeaves c b u (uartAwaitStart b u) := by
  obtain ⟨hbit, hpos⟩ := h.awaiting hs
  cases b with
  | true =>
    have hnext : (u.posCnt + 1).toNat = u.posCnt.toNat + 1 := by simp; omega
    rw [uartAwaitStart_high, hnext]
    split
    · exact ⟨uartInv_lost h.limit, .inl (.inr (.inr (.inl ⟨hs, rfl, by omega⟩)))⟩
    · exact ⟨{ h with
        unsynced := by simp [hs], gotFalling := by simp [hs], receiving := by simp [hs]
        awaiting := fun _ => ⟨hbit, by simp only; omega⟩ }, .of_state_ne (by simp [hs])⟩
  | false =>
    exact ⟨{ h with
      unsynced := nofun, gotFalling := nofun, awaiting := nofun
      receiving := fun _ => by simp [uartAwaitStart] }, .of_state_ne nofun⟩

/-- A stored character keeps R42 and R210. -/
theorem UartInv.store (h : UartInv c u m) (hsmall : u.byteCnt.toNat + 1 < 2 ^ 16) (v : Byte)
    (hl : ¬ (c.uartOvfCheck = .beforeStore ∧ u.byteCntMax ≤ u.byteCnt))
    (hover : ¬ (c.uartOvfCheck = .afterStore ∧ u.byteCntMax ≤ u.byteCnt + 1)) :
    UartInv c (uartNextCharacter { u with byteCnt := u.byteCnt + 1 })
      (m.write (Window.uout.base + u.byteCnt.toNat) v) := by
  have hnext : (u.byteCnt + 1).toNat = u.byteCnt.toNat + 1 := by simp; omega
  have hcount := h.count
  have hle : u.byteCnt + 1 ≤ u.byteCntMax ∧ (c.uartOvfCheck = .afterStore → u.byteCnt + 1 < u.byteCntMax) := by
    simp only [BitVec.le_def, BitVec.lt_def, hnext] at hl hover ⊢
    cases hb : c.uartOvfCheck with
    | beforeStore => simp [hb] at hl ⊢; omega
    | afterStore => simp [hb] at hover ⊢; omega
  exact {
    limit := h.limit
    count := hle.1
    room := fun hb => .inr (hle.2 hb)
    bytesWritten := fun k hk => by
      rw [written, Memory.read_write]
      split
      · rfl
      · exact h.bytesWritten k (by simp only [uartNextCharacter, hnext] at hk; omega)
    unsynced := nofun, gotFalling := nofun, receiving := nofun
    awaiting := fun _ => by simp [uartNextCharacter] }

/-- The overflow of R208, as a condition on the registers, is an error of the Uart. -/
theorem uartError_of_overflow {b : Bool} {r : BitVec 10} (hi : uartImage b u r) (hw : wellFramed r)
    (hl : (c.uartOvfCheck = .beforeStore ∧ u.byteCntMax ≤ u.byteCnt) ∨
      (c.uartOvfCheck = .afterStore ∧ u.byteCntMax ≤ u.byteCnt + 1)) : uartError c b u := by
  refine .inr (.inr (.inr (.inr ⟨r, hi, hw, ?_⟩)))
  rcases hl with ⟨hb, hl⟩ | ⟨hb, hl⟩
  · rw [if_pos hb]; exact hl
  · rw [if_neg (by simp [hb])]
    refine Nat.le_trans (BitVec.le_def.1 hl) ?_
    simp only [BitVec.toNat_add]
    exact Nat.mod_le ..

/-- A character's end keeps R42 and R210, whatever its image. -/
theorem UartInv.image_step (h : UartInv c u m) (hc : c.wf = true) {b : Bool} {image : BitVec 10}
    (hi : uartImage b u image) :
    ∃ r, uartStep c b u m = .ok r ∧ UartInv c r.uart r.mem ∧ UartLeaves c b u r.uart := by
  by_cases hw : wellFramed image
  · by_cases hl : c.uartOvfCheck = .beforeStore ∧ u.byteCntMax ≤ u.byteCnt
    · exact ⟨_, uartStep_atLimit hi hw hl.1 hl.2, uartInv_lost h.limit, .inl (uartError_of_overflow hi hw (.inl hl))⟩
    · obtain ⟨hroom, hsmall⟩ := h.room_of_not_atLimit hc hl
      refine ⟨_, uartStep_stores hi hw hl hroom, ?_⟩
      by_cases hover : c.uartOvfCheck = .afterStore ∧ u.byteCntMax ≤ u.byteCnt + 1
      · simp only [if_pos hover]
        exact ⟨uartInv_lost h.limit, .inl (uartError_of_overflow hi hw (.inr hover))⟩
      · simp only [if_neg hover]
        exact ⟨h.store hsmall _ hl hover, .of_state_ne nofun⟩
  · by_cases h0 : image = 0
    · exact ⟨_, uartStep_eof (h0 ▸ hi), h.frameEnd, .inr (.inl (h0 ▸ hi))⟩
    · exact ⟨_, uartStep_framing hi h0 hw, uartInv_lost h.limit,
        .inl (.inr (.inr (.inr (.inl ⟨image, hi, h0, hw⟩))))⟩

theorem UartInv.receiving_step (h : UartInv c u m) (hc : c.wf = true) (hs : u.state = .receivingData) (b : Bool) :
    ∃ r, uartStep c b u m = .ok r ∧ UartInv c r.uart r.mem ∧ UartLeaves c b u r.uart := by
  obtain ⟨hbit, hpos⟩ := h.receiving hs
  by_cases hp : (u.posCnt.toNat + 1) % 4 = 2
  · by_cases h9 : u.bitCnt.toNat = 9
    · exact h.image_step hc ⟨hs, hp, h9, rfl⟩
    · rw [uartStep_receiving hs, uartReceiving_bit b hp (by omega)]
      exact ⟨_, rfl, { h with
        unsynced := by simp [hs], gotFalling := by simp [hs], awaiting := by simp [hs]
        receiving := fun _ => by simp; omega }, .of_state_ne (by simp [hs])⟩
  · rw [uartStep_receiving hs, uartReceiving_between b hp]
    exact ⟨_, rfl, { h with
      unsynced := by simp [hs], gotFalling := by simp [hs], awaiting := by simp [hs]
      receiving := fun _ => by simp; omega }, .of_state_ne (by simp [hs])⟩

/-- UART.STEP completes, keeps R42 and R210, and leaves a frame only by an error or at its EOF. -/
theorem UartInv.step (h : UartInv c u m) (hc : c.wf = true) (b : Bool) :
    ∃ r, uartStep c b u m = .ok r ∧ UartInv c r.uart r.mem ∧ UartLeaves c b u r.uart := by
  cases hs : u.state with
  | unsynced => exact ⟨_, uartStep_unsynced hs b, h.unsynced_step b, .inr (.inr fun _ => hs)⟩
  | gotFallingEdgeOfSof => exact ⟨_, uartStep_gotFalling hs b, h.gotFalling_step hs b⟩
  | awaitingStartBit => exact ⟨_, uartStep_awaiting hs b, h.awaiting_step hs b⟩
  | receivingData => exact h.receiving_step hc hs b

/-- UART.STEP gives up a frame: the Uart is lost, nothing is reported, and only the overflow after the store changes a
byte (R202, R208). -/
def UartGivesUp (c : Config) (b : Bool) (u : Uart) (m : Memory) : Prop :=
  ∃ m', uartStep c b u m = .ok { uart := uartLost u, mem := m', done := false } ∧
    ((c.uartOvfCheck = .beforeStore ∨ ¬ ∃ r, uartImage b u r ∧ wellFramed r) → m' = m) ∧
    ∀ a, a ≠ Window.uout.base + u.byteCnt.toNat → m'.read a = m.read a

theorem UartGivesUp.of_unchanged {b : Bool} (h : uartStep c b u m = .ok { uart := uartLost u, mem := m, done := false }) :
    UartGivesUp c b u m := ⟨m, h, fun _ => rfl, fun _ _ => rfl⟩

/-- Each error condition of R206 to R208 makes UART.STEP give up the frame. -/
theorem UartInv.step_of_error (h : UartInv c u m) (hc : c.wf = true) {b : Bool} (he : uartError c b u) :
    UartGivesUp c b u m := by
  rcases he with ⟨hs, hp, rfl, hbit⟩ | ⟨hs, hp, rfl, hbit⟩ | ⟨hs, rfl, hpos⟩ | ⟨r, hi, h0, hw⟩ | ⟨r, hi, hw, hl⟩
  · exact .of_unchanged (by rw [uartStep_gotFalling hs, uartGotFalling_high hp, if_neg (by omega)])
  · exact .of_unchanged (by rw [uartStep_gotFalling hs, uartGotFalling_low hp, if_pos (by simp [hbit])])
  · exact .of_unchanged (by rw [uartStep_awaiting hs, uartAwaitStart_high, if_pos (by simp [hpos])])
  · exact .of_unchanged (uartStep_framing hi h0 hw)
  · cases hb : c.uartOvfCheck with
    | beforeStore =>
      rw [if_pos hb] at hl
      exact .of_unchanged (uartStep_atLimit hi hw hb hl)
    | afterStore =>
      have hbefore : ¬ (c.uartOvfCheck = .beforeStore ∧ u.byteCntMax ≤ u.byteCnt) := by simp [hb]
      obtain ⟨hroom, hsmall⟩ := h.room_of_not_atLimit hc hbefore
      have hover : c.uartOvfCheck = .afterStore ∧ u.byteCntMax ≤ u.byteCnt + 1 := by
        refine ⟨hb, BitVec.le_def.2 ?_⟩
        rw [if_neg (by simp [hb])] at hl
        simp; omega
      refine ⟨_, by rw [uartStep_stores hi hw hbefore hroom, if_pos hover], ?_, fun a ha => Memory.read_write_other _ _ ha⟩
      rintro (h' | h')
      · rw [hb] at h'
        cases h'
      · exact absurd ⟨r, hi, hw⟩ h'

end Sys2Proof.Machine
end

section
/-! SUPPORT. What DEMOD.STEP does, state by state (R239 to R247), and that it keeps R45, R47 and R249. -/

namespace Sys2Proof.Machine

variable {c : Config} {d : Demod} {m : Memory} {i q : Byte}

/-! ### Signed registers -/

theorem toInt_byte (b : Byte) : -128 ≤ b.toInt ∧ b.toInt ≤ 127 := by
  have := b.toInt_lt
  have := b.le_toInt
  simp at *; omega

theorem sgn_cases (c : Config) (x : Int) : sgn c x = 1 ∨ sgn c x = -1 ∨ sgn c x = 0 := by
  unfold sgn
  split
  · exact .inl rfl
  · split
    · exact .inr (.inl rfl)
    · cases c.sgnZero <;> simp [sgnZeroValue]

/-- The soft decision's range (R234). -/
theorem softDecision_bounds (c : Config) (d : Demod) (i q : Byte) :
    -256 ≤ softDecision c d i q ∧ softDecision c d i q ≤ 256 := by
  have hi := toInt_byte i
  have hq := toInt_byte q
  unfold softDecision
  rcases sgn_cases c d.sumI.toInt with h | h | h <;> rcases sgn_cases c d.sumQ.toInt with h' | h' | h' <;>
    rw [h, h'] <;> omega

theorem toInt_sext32 (b : Byte) : (sext32 b).toInt = b.toInt := BitVec.toInt_signExtend_of_le (by decide)

/-- A small sum does not wrap. -/
theorem toInt_add_small {x y : Word} (h : -2 ^ 31 ≤ x.toInt + y.toInt ∧ x.toInt + y.toInt < 2 ^ 31) :
    (x + y).toInt = x.toInt + y.toInt := by
  rw [BitVec.toInt_add]
  exact Int.bmod_eq_of_le (by omega) (by omega)

theorem toInt_ofInt_small {v : Int} (h : -256 ≤ v ∧ v ≤ 256) : (BitVec.ofInt 32 v : Word).toInt = v := by
  rw [BitVec.toInt_ofInt]
  exact Int.bmod_eq_of_le (by omega) (by omega)

/-! ### The states before a character's end -/

theorem demodAbort_eq_demodLost (d : Demod) : demodAbort d = demodLost d := rfl

theorem aboveThreshold_iff (i q : Byte) : aboveThreshold i q = true ↔ 8 < amplitude i q := by
  rw [aboveThreshold, decide_eq_true_iff]
  rfl

theorem demodStep_unsynced (hs : d.state = .unsynced) :
    demodStep c i q d m = .ok { demod := demodUnsynced i q d, mem := m, done := false } := by
  simp [demodStep, hs]

theorem demodStep_training (hs : d.state = .phaseRefTraining) :
    demodStep c i q d m = .ok { demod := demodTraining i q d, mem := m, done := false } := by
  simp [demodStep, hs]

theorem demodStep_awaitFall (hs : d.state = .awaitingFallingEdgeOfSof) :
    demodStep c i q d m = .ok { demod := demodAwaitFall (softDecision c d i q) d, mem := m, done := false } := by
  simp [demodStep, hs]

theorem demodStep_gotFall (hs : d.state = .gotFallingEdgeOfSof) :
    demodStep c i q d m = .ok { demod := demodGotFall (softDecision c d i q) d, mem := m, done := false } := by
  simp [demodStep, hs]

theorem demodStep_awaitStart (hs : d.state = .awaitingStartBit) :
    demodStep c i q d m = .ok (demodAwaitStart (softDecision c d i q) d m) := by
  simp [demodStep, hs]

theorem demodStep_receiving (hs : d.state = .receivingData) :
    demodStep c i q d m = demodReceiving c (softDecision c d i q) d m := by
  simp [demodStep, hs]

theorem demodTraining_above (ha : 8 < amplitude i q) :
    demodTraining i q d =
      let d' : Demod := { d with sumI := d.sumI + sext32 i, sumQ := d.sumQ + sext32 q, posCount := d.posCount + 1 }
      if d.posCount + 1 = 8 then { d' with state := .awaitingFallingEdgeOfSof } else d' := by
  simp only [demodTraining, (aboveThreshold_iff i q).2 ha, if_true]

theorem demodTraining_below (ha : amplitude i q ≤ 8) : demodTraining i q d = demodLost d := by
  simp [demodTraining, Bool.eq_false_iff.2 (mt (aboveThreshold_iff i q).1 (Nat.not_lt.2 ha)), demodAbort_eq_demodLost]

theorem demodAwaitFall_low {v : Int} (hv : v < 0) :
    demodAwaitFall v d = { d with state := .gotFallingEdgeOfSof, posCount := 1 } := by
  simp [demodAwaitFall, hv]

theorem demodAwaitFall_high {v : Int} (hv : 0 ≤ v) :
    demodAwaitFall v d = if 50 < (d.posCount + 1).toNat then demodLost d else { d with posCount := d.posCount + 1 } := by
  rw [demodAwaitFall, if_neg (by omega)]
  rfl

theorem demodGotFall_high {v : Int} (hv : 0 < v) :
    demodGotFall v d = if 18 ≤ d.posCount.toNat then
      { d with state := .awaitingStartBit, posCount := 0, len := 0, bitCount := 0 } else demodLost d := by
  rw [demodGotFall, if_pos hv]
  rfl

theorem demodGotFall_low {v : Int} (hv : v ≤ 0) :
    demodGotFall v d = if 28 < (d.posCount + 1).toNat then demodLost d else { d with posCount := d.posCount + 1 } := by
  rw [demodGotFall, if_neg (by omega)]
  rfl

theorem demodAwaitStart_high {v : Int} (hv : 0 < v) (hbit : d.bitCount = 0) :
    demodAwaitStart v d m =
      if 12 < (d.posCount + 1).toNat then
        if d.len = 0 then { demod := demodFrameEnd d, mem := m, done := true }
        else { demod := demodLost d, mem := m, done := false }
      else { demod := { d with posCount := d.posCount + 1 }, mem := m, done := false } := by
  rw [demodAwaitStart, if_pos hv]
  simp only [hbit, and_true]
  rfl

theorem demodAwaitStart_low {v : Int} (hv : v ≤ 0) :
    demodAwaitStart v d m = {
      demod := { d with thisBit := BitVec.ofInt 32 v, posCount := 1, shift := 0, state := .receivingData }
      mem := m, done := false } := by
  rw [demodAwaitStart, if_neg (by omega)]

theorem demodReceiving_first {v : Int} (hp : d.posCount = 0) :
    demodReceiving c v d m =
      .ok { demod := { d with thisBit := BitVec.ofInt 32 v, posCount := 1 }, mem := m, done := false } := by
  rw [demodReceiving, if_pos hp]

/-- The Demod with one more bit in its shift register (R244). -/
def demodBit (v : Int) (d : Demod) : Demod :=
  { d with
    thisBit := d.thisBit + BitVec.ofInt 32 v, posCount := 0, bitCount := d.bitCount + 1
    shift := shiftIn (decide (0 < (d.thisBit + BitVec.ofInt 32 v).toInt)) d.shift }

theorem demodReceiving_second {v : Int} (hp : d.posCount ≠ 0) :
    demodReceiving c v d m =
      if (d.bitCount + 1).toNat < 10 then .ok { demod := demodBit v d, mem := m, done := false }
      else demodCharacter c (demodBit v d) m := by
  rw [demodReceiving, if_neg hp]
  rfl

/-! ### The end of a character (R245) -/

theorem demodCharacter_overflow (hw : wellFramed d.shift) (hl : d.maxLen ≤ d.len) :
    demodCharacter c d m = .ok { demod := { demodLost d with overflow := true }, mem := m, done := true } := by
  rw [demodCharacter, if_pos ((validCharacter_iff_wellFramed _).2 hw), if_pos hl]
  rfl

theorem demodCharacter_stores (hw : wellFramed d.shift) (hl : ¬ d.maxLen ≤ d.len) (hroom : d.len.toNat < c.doutSize) :
    demodCharacter c d m = .ok {
      demod := demodNextCharacter { d with len := d.len + 1 }
      mem := m.write (Window.dout.base + d.len.toNat) (characterByte d.shift), done := false } := by
  rw [demodCharacter, if_pos ((validCharacter_iff_wellFramed _).2 hw), if_neg hl,
    writeByte_ok _ _ _ _ _ (show d.len.toNat < Window.dout.capacity c from hroom)]

theorem demodCharacter_eof (h0 : d.shift = 0) :
    demodCharacter c d m = .ok { demod := demodFrameEnd d, mem := m, done := true } := by
  rw [demodCharacter, h0, if_neg (by decide), if_pos rfl]

theorem demodCharacter_framing (h0 : d.shift ≠ 0) (hw : ¬ wellFramed d.shift) :
    demodCharacter c d m = .ok { demod := demodLost d, mem := m, done := false } := by
  rw [demodCharacter, if_neg (mt (validCharacter_iff_wellFramed _).1 hw), if_neg h0]
  rfl

/-! ### The invariant of the Demod -/

/-- The sum of the two halves of a bit (R244), which do not wrap under R45. -/
theorem DemodInv.toInt_bit (h : DemodInv c d m) (hs : d.state = .receivingData) (hp : d.posCount ≠ 0) {v : Int}
    (hv : -256 ≤ v ∧ v ≤ 256) :
    (d.thisBit + BitVec.ofInt 32 v).toInt = d.thisBit.toInt + v ∧
      -512 ≤ d.thisBit.toInt + v ∧ d.thisBit.toInt + v ≤ 512 := by
  obtain ⟨hpos, -, hhalf⟩ := h.receiving hs
  have hp1 : d.posCount = 1 := by
    have : d.posCount.toNat ≠ 0 := fun h0 => hp (BitVec.eq_of_toNat_eq h0)
    exact BitVec.eq_of_toNat_eq (by simp; omega)
  obtain ⟨hlo, hhi⟩ := hhalf hp1
  refine ⟨?_, by omega⟩
  rw [toInt_add_small (by rw [toInt_ofInt_small hv]; omega), toInt_ofInt_small hv]

/-- At a character's end the model's shift register is the image that rules name (R244). -/
theorem DemodInv.step_image (h : DemodInv c d m) {r : BitVec 10} (hi : demodImage (softDecision c d i q) d r) :
    demodStep c i q d m = demodCharacter c { demodBit (softDecision c d i q) d with shift := r } m := by
  obtain ⟨hs, hp, hbit, rfl⟩ := hi
  rw [demodStep_receiving hs, demodReceiving_second hp, if_neg (by simp [hbit]), ← shiftIn_eq,
    ← (h.toInt_bit hs hp (softDecision_bounds c d i q)).1]
  rfl

theorem DemodInv.step_overflow (h : DemodInv c d m) (ho : demodOverflow (softDecision c d i q) d) :
    demodStep c i q d m = .ok { demod := { demodLost d with overflow := true }, mem := m, done := true } := by
  obtain ⟨r, hi, hw, hl⟩ := ho
  rw [h.step_image hi]
  exact demodCharacter_overflow hw hl

theorem demodInv_reset {n : Half} (hn : n.toNat ≤ c.doutSize) : DemodInv c (demodReset n) m where
  limit := hn
  count := by simp [BitVec.le_def, demodReset]
  bytesWritten k hk := absurd hk (by simp [demodReset])
  sumI := by simp [demodReset, inRange]
  sumQ := by simp [demodReset, inRange]
  thisBit := by simp [demodReset, inRange]
  unsynced _ := ⟨rfl, rfl, rfl, rfl, rfl, rfl⟩
  training := nofun
  awaitingFall := nofun
  gotFall := nofun
  awaiting := nofun
  receiving := nofun
  idleBits _ := rfl

theorem demodInv_lost (h : d.maxLen.toNat ≤ c.doutSize) (flag : Bool) :
    DemodInv c { demodLost d with overflow := flag } m := { demodInv_reset h with }

theorem DemodInv.frameEnd (h : DemodInv c d m) : DemodInv c (demodFrameEnd d) m :=
  { demodInv_reset (m := m) h.limit with count := h.count, bytesWritten := h.bytesWritten }

/-- What a step of the Demod ends in: a frame given up in silence, a return of true, or a frame that goes on with its
reference as it was trained (R47). -/
def DemodEnds (v : Int) (i q : Byte) (d : Demod) (r : DemodRun) : Prop :=
  (demodError v i q d ∧ r.demod = demodLost d ∧ r.done = false) ∨
  (r.done = true ∧ r.demod.state = .unsynced ∧ r.demod.sumI = 0 ∧ r.demod.sumQ = 0) ∨
  (r.done = false ∧ (r.demod.state = .unsynced → d.state = .unsynced) ∧
    (2 ≤ d.state.code.toNat → r.demod.sumI = d.sumI ∧ r.demod.sumQ = d.sumQ))

theorem DemodEnds.lost {v : Int} (he : demodError v i q d) :
    DemodEnds v i q d { demod := demodLost d, mem := m, done := false } :=
  .inl ⟨he, rfl, rfl⟩

/-- A frame goes on: no return, a state other than UNSYNCED, the sums kept. -/
theorem DemodEnds.goesOn {v : Int} {d' : Demod} (hs : d'.state ≠ .unsynced) (hI : d'.sumI = d.sumI)
    (hQ : d'.sumQ = d.sumQ) : DemodEnds v i q d { demod := d', mem := m, done := false } :=
  .inr (.inr ⟨rfl, fun h => absurd h hs, fun _ => ⟨hI, hQ⟩⟩)

theorem DemodInv.unsynced_step (h : DemodInv c d m) (hs : d.state = .unsynced) :
    DemodInv c (demodUnsynced i q d) m := by
  obtain ⟨-, -, -, hbit, -, -⟩ := h.unsynced hs
  have hi := toInt_byte i
  have hq := toInt_byte q
  unfold demodUnsynced
  split
  · exact { h with
      sumI := by simp only [inRange, toInt_sext32]; omega
      sumQ := by simp only [inRange, toInt_sext32]; omega
      unsynced := nofun
      training := fun _ => by simp [inRange, toInt_sext32]; omega
      awaitingFall := nofun, gotFall := nofun, awaiting := nofun, receiving := nofun, idleBits := fun _ => hbit }
  · exact h

theorem DemodInv.training_step (h : DemodInv c d m) (hs : d.state = .phaseRefTraining) (v : Int) :
    DemodInv c (demodTraining i q d) m ∧ DemodEnds v i q d { demod := demodTraining i q d, mem := m, done := false } := by
  obtain ⟨hpos1, hpos7, hI, hQ⟩ := h.training hs
  by_cases ha : 8 < amplitude i q
  · have hi := toInt_byte i
    have hq := toInt_byte q
    have hnext : (d.posCount + 1).toNat = d.posCount.toNat + 1 := by simp; omega
    have hsumI : (d.sumI + sext32 i).toInt = d.sumI.toInt + i.toInt := by
      rw [toInt_add_small (by rw [toInt_sext32]; omega), toInt_sext32]
    have hsumQ : (d.sumQ + sext32 q).toInt = d.sumQ.toInt + q.toInt := by
      rw [toInt_add_small (by rw [toInt_sext32]; omega), toInt_sext32]
    have hbit := h.idleBits (by simp [hs])
    rw [demodTraining_above ha]
    dsimp only
    split
    · rename_i h8
      exact ⟨{ h with
        sumI := by simp only [inRange, hsumI]; omega
        sumQ := by simp only [inRange, hsumQ]; omega
        unsynced := nofun, training := nofun, gotFall := nofun, awaiting := nofun, receiving := nofun
        awaitingFall := fun _ => by simp only [h8]; decide
        idleBits := fun _ => hbit }, .inr (.inr ⟨rfl, nofun, by simp [hs, DState.code]⟩)⟩
    · rename_i h8
      have h7 : d.posCount.toNat ≠ 7 := fun h7 => h8 (BitVec.eq_of_toNat_eq (by rw [hnext, h7]; rfl))
      exact ⟨{ h with
        sumI := by simp only [inRange, hsumI]; omega
        sumQ := by simp only [inRange, hsumQ]; omega
        unsynced := by simp [hs], awaitingFall := by simp [hs], gotFall := by simp [hs], awaiting := by simp [hs]
        receiving := by simp [hs], training := fun _ => by simp only [hnext, hsumI, hsumQ, inRange]; omega
        idleBits := fun _ => hbit }, .inr (.inr ⟨rfl, by simp [hs], by simp [hs, DState.code]⟩)⟩
  · have ha : amplitude i q ≤ 8 := Nat.not_lt.1 ha
    rw [demodTraining_below ha]
    exact ⟨demodInv_lost h.limit d.overflow, .lost (.inl ⟨hs, ha⟩)⟩

theorem DemodInv.awaitFall_step (h : DemodInv c d m) (hs : d.state = .awaitingFallingEdgeOfSof) (v : Int) :
    DemodInv c (demodAwaitFall v d) m ∧ DemodEnds v i q d { demod := demodAwaitFall v d, mem := m, done := false } := by
  obtain ⟨hpos8, hpos50⟩ := h.awaitingFall hs
  have hbit := h.idleBits (by simp [hs])
  by_cases hv : v < 0
  · rw [demodAwaitFall_low hv]
    exact ⟨{ h with
      unsynced := nofun, training := nofun, awaitingFall := nofun, gotFall := fun _ => by simp, awaiting := nofun
      receiving := nofun, idleBits := fun _ => hbit }, .goesOn nofun rfl rfl⟩
  · have hnext : (d.posCount + 1).toNat = d.posCount.toNat + 1 := by simp; omega
    rw [demodAwaitFall_high (by omega), hnext]
    split
    · exact ⟨demodInv_lost h.limit d.overflow, .lost (.inr (.inl ⟨hs, by omega, by omega⟩))⟩
    · exact ⟨{ h with
        unsynced := by simp [hs], training := by simp [hs], gotFall := by simp [hs], awaiting := by simp [hs]
        receiving := by simp [hs], awaitingFall := fun _ => by simp only [hnext]; omega }, .goesOn (by simp [hs]) rfl rfl⟩

theorem DemodInv.gotFall_step (h : DemodInv c d m) (hs : d.state = .gotFallingEdgeOfSof) (v : Int) :
    DemodInv c (demodGotFall v d) m ∧ DemodEnds v i q d { demod := demodGotFall v d, mem := m, done := false } := by
  obtain ⟨hpos1, hpos28⟩ := h.gotFall hs
  by_cases hv : 0 < v
  · rw [demodGotFall_high hv]
    split
    · exact ⟨{ h with
        count := by simp [BitVec.le_def], bytesWritten := fun k hk => absurd hk (by simp)
        unsynced := nofun, training := nofun, awaitingFall := nofun, gotFall := nofun, awaiting := fun _ => by simp
        receiving := nofun, idleBits := fun _ => rfl }, .goesOn nofun rfl rfl⟩
    · exact ⟨demodInv_lost h.limit d.overflow, .lost (.inr (.inr (.inl ⟨hs, hv, by omega⟩)))⟩
  · have hnext : (d.posCount + 1).toNat = d.posCount.toNat + 1 := by simp; omega
    rw [demodGotFall_low (by omega), hnext]
    split
    · exact ⟨demodInv_lost h.limit d.overflow, .lost (.inr (.inr (.inr (.inl ⟨hs, by omega, by omega⟩))))⟩
    · exact ⟨{ h with
        unsynced := by simp [hs], training := by simp [hs], awaitingFall := by simp [hs], awaiting := by simp [hs]
        receiving := by simp [hs], gotFall := fun _ => by simp only [hnext]; omega }, .goesOn (by simp [hs]) rfl rfl⟩

theorem DemodInv.awaitStart_step (h : DemodInv c d m) (hs : d.state = .awaitingStartBit) {v : Int}
    (hv256 : -256 ≤ v ∧ v ≤ 256) :
    DemodInv c (demodAwaitStart v d m).demod (demodAwaitStart v d m).mem ∧ DemodEnds v i q d (demodAwaitStart v d m) := by
  obtain ⟨hpos, hbit⟩ := h.awaiting hs
  by_cases hv : 0 < v
  · have hnext : (d.posCount + 1).toNat = d.posCount.toNat + 1 := by simp; omega
    rw [demodAwaitStart_high hv hbit, hnext]
    split
    · split
      · exact ⟨h.frameEnd, .inr (.inl ⟨rfl, rfl, rfl, rfl⟩)⟩
      · rename_i hlen
        exact ⟨demodInv_lost h.limit d.overflow, .lost (.inr (.inr (.inr (.inr (.inl ⟨hs, hv, by omega, hlen⟩)))))⟩
    · exact ⟨{ h with
        unsynced := by simp [hs], training := by simp [hs], awaitingFall := by simp [hs], gotFall := by simp [hs]
        receiving := by simp [hs], awaiting := fun _ => ⟨by simp only [hnext]; omega, hbit⟩ },
        .goesOn (by simp [hs]) rfl rfl⟩
  · have hthis := toInt_ofInt_small hv256
    rw [demodAwaitStart_low (by omega)]
    exact ⟨{ h with
      thisBit := by simp only [inRange, hthis]; omega
      unsynced := nofun, training := nofun, awaitingFall := nofun, gotFall := nofun, awaiting := nofun
      receiving := fun _ => by simp [hbit, inRange, hthis]; omega
      idleBits := fun h' => absurd rfl h' }, .goesOn nofun rfl rfl⟩

/-- A stored character keeps R45, R47 and R249. -/
theorem DemodInv.store (h : DemodInv c d m) (hl : ¬ d.maxLen ≤ d.len) (v : Byte) :
    DemodInv c (demodNextCharacter { d with len := d.len + 1 }) (m.write (Window.dout.base + d.len.toNat) v) := by
  have hnext : (d.len + 1).toNat = d.len.toNat + 1 := by simp [BitVec.le_def] at hl ⊢; omega
  exact { h with
    count := by simp only [demodNextCharacter, BitVec.le_def, hnext] at hl ⊢; omega
    bytesWritten := fun k hk => by
      rw [written, Memory.read_write]
      split
      · rfl
      · exact h.bytesWritten k (by simp only [demodNextCharacter, hnext] at hk; omega)
    thisBit := by simp [demodNextCharacter, inRange]
    unsynced := nofun, training := nofun, awaitingFall := nofun, gotFall := nofun, receiving := nofun
    awaiting := fun _ => by simp [demodNextCharacter]
    idleBits := fun _ => rfl }

/-- A character's end keeps R45, R47 and R249, whatever its image. -/
theorem DemodInv.image_step (h : DemodInv c d m) {r : BitVec 10} (hi : demodImage (softDecision c d i q) d r) :
    ∃ x, demodStep c i q d m = .ok x ∧ DemodInv c x.demod x.mem ∧ DemodEnds (softDecision c d i q) i q d x := by
  by_cases hw : wellFramed r
  · by_cases hl : d.maxLen ≤ d.len
    · exact ⟨_, h.step_overflow ⟨r, hi, hw, hl⟩, demodInv_lost h.limit true, .inr (.inl ⟨rfl, rfl, rfl, rfl⟩)⟩
    · have hlimit := h.limit
      have hroom : d.len.toNat < c.doutSize := by rw [BitVec.le_def] at hl; omega
      exact ⟨_, (h.step_image hi).trans (demodCharacter_stores hw hl hroom), h.store hl _, .goesOn nofun rfl rfl⟩
  · by_cases h0 : r = 0
    · exact ⟨_, (h.step_image hi).trans (demodCharacter_eof h0), h.frameEnd, .inr (.inl ⟨rfl, rfl, rfl, rfl⟩)⟩
    · exact ⟨_, (h.step_image hi).trans (demodCharacter_framing h0 hw), demodInv_lost h.limit d.overflow,
        .lost (.inr (.inr (.inr (.inr (.inr ⟨r, hi, h0, hw⟩)))))⟩

theorem DemodInv.receiving_step (h : DemodInv c d m) (hs : d.state = .receivingData) :
    ∃ x, demodStep c i q d m = .ok x ∧ DemodInv c x.demod x.mem ∧ DemodEnds (softDecision c d i q) i q d x := by
  obtain ⟨hpos, hbit, -⟩ := h.receiving hs
  have hv := softDecision_bounds c d i q
  by_cases hp : d.posCount = 0
  · have hthis := toInt_ofInt_small hv
    rw [demodStep_receiving hs, demodReceiving_first hp]
    exact ⟨_, rfl, { h with
      thisBit := by simp only [inRange, hthis]; omega
      unsynced := by simp [hs], training := by simp [hs], awaitingFall := by simp [hs], gotFall := by simp [hs]
      awaiting := by simp [hs]
      receiving := fun _ => by simp only [inRange, hthis]; exact ⟨by decide, hbit, fun _ => hv⟩ },
      .goesOn (by simp [hs]) rfl rfl⟩
  · by_cases h9 : d.bitCount.toNat = 9
    · exact h.image_step ⟨hs, hp, h9, rfl⟩
    · have hnext : (d.bitCount + 1).toNat = d.bitCount.toNat + 1 := by simp; omega
      obtain ⟨hsum, hrange⟩ := h.toInt_bit hs hp hv
      rw [demodStep_receiving hs, demodReceiving_second hp, if_pos (by omega)]
      exact ⟨_, rfl, { h with
        thisBit := by simp only [demodBit, inRange, hsum]; omega
        unsynced := by simp [demodBit, hs], training := by simp [demodBit, hs], awaitingFall := by simp [demodBit, hs]
        gotFall := by simp [demodBit, hs], awaiting := by simp [demodBit, hs]
        receiving := fun _ =>
          ⟨by simp [demodBit], by simp only [demodBit, hnext]; omega, fun h1 => absurd h1 (by simp [demodBit])⟩
        idleBits := fun h' => absurd hs h' }, .goesOn (by simp [demodBit, hs]) rfl rfl⟩

/-- DEMOD.STEP completes, keeps R45, R47 and R249, and ends in one of three ways. -/
theorem DemodInv.step (h : DemodInv c d m) (i q : Byte) :
    ∃ x, demodStep c i q d m = .ok x ∧ DemodInv c x.demod x.mem ∧ DemodEnds (softDecision c d i q) i q d x := by
  cases hs : d.state with
  | unsynced =>
    exact ⟨_, demodStep_unsynced hs, h.unsynced_step hs, .inr (.inr ⟨rfl, fun _ => hs, by simp [hs, DState.code]⟩)⟩
  | phaseRefTraining => exact ⟨_, demodStep_training hs, h.training_step hs _⟩
  | awaitingFallingEdgeOfSof => exact ⟨_, demodStep_awaitFall hs, h.awaitFall_step hs _⟩
  | gotFallingEdgeOfSof => exact ⟨_, demodStep_gotFall hs, h.gotFall_step hs _⟩
  | awaitingStartBit => exact ⟨_, demodStep_awaitStart hs, h.awaitStart_step hs (softDecision_bounds c d i q)⟩
  | receivingData => exact h.receiving_step hs

/-- Each error condition of R240 to R245 makes DEMOD.STEP give up the frame in silence. -/
theorem DemodInv.step_of_error (h : DemodInv c d m) (he : demodError (softDecision c d i q) i q d) :
    demodStep c i q d m = .ok { demod := demodLost d, mem := m, done := false } := by
  rcases he with ⟨hs, ha⟩ | ⟨hs, hv, hp⟩ | ⟨hs, hv, hp⟩ | ⟨hs, hv, hp⟩ | ⟨hs, hv, hp, hlen⟩ | ⟨r, hi, h0, hw⟩
  · rw [demodStep_training hs, demodTraining_below ha]
  · rw [demodStep_awaitFall hs, demodAwaitFall_high hv, if_pos (by simp [hp])]
  · rw [demodStep_gotFall hs, demodGotFall_high hv, if_neg (by omega)]
  · rw [demodStep_gotFall hs, demodGotFall_low hv, if_pos (by simp [hp])]
  · rw [demodStep_awaitStart hs, demodAwaitStart_high hv (h.awaiting hs).2, if_pos (by simp [hp]), if_neg hlen]
  · exact (h.step_image hi).trans (demodCharacter_framing h0 hw)

end Sys2Proof.Machine
end

section
/-! SUPPORT. The invariant of the machine under each command's acceptance (R39 to R52, R340). -/

namespace Sys2Proof.Machine

variable {s : State}

/-! ### The engine's part -/

/-- An idle engine meets its part of the invariant. -/
theorem engineInv_idle {t : State} (hbusy : t.eng.busy = false) (hhold : t.eng.hold = .none) (hop : t.eng.op = 0)
    (hinfo : t.fault = none → t.faultInfo = 0) : EngineInv t where
  busyIffHeld := by simp [hbusy, hhold]
  noFault := by simp [hbusy]
  hold := by simpa only [holdInv, hhold] using hop
  info := hinfo

/-- A command in flight meets its part of the invariant. -/
theorem engineInv_held {t : State} (hbusy : t.eng.busy = true) (hhold : t.eng.hold ≠ .none) (hfault : t.fault = none)
    (hinfo : t.faultInfo = 0) (h : holdInv t) : EngineInv t where
  busyIffHeld := by simp [hbusy, hhold]
  noFault _ := hfault
  hold := h
  info _ := hinfo

theorem EngineInv.hold_of_idle (h : EngineInv s) (hb : s.eng.busy = false) : s.eng.hold = .none := by
  by_contra hh
  simp [h.busyIffHeld.2 hh] at hb

theorem EngineInv.op_of_idle (h : EngineInv s) (hb : s.eng.busy = false) : s.eng.op = 0 := by
  have := h.hold
  rwa [holdInv, h.hold_of_idle hb] at this

/-- The engine of an idle state, in any state with the same engine and fault registers. -/
theorem EngineInv.idle_of_eq (h : EngineInv s) (hb : s.eng.busy = false) {t : State} (heng : t.eng = s.eng)
    (hfault : t.fault = s.fault) (hinfo : t.faultInfo = s.faultInfo) : EngineInv t :=
  engineInv_idle (by rw [heng, hb]) (by rw [heng, h.hold_of_idle hb]) (by rw [heng, h.op_of_idle hb])
    (by rw [hfault, hinfo]; exact h.info)

theorem State.Inv.complete (h : s.Inv) : s.complete.Inv := { h with engine := engineInv_idle rfl rfl rfl h.engine.info }

theorem State.Inv.raise (h : s.Inv) (code : FaultCode) (info : Word) : (s.raise code info).Inv := by
  unfold State.raise
  split
  · exact { h with engine := engineInv_idle rfl rfl rfl nofun }
  · exact h.complete

/-- Input ports, and the moves still to come, are outside the invariant. -/
theorem State.Inv.withEnv (h : s.Inv) (env : Env) : ({ s with env := env } : State).Inv :=
  { h with engine := ⟨h.engine.busyIffHeld, h.engine.noFault, h.engine.hold, h.engine.info⟩ }

/-- The end of a command, with whatever results, TX mode and outputs (R120). -/
theorem State.Inv.ended (h : s.Inv) (mode : TxMode) (res0 res1 : Word) (out : Out) :
    ({ s.complete with txMode := mode, res0 := res0, res1 := res1, out := out } : State).Inv :=
  { h with engine := engineInv_idle rfl rfl rfl h.engine.info }

theorem State.Inv.cancelled (h : s.Inv) : s.cancelled.Inv := h.ended ..

/-- A rule that keeps the invariant whenever it succeeds and never stops answers a state that meets it. -/
theorem State.Inv.commit (h : s.Inv) {r : Res State} (hr : Res.Safe r State.Inv) : Answers State.Inv (commit s r) :=
  commit_answers hr h.raise

/-! ### The send buffer's commands -/

theorem State.Inv.withSend (h : s.Inv) (hb : s.eng.busy = false) {x : SendState} (hx : SendInv s.cfg x.ts x.mem)
    (hw : WritesWithin s.cfg .tosend s.mem x.mem) : (s.withSend x).Inv where
  config := h.config
  memory := h.memory.later hw.later
  send := hx
  uart := h.uart.later hw.later
  demod := h.demod.later hw.later
  ring := h.ring.later hw.later
  emulator := h.emulator.later hw.later
  engine := h.engine.idle_of_eq hb rfl rfl rfl

/-- A rule of the send buffer that keeps R39 and writes inside TOSEND. -/
theorem State.Inv.commitSend (h : s.Inv) (hb : s.eng.busy = false) {r : Res SendState}
    (hr : Res.Safe r fun x => SendInv s.cfg x.ts x.mem) (hw : ∀ x, r = .ok x → WritesWithin s.cfg .tosend s.mem x.mem) :
    Answers State.Inv (Machine.commitSend s r) :=
  h.commit ((Res.safe_map ..).2 (hr.mono fun x hx hinv => h.withSend hb hinv (hw x hx)))

theorem checkRange_cases (n : Half) (size : Nat) (i : Instr) :
    (n.toNat ≤ size ∧ checkRange n size i = .ok ()) ∨
    (size < n.toNat ∧ checkRange n size i = .error (.raise .range (encode i))) := by
  by_cases h : size < n.toNat
  · exact .inr ⟨h, if_pos h⟩
  · exact .inl ⟨Nat.not_lt.1 h, if_neg h⟩

theorem checkTosend_cases (c : Config) (need : Nat) :
    (need ≤ c.tosendSize ∧ checkTosend c need = .ok ()) ∨
    (c.tosendSize < need ∧ checkTosend c need = .error (.raise .tosendOvf (BitVec.ofNat 32 c.tosendSize))) := by
  by_cases h : c.tosendSize < need
  · exact .inr ⟨h, if_pos h⟩
  · exact .inl ⟨Nat.not_lt.1 h, if_neg h⟩

theorem latchFrom_safe (k n : Nat) (m : Memory) : Res.Safe (latchFrom k n m) fun _ => True := by
  induction n generalizing k with
  | zero => trivial
  | succ n ih =>
    unfold latchFrom
    split
    · trivial
    · obtain ⟨rest, hrest, -⟩ | ⟨code, info, he⟩ := (ih (k + 1)).cases
      · simp [hrest]
      · simp [he]

theorem latchCommand_safe (n : Half) (i : Instr) (s : State) : Res.Safe (latchCommand n i s) fun _ => True := by
  unfold latchCommand
  rcases checkRange_cases n s.cfg.cmdbufSize i with ⟨-, h⟩ | ⟨-, h⟩
  · simpa only [h] using latchFrom_safe ..
  · simp only [h, Res.safe_raise]

/-- code_as_reader passes its checks or raises their faults, and its send buffer is the encoder's. -/
theorem codeAsReader_safe (n : Half) (i : Instr) (hc : s.cfg.wf = true) :
    Res.Safe (codeAsReader n i s) fun x =>
      SendInv s.cfg x.2.ts x.2.mem ∧ WritesWithin s.cfg .tosend s.mem x.2.mem := by
  unfold codeAsReader
  obtain ⟨cmd, hcmd, -⟩ | ⟨code, info, he⟩ := (latchCommand_safe n i s).cases
  · rcases checkTosend_cases s.cfg (readerLen n.toNat) with ⟨-, h⟩ | ⟨-, h⟩
    · obtain ⟨x, hx, hinv⟩ | ⟨code, info, he⟩ := (encodeReader_safe hc cmd s.mem).cases
      · simpa only [hcmd, h, hx, Res.safe_ok] using ⟨hinv, encodeReader_writes hx⟩
      · simp only [hcmd, h, he, Res.safe_raise]
    · simp only [hcmd, h, Res.safe_raise]
  · simp only [he, Res.safe_raise]

theorem codeAsTag_safe (n : Half) (i : Instr) (hc : s.cfg.wf = true) :
    Res.Safe (codeAsTag n i s) fun x => SendInv s.cfg x.ts x.mem ∧ WritesWithin s.cfg .tosend s.mem x.mem := by
  unfold codeAsTag
  obtain ⟨cmd, hcmd, -⟩ | ⟨code, info, he⟩ := (latchCommand_safe n i s).cases
  · rcases checkTosend_cases s.cfg (tagLen n.toNat) with ⟨-, h⟩ | ⟨-, h⟩
    · simp only [hcmd, h]
      exact (encodeTag_safe hc cmd s.mem).mono fun x hx hinv => ⟨hinv.1, encodeTag_writes hx⟩
    · simp only [hcmd, h, Res.safe_raise]
  · simp only [he, Res.safe_raise]

/-! ### The decoders' commands -/

theorem uartInit_cases (n : Half) (i : Instr) (s : State) :
    (n.toNat ≤ s.cfg.uoutSize ∧ uartInit n i s = .ok { s with uart := uartReset n, uDone := false }) ∨
    (s.cfg.uoutSize < n.toNat ∧ uartInit n i s = .error (.raise .range (encode i))) := by
  rcases checkRange_cases n s.cfg.uoutSize i with ⟨hn, h⟩ | ⟨hn, h⟩
  · exact .inl ⟨hn, by simp [uartInit, h]⟩
  · exact .inr ⟨hn, by simp [uartInit, h]⟩

theorem demodInit_cases (n : Half) (i : Instr) (s : State) :
    (n.toNat ≤ s.cfg.doutSize ∧ demodInit n i s = .ok { s with demod := demodReset n, dDone := false }) ∨
    (s.cfg.doutSize < n.toNat ∧ demodInit n i s = .error (.raise .range (encode i))) := by
  rcases checkRange_cases n s.cfg.doutSize i with ⟨hn, h⟩ | ⟨hn, h⟩
  · exact .inl ⟨hn, by simp [demodInit, h]⟩
  · exact .inr ⟨hn, by simp [demodInit, h]⟩

/-- A holdInv of one state holds of another with the same engine, TX mode, cursor and lengths. -/
theorem holdInv_congr {t : State} (heng : t.eng = s.eng) (hmode : t.txMode = s.txMode) (hts : t.ts = s.ts)
    (hemu : t.emu = s.emu) (h : holdInv s) : holdInv t := by
  have hlen (src : TxSource) : txLen src t = txLen src s := by cases src <;> simp [txLen, hts, hemu]
  simpa only [holdInv, heng, hmode, hts, hlen] using h

theorem EngineInv.congr {t : State} (h : EngineInv s) (heng : t.eng = s.eng) (hmode : t.txMode = s.txMode)
    (hts : t.ts = s.ts) (hemu : t.emu = s.emu) (hfault : t.fault = s.fault) (hinfo : t.faultInfo = s.faultInfo) :
    EngineInv t where
  busyIffHeld := heng ▸ h.busyIffHeld
  noFault := by rw [heng, hfault]; exact h.noFault
  hold := holdInv_congr heng hmode hts hemu h.hold
  info := by rw [hfault, hinfo]; exact h.info

/-- The machine after a step of the Uart, at a command or at a hold (R204). -/
theorem State.Inv.withUartRun (h : s.Inv) {r : UartRun} (hr : UartInv s.cfg r.uart r.mem)
    (hw : WritesWithin s.cfg .uout s.mem r.mem) : (s.withUartRun r).Inv where
  config := h.config
  memory := h.memory.later hw.later
  send := h.send.writes_other h.config hw (by decide)
  uart := hr
  demod := h.demod.later hw.later
  ring := h.ring.later hw.later
  emulator := h.emulator.later hw.later
  engine := h.engine.congr rfl rfl rfl rfl rfl rfl

theorem State.Inv.withDemodRun (h : s.Inv) {r : DemodRun} (hr : DemodInv s.cfg r.demod r.mem)
    (hw : WritesWithin s.cfg .dout s.mem r.mem) : (s.withDemodRun r).Inv where
  config := h.config
  memory := h.memory.later hw.later
  send := h.send.writes_other h.config hw (by decide)
  uart := h.uart.later hw.later
  demod := hr
  ring := h.ring.later hw.later
  emulator := h.emulator.later hw.later
  engine := h.engine.congr rfl rfl rfl rfl rfl rfl

/-- UART.STEP on the machine under the invariant. -/
theorem State.Inv.uartStepState (h : s.Inv) (b : Bool) :
    ∃ r, uartStep s.cfg b s.uart s.mem = .ok r ∧ Machine.uartStepState b s = .ok (r.done, s.withUartRun r) ∧
      (s.withUartRun r).Inv := by
  obtain ⟨r, hr, hinv, -⟩ := h.uart.step h.config b
  exact ⟨r, hr, by simp [Machine.uartStepState, hr], h.withUartRun hinv (uartStep_writes hr)⟩

/-- DEMOD.STEP on the machine under the invariant. -/
theorem State.Inv.demodStepState (h : s.Inv) (i q : Byte) :
    ∃ r, demodStep s.cfg i q s.demod s.mem = .ok r ∧ Machine.demodStepState i q s = .ok (r.done, s.withDemodRun r) ∧
      (s.withDemodRun r).Inv := by
  obtain ⟨r, hr, hinv, -⟩ := h.demod.step i q
  exact ⟨r, hr, by simp [Machine.demodStepState, hr], h.withDemodRun hinv (demodStep_writes hr)⟩

/-! ### Transmissions -/

theorem and_0xF_eq_zero_iff (x : Word) : x &&& 0xF = 0 ↔ x.toNat % 16 = 0 := by
  rw [← BitVec.toNat_inj, BitVec.toNat_and]
  exact Iff.of_eq (congrArg (· = 0) (Nat.and_two_pow_sub_one_eq_mod x.toNat 4))

theorem aligned_and_0xF (x : Word) : (x &&& 0xFFFFFFF0) &&& 0xF = 0 := by
  rw [BitVec.and_assoc, show (0xFFFFFFF0 : Word) &&& 0xF = 0 from by decide]
  exact BitVec.and_zero

/-- A slot is a multiple of 16 under either policy (R271). -/
theorem txSlot_and_0xF (c : Config) (t st : Word) : txSlot c t st &&& 0xF = 0 := by
  have hslot : slotFor st &&& 0xF = 0 := aligned_and_0xF _
  unfold txSlot
  simp only
  split
  · split
    · exact aligned_and_0xF _
    · rw [and_0xF_eq_zero_iff] at hslot ⊢
      simp; omega
  · exact hslot

theorem State.Inv.startReader (h : s.Inv) (hf : s.fault = none) (frame : Option (List Byte)) :
    (startReader (readerOp frame) frame s).Inv :=
  { h with
    engine := engineInv_held rfl nofun hf (h.engine.info hf) ⟨rfl, rfl, rfl, txSlot_and_0xF ..⟩ }

/-- The next hold of a tag transmission, or its end (R276). -/
theorem State.Inv.tagNext {src : TxSource} (h : s.complete.Inv) (hbusy : s.eng.busy = true) (hf : s.fault = none)
    (hop : s.eng.op = 0x31 ∨ s.eng.op = 0x42) (hmode : s.txMode = .tagBpsk) : (tagNext src s).Inv := by
  unfold Machine.tagNext
  split
  · rename_i hlt
    exact { h with engine := engineInv_held hbusy nofun hf (h.engine.info hf) ⟨hop, hmode, hlt⟩ }
  · exact h

theorem State.Inv.startTag (h : s.Inv) (hf : s.fault = none) {op : Byte} (hop : op = 0x31 ∨ op = 0x42) (src : TxSource) :
    (startTag op src s).Inv := by
  refine State.Inv.tagNext ?_ rfl hf hop rfl
  exact { h with engine := engineInv_idle rfl rfl rfl h.engine.info }

/-! ### The emulator -/

/-- The copy of a response completes when the send buffer holds its bytes and the window has room (R311). -/
theorem copyTosend_of_written {c : Config} {w : Window} {n : Nat} {m : Memory} (hn : n ≤ c.tosendSize)
    (hw : n ≤ w.capacity c) (h : ∀ k < n, written .tosend k m) :
    ∃ m', copyTosend c w n m = .ok m' ∧ WritesWithin c w m m' ∧ ∀ k < n, written w k m' := by
  obtain ⟨bytes, hb, hlen⟩ := readBytes_of_written (c := c) (w := .tosend) (k := 0) (n := n) (m := m)
    (by simpa [Window.capacity] using hn) (by simpa using h)
  obtain ⟨m', hm'⟩ := (writeBytes_isOk_iff c w 0 bytes m).2 (.inr (by omega))
  have hcopy : copyTosend c w n m = .ok m' := by simp [copyTosend, hb, hm']
  exact ⟨m', hcopy, copyTosend_writes hcopy, fun k hk => written_of_writeBytes hm' (hlen ▸ hk)⟩

/-- A response built through the send buffer (R311): R39 holds, the window holds the response, and every byte that had been
written still is. -/
theorem buildResponse_safe {c : Config} (hc : c.wf = true) {frame : List Byte} {w : Window} {n : Nat} (m : Memory)
    (hw : w ≠ .tosend) (hn : n ≤ tagLen frame.length) (hroom : n ≤ w.capacity c) :
    Res.Safe (buildResponse c frame w n m) fun y =>
      SendInv c y.ts y.mem ∧ Later c m y.mem ∧ ∀ k < n, written w k y.mem := by
  unfold buildResponse
  obtain ⟨x, hx, hinv, hlen⟩ | ⟨code, info, he⟩ := (encodeTag_safe hc frame m).cases
  · have hsize := hinv.len_le
    obtain ⟨m', hm', hwrites, hwritten⟩ := copyTosend_of_written (c := c) (w := w) (n := n) (m := x.mem) (by omega) hroom
      fun k hk => hinv.bytesWritten k (by omega)
    simp only [hx, hm', Res.safe_ok]
    exact ⟨hinv.writes_other hc hwrites hw, (encodeTag_writes hx).later.trans hwrites.later, hwritten⟩
  · simp only [he, Res.safe_raise]

theorem atqbFor_length (pupi : Word) : (atqbFor pupi).length = 14 := by
  unfold atqbFor
  split <;> rfl

theorem State.Inv.emuInit (h : s.Inv) (hb : s.eng.busy = false) : Res.Safe (emuInit s) State.Inv := by
  unfold Machine.emuInit
  rcases checkTosend_cases s.cfg 92 with ⟨-, hcheck⟩ | ⟨-, hcheck⟩
  · obtain ⟨m, hm⟩ := (writeBytes_isOk_iff s.cfg .atqb 0 (atqbFor s.arg0) s.mem).2
      (.inr (by rw [atqbFor_length]; exact Nat.le_refl 14))
    have hatqb := (WritesWithin.bytes hm).later
    obtain ⟨x, hx, -, hlx, hwx⟩ | ⟨code, info, he⟩ := (buildResponse_safe h.config (frame := atqbFor s.arg0) (w := .eatqb)
      (n := 92) m (by decide) (by rw [atqbFor_length]; decide) (Nat.le_refl 92)).cases
    · obtain ⟨y, hy, hinv, hly, hwy⟩ | ⟨code, info, he⟩ := (buildResponse_safe h.config (frame := okFrame) (w := .eok)
        (n := 37) x.mem (by decide) (by decide) (Nat.le_refl 37)).cases
      · simp only [hcheck, hm, hx, hy, Res.safe_ok]
        have hl := (hatqb.trans hlx).trans hly
        exact {
          config := h.config
          memory := h.memory.later hl
          send := hinv
          uart := h.uart.later hl
          demod := h.demod.later hl
          ring := h.ring.later hl
          emulator := ⟨.inl rfl, ⟨.inr rfl, fun k hk => hly.written _ (hwx k hk)⟩, .inr rfl, hwy⟩
          engine := h.engine.idle_of_eq hb rfl rfl rfl }
      · simp only [hcheck, hm, hx, he, Res.safe_raise]
    · simp only [hcheck, hm, he, Res.safe_raise]
  · simp only [hcheck, Res.safe_raise]

/-- A transition from a settled state ends in a settled state (R318). -/
theorem transition_settled {e : EState} (he : e = .nofield ∨ e = .idle ∨ e = .halted ∨ e = .work) (ev : FrameEvent) :
    (transition e ev).1 = .nofield ∨ (transition e ev).1 = .idle ∨ (transition e ev).1 = .halted ∨
      (transition e ev).1 = .work := by
  rcases he with rfl | rfl | rfl | rfl <;> cases ev <;> decide

theorem fieldTransition_settled (c : Config) (v : Word) {e : EState}
    (he : e = .nofield ∨ e = .idle ∨ e = .halted ∨ e = .work) :
    fieldTransition c v e = .nofield ∨ fieldTransition c v e = .idle ∨ fieldTransition c v e = .halted ∨
      fieldTransition c v e = .work := by
  rcases he with rfl | rfl | rfl | rfl <;> simp only [fieldTransition] <;> split <;> simp

/-- The record of a transition and the new E_STATE (R313, R314, R316), before any response. -/
def emuMoved (next : EState) (kind : TraceKind) (f : List Byte) (s : State) : State :=
  { s with
    emu := { s.emu with state := next }
    out := { s.out with trace := s.out.trace ++ frameRecords kind f s.env.now } }

/-- What EMU.FRAME leaves for a transition: the record, the new E_STATE, and the response begun if there is one (R313). -/
def emuAnswered (x : EState × Option TxSource × TraceKind) (f : List Byte) (s : State) : State :=
  match x.2.1 with
  | none => emuMoved x.1 x.2.2 f s
  | some src => startTag 0x42 src (emuMoved x.1 x.2.2 f s)

theorem emitRecord_eq (kind : TraceKind) (f : List Byte) (now : Word) (s : State) :
    s.emitRecord (emulatorRecord kind f now) =
      { s with out := { s.out with trace := s.out.trace ++ frameRecords kind f now } } := by
  cases kind <;> simp [emulatorRecord, State.emitRecord, frameRecords, State.emitTrace]

theorem emuFrame_nofield (h : s.emu.state = .nofield) : emuFrame s = .ok s := by
  rw [emuFrame, if_pos h]

theorem emuFrame_unread (h : s.emu.state ≠ .nofield) {e : Abort}
    (hread : readBytes s.cfg .uout 0 s.uart.byteCnt.toNat s.mem = .error e) : emuFrame s = .error e := by
  rw [emuFrame, if_neg h, hread]

/-- EMU.FRAME answers the frame in UOUT (R313). -/
theorem emuFrame_answers (h : s.emu.state ≠ .nofield) {f : List Byte}
    (hread : readBytes s.cfg .uout 0 s.uart.byteCnt.toNat s.mem = .ok f) :
    emuFrame s = .ok (emuAnswered (transition s.emu.state (classify f)) f s) := by
  rw [emuFrame, if_neg h, hread]
  dsimp only
  generalize transition s.emu.state (classify f) = x
  obtain ⟨next, resp, kind⟩ := x
  simp only [emitRecord_eq, emuAnswered, emuMoved]
  cases resp <;> rfl

/-- EMU.FRAME does nothing in NOFIELD, and else answers the frame in UOUT. -/
theorem emuFrame_cases (s : State) :
    emuFrame s = .ok s ∨
    (∃ e, readBytes s.cfg .uout 0 s.uart.byteCnt.toNat s.mem = .error e ∧ emuFrame s = .error e) ∨
    ∃ f, readBytes s.cfg .uout 0 s.uart.byteCnt.toNat s.mem = .ok f ∧
      emuFrame s = .ok (emuAnswered (transition s.emu.state (classify f)) f s) := by
  by_cases h : s.emu.state = .nofield
  · exact .inl (emuFrame_nofield h)
  · cases hread : readBytes s.cfg .uout 0 s.uart.byteCnt.toNat s.mem with
    | error e => exact .inr (.inl ⟨e, rfl, emuFrame_unread h hread⟩)
    | ok f => exact .inr (.inr ⟨f, rfl, emuFrame_answers h hread⟩)

theorem State.Inv.emuFrame (h : s.Inv) (hf : s.fault = none) (hb : s.eng.busy = false) :
    Res.Safe (emuFrame s) State.Inv := by
  rcases emuFrame_cases s with he | ⟨e, hread, -⟩ | ⟨f, hread, he⟩
  · rw [he]; exact h
  · obtain ⟨l, hl, -⟩ := readBytes_of_written (c := s.cfg) (w := .uout) (k := 0) (n := s.uart.byteCnt.toNat) (m := s.mem)
      (by have := h.uart.limit; have := BitVec.le_def.1 h.uart.count; simp only [Window.capacity]; omega)
      (by simpa using h.uart.bytesWritten)
    rw [hl] at hread
    cases hread
  · rw [he, Res.safe_ok]
    have hsettled := transition_settled h.emulator.settled (classify f)
    generalize transition s.emu.state (classify f) = x at hsettled ⊢
    have hmoved : (emuMoved x.1 x.2.2 f s).Inv :=
      { h with emulator := { h.emulator with settled := hsettled }, engine := h.engine.idle_of_eq hb rfl rfl rfl }
    unfold emuAnswered
    split
    · exact hmoved
    · exact hmoved.startTag hf (.inr rfl) _

end Sys2Proof.Machine
end

section
/-! SUPPORT. Every command's acceptance, every segment, every external move and so every step answers a next state that
meets the invariant. -/

namespace Sys2Proof.Machine

variable {s : State}

/-! ### Acceptance -/

/-- A command accepted under the invariant answers a state that meets it. -/
theorem State.Inv.exec (h : s.Inv) (hf : s.fault = none) (hb : s.eng.busy = false) (i : Instr) :
    Answers State.Inv (exec i s) := by
  have hc := h.config
  cases i with
  | tosendReset => exact ⟨_, rfl, { h with send := sendInv_empty .., engine := h.engine.idle_of_eq hb rfl rfl rfl }⟩
  | tosendStuff b => exact h.commitSend hb ((stuffBit_safe hc b h.send).mono fun _ _ hx => hx.1) fun _ => stuffBit_writes
  | tosendStuff4 b => exact h.commitSend hb ((stuff4_safe hc b h.send).mono fun _ _ hx => hx.1) fun _ => stuff4_writes
  | codeReader n =>
    have hsafe := codeAsReader_safe n (.codeReader n) hc
    exact h.commit ((Res.safe_map ..).2 ((Res.safe_map ..).2 (hsafe.mono fun x _ hx => h.withSend hb hx.1 hx.2)))
  | codeTag n =>
    exact h.commit ((Res.safe_map ..).2 ((codeAsTag_safe n (.codeTag n) hc).mono fun x _ hx => h.withSend hb hx.1 hx.2))
  | uartInit n =>
    refine h.commit ?_
    rcases uartInit_cases n (.uartInit n) s with ⟨hn, he⟩ | ⟨-, he⟩ <;> rw [he]
    · exact { h with uart := uartInv_reset hn, engine := h.engine.idle_of_eq hb rfl rfl rfl }
    · trivial
  | uartStep b =>
    obtain ⟨r, -, hr, hinv⟩ := h.uartStepState b
    exact h.commit (by rw [hr]; exact hinv)
  | demodInit n =>
    refine h.commit ?_
    rcases demodInit_cases n (.demodInit n) s with ⟨hn, he⟩ | ⟨-, he⟩ <;> rw [he]
    · exact { h with demod := demodInv_reset hn, engine := h.engine.idle_of_eq hb rfl rfl rfl }
    · trivial
  | demodStep x y =>
    obtain ⟨r, -, hr, hinv⟩ := h.demodStepState x y
    exact h.commit (by rw [hr]; exact hinv)
  | trxTxReader => exact ⟨_, rfl, h.startReader hf none⟩
  | trxTxTag sel =>
    refine h.commit ?_
    unfold trxTxTag
    split
    · trivial
    · exact h.startTag hf (.inl rfl) _
  | trxRxTag n =>
    refine h.commit ?_
    unfold trxRxTag
    rcases demodInit_cases n (.trxRxTag n) s with ⟨hn, he⟩ | ⟨-, he⟩ <;> rw [he]
    · exact { h with
        demod := demodInv_reset hn
        ring := ⟨le_rfl, by simp, fun j hj => absurd hj (by simp)⟩
        engine := engineInv_held rfl nofun hf (h.engine.info hf) rfl }
    · trivial
  | trxCodeTxReader n =>
    refine h.commit ?_
    unfold codeTxReader
    obtain ⟨⟨cmd, x⟩, hx, hinv, hw⟩ | ⟨code, info, he⟩ := (codeAsReader_safe n (.trxCodeTxReader n) hc).cases
    · rw [hx]
      exact (h.withSend hb hinv hw).startReader hf (some cmd)
    · rw [he]
      trivial
  | trxSetTimeout => exact ⟨_, rfl, { h with engine := h.engine.congr rfl rfl rfl rfl rfl rfl }⟩
  | trxSetMaxFrame => exact ⟨_, rfl, { h with engine := h.engine.congr rfl rfl rfl rfl rfl rfl }⟩
  | emuInit => exact h.commit (h.emuInit hb)
  | emuField => 
    exact ⟨_, rfl, { h with
      emulator := { h.emulator with settled := fieldTransition_settled _ _ h.emulator.settled }
      engine := h.engine.idle_of_eq hb rfl rfl rfl }⟩
  | emuFrame => exact h.commit (h.emuFrame hf hb)
  | emuRx n =>
    refine h.commit ?_
    unfold emuRx
    rcases uartInit_cases n (.emuRx n) s with ⟨hn, he⟩ | ⟨-, he⟩ <;> rw [he]
    · exact { h with uart := uartInv_reset hn, engine := engineInv_held rfl nofun hf (h.engine.info hf) rfl }
    · trivial

/-! ### Segments -/

/-- The end of a command with other results, and with a trace record (R120, R359). -/
theorem State.Inv.finishReader (h : s.complete.Inv) (frame : Option (List Byte)) : (finishReader frame s).Inv := by
  cases frame with
  | none => exact h.ended ..
  | some bytes => exact h.ended ..

/-- The next hold of a reader transmission, or its end (R273). -/
theorem State.Inv.readerNext (h : s.complete.Inv) (hbusy : s.eng.busy = true) (hf : s.fault = none)
    {frame : Option (List Byte)} (hop : s.eng.op = readerOp frame) (hmode : s.txMode = .readerAsk)
    (halign : s.eng.txTarget &&& 0xF = 0) : (readerNext frame s).Inv := by
  unfold Machine.readerNext
  split
  · rename_i hlt
    exact { h with engine := engineInv_held hbusy nofun hf (h.engine.info hf) ⟨hop, hmode, hlt, halign⟩ }
  · exact h.finishReader frame

theorem State.Inv.sendBit (h : s.Inv) (hlt : s.eng.txIdx.toNat < 8 * s.ts.len) : ∃ b, sendBit s = .ok b := by
  have hlen := h.send.len_le
  obtain ⟨v, hv, -⟩ := readByte_of_written (c := s.cfg) (w := .tosend) (k := s.eng.txIdx.toNat / 8) (m := s.mem)
    (by simp only [Window.capacity]; omega) (h.send.bytesWritten _ (by omega))
  exact ⟨v.getLsbD (7 - s.eng.txIdx.toNat % 8), by simp only [Machine.sendBit, hv]⟩

theorem State.Inv.readerSegment (h : s.Inv) (hbusy : s.eng.busy = true) {second : Bool} {frame : Option (List Byte)}
    (hhold : s.eng.hold = .readerWord second frame) : Res.Safe (readerSegment second frame s) State.Inv := by
  have hf := h.engine.noFault hbusy
  have hinv := h.engine.hold
  simp only [holdInv, hhold] at hinv
  obtain ⟨hop, hmode, hlt, halign⟩ := hinv
  obtain ⟨b, hbit⟩ := h.sendBit hlt
  simp only [Machine.readerSegment, hbit]
  split
  · rw [Res.safe_ok]
    refine State.Inv.readerNext ?_ ?_ ?_ ?_ ?_ ?_
    exacts [{ h with engine := engineInv_idle rfl rfl rfl h.engine.info }, hbusy, hf, hop, hmode, halign]
  · exact { h with engine := engineInv_held hbusy nofun hf (h.engine.info hf) ⟨hop, hmode, hlt, halign⟩ }

/-- Byte TX_IDX of the source of a tag transmission is there (R276). -/
theorem State.Inv.tagByte (h : s.Inv) {src : TxSource} (hlt : s.eng.txIdx.toNat < txLen src s) :
    s.eng.txIdx.toNat < src.window.capacity s.cfg ∧ written src.window s.eng.txIdx.toNat s.mem := by
  cases src with
  | tosend => exact ⟨Nat.lt_of_lt_of_le hlt h.send.len_le, h.send.bytesWritten _ hlt⟩
  | eatqb =>
    obtain ⟨hlen, hw⟩ := h.emulator.eatqb
    refine ⟨?_, hw _ hlt⟩
    simp only [txLen, TxSource.window, Window.capacity] at hlt ⊢
    rcases hlen with hlen | hlen <;> rw [hlen] at hlt <;> simp at hlt
    exact hlt
  | eok =>
    obtain ⟨hlen, hw⟩ := h.emulator.eok
    refine ⟨?_, hw _ hlt⟩
    simp only [txLen, TxSource.window, Window.capacity] at hlt ⊢
    rcases hlen with hlen | hlen <;> rw [hlen] at hlt <;> simp at hlt
    exact hlt

theorem State.Inv.tagSegment (h : s.Inv) (hbusy : s.eng.busy = true) {src : TxSource} (hhold : s.eng.hold = .tagByte src) :
    Res.Safe (tagSegment src s) State.Inv := by
  have hf := h.engine.noFault hbusy
  have hinv := h.engine.hold
  simp only [holdInv, hhold] at hinv
  obtain ⟨hop, hmode, hlt⟩ := hinv
  obtain ⟨hk, hw⟩ := h.tagByte hlt
  obtain ⟨v, hv, -⟩ := readByte_of_written hk hw
  simp only [Machine.tagSegment, hv, Res.safe_ok]
  refine State.Inv.tagNext ?_ hbusy hf hop hmode
  exact { h with engine := engineInv_idle rfl rfl rfl h.engine.info }

/-- The entry at SR_CONSUMED is taken (R95). -/
theorem State.Inv.nextSample (h : s.Inv) (hlt : s.ring.consumed < s.ring.produced) :
    ∃ i q, nextSample s = .ok (i, q, { s with ring := { s.ring with consumed := s.ring.consumed + 1 } }) ∧
      ({ s with ring := { s.ring with consumed := s.ring.consumed + 1 } } : State).Inv := by
  have hk := Nat.mod_lt s.ring.consumed (Config.wf_iff _ |>.1 h.config).2.2.2.2.1
  obtain ⟨hw, hw'⟩ := h.ring.entriesWritten 0 (by omega)
  simp only [Nat.add_zero] at hw hw'
  obtain ⟨i, hi, -⟩ := readByte_of_written (c := s.cfg) (w := .sring) (by simp only [Window.capacity]; omega) hw
  obtain ⟨q, hq, -⟩ := readByte_of_written (c := s.cfg) (w := .sring) (by simp only [Window.capacity]; omega) hw'
  refine ⟨i, q, (nextSample_eq_ok_iff ..).2 ⟨hi, hq, rfl⟩,
    { h with ring := ?_, engine := h.engine.congr rfl rfl rfl rfl rfl rfl }⟩
  have hroom := h.ring.room
  exact {
    order := hlt
    room := by simp only; omega
    entriesWritten := fun j hj => by
      simp only at hj ⊢
      rw [Nat.add_assoc, Nat.add_comm 1 j]
      exact h.ring.entriesWritten (j + 1) (by omega) }

theorem State.Inv.afterSample (h : s.Inv) (done : Bool) : Res.Safe (afterSample done s) State.Inv := by
  unfold Machine.afterSample
  split
  · unfold finishReceive
    split
    · exact h.ended ..
    · obtain ⟨bytes, hbytes, -⟩ := readBytes_of_written (c := s.cfg) (w := .dout) (k := 0) (n := s.demod.len.toNat)
        (m := s.mem)
        (by have := h.demod.limit; have := BitVec.le_def.1 h.demod.count; simp only [Window.capacity]; omega)
        (by simpa using h.demod.bytesWritten)
      simp only [hbytes, Res.safe_ok]
      exact h.ended ..
  · split
    · exact h.ended ..
    · exact h

theorem State.Inv.sampleSegment (h : s.Inv) (hhold : s.eng.hold = .sample) (hlt : s.ring.consumed < s.ring.produced) :
    Res.Safe (sampleSegment s) State.Inv := by
  obtain ⟨i, q, hnext, hinv⟩ := h.nextSample hlt
  have hcount : ({ s with
      ring := { s.ring with consumed := s.ring.consumed + 1 }
      eng := { s.eng with rxSamples := s.eng.rxSamples + 1 } } : State).Inv :=
    { hinv with
      engine := {
        busyIffHeld := h.engine.busyIffHeld, noFault := h.engine.noFault, info := h.engine.info
        hold := by simpa only [holdInv, hhold] using h.engine.hold } }
  obtain ⟨r, -, hr, hinv'⟩ := hcount.demodStepState i q
  simp only [Machine.sampleSegment, hnext, hr]
  exact hinv'.afterSample r.done

theorem State.Inv.rbitSegment (h : s.Inv) : Res.Safe (rbitSegment s) State.Inv := by
  unfold Machine.rbitSegment
  split
  · exact h
  · rename_i b rest _
    obtain ⟨r, -, hr, hinv⟩ := (h.withEnv { s.env with rbits := rest }).uartStepState b
    simp only [hr]
    split
    · exact hinv.ended ..
    · exact hinv

/-- The segment of a command whose hold is met never stops and keeps the invariant. -/
theorem State.Inv.segment (h : s.Inv) (hbusy : s.eng.busy = true) (hready : holdReady s = true) :
    Res.Safe (segment s) State.Inv := by
  unfold Machine.segment
  split
  · exact h
  · rename_i frame hhold
    have hinv := h.engine.hold
    simp only [holdInv, hhold] at hinv
    obtain ⟨hop, hmode, -, halign⟩ := hinv
    exact h.complete.readerNext hbusy (h.engine.noFault hbusy) hop hmode halign
  · exact h.readerSegment hbusy ‹_›
  · exact h.tagSegment hbusy ‹_›
  · rename_i hhold
    have horder := h.ring.order
    simp only [holdReady, hhold, bne_iff_ne] at hready
    exact h.sampleSegment hhold (by omega)
  · exact h.rbitSegment

theorem State.Inv.engineMove (h : s.Inv) (hready : engineReady s = true) : Answers State.Inv (engineMove s) := by
  simp only [engineReady, Bool.and_eq_true, Bool.or_eq_true] at hready
  obtain ⟨hbusy, hhold⟩ := hready
  rcases engineMove_cases s with ⟨-, he⟩ | ⟨hcancel, he⟩ <;> rw [he]
  · exact ⟨_, rfl, h.cancelled⟩
  · exact h.commit (h.segment hbusy (by simpa [hcancel] using hhold))

/-! ### External moves -/

theorem State.Inv.submit (h : s.Inv) (cw : Word) : Answers State.Inv (submit cw s) := by
  cases hf : s.fault with
  | some code => exact ⟨s, submit_ignored cw (by simp [hf]), h⟩
  | none =>
    cases hb : s.eng.busy with
    | true => exact ⟨_, submit_busy cw hf hb, h.raise ..⟩
    | false =>
      cases hd : decode cw with
      | error e => exact ⟨_, submit_illegal hf hb hd, h.raise ..⟩
      | ok i => rw [submit_exec hf hb hd]; exact h.exec hf hb i

/-- A byte written in a window other than TOSEND keeps the invariant. -/
theorem State.Inv.write (h : s.Inv) {w : Window} {k : Nat} (v : Byte) (hw : w ≠ .tosend) (hk : k < w.capacity s.cfg) :
    ({ s with mem := s.mem.write (w.base + k) v } : State).Inv :=
  have hm : WritesWithin s.cfg w s.mem (s.mem.write (w.base + k) v) := .write v hk
  { config := h.config
    memory := h.memory.later hm.later
    send := h.send.writes_other h.config hm hw
    uart := h.uart.later hm.later
    demod := h.demod.later hm.later
    ring := h.ring.later hm.later
    emulator := h.emulator.later hm.later
    engine := h.engine.congr rfl rfl rfl rfl rfl rfl }

theorem State.Inv.hostWrite (h : s.Inv) (addr : Half) (n : Nat) (v : Word) : Answers State.Inv (hostWrite addr n v s) := by
  unfold Machine.hostWrite
  split
  · exact h.submit v
  · split
    · exact ⟨_, rfl, { h with engine := h.engine.congr rfl rfl rfl rfl rfl rfl }⟩
    · split
      · rename_i hw
        obtain ⟨hlo, hhi⟩ := (Window.holds_iff ..).1 (windowAt_holds hw.2)
        obtain ⟨k, hk⟩ := Nat.exists_eq_add_of_le hlo
        rw [hk] at hhi ⊢
        exact ⟨_, rfl, h.write _ (by decide) (by omega)⟩
      · exact ⟨_, rfl, h.raise ..⟩

theorem State.Inv.reply (h : s.Inv) (v : Word) : (s.reply v).Inv :=
  { h with engine := h.engine.congr rfl rfl rfl rfl rfl rfl }

/-- A host read returns a value or raises a fault (R84, R86, R90). -/
theorem hostRead_cases (addr : Half) (n : Nat) (s : State) :
    (∃ v, hostRead addr n s = s.reply v) ∨ ∃ code info, hostRead addr n s = s.raise code info := by
  unfold hostRead busFault
  split
  · split
    · split
      · exact .inl ⟨_, rfl⟩
      · exact .inr ⟨_, _, rfl⟩
    · exact .inr ⟨_, _, rfl⟩
  · split
    · exact .inr ⟨_, _, rfl⟩
    · split
      · split
        · exact .inl ⟨_, rfl⟩
        · exact .inr ⟨_, _, rfl⟩
      · exact .inr ⟨_, _, rfl⟩

theorem State.Inv.hostRead (h : s.Inv) (addr : Half) (n : Nat) : (hostRead addr n s).Inv := by
  rcases hostRead_cases addr n s with ⟨v, he⟩ | ⟨code, info, he⟩ <;> rw [he]
  · exact h.reply v
  · exact h.raise code info

/-- The producer's entry keeps the ring (R94, R96). -/
theorem State.Inv.producerWrite (h : s.Inv) (i q : Byte) : Res.Safe (producerWrite i q s) State.Inv := by
  have hentries := (Config.wf_iff _ |>.1 h.config).2.2.2.2.1
  have hk := Nat.mod_lt s.ring.produced hentries
  rcases producerWrite_cases i q s hentries with ⟨-, he⟩ | ⟨hroom, he⟩ <;> rw [he]
  · trivial
  · have hi := h.write (w := .sring) (k := 2 * (s.ring.produced % s.cfg.sringEntries)) i (by decide)
      (by simp only [Window.capacity]; omega)
    have hq := hi.write (w := .sring) (k := 2 * (s.ring.produced % s.cfg.sringEntries) + 1) q (by decide)
      (by simp only [Window.capacity]; omega)
    have horder := h.ring.order
    refine { hq with
      ring := ⟨by simp only; omega, by simp only; omega, fun j hj => ?_⟩
      engine := hq.engine.congr rfl rfl rfl rfl rfl rfl }
    simp only at hj ⊢
    by_cases hlast : j < s.ring.produced - s.ring.consumed
    · exact hq.ring.entriesWritten j hlast
    · rw [show s.ring.consumed + j = s.ring.produced by omega]
      exact ⟨Memory.write_keeps_written _ _ _ _ (by rw [Memory.read_write_same]; rfl),
        by rw [written, Memory.read_write_same]; rfl⟩

/-- RESET gives a state that meets the invariant (R370). -/
theorem inv_afterReset {c : Config} (hc : c.wf = true) (env : Env) (out : Out) : (State.afterReset c env out).Inv where
  config := hc
  memory := ⟨rfl, nofun⟩
  send := sendInv_empty ..
  uart := uartInv_reset (n := 0) (Nat.zero_le _)
  demod := demodInv_reset (n := 0) (Nat.zero_le _)
  ring := ⟨le_rfl, Nat.zero_le _, nofun⟩
  emulator := ⟨.inl rfl, ⟨.inl rfl, nofun⟩, .inl rfl, nofun⟩
  engine := engineInv_idle rfl rfl rfl fun _ => rfl

theorem State.Inv.applyMove (h : s.Inv) (mv : Move) : Answers State.Inv (applyMove mv s) := by
  cases mv with
  | hostWrite addr n v => exact h.hostWrite addr n v
  | hostRead addr n => exact ⟨_, rfl, h.hostRead addr n⟩
  | produce i q => exact h.commit (h.producerWrite i q)
  | readerBit b => exact ⟨_, rfl, h.withEnv _⟩
  | clock => exact ⟨_, rfl, h.withEnv _⟩
  | txReady => exact ⟨_, rfl, h.withEnv _⟩
  | field v => exact ⟨_, rfl, h.withEnv _⟩
  | cancel level => exact ⟨_, rfl, h.withEnv _⟩
  | reset => exact ⟨_, rfl, inv_afterReset h.config ..⟩

/-- A step from a state that meets the invariant answers a next state that meets it. -/
theorem State.Inv.step (h : s.Inv) : Answers State.Inv (step s) := by
  rcases step_cases s with ⟨hready, he⟩ | ⟨-, mv, rest, -, he⟩ | ⟨-, -, he⟩ <;> rw [he]
  · exact h.engineMove hready
  · have hmoves : (s.withMoves rest).Inv := { h with engine := h.engine.congr rfl rfl rfl rfl rfl rfl }
    exact hmoves.applyMove mv
  · exact ⟨s, rfl, h⟩

end Sys2Proof.Machine

open Sys2Proof Sys2Proof.Machine

/-- Settles O12: a step answers exactly one next state, and that state meets the invariant. -/
theorem stepKeepsTheInvariant : Obligations.StepKeepsTheInvariant := by
  intro s t h hstep
  obtain ⟨u, hu, hinv⟩ := h.step
  obtain rfl : u = t := by simpa [hu] using hstep
  exact hinv

/-- Settles O13, by induction on the number of steps. -/
theorem runsNeverStop : Obligations.RunsNeverStop := by
  intro k
  induction k with
  | zero => intro s _; trivial
  | succ k ih =>
    intro s h
    obtain ⟨t, ht, hinv⟩ := h.step
    exact ⟨t, ht, ih t hinv⟩

/-- Settles O11. -/
theorem resetMeetsTheInvariant : Obligations.ResetMeetsTheInvariant :=
  ⟨fun _ env out hc => inv_afterReset hc env out, inv_afterReset (by decide) ..⟩

end

section
/-! PROOFS. The decoders' errors (R202, R236, R344), holds that are not met (R349), the register table (R57), and the
acceptance of TRX.TX_READER (R273). -/

namespace Sys2Proof.Machine

variable {s : State}

/-! ### The decoders on the machine -/

theorem exec_uartStep {b : Bool} {r : UartRun} (h : uartStep s.cfg b s.uart s.mem = .ok r) :
    exec (.uartStep b) s = .next (s.withUartRun r) := by
  simp [exec, execUartStep, uartStepState, h]

theorem exec_demodStep {i q : Byte} {r : DemodRun} (h : demodStep s.cfg i q s.demod s.mem = .ok r) :
    exec (.demodStep i q) s = .next (s.withDemodRun r) := by
  simp [exec, execDemodStep, demodStepState, h]

/-! ### Waiting -/

theorem engineReady_unmet (h : s.eng.busy = false ∨ (s.env.cancel = false ∧ holdReady s = false)) :
    engineReady s = false := by
  rcases h with hb | ⟨hc, hh⟩
  · exact engineReady_idle hb
  · simp [engineReady, hc, hh]

/-! ### The register table -/

/-- STATUS as a sum of its fields' weights (R35). -/
theorem statusWord_eq (s : State) : statusWord s = BitVec.ofNat 32 (flag s.uDone + 2 * flag s.dDone +
    4 * flag s.demod.overflow + 8 * flag s.eng.busy + 16 * flag s.fault.isSome +
    256 * (faultCodeField s.fault).toNat) := by
  unfold statusWord
  generalize faultCodeField s.fault = code
  generalize s.fault.isSome = f, s.eng.busy = y, s.demod.overflow = o, s.dDone = d, s.uDone = u
  revert code f y o d u
  decide +kernel

/-- The host reads at each address of the table what the table lists there. -/
theorem readReg_registerTable (s : State) : ∀ p ∈ registerTable s, readReg p.1 s = some p.2 := by
  simp [registerTable, readReg, statusWord_eq]

/-- The host reads nothing at any other address. -/
theorem mem_registerTable_of_readReg {addr : Nat} {v : Word} (h : readReg addr s = some v) :
    (addr, v) ∈ registerTable s := by
  unfold readReg at h
  split at h <;> simp only [reduceCtorEq, Option.some.injEq] at h <;> subst h <;>
    simp [registerTable, statusWord_eq]

theorem readReg_eq_some_iff (addr : Nat) (s : State) (v : Word) :
    readReg addr s = some v ↔ (addr, v) ∈ registerTable s :=
  ⟨mem_registerTable_of_readReg, fun h => readReg_registerTable s _ h⟩

/-- The addresses of the table: words of the register window, none of them CMD (R57). -/
theorem registerTable_addr (s : State) :
    ∀ p ∈ registerTable s, p.1 < 0x100 ∧ p.1 % 4 = 0 ∧ p.1 ≠ 0x010 := by
  simp [registerTable]

/-- A 32-bit host read of a register returns it (R57). -/
theorem hostRead_of_readReg {addr : Half} {v : Word} (hlt : addr.toNat < 0x100) (halign : addr.toNat % 4 = 0)
    (h : readReg addr.toNat s = some v) : hostRead addr 4 s = s.reply v := by
  simp [hostRead, inRegWindow, hlt, halign, h]

/-- A 32-bit host read of the register window where the table lists nothing is a bus fault (R86). -/
theorem hostRead_of_no_readReg {addr : Half} (hlt : addr.toNat < 0x100) (h : readReg addr.toNat s = none) :
    hostRead addr 4 s = busFault addr s := by
  simp [hostRead, inRegWindow, hlt, h]

/-- A 32-bit host write of anything but CMD and ARG0 is a bus fault (R84, R86). -/
theorem hostWrite_other {addr : Half} (v : Word) (s : State) (hcmd : addr ≠ 0x010) (harg : addr ≠ 0x000) :
    hostWrite addr 4 v s = .next (busFault addr s) := by
  rw [hostWrite, if_neg (fun h => hcmd h.2), if_neg (fun h => harg h.2), if_neg (fun h => absurd h.1 (by decide))]

theorem busFault_first (addr : Half) {s : State} (hf : s.fault = none) :
    busFault addr s = faulted .bus (addr.setWidth 32) s := by
  rw [busFault, State.raise_first _ _ _ hf]
  rfl

end Sys2Proof.Machine

open Sys2Proof Sys2Proof.Machine

/-- Settles O35: an error gives up the frame, a framing error changes no byte, and the Uart comes to UNSYNCED by an error or
at its EOF alone. -/
theorem uartErrorsLeaveItUnsyncedAndZero : Obligations.UartErrorsLeaveItUnsyncedAndZero := by
  intro b s hc h
  refine ⟨fun he => ?_, fun r hi h0 hw => exec_uartStep (uartStep_framing hi h0 hw), fun t ht hs ht' => ?_⟩
  · obtain ⟨m', hm', hsame, hother⟩ := h.step_of_error hc he
    exact ⟨_, exec_uartStep hm', rfl, hsame, hother⟩
  · obtain ⟨r, hr, -, hleaves⟩ := h.step hc b
    obtain rfl : s.withUartRun r = t := by simpa [exec_uartStep hr] using ht
    rcases hleaves with he | heof | hstay
    · exact .inl he
    · exact .inr heof
    · exact absurd (hstay ht') hs

/-- Settles O42: by the three ways a step of the Demod ends, and its error conditions one by one. -/
theorem demodSumsAreConstantAfterTraining : Obligations.DemodSumsAreConstantAfterTraining := by
  intro i q s h
  refine ⟨fun t ht => ?_, fun he => exec_demodStep (h.step_of_error he), fun ho => exec_demodStep (h.step_overflow ho)⟩
  obtain ⟨r, hr, hinv, hends⟩ := h.step i q
  obtain rfl : s.withDemodRun r = t := by simpa [exec_demodStep hr] using ht
  simp only [State.withDemodRun_demod, State.withDemodRun_dDone]
  rcases hends with ⟨he, hlost, -⟩ | ⟨hdone, hstate, hI, hQ⟩ | ⟨-, hstay, hkept⟩
  · exact ⟨fun _ => .inr (by rw [hlost]; exact ⟨rfl, rfl, rfl⟩), hinv.count, fun _ _ _ => he⟩
  · exact ⟨fun _ => .inr ⟨hstate, hI, hQ⟩, hinv.count, fun _ _ hd => absurd (hdone.symm.trans hd) (by decide)⟩
  · exact ⟨fun h2 => .inl (hkept h2), hinv.count, fun hs ht' _ => absurd (hstay ht') hs⟩

/-- Settles O9: the engine has no move, so the step is the next external move or nothing. -/
theorem unmetHoldChangesNothing : Obligations.UnmetHoldChangesNothing := by
  intro s h
  have hready := engineReady_unmet h
  refine ⟨step_still hready, fun rest => ⟨?_, ?_, fun b => ?_, fun v => ?_, fun level => ?_⟩⟩ <;>
    exact fun hm => step_external hready hm

/-- Settles O14, by the one list of addresses the reads and the table share. -/
theorem registerTableReadsAndResets : Obligations.RegisterTableReadsAndResets := by
  refine ⟨fun s addr v hv => ?_, fun s x => ⟨hostWrite_arg0 x s, hostWrite_cmd x s⟩, fun s addr hf hlt hnot => ?_,
    fun c env out => ⟨rfl, rfl⟩⟩
  · obtain ⟨hlt, halign, hcmd⟩ := registerTable_addr s _ hv
    have haddr : (BitVec.ofNat 16 addr).toNat = addr := by simp; omega
    refine ⟨?_, fun hne hf x => ?_⟩
    · exact hostRead_of_readReg (by rwa [haddr]) (by rwa [haddr]) (by rwa [haddr, readReg_eq_some_iff])
    · have hneq (k : Nat) (hk : k < 2 ^ 16) (h : addr ≠ k) : BitVec.ofNat 16 addr ≠ BitVec.ofNat 16 k := by
        rw [ne_eq, ← BitVec.toNat_inj, haddr]
        simp; omega
      rw [hostWrite_other x s (hneq 0x010 (by decide) hcmd) (hneq 0 (by decide) hne), busFault_first _ hf,
        ← BitVec.ofNat_toNat, haddr]
  · have hnone : readReg addr.toNat s = none :=
      Option.eq_none_iff_forall_ne_some.2 fun v hv => hnot v ((readReg_eq_some_iff ..).1 hv)
    rw [hostRead_of_no_readReg hlt hnone, busFault_first _ hf]

/-- Settles O44: the word and the acceptance are the model's own definitions (R273). -/
theorem txReaderIsAccepted : Obligations.TxReaderIsAccepted := ⟨by decide, fun _ => rfl⟩

end

section
/-! SUPPORT. What a command's acceptance can leave, said once for every command (R30, R34, R340): a fault raised in the
state before it, or its effect. -/

namespace Sys2Proof.Machine

variable {s t : State}

/-- What a command accepted in `s` leaves when it raises no fault. -/
def Effect (s t : State) : Instr → Prop
  | .tosendReset => t = { s with ts := .empty }
  | .tosendStuff _ | .tosendStuff4 _ | .codeReader _ | .codeTag _ =>
    ∃ x, WritesWithin s.cfg .tosend s.mem x.mem ∧ t = s.withSend x
  | .uartInit n => t = { s with uart := uartReset n, uDone := false }
  | .uartStep _ => ∃ r, WritesWithin s.cfg .uout s.mem r.mem ∧ t = s.withUartRun r
  | .demodInit n => t = { s with demod := demodReset n, dDone := false }
  | .demodStep _ _ => ∃ r, WritesWithin s.cfg .dout s.mem r.mem ∧ t = s.withDemodRun r
  | .trxTxReader => t = startReader 0x30 none s
  | .trxTxTag _ => ∃ src, t = startTag 0x31 src s
  | .trxRxTag n => ∃ e, t = { s with
      demod := demodReset n, dDone := false, ring := { s.ring with consumed := s.ring.produced }, eng := e }
  | .trxCodeTxReader _ => ∃ cmd x, WritesWithin s.cfg .tosend s.mem x.mem ∧ t = startReader 0x33 (some cmd) (s.withSend x)
  | .trxSetTimeout => ∃ v, t = { s with session := { s.session with timeout := v } }
  | .trxSetMaxFrame => ∃ v, t = { s with session := { s.session with frameMax := v } }
  | .emuInit => ∃ ts m e, t = { s with ts := ts, mem := m, emu := e } ∧ ∀ a, Window.tosend.holds s.cfg a = false →
      Window.atqb.holds s.cfg a = false → Window.eatqb.holds s.cfg a = false → Window.eok.holds s.cfg a = false →
      m.read a = s.mem.read a
  | .emuField => ∃ e, t = { s with emu := e }
  | .emuFrame => t = s ∨ ∃ x f, t = emuAnswered x f s
  | .emuRx n => t = { s with uart := uartReset n, uDone := false }.begin 0x43 .rbit

/-! ### Where each rule's success comes from -/

/-- The two ways a committed rule ends, with the fault's state told apart. -/
theorem commit_next_cases {r : Res State} {P : Prop} (h : commit s r = .next t) (hok : r = .ok t → P) :
    (∃ code info, t = s.raise code info) ∨ P := by
  rcases (commit_next_iff ..).1 h with hr | ⟨code, info, -, ht⟩
  · exact .inr (hok hr)
  · exact .inl ⟨code, info, ht⟩

theorem commitSend_next_cases {r : Res SendState} (h : commitSend s r = .next t)
    (hw : ∀ x, r = .ok x → WritesWithin s.cfg .tosend s.mem x.mem) :
    (∃ code info, t = s.raise code info) ∨ ∃ x, WritesWithin s.cfg .tosend s.mem x.mem ∧ t = s.withSend x :=
  commit_next_cases h fun hr => by
    obtain ⟨x, hx, rfl⟩ := (Res.map_eq_ok_iff ..).1 hr
    exact ⟨x, hw x hx, rfl⟩

theorem codeAsReader_writes {n : Half} {i : Instr} {cmd : List Byte} {x : SendState}
    (h : codeAsReader n i s = .ok (cmd, x)) : WritesWithin s.cfg .tosend s.mem x.mem := by
  unfold codeAsReader at h
  split at h
  · cases h
  · split at h
    · cases h
    · split at h
      · cases h
      · rename_i hx
        simp only [Except.ok.injEq, Prod.mk.injEq] at h
        exact h.2 ▸ encodeReader_writes hx

theorem codeAsTag_writes {n : Half} {i : Instr} {x : SendState} (h : codeAsTag n i s = .ok x) :
    WritesWithin s.cfg .tosend s.mem x.mem := by
  unfold codeAsTag at h
  split at h
  · cases h
  · split at h
    · cases h
    · exact encodeTag_writes h

/-- A response is built by writes inside TOSEND and its own window (R311). -/
theorem buildResponse_other {c : Config} {frame : List Byte} {w : Window} {n : Nat} {m : Memory} {y : SendState}
    (h : buildResponse c frame w n m = .ok y) {a : Nat} (ht : Window.tosend.holds c a = false) (hw : w.holds c a = false) :
    y.mem.read a = m.read a := by
  unfold buildResponse at h
  split at h
  · cases h
  · rename_i x hx
    split at h
    · cases h
    · rename_i m' hm'
      cases h
      exact ((copyTosend_writes hm').other a hw).trans ((encodeTag_writes hx).other a ht)

theorem emuInit_effect (h : emuInit s = .ok t) : Effect s t .emuInit := by
  unfold emuInit at h
  split at h
  · cases h
  · split at h
    · cases h
    · rename_i m hm
      split at h
      · cases h
      · rename_i x hx
        split at h
        · cases h
        · rename_i y hy
          cases h
          exact ⟨y.ts, y.mem, _, rfl, fun a ht ha he ho => (buildResponse_other hy ht ho).trans
            ((buildResponse_other hx ht he).trans ((WritesWithin.bytes hm).other a ha))⟩

/-- A command accepted raises a fault in the state before it, or has its effect. -/
theorem exec_cases {i : Instr} (h : exec i s = .next t) : (∃ code info, t = s.raise code info) ∨ Effect s t i := by
  cases i with
  | tosendReset => exact .inr (Host.Outcome.next.inj h).symm
  | tosendStuff b => exact commitSend_next_cases h fun _ => stuffBit_writes
  | tosendStuff4 b => exact commitSend_next_cases h fun _ => stuff4_writes
  | codeReader n =>
    refine commitSend_next_cases h fun x hx => ?_
    obtain ⟨⟨cmd, x⟩, hcode, rfl⟩ := (Res.map_eq_ok_iff ..).1 hx
    exact codeAsReader_writes hcode
  | codeTag n => exact commitSend_next_cases h fun _ => codeAsTag_writes
  | uartInit n =>
    refine commit_next_cases h fun hr => ?_
    rcases uartInit_cases n (.uartInit n) s with ⟨-, he⟩ | ⟨-, he⟩ <;> rw [he] at hr <;> cases hr
    rfl
  | uartStep b =>
    refine commit_next_cases h fun hr => ?_
    obtain ⟨⟨done, u⟩, hu, rfl⟩ := (Res.map_eq_ok_iff ..).1 hr
    unfold uartStepState at hu
    split at hu <;> cases hu
    rename_i r hstep
    exact ⟨r, uartStep_writes hstep, rfl⟩
  | demodInit n =>
    refine commit_next_cases h fun hr => ?_
    rcases demodInit_cases n (.demodInit n) s with ⟨-, he⟩ | ⟨-, he⟩ <;> rw [he] at hr <;> cases hr
    rfl
  | demodStep x y =>
    refine commit_next_cases h fun hr => ?_
    obtain ⟨⟨done, u⟩, hu, rfl⟩ := (Res.map_eq_ok_iff ..).1 hr
    unfold demodStepState at hu
    split at hu <;> cases hu
    rename_i r hstep
    exact ⟨r, demodStep_writes hstep, rfl⟩
  | trxTxReader => exact .inr (Host.Outcome.next.inj h).symm
  | trxTxTag sel =>
    refine commit_next_cases h fun hr => ?_
    unfold trxTxTag at hr
    split at hr <;> cases hr
    exact ⟨_, rfl⟩
  | trxRxTag n =>
    refine commit_next_cases h fun hr => ?_
    unfold trxRxTag at hr
    rcases demodInit_cases n (.trxRxTag n) s with ⟨-, he⟩ | ⟨-, he⟩ <;> rw [he] at hr <;> cases hr
    exact ⟨_, rfl⟩
  | trxCodeTxReader n =>
    refine commit_next_cases h fun hr => ?_
    unfold codeTxReader at hr
    split at hr <;> cases hr
    rename_i cmd x hx
    exact ⟨cmd, x, codeAsReader_writes hx, rfl⟩
  | trxSetTimeout => exact .inr ⟨_, (Host.Outcome.next.inj h).symm⟩
  | trxSetMaxFrame => exact .inr ⟨_, (Host.Outcome.next.inj h).symm⟩
  | emuInit => exact commit_next_cases h emuInit_effect
  | emuField => exact .inr ⟨_, (Host.Outcome.next.inj h).symm⟩
  | emuFrame =>
    refine commit_next_cases h fun hr => ?_
    rcases emuFrame_cases s with he | ⟨e, -, he⟩ | ⟨f, -, he⟩ <;> rw [he] at hr <;> cases hr
    · exact .inl rfl
    · exact .inr ⟨_, f, rfl⟩
  | emuRx n =>
    refine commit_next_cases h fun hr => ?_
    unfold emuRx at hr
    rcases uartInit_cases n (.emuRx n) s with ⟨-, he⟩ | ⟨-, he⟩ <;> rw [he] at hr <;> cases hr
    rfl

/-! ### What every command keeps -/

/-- A tag transmission changes TX_MODE and the engine up to its first hold (R276). -/
theorem startTag_eq (op : Byte) (src : TxSource) (s : State) :
    startTag op src s = { s with txMode := .tagBpsk, eng := (startTag op src s).eng } := by
  unfold startTag tagNext
  dsimp only
  split <;> rfl

/-- EMU.FRAME changes E_STATE, the trace, TX_MODE and the engine (R313). -/
theorem emuAnswered_eq (x : EState × Option TxSource × TraceKind) (f : List Byte) (s : State) :
    ∃ mode e, emuAnswered x f s = { emuMoved x.1 x.2.2 f s with txMode := mode, eng := e } := by
  unfold emuAnswered
  split
  · exact ⟨_, _, rfl⟩
  · exact ⟨_, _, startTag_eq ..⟩

end Sys2Proof.Machine
end

section
/-! PROOFS. What no command changes (R30, R34, R56): its frame, the results, and a fault that stands. -/

namespace Sys2Proof.Machine

variable {s t : State} {i : Instr}

/-- A changed byte lies in the window written. -/
theorem WritesWithin.holds_of_ne {c : Config} {w : Window} {m m' : Memory} (h : WritesWithin c w m m') {a : Nat}
    (hne : m'.read a ≠ m.read a) : w.holds c a = true := by
  by_contra hw
  exact hne (h.other a (Bool.eq_false_iff.2 hw))

/-! ### Results and faults -/

/-- No effect touches the results or the fault registers (R34, R56). -/
theorem Effect.keeps (h : Effect s t i) :
    (t.res0 = s.res0 ∧ t.res1 = s.res1) ∧ t.fault = s.fault ∧ t.faultInfo = s.faultInfo := by
  cases i with
  | tosendReset | uartInit | demodInit | trxTxReader | emuRx => subst h; simp [startReader]
  | tosendStuff | tosendStuff4 | codeReader | codeTag | uartStep | demodStep => obtain ⟨x, -, rfl⟩ := h; simp
  | trxTxTag => obtain ⟨src, rfl⟩ := h; rw [startTag_eq]; simp
  | trxRxTag | trxSetTimeout | trxSetMaxFrame | emuField => obtain ⟨x, rfl⟩ := h; simp
  | trxCodeTxReader => obtain ⟨cmd, x, -, rfl⟩ := h; simp [startReader]
  | emuInit => obtain ⟨ts, m, e, rfl, -⟩ := h; simp
  | emuFrame =>
    rcases h with rfl | ⟨x, f, rfl⟩
    · simp
    · obtain ⟨mode, e, he⟩ := emuAnswered_eq x f s
      simp [he, emuMoved]

theorem exec_keeps_results (h : exec i s = .next t) : t.res0 = s.res0 ∧ t.res1 = s.res1 := by
  rcases exec_cases h with ⟨code, info, rfl⟩ | he
  · simp
  · exact he.keeps.1

/-- A fault that stands, with its info, is the one of `s` (R56). -/
def KeepsFault (s t : State) : Prop := t.fault = s.fault ∧ t.faultInfo = s.faultInfo

theorem exec_keepsFault (hf : s.fault ≠ none) (h : exec i s = .next t) : KeepsFault s t := by
  rcases exec_cases h with ⟨code, info, rfl⟩ | he
  · exact State.raise_keeps_fault s code info hf
  · exact he.keeps.2

theorem commit_keepsFault {r : Res State} (hf : s.fault ≠ none) (hr : ∀ u, r = .ok u → KeepsFault s u)
    (h : commit s r = .next t) : KeepsFault s t := by
  rcases commit_next_cases h (hr t) with ⟨code, info, rfl⟩ | hk
  · exact State.raise_keeps_fault s code info hf
  · exact hk

theorem readerNext_keepsFault (frame : Option (List Byte)) (s : State) : KeepsFault s (readerNext frame s) := by
  unfold readerNext
  split
  · exact ⟨rfl, rfl⟩
  · cases frame <;> exact ⟨rfl, rfl⟩

/-- A tag transmission's next hold changes the engine alone (R276). -/
theorem tagNext_eq (src : TxSource) (s : State) : tagNext src s = { s with eng := (tagNext src s).eng } := by
  unfold tagNext
  split <;> rfl

/-- A segment of a tag transmission emits a byte and changes the engine (R276). -/
theorem tagSegment_ok {src : TxSource} (h : tagSegment src s = .ok t) :
    ∃ v e, t = { s.emitTx (.tx8 v) with eng := e } := by
  unfold tagSegment at h
  split at h <;> cases h
  exact ⟨_, _, tagNext_eq ..⟩

theorem readerSegment_keepsFault {second : Bool} {frame : Option (List Byte)} (h : readerSegment second frame s = .ok t) :
    KeepsFault s t := by
  unfold readerSegment at h
  split at h
  · cases h
  · split at h <;> cases h
    · exact readerNext_keepsFault ..
    · exact ⟨rfl, rfl⟩

theorem afterSample_keepsFault {done : Bool} (h : afterSample done s = .ok t) : KeepsFault s t := by
  unfold afterSample finishReceive at h
  split at h
  · split at h
    · cases h; exact ⟨rfl, rfl⟩
    · split at h <;> cases h
      exact ⟨rfl, rfl⟩
  · split at h <;> cases h <;> exact ⟨rfl, rfl⟩

theorem sampleSegment_keepsFault (h : sampleSegment s = .ok t) : KeepsFault s t := by
  unfold sampleSegment at h
  split at h
  · cases h
  · rename_i hnext
    obtain ⟨-, -, rfl⟩ := (nextSample_eq_ok_iff ..).1 hnext
    unfold demodStepState at h
    split at h
    · cases h
    · rename_i hstep
      split at hstep <;> cases hstep
      obtain ⟨hfault, hinfo⟩ := afterSample_keepsFault h
      exact ⟨hfault, hinfo⟩

theorem rbitSegment_keepsFault (h : rbitSegment s = .ok t) : KeepsFault s t := by
  unfold rbitSegment at h
  split at h
  · cases h; exact ⟨rfl, rfl⟩
  · unfold uartStepState at h
    split at h
    · cases h
    · rename_i hstep
      split at hstep <;> cases hstep
      split at h <;> cases h <;> exact ⟨rfl, rfl⟩

/-- No segment touches the fault registers (R56). -/
theorem segment_keepsFault (h : segment s = .ok t) : KeepsFault s t := by
  unfold segment at h
  split at h
  · cases h; exact ⟨rfl, rfl⟩
  · cases h; exact readerNext_keepsFault ..
  · exact readerSegment_keepsFault h
  · obtain ⟨v, e, rfl⟩ := tagSegment_ok h
    exact ⟨rfl, rfl⟩
  · exact sampleSegment_keepsFault h
  · exact rbitSegment_keepsFault h

theorem engineMove_keepsFault (hf : s.fault ≠ none) (h : engineMove s = .next t) : KeepsFault s t := by
  rcases engineMove_cases s with ⟨-, he⟩ | ⟨-, he⟩ <;> rw [he] at h
  · cases h; exact ⟨rfl, rfl⟩
  · exact commit_keepsFault hf (fun u hu => segment_keepsFault hu) h

theorem hostRead_keepsFault (hf : s.fault ≠ none) (addr : Half) (n : Nat) : KeepsFault s (hostRead addr n s) := by
  rcases hostRead_cases addr n s with ⟨v, he⟩ | ⟨code, info, he⟩ <;> rw [he]
  · exact ⟨rfl, rfl⟩
  · exact State.raise_keeps_fault s code info hf

theorem hostWrite_keepsFault (hf : s.fault ≠ none) {addr : Half} {n : Nat} {v : Word} (h : hostWrite addr n v s = .next t) :
    KeepsFault s t := by
  unfold hostWrite at h
  split at h
  · rw [submit_ignored v (Option.isSome_iff_ne_none.2 hf)] at h
    cases h; exact ⟨rfl, rfl⟩
  · split at h
    · cases h; exact ⟨rfl, rfl⟩
    · split at h <;> cases h
      · exact ⟨rfl, rfl⟩
      · exact State.raise_keeps_fault s _ _ hf

theorem producerWrite_keepsFault {x y : Byte} (h : producerWrite x y s = .ok t) : KeepsFault s t := by
  simp only [producerWrite] at h
  repeat' split at h
  all_goals cases h
  exact ⟨rfl, rfl⟩

/-- No external move but RESET touches a fault that stands (R56). -/
theorem applyMove_keepsFault (hf : s.fault ≠ none) {mv : Move} (hmv : mv ≠ .reset) (h : applyMove mv s = .next t) :
    KeepsFault s t := by
  cases mv with
  | hostWrite addr n v => exact hostWrite_keepsFault hf h
  | hostRead addr n => cases h; exact hostRead_keepsFault hf addr n
  | produce x y => exact commit_keepsFault hf (fun u hu => producerWrite_keepsFault hu) h
  | readerBit | clock | txReady | field | cancel => cases h; exact ⟨rfl, rfl⟩
  | reset => exact absurd rfl hmv

theorem step_keepsFault (hf : s.fault ≠ none) (hmv : engineReady s = true ∨ s.env.moves.head? ≠ some .reset)
    (h : step s = .next t) : KeepsFault s t := by
  rcases step_cases s with ⟨-, he⟩ | ⟨hready, mv, rest, hmoves, he⟩ | ⟨-, -, he⟩ <;> rw [he] at h
  · exact engineMove_keepsFault hf h
  · refine applyMove_keepsFault (s := s.withMoves rest) hf ?_ h
    rintro rfl
    simp [hready, hmoves] at hmv
  · cases h; exact ⟨rfl, rfl⟩

end Sys2Proof.Machine

open Sys2Proof Sys2Proof.Machine

/-- Settles O6: a CMD write is ignored, and neither an effect, nor a segment, nor a move but RESET writes the fault
registers. -/
theorem faultIsSticky : Obligations.FaultIsSticky := fun s hf =>
  ⟨fun cw => (hostWrite_cmd cw s).trans (submit_ignored cw (Option.isSome_iff_ne_none.2 hf)),
    fun _ _ h => exec_keepsFault hf h, fun _ hmv h => step_keepsFault hf hmv h⟩

/-- Settles O23: by the effect of each command. -/
theorem commandsWriteOnlyTheirOwnState : Obligations.CommandsWriteOnlyTheirOwnState := by
  intro i s t h
  rcases exec_cases h with ⟨code, info, rfl⟩ | he
  · simp
  cases i with
  | tosendReset | uartInit | demodInit | trxTxReader | emuRx => subst he; simp [startReader]
  | tosendStuff | tosendStuff4 | codeReader | codeTag | uartStep | demodStep =>
    obtain ⟨x, hw, rfl⟩ := he
    simpa using fun a ha => hw.holds_of_ne ha
  | trxTxTag => obtain ⟨src, rfl⟩ := he; rw [startTag_eq]; simp
  | trxRxTag | trxSetTimeout | trxSetMaxFrame | emuField => obtain ⟨x, rfl⟩ := he; simp
  | trxCodeTxReader =>
    obtain ⟨cmd, x, hw, rfl⟩ := he
    simpa [startReader] using fun a ha => hw.holds_of_ne ha
  | emuInit =>
    obtain ⟨ts, m, e, rfl, hother⟩ := he
    have holds (a : Nat) (ha : m.read a ≠ s.mem.read a) : Window.tosend.holds s.cfg a = true ∨
        Window.atqb.holds s.cfg a = true ∨ Window.eatqb.holds s.cfg a = true ∨ Window.eok.holds s.cfg a = true := by
      by_contra hnone
      simp only [not_or, Bool.not_eq_true] at hnone
      exact ha (hother a hnone.1 hnone.2.1 hnone.2.2.1 hnone.2.2.2)
    simpa using holds
  | emuFrame =>
    rcases he with rfl | ⟨x, f, rfl⟩
    · simp
    · obtain ⟨mode, e, hx⟩ := emuAnswered_eq x f s
      simp [hx, emuMoved]

end

section
/-! PROOFS. Operands written late or never read (R34, R85, R121, R385): a state whose ARG0 or CMDBUF was overwritten goes
through a command or a segment as the original does, with the same overwriting. -/

namespace Sys2Proof.Machine

variable {s : State} {c : Config} {m : Memory} {φ : Memory → Memory}

/-- A state with ARG0 and memory overwritten. -/
def State.overwrite (g : Word → Word) (φ : Memory → Memory) (s : State) : State :=
  { s with arg0 := g s.arg0, mem := φ s.mem }

/-- An overwriting of memory that no engine access sees: every byte outside CMDBUF reads the same, and a write outside CMDBUF
to `m` commutes with it. -/
structure Unseen (c : Config) (m : Memory) (φ : Memory → Memory) : Prop where
  read : ∀ (m' : Memory) (w : Window), w ≠ .cmdbuf → ∀ k < w.capacity c, (φ m').read (w.base + k) = m'.read (w.base + k)
  write : ∀ w : Window, w ≠ .cmdbuf → ∀ k < w.capacity c, ∀ v, (φ m).write (w.base + k) v = φ (m.write (w.base + k) v)

theorem unseen_id (c : Config) (m : Memory) : Unseen c m id := ⟨fun _ _ _ _ _ => rfl, fun _ _ _ _ _ => rfl⟩

/-- A byte of CMDBUF overwritten in a canonical memory (R81, R85). -/
theorem unseen_cmdbuf (hc : c.wf = true) (hm : m.wf = true) {k : Nat} (hk : k < c.cmdbufSize) (v : Byte) :
    Unseen c m fun m => m.write (0x1000 + k) v := by
  have hne (w : Window) (hw : w ≠ .cmdbuf) (j : Nat) (hj : j < w.capacity c) : w.base + j ≠ 0x1000 + k := by
    intro h
    have hcmd : Window.cmdbuf.holds c (w.base + j) = true := h ▸ Window.holds_index (w := .cmdbuf) hk
    rw [Window.holds_other hc (Window.holds_index hj) hw] at hcmd
    cases hcmd
  exact ⟨fun m' w hw j hj => Memory.read_write_other _ _ (hne w hw j hj),
    fun w hw j hj v' => Memory.write_comm _ _ hm (hne w hw j hj).symm⟩

/-! ### Buffer accesses -/

theorem Unseen.readByte (h : Unseen c m φ) {w : Window} (hw : w ≠ .cmdbuf) (k : Nat) (m' : Memory) :
    readByte c w k (φ m') = readByte c w k m' := by
  unfold Machine.readByte
  by_cases hk : k < w.capacity c
  · rw [if_pos hk, if_pos hk, h.read m' w hw k hk]
  · rw [if_neg hk, if_neg hk]

theorem Unseen.readBytes (h : Unseen c m φ) {w : Window} (hw : w ≠ .cmdbuf) (k n : Nat) (m' : Memory) :
    readBytes c w k n (φ m') = readBytes c w k n m' := by
  induction n generalizing k with
  | zero => rfl
  | succ n ih => simp only [Machine.readBytes, h.readByte hw, ih]

theorem Unseen.writeByte (h : Unseen c m φ) {w : Window} (hw : w ≠ .cmdbuf) (k : Nat) (v : Byte) :
    writeByte c w k v (φ m) = (writeByte c w k v m).map φ := by
  unfold Machine.writeByte
  by_cases hk : k < w.capacity c
  · rw [if_pos hk, if_pos hk, h.write w hw k hk, Res.map_ok]
  · rw [if_neg hk, if_neg hk, Res.map_error]

/-! ### The decoders -/

/-- A Uart step's result over other memory. -/
def UartRun.over (φ : Memory → Memory) (r : UartRun) : UartRun := { r with mem := φ r.mem }

theorem Unseen.uartCharacter (h : Unseen c m φ) (u : Uart) :
    uartCharacter c u (φ m) = (uartCharacter c u m).map (UartRun.over φ) := by
  have hstore : uartStore c u (φ m) = (uartStore c u m).map fun x => (x.1, φ x.2) := by
    simp only [uartStore, h.writeByte (w := .uout) (by decide)]
    cases Machine.writeByte c .uout u.byteCnt.toNat (characterByte u.shift) m <;> rfl
  simp only [Machine.uartCharacter, hstore]
  cases c.uartOvfCheck <;> cases uartStore c u m <;> simp only [Res.map_ok, Res.map_error] <;> split <;> rfl

theorem Unseen.uartStep (h : Unseen c m φ) (b : Bool) (u : Uart) :
    uartStep c b u (φ m) = (uartStep c b u m).map (UartRun.over φ) := by
  cases hs : u.state with
  | unsynced => rw [uartStep_unsynced hs, uartStep_unsynced hs]; rfl
  | gotFallingEdgeOfSof => rw [uartStep_gotFalling hs, uartStep_gotFalling hs]; rfl
  | awaitingStartBit => rw [uartStep_awaiting hs, uartStep_awaiting hs]; rfl
  | receivingData =>
    simp only [uartStep_receiving hs, uartReceiving, uartTenBits, h.uartCharacter]
    repeat' split
    all_goals rfl

/-- A Demod step's result over other memory. -/
def DemodRun.over (φ : Memory → Memory) (r : DemodRun) : DemodRun := { r with mem := φ r.mem }

theorem Unseen.demodCharacter (h : Unseen c m φ) (d : Demod) :
    demodCharacter c d (φ m) = (demodCharacter c d m).map (DemodRun.over φ) := by
  simp only [Machine.demodCharacter, h.writeByte (w := .dout) (by decide)]
  cases Machine.writeByte c .dout d.len.toNat (characterByte d.shift) m <;> simp only [Res.map_ok, Res.map_error] <;>
    repeat' split
  all_goals rfl

theorem Unseen.demodStep (h : Unseen c m φ) (i q : Byte) (d : Demod) :
    demodStep c i q d (φ m) = (demodStep c i q d m).map (DemodRun.over φ) := by
  cases hs : d.state with
  | unsynced => rw [demodStep_unsynced hs, demodStep_unsynced hs]; rfl
  | phaseRefTraining => rw [demodStep_training hs, demodStep_training hs]; rfl
  | awaitingFallingEdgeOfSof => rw [demodStep_awaitFall hs, demodStep_awaitFall hs]; rfl
  | gotFallingEdgeOfSof => rw [demodStep_gotFall hs, demodStep_gotFall hs]; rfl
  | awaitingStartBit =>
    rw [demodStep_awaitStart hs, demodStep_awaitStart hs]
    simp only [demodAwaitStart]
    repeat' split
    all_goals rfl
  | receivingData =>
    simp only [demodStep_receiving hs, demodReceiving, h.demodCharacter]
    repeat' split
    all_goals rfl

/-! ### The machine -/

variable {g : Word → Word}

theorem raise_overwrite (code : FaultCode) (info : Word) (s : State) :
    (s.overwrite g φ).raise code info = (s.raise code info).overwrite g φ := by
  by_cases hf : s.fault = none
  · rw [State.raise_first _ _ _ hf, State.raise_first (s.overwrite g φ) _ _ hf]
    rfl
  · rw [State.raise_later _ _ _ hf, State.raise_later (s.overwrite g φ) _ _ hf]
    rfl

/-- A rule that commutes with the overwriting does so when it is committed. -/
theorem commit_overwrite {r r' : Res State} (h : r' = r.map (State.overwrite g φ)) :
    commit (s.overwrite g φ) r' = mapNext (State.overwrite g φ) (commit s r) := by
  subst h
  match r with
  | .ok t => rfl
  | .error (.raise code info) => simp only [Res.map_error, commit_raise, raise_overwrite]; rfl
  | .error (.stop f) => rfl

theorem uartStepState_overwrite (h : Unseen s.cfg s.mem φ) (b : Bool) :
    uartStepState b (s.overwrite g φ) = (uartStepState b s).map fun x => (x.1, x.2.overwrite g φ) := by
  have hstep := h.uartStep b s.uart
  simp only [uartStepState]
  rw [show uartStep (s.overwrite g φ).cfg b (s.overwrite g φ).uart (s.overwrite g φ).mem = _ from hstep]
  cases uartStep s.cfg b s.uart s.mem <;> rfl

theorem demodStepState_overwrite (h : Unseen s.cfg s.mem φ) (i q : Byte) :
    demodStepState i q (s.overwrite g φ) = (demodStepState i q s).map fun x => (x.1, x.2.overwrite g φ) := by
  have hstep := h.demodStep i q s.demod
  simp only [demodStepState]
  rw [show demodStep (s.overwrite g φ).cfg i q (s.overwrite g φ).demod (s.overwrite g φ).mem = _ from hstep]
  cases demodStep s.cfg i q s.demod s.mem <;> rfl

theorem tagNext_overwrite (src : TxSource) (s : State) :
    tagNext src (s.overwrite g φ) = (tagNext src s).overwrite g φ := by
  have hlen : txLen src (s.overwrite g φ) = txLen src s := by cases src <;> rfl
  by_cases h : s.eng.txIdx.toNat < txLen src s
  · rw [tagNext, tagNext, if_pos h, if_pos (by rwa [hlen])]
    rfl
  · rw [tagNext, tagNext, if_neg h, if_neg (by rwa [hlen])]
    rfl

theorem tagSegment_overwrite (h : Unseen s.cfg s.mem φ) (src : TxSource) :
    tagSegment src (s.overwrite g φ) = (tagSegment src s).map (State.overwrite g φ) := by
  have hread := h.readByte (w := src.window) (by cases src <;> decide) s.eng.txIdx.toNat s.mem
  simp only [tagSegment]
  rw [show readByte (s.overwrite g φ).cfg src.window (s.overwrite g φ).eng.txIdx.toNat (s.overwrite g φ).mem = _ from hread]
  cases readByte s.cfg src.window s.eng.txIdx.toNat s.mem with
  | error e => rfl
  | ok v => 
    exact congrArg Except.ok (tagNext_overwrite src
      { s.emitTx (.tx8 v) with eng := { s.eng with txIdx := s.eng.txIdx + 1 } })

theorem readerNext_overwrite (frame : Option (List Byte)) (s : State) :
    readerNext frame (s.overwrite g φ) = (readerNext frame s).overwrite g φ := by
  by_cases h : s.eng.txIdx.toNat < 8 * s.ts.len
  · rw [readerNext, readerNext, if_pos h, if_pos (by exact h)]
    rfl
  · rw [readerNext, readerNext, if_neg h, if_neg (by exact h)]
    cases frame <;> rfl

theorem readerSegment_overwrite (h : Unseen s.cfg s.mem φ) (second : Bool) (frame : Option (List Byte)) :
    readerSegment second frame (s.overwrite g φ) = (readerSegment second frame s).map (State.overwrite g φ) := by
  have hbit : sendBit (s.overwrite g φ) = sendBit s := by
    simp only [sendBit]
    rw [show readByte (s.overwrite g φ).cfg .tosend ((s.overwrite g φ).eng.txIdx.toNat / 8) (s.overwrite g φ).mem = _ from
      h.readByte (by decide) (s.eng.txIdx.toNat / 8) s.mem]
    rfl
  simp only [readerSegment, hbit]
  cases sendBit s with
  | error e => rfl
  | ok b =>
    cases second with
    | false => rfl
    | true => 
      exact congrArg Except.ok (readerNext_overwrite frame
        { s.emitTx (.tx16 (askWord b)) with eng := { s.eng with txIdx := s.eng.txIdx + 1 } })

theorem nextSample_overwrite (h : Unseen s.cfg s.mem φ) :
    nextSample (s.overwrite g φ) = (nextSample s).map fun x => (x.1, x.2.1, x.2.2.overwrite g φ) := by
  have hread (k : Nat) : readByte (s.overwrite g φ).cfg .sring k (s.overwrite g φ).mem = readByte s.cfg .sring k s.mem :=
    h.readByte (by decide) k s.mem
  simp only [nextSample, hread]
  rw [show (s.overwrite g φ).ring = s.ring from rfl, show (s.overwrite g φ).cfg = s.cfg from rfl]
  cases readByte s.cfg .sring (2 * (s.ring.consumed % s.cfg.sringEntries)) s.mem with
  | error e => rfl
  | ok x => cases readByte s.cfg .sring (2 * (s.ring.consumed % s.cfg.sringEntries) + 1) s.mem <;> rfl

theorem afterSample_overwrite {m : Memory} (h : Unseen s.cfg m φ) (done : Bool) :
    afterSample done (s.overwrite g φ) = (afterSample done s).map (State.overwrite g φ) := by
  have hread := h.readBytes (w := .dout) (by decide) 0 s.demod.len.toNat s.mem
  cases done with
  | false =>
    simp only [afterSample, Bool.false_eq_true, if_false]
    rw [show (s.overwrite g φ).eng = s.eng from rfl, show (s.overwrite g φ).demod = s.demod from rfl]
    split <;> rfl
  | true =>
    simp only [afterSample, if_true, finishReceive]
    rw [show readBytes (s.overwrite g φ).cfg .dout 0 (s.overwrite g φ).demod.len.toNat (s.overwrite g φ).mem = _ from hread,
      show (s.overwrite g φ).demod = s.demod from rfl]
    split
    · rfl
    · cases readBytes s.cfg .dout 0 s.demod.len.toNat s.mem <;> rfl

/-- The machine with one entry of the ring taken and counted (R95, R280). -/
def sampled (s : State) : State :=
  { s with
    ring := { s.ring with consumed := s.ring.consumed + 1 }
    eng := { s.eng with rxSamples := s.eng.rxSamples + 1 } }

theorem sampleSegment_ok {i q : Byte} {u : State} (h : nextSample s = .ok (i, q, u)) :
    sampleSegment s = (demodStepState i q (sampled s)).bind fun x => afterSample x.1 x.2 := by
  obtain ⟨-, -, rfl⟩ := (nextSample_eq_ok_iff ..).1 h
  rw [sampleSegment, h]
  change (match demodStepState i q (sampled s) with
    | .error e => Except.error e
    | .ok (done, u) => afterSample done u) = _
  cases demodStepState i q (sampled s) <;> rfl

theorem demodStepState_cfg {i q : Byte} {x : Bool × State} (h : demodStepState i q s = .ok x) : x.2.cfg = s.cfg := by
  unfold demodStepState at h
  split at h <;> cases h
  rfl

theorem sampleSegment_overwrite (h : Unseen s.cfg s.mem φ) :
    sampleSegment (s.overwrite g φ) = (sampleSegment s).map (State.overwrite g φ) := by
  have hnext := nextSample_overwrite (g := g) h
  cases hn : nextSample s with
  | error e =>
    rw [hn] at hnext
    simp only [sampleSegment, hn, hnext, Res.map_error]
  | ok x =>
    obtain ⟨i, q, u⟩ := x
    rw [hn] at hnext
    rw [sampleSegment_ok hn, sampleSegment_ok hnext,
      show sampled (s.overwrite g φ) = (sampled s).overwrite g φ from rfl, demodStepState_overwrite (s := sampled s) h]
    cases hd : demodStepState i q (sampled s) with
    | error e => rfl
    | ok x =>
      have hx : Unseen x.2.cfg s.mem φ := by rw [demodStepState_cfg hd]; exact h
      exact afterSample_overwrite hx x.1

/-- The end of a reader bit's segment: the command completes when the Uart's step returned true (R320). -/
def afterRbit (x : Bool × State) : State :=
  if x.1 then { x.2.complete with res0 := x.2.uart.byteCnt.setWidth 32 } else x.2

theorem rbitSegment_cons {b : Bool} {rest : List Bool} (h : s.env.rbits = b :: rest) :
    rbitSegment s = (uartStepState b { s with env := { s.env with rbits := rest } }).map afterRbit := by
  simp only [rbitSegment, h]
  cases uartStepState b { s with env := { s.env with rbits := rest } } with
  | error e => rfl
  | ok x =>
    obtain ⟨done, u⟩ := x
    cases done <;> rfl

theorem rbitSegment_overwrite (h : Unseen s.cfg s.mem φ) :
    rbitSegment (s.overwrite g φ) = (rbitSegment s).map (State.overwrite g φ) := by
  cases hr : s.env.rbits with
  | nil => simp only [rbitSegment, hr, show (s.overwrite g φ).env.rbits = [] from hr, Res.map_ok]
  | cons b rest =>
    have hstep := uartStepState_overwrite (s := { s with env := { s.env with rbits := rest } }) (g := g) h b
    rw [rbitSegment_cons hr, rbitSegment_cons (s := s.overwrite g φ) hr]
    refine (congrArg (Except.map afterRbit) hstep).trans ?_
    cases uartStepState b { s with env := { s.env with rbits := rest } } with
    | error e => rfl
    | ok x =>
      obtain ⟨done, u⟩ := x
      cases done <;> rfl

theorem segment_overwrite (h : Unseen s.cfg s.mem φ) :
    segment (s.overwrite g φ) = (segment s).map (State.overwrite g φ) := by
  simp only [segment]
  rw [show (s.overwrite g φ).eng = s.eng from rfl]
  cases s.eng.hold with
  | none => rfl
  | slot frame => exact congrArg Except.ok (readerNext_overwrite frame s)
  | readerWord second frame => exact readerSegment_overwrite h second frame
  | tagByte src => exact tagSegment_overwrite h src
  | sample => exact sampleSegment_overwrite h
  | rbit => exact rbitSegment_overwrite h

theorem engineMove_overwrite (h : Unseen s.cfg s.mem φ) :
    engineMove (s.overwrite g φ) = mapNext (State.overwrite g φ) (engineMove s) := by
  rcases engineMove_cases s with ⟨hc, he⟩ | ⟨hc, he⟩ <;> rw [he]
  · simp [engineMove, show (s.overwrite g φ).env.cancel = true from hc]
    rfl
  · simp [engineMove, show (s.overwrite g φ).env.cancel = false from hc]
    exact commit_overwrite (segment_overwrite h)

/-! ### Acceptance -/

/-- A rule of the send buffer does not read ARG0. -/
theorem commitSend_arg0 (v : Word) (s : State) (r : Res SendState) :
    commitSend { s with arg0 := v } r = mapNext (fun t => { t with arg0 := v }) (commitSend s r) :=
  commit_overwrite (g := fun _ => v) (φ := id) (by cases r <;> rfl)

/-- A rule that does not read ARG0 and whose success keeps it. -/
theorem commit_arg0 {v : Word} {r r' : Res State} (h : r' = r.map fun t => { t with arg0 := v }) :
    commit { s with arg0 := v } r' = mapNext (fun t => { t with arg0 := v }) (commit s r) :=
  commit_overwrite (g := fun _ => v) (φ := id) h

theorem startTag_arg0 (v : Word) (op : Byte) (src : TxSource) (s : State) :
    startTag op src { s with arg0 := v } = { startTag op src s with arg0 := v } :=
  tagNext_overwrite (g := fun _ => v) (φ := id) src
    { s.begin op (.tagByte src) with txMode := .tagBpsk, eng := { (s.begin op (.tagByte src)).eng with txIdx := 0 } }

theorem uartInit_arg0 (v : Word) (n : Half) (i : Instr) (s : State) :
    uartInit n i { s with arg0 := v } = (uartInit n i s).map fun t => { t with arg0 := v } := by
  simp only [uartInit]
  cases checkRange n s.cfg.uoutSize i <;> rfl

theorem demodInit_arg0 (v : Word) (n : Half) (i : Instr) (s : State) :
    demodInit n i { s with arg0 := v } = (demodInit n i s).map fun t => { t with arg0 := v } := by
  simp only [demodInit]
  cases checkRange n s.cfg.doutSize i <;> rfl

theorem emuAnswered_arg0 (v : Word) (x : EState × Option TxSource × TraceKind) (f : List Byte) (s : State) :
    emuAnswered x f { s with arg0 := v } = { emuAnswered x f s with arg0 := v } := by
  obtain ⟨next, resp, kind⟩ := x
  cases resp with
  | none => rfl
  | some src => exact startTag_arg0 v 0x42 src (emuMoved next kind f s)

theorem emuFrame_arg0 (v : Word) (s : State) :
    emuFrame { s with arg0 := v } = (emuFrame s).map fun t => { t with arg0 := v } := by
  by_cases h : s.emu.state = .nofield
  · rw [emuFrame_nofield h, emuFrame_nofield (s := { s with arg0 := v }) h]
    rfl
  · cases hread : readBytes s.cfg .uout 0 s.uart.byteCnt.toNat s.mem with
    | error e =>
      rw [emuFrame_unread h hread, emuFrame_unread (s := { s with arg0 := v }) h hread]
      rfl
    | ok f =>
      rw [emuFrame_answers h hread, emuFrame_answers (s := { s with arg0 := v }) h hread, emuAnswered_arg0]
      rfl

/-- A command outside R121's list does the same for every value of ARG0. -/
theorem exec_arg0 {i : Instr} (h : readsArg0 i = false) (s : State) (v : Word) :
    exec i { s with arg0 := v } = mapNext (fun t => { t with arg0 := v }) (exec i s) := by
  cases i with
  | trxTxReader | trxRxTag | trxCodeTxReader | trxSetTimeout | trxSetMaxFrame | emuInit => cases h
  | tosendReset | emuField => rfl
  | tosendStuff | tosendStuff4 | codeReader | codeTag => exact commitSend_arg0 ..
  | uartInit n => exact commit_arg0 (uartInit_arg0 ..)
  | uartStep b =>
    have hstep := uartStepState_overwrite (g := fun _ => v) (unseen_id s.cfg s.mem) b
    refine commit_arg0 ((congrArg (Except.map Prod.snd) hstep).trans ?_)
    cases uartStepState b s <;> rfl
  | demodInit n => exact commit_arg0 (demodInit_arg0 ..)
  | demodStep x y =>
    have hstep := demodStepState_overwrite (g := fun _ => v) (unseen_id s.cfg s.mem) x y
    refine commit_arg0 ((congrArg (Except.map Prod.snd) hstep).trans ?_)
    cases demodStepState x y s <;> rfl
  | trxTxTag sel =>
    refine commit_arg0 ?_
    simp only [trxTxTag]
    cases txSourceOf sel with
    | none => rfl
    | some src => exact congrArg Except.ok (startTag_arg0 v 0x31 src s)
  | emuFrame => exact commit_arg0 (emuFrame_arg0 v s)
  | emuRx n =>
    refine commit_arg0 ?_
    simp only [emuRx, uartInit_arg0]
    cases uartInit n (.emuRx n) s <;> rfl

end Sys2Proof.Machine

open Sys2Proof Sys2Proof.Machine

/-- Settles O20: ARG0 is never read by a segment, and a byte of CMDBUF is outside every window a segment accesses. -/
theorem commandInFlightIgnoresLaterOperands : Obligations.CommandInFlightIgnoresLaterOperands :=
  ⟨fun s v => engineMove_overwrite (g := fun _ => v) (φ := id) (unseen_id s.cfg s.mem),
    fun _ k v h hk => engineMove_overwrite (g := id) (φ := fun m => m.write (0x1000 + k) v)
      (unseen_cmdbuf h.config h.memory.canonical hk v)⟩

/-- Settles O19: a command outside R121's list does not read ARG0, no effect writes the results, and a tag transmission's
segment writes the TX port and the engine. -/
theorem otherCommandsIgnoreArg0AndKeepResults : Obligations.OtherCommandsIgnoreArg0AndKeepResults := by
  refine ⟨fun i s v h => exec_arg0 h s v, fun _ _ _ h => exec_keeps_results h, fun src s t hhold hc h => ?_⟩
  rw [engineMove, hc, if_neg (by decide), Machine.segment, hhold] at h
  rcases (commit_next_iff ..).1 h with hr | ⟨code, info, -, rfl⟩
  · obtain ⟨x, e, rfl⟩ := tagSegment_ok hr
    exact ⟨rfl, rfl⟩
  · simp

end

section
/-! PROOFS. The host bus outside the register table (R81 to R90), the sample ring as a queue (R94 to R99), and one sample or
one reader bit of a receive (R280, R320). -/

namespace Sys2Proof.Machine

variable {s : State} {c : Config} {r : Ring} {m : Memory} {i q : Byte}

/-! ### The host bus -/

/-- CMDBUF is the map's first window, so its addresses need no range of the parameters (R81). -/
theorem windowAt_cmdbuf_iff (c : Config) (a : Nat) :
    windowAt c a = some .cmdbuf ↔ 0x1000 ≤ a ∧ a < 0x1000 + c.cmdbufSize := by
  refine ⟨fun h => (Window.holds_iff ..).1 (windowAt_holds h), fun h => ?_⟩
  have hholds : Window.cmdbuf.holds c a = true := (Window.holds_iff ..).2 h
  rw [windowAt, Window.all, List.find?_cons_of_pos hholds]

theorem windowAt_none_of_outside {a : Nat} (h : ¬ ∃ w : Window, w.base ≤ a ∧ a < w.base + w.capacity c) :
    windowAt c a = none :=
  Option.eq_none_iff_forall_ne_some.2 fun w hw => h ⟨w, (Window.holds_iff ..).1 (windowAt_holds hw)⟩

/-- The buffers lie above the register window (R81). -/
theorem Window.base_ge (w : Window) : 0x1000 ≤ w.base := by cases w <;> decide

/-- A one-byte host read in a buffer returns the byte, or raises UNWRITTEN where there is none (R84, R90). -/
theorem hostRead_byte {addr : Half} {w : Window} {k : Nat} (hk : k < w.capacity s.cfg) (ha : addr.toNat = w.base + k) :
    hostRead addr 1 s =
      (s.mem.read addr.toNat).elim (s.raise .unwritten (addr.setWidth 32)) fun v => s.reply (v.setWidth 32) := by
  have hreg : inRegWindow addr = false := by have := w.base_ge; simp [inRegWindow]; omega
  obtain ⟨w', hw'⟩ := Option.isSome_iff_exists.1 (ha ▸ windowAt_index hk)
  simp only [hostRead, hreg, hw', if_true, Bool.false_eq_true, if_false]
  cases s.mem.read addr.toNat <;> rfl

/-- A host read that is neither of a register nor of one buffer byte is a bus fault (R83, R86). -/
theorem hostRead_other {addr : Half} {n : Nat} (hreg : ¬ (n = 4 ∧ ∃ v, (addr.toNat, v) ∈ registerTable s))
    (hbyte : ¬ (n = 1 ∧ ∃ w : Window, w.base ≤ addr.toNat ∧ addr.toNat < w.base + w.capacity s.cfg)) :
    hostRead addr n s = busFault addr s := by
  by_cases hlow : addr.toNat < 0x100
  · by_cases hn : n = 4
    · subst hn
      refine hostRead_of_no_readReg hlow (Option.eq_none_iff_forall_ne_some.2 fun v hv => hreg ⟨rfl, v, ?_⟩)
      exact (readReg_eq_some_iff ..).1 hv
    · simp [hostRead, inRegWindow, hlow, hn]
  · by_cases hn : n = 1
    · simp [hostRead, inRegWindow, hlow, windowAt_none_of_outside fun h => hbyte ⟨hn, h⟩]
    · cases hw : windowAt s.cfg addr.toNat <;> simp [hostRead, inRegWindow, hlow, hn, hw]

/-- A one-byte host write in CMDBUF sets the byte (R84, R85, log entry 14). -/
theorem hostWrite_cmdbuf {addr : Half} {k : Nat} (hk : k < s.cfg.cmdbufSize) (ha : addr.toNat = 0x1000 + k) (v : Word) :
    hostWrite addr 1 v s = .next { s with mem := s.mem.write (0x1000 + k) (v.setWidth 8) } := by
  have hw : windowAt s.cfg addr.toNat = some .cmdbuf := (windowAt_cmdbuf_iff ..).2 (by omega)
  rw [hostWrite, if_neg (fun h => absurd h.1 (by decide)), if_neg (fun h => absurd h.1 (by decide)), if_pos ⟨rfl, hw⟩, ha]

/-- A host write of none of ARG0, CMD and one byte of CMDBUF is a bus fault (R84, R86). -/
theorem hostWrite_outside {addr : Half} {n : Nat} (hreg : ¬ (n = 4 ∧ (addr = 0x000 ∨ addr = 0x010)))
    (hbyte : ¬ (n = 1 ∧ 0x1000 ≤ addr.toNat ∧ addr.toNat < 0x1000 + s.cfg.cmdbufSize)) (v : Word) :
    hostWrite addr n v s = .next (busFault addr s) := by
  rw [hostWrite, if_neg (fun h => hreg ⟨h.1, .inr h.2⟩), if_neg (fun h => hreg ⟨h.1, .inl h.2⟩),
    if_neg (fun h => hbyte ⟨h.1, (windowAt_cmdbuf_iff ..).1 h.2⟩)]

/-! ### The sample ring -/

theorem Config.one_le_sringEntries (h : c.wf = true) : 1 ≤ c.sringEntries := by
  obtain ⟨-, -, -, -, hentries, -⟩ := (Config.wf_iff c).1 h
  exact hentries

/-- The bus address of the slot of entry number `p` (R94). -/
def slotAddr (c : Config) (p : Nat) : Nat := 0x6000 + 2 * (p % c.sringEntries)

/-- Memory with entry number `p` in its slot, i then q (R94). -/
def putEntry (c : Config) (p : Nat) (i q : Byte) (m : Memory) : Memory :=
  (m.write (slotAddr c p) i).write (slotAddr c p + 1) q

theorem putEntry_read (c : Config) (p : Nat) (i q : Byte) (m : Memory) (a : Nat) :
    (putEntry c p i q m).read a =
      if a = slotAddr c p + 1 then some q else if a = slotAddr c p then some i else m.read a := by
  rw [putEntry, Memory.read_write, Memory.read_write]

/-- The entry written is the one its slot holds. -/
theorem putEntry_read_slot (c : Config) (p : Nat) (i q : Byte) (m : Memory) :
    (putEntry c p i q m).read (slotAddr c p) = some i ∧ (putEntry c p i q m).read (slotAddr c p + 1) = some q := by
  simp [putEntry_read]

theorem putEntry_keeps_written {p a : Nat} (h : (m.read a).isSome = true) :
    ((putEntry c p i q m).read a).isSome = true :=
  Memory.write_keeps_written _ _ _ _ (Memory.write_keeps_written _ _ _ _ h)

/-- Entries of different numbers, fewer than SRING_ENTRIES apart, have different slots (R94). -/
theorem slot_ne {p p' : Nat} (hlt : p < p') (hnear : p' - p < c.sringEntries) :
    p % c.sringEntries ≠ p' % c.sringEntries := by
  intro h
  have hmod := Nat.sub_mod_eq_zero_of_mod_eq h.symm
  rw [Nat.mod_eq_of_lt hnear] at hmod
  omega

/-- What the producer does while the ring has room (R94). -/
theorem applyMove_produce (hc : 1 ≤ s.cfg.sringEntries) (hroom : s.ring.produced - s.ring.consumed < s.cfg.sringEntries) :
    applyMove (.produce i q) s = .next { s with
      mem := putEntry s.cfg s.ring.produced i q s.mem
      ring := { s.ring with produced := s.ring.produced + 1 } } := by
  rcases producerWrite_cases i q s hc with ⟨hfull, -⟩ | ⟨-, he⟩
  · omega
  · rw [applyMove, he]
    rfl

/-- A full ring is an overrun, and nothing is written (R96). -/
theorem applyMove_overrun (hc : 1 ≤ s.cfg.sringEntries) (hfull : s.cfg.sringEntries ≤ s.ring.produced - s.ring.consumed) :
    applyMove (.produce i q) s = .next (s.raise .overrun (BitVec.ofNat 32 s.ring.produced)) := by
  rcases producerWrite_cases i q s hc with ⟨-, he⟩ | ⟨hroom, -⟩
  · rw [applyMove, he]
    rfl
  · omega

/-- A ring with room keeps R94 and R96 when an entry enters it. -/
theorem RingInv.produce (h : RingInv c r m) (hroom : r.produced - r.consumed < c.sringEntries) :
    RingInv c { r with produced := r.produced + 1 } (putEntry c r.produced i q m) := by
  have horder := h.order
  refine ⟨by simp only; omega, by simp only; omega, fun j hj => ?_⟩
  by_cases hold : j < r.produced - r.consumed
  · obtain ⟨hi, hq⟩ := h.entriesWritten j hold
    exact ⟨putEntry_keeps_written hi, putEntry_keeps_written hq⟩
  · obtain ⟨hi, hq⟩ := putEntry_read_slot c r.produced i q m
    simp only at hj ⊢
    rw [show r.consumed + j = r.produced by omega]
    exact ⟨Option.isSome_of_eq_some hi, Option.isSome_of_eq_some hq⟩

/-- `next_sample()` takes the bytes of the slot of SR_CONSUMED (R95). -/
theorem nextSample_of_read (hc : 1 ≤ s.cfg.sringEntries) (hi : s.mem.read (slotAddr s.cfg s.ring.consumed) = some i)
    (hq : s.mem.read (slotAddr s.cfg s.ring.consumed + 1) = some q) :
    nextSample s = .ok (i, q, { s with ring := { s.ring with consumed := s.ring.consumed + 1 } }) := by
  have hk := Nat.mod_lt s.ring.consumed hc
  refine (nextSample_eq_ok_iff ..).2 ⟨(readByte_eq_ok_iff ..).2 ⟨?_, hi⟩, (readByte_eq_ok_iff ..).2 ⟨?_, hq⟩, rfl⟩ <;>
    (simp only [Window.capacity]; omega)

/-- The oldest entry of a ring that is not empty has been written (R94). -/
theorem RingInv.oldest (h : RingInv c r m) (hlt : r.consumed < r.produced) :
    ∃ i q, m.read (slotAddr c r.consumed) = some i ∧ m.read (slotAddr c r.consumed + 1) = some q := by
  obtain ⟨hi, hq⟩ := h.entriesWritten 0 (by omega)
  obtain ⟨i, hi⟩ := Option.isSome_iff_exists.1 hi
  obtain ⟨q, hq⟩ := Option.isSome_iff_exists.1 hq
  exact ⟨i, q, hi, hq⟩

/-- An entry that enters a ring with room leaves the oldest one as it was (R94). -/
theorem putEntry_read_oldest (hlt : r.consumed < r.produced) (hroom : r.produced - r.consumed < c.sringEntries) :
    (putEntry c r.produced i q m).read (slotAddr c r.consumed) = m.read (slotAddr c r.consumed) ∧
    (putEntry c r.produced i q m).read (slotAddr c r.consumed + 1) = m.read (slotAddr c r.consumed + 1) := by
  have hne := slot_ne hlt hroom
  constructor <;>
    rw [putEntry_read, if_neg (by simp only [slotAddr]; omega), if_neg (by simp only [slotAddr]; omega)]

/-! ### One sample or one reader bit of a receive -/

/-- With its hold met and CANCEL low, a command in flight runs its segment (R350, R352). -/
theorem step_segment (hbusy : s.eng.busy = true) (hc : s.env.cancel = false) (hready : holdReady s = true) :
    step s = commit s (segment s) := by
  rw [step_engine (by simp [engineReady, hbusy, hready])]
  simp [engineMove, hc]

theorem demodIdle_iff (d : Demod) : demodIdle d = true ↔ d.state = .unsynced := by
  unfold demodIdle
  cases d.state <;> decide

/-- The receive of a frame that overflowed (R280). -/
theorem afterSample_overflow (hdone : s.dDone = true) (ho : s.demod.overflow = true) :
    afterSample s.dDone s = .ok { s with res0 := 0xFFFFFFFE, eng := idled s.eng } := by
  rw [afterSample, if_pos hdone, finishReceive, if_pos ho]
  rfl

/-- The bytes of the frame the Demod holds (R249). -/
theorem DemodInv.frame {d : Demod} (h : DemodInv c d m) :
    ∃ bytes, readBytes c .dout 0 d.len.toNat m = .ok bytes ∧ bytes.length = d.len.toNat ∧ holdsBytes .dout bytes m := by
  have hle : d.len.toNat ≤ c.doutSize := Nat.le_trans (BitVec.le_def.1 h.count) h.limit
  obtain ⟨bytes, hb, hlen⟩ := readBytes_of_written (c := c) (w := .dout) (k := 0) (n := d.len.toNat) (m := m)
    (by simpa [Window.capacity] using hle) (by simpa using h.bytesWritten)
  refine ⟨bytes, hb, hlen, fun k hk => ?_⟩
  have hread := ((readBytes_eq_ok_iff ..).1 hb).2 k hk
  rw [Nat.zero_add] at hread
  exact ((readByte_eq_ok_iff ..).1 hread).2

/-- The receive of a whole frame (R280, R283, R284). -/
theorem afterSample_frame {bytes : List Byte} (hdone : s.dDone = true) (ho : s.demod.overflow = false)
    (hb : readBytes s.cfg .dout 0 s.demod.len.toNat s.mem = .ok bytes) (hlen : bytes.length = s.demod.len.toNat) :
    afterSample s.dDone s = .ok { s with
      res0 := BitVec.ofNat 32 bytes.length, res1 := rxEof s, eng := idled s.eng
      out := { s.out with trace := s.out.trace ++ [{
        bytes := bytes, startTs := rxEof s - BitVec.ofNat 32 (1024 * bytes.length) - 512, endTs := rxEof s, crcOk := none,
        direction := .tag }] } } := by
  have hres : s.demod.len.setWidth 32 = BitVec.ofNat 32 bytes.length := by rw [hlen, BitVec.ofNat_toNat]
  have hsof : rxSof s = rxEof s - BitVec.ofNat 32 (1024 * bytes.length) - 512 := by
    rw [rxSof, hres, BitVec.ofNat_mul]
    rfl
  rw [afterSample, if_pos hdone, finishReceive, if_neg (by simp [ho]), hb, ← hres, ← hsof]
  rfl

/-- A receive past its budget with no frame begun (R282). -/
theorem afterSample_timeout (hdone : s.dDone = false)
    (h : s.eng.rxLimit < s.eng.rxSamples ∧ s.demod.state = .unsynced) :
    afterSample s.dDone s = .ok { s with res0 := 0xFFFFFFFF, eng := idled s.eng } := by
  rw [afterSample, if_neg (by simp [hdone]), if_pos (by simpa [demodIdle_iff] using h)]
  rfl

/-- A receive within its budget, or in a frame, goes on (R280, R282). -/
theorem afterSample_goesOn (hdone : s.dDone = false)
    (h : ¬ (s.eng.rxLimit < s.eng.rxSamples ∧ s.demod.state = .unsynced)) : afterSample s.dDone s = .ok s := by
  rw [afterSample, if_neg (by simp [hdone]), if_neg (by simpa [demodIdle_iff] using h)]

/-- One sample of a receive under the invariant: the entry is taken and counted, and the Demod steps on it (R95, R280). -/
theorem step_sample (h : s.Inv) (hbusy : s.eng.busy = true) (hhold : s.eng.hold = .sample)
    (hc : s.env.cancel = false) (hlt : s.ring.consumed < s.ring.produced) :
    ∃ i q u, s.mem.read (slotAddr s.cfg s.ring.consumed) = some i ∧
      s.mem.read (slotAddr s.cfg s.ring.consumed + 1) = some q ∧ exec (.demodStep i q) (sampled s) = .next u ∧
      DemodInv u.cfg u.demod u.mem ∧ step s = commit s (afterSample u.dDone u) := by
  have hentries := Config.one_le_sringEntries h.config
  obtain ⟨i, q, hi, hq⟩ := h.ring.oldest hlt
  obtain ⟨x, hx, hinv, -⟩ := h.demod.step i q
  refine ⟨i, q, _, hi, hq, exec_demodStep (s := sampled s) hx, hinv, ?_⟩
  rw [step_segment hbusy hc (by simp only [holdReady, hhold, bne_iff_ne]; omega), Machine.segment, hhold]
  simp only
  rw [sampleSegment_ok (nextSample_of_read hentries hi hq), demodStepState,
    show demodStep (sampled s).cfg i q (sampled s).demod (sampled s).mem = .ok x from hx]
  rfl

/-- The end of EMU.RX (R320). -/
theorem afterRbit_ends (hdone : s.uDone = true) :
    afterRbit (s.uDone, s) = { s with res0 := BitVec.ofNat 32 s.uart.byteCnt.toNat, eng := idled s.eng } := by
  rw [afterRbit, if_pos hdone, BitVec.ofNat_toNat]
  rfl

/-- EMU.RX within a frame goes on (R320). -/
theorem afterRbit_goesOn (hdone : s.uDone = false) : afterRbit (s.uDone, s) = s := if_neg (by simp [hdone])

/-- One reader bit of EMU.RX under the invariant: the bit is taken and the Uart steps on it (R97, R204, R320). -/
theorem step_rbit {b : Bool} {rest : List Bool} (h : s.Inv) (hbusy : s.eng.busy = true) (hhold : s.eng.hold = .rbit)
    (hc : s.env.cancel = false) (hbits : s.env.rbits = b :: rest) :
    ∃ u, exec (.uartStep b) { s with env := { s.env with rbits := rest } } = .next u ∧
      step s = .next (afterRbit (u.uDone, u)) := by
  obtain ⟨r, hr, hstep, -⟩ := (h.withEnv { s.env with rbits := rest }).uartStepState b
  refine ⟨_, exec_uartStep hr, ?_⟩
  rw [step_segment hbusy hc (by simp [holdReady, hhold, hbits]), Machine.segment, hhold]
  simp only [rbitSegment_cons hbits, hstep, Res.map_ok, commit_ok, State.withUartRun_uDone]

end Sys2Proof.Machine

open Sys2Proof Sys2Proof.Machine

/-- Settles O15: a read of a byte of a buffer, and every read that is neither that nor of a register. -/
theorem hostReadOutcomes : Obligations.HostReadOutcomes := by
  refine fun addr n s => ⟨?_, ?_, hostRead_other⟩
  · rintro w k v rfl hk ha hv
    rw [hostRead_byte hk ha, hv]
    rfl
  · rintro w k rfl hk ha hv
    rw [hostRead_byte hk ha, hv]
    rfl

/-- Settles O16: the three places a write can go, CMD apart. -/
theorem hostWriteOutcomes : Obligations.HostWriteOutcomes := by
  refine fun addr n v s => ⟨?_, ?_, fun hreg hbyte => hostWrite_outside hreg hbyte v⟩
  · rintro rfl rfl
    exact hostWrite_arg0 v s
  · rintro k hk ha rfl
    exact ⟨_, hostWrite_cmdbuf hk ha v, rfl, Memory.read_write_same .., fun a h => Memory.read_write_other _ _ h⟩

/-- Settles O17: a new entry's slot is no unconsumed entry's slot. -/
theorem ringIsFirstInFirstOut : Obligations.RingIsFirstInFirstOut := by
  intro s i q hc h
  have hentries := Config.one_le_sringEntries hc
  refine ⟨fun hfull => applyMove_overrun hentries hfull.ge, fun hroom => ⟨_, applyMove_produce hentries hroom, rfl, ?_⟩⟩
  obtain ⟨hi, hq⟩ := putEntry_read_slot s.cfg s.ring.produced i q s.mem
  refine ⟨hi, hq, fun a hne hne' => ?_, h.produce hroom, fun hempty => ?_, fun hlt => ?_⟩
  · exact (putEntry_read ..).trans ((if_neg hne').trans (if_neg hne))
  · have hslot : slotAddr s.cfg s.ring.produced = slotAddr s.cfg s.ring.consumed := by rw [hempty]
    rw [hslot] at hi hq
    exact ⟨_, nextSample_of_read hentries hi hq, congrArg (· + 1) hempty.symm⟩
  · obtain ⟨x, y, hx, hy⟩ := h.oldest hlt
    obtain ⟨hx', hy'⟩ := putEntry_read_oldest (m := s.mem) (i := i) (q := q) hlt hroom
    exact ⟨x, y, _, _, nextSample_of_read hentries hx hy, nextSample_of_read hentries (hx'.trans hx) (hy'.trans hy)⟩

/-- Settles O50: the segment is the Demod's step and then one of the four continuations of R280. -/
theorem rxTagStepsTheDemodOncePerSample : Obligations.RxTagStepsTheDemodOncePerSample := by
  intro s h hbusy hhold hc hlt
  obtain ⟨i, q, u, hi, hq, hexec, hinv, hstep⟩ := step_sample h hbusy hhold hc hlt
  have hnext {t : State} (ht : afterSample u.dDone u = .ok t) : step s = .next t := by rw [hstep, ht, commit_ok]
  refine ⟨i, q, u, ?_⟩
  rcases Bool.eq_false_or_eq_true u.dDone with hdone | hdone
  · rcases Bool.eq_false_or_eq_true u.demod.overflow with hover | hover
    · exact ⟨_, hi, hq, hexec, hnext (afterSample_overflow hdone hover), by simp [hdone, hover]⟩
    · obtain ⟨bytes, hbytes, hlen, hholds⟩ := hinv.frame
      exact ⟨_, hi, hq, hexec, hnext (afterSample_frame hdone hover hbytes hlen), by simp [hover],
        fun _ _ => ⟨bytes, hlen, hholds, rfl⟩, by simp [hdone], by simp [hdone]⟩
  · by_cases htimeout : u.eng.rxLimit < u.eng.rxSamples ∧ u.demod.state = .unsynced
    · exact ⟨_, hi, hq, hexec, hnext (afterSample_timeout hdone htimeout), by simp [hdone], by simp [hdone],
        fun _ _ _ => rfl, fun _ hno => absurd htimeout hno⟩
    · exact ⟨_, hi, hq, hexec, hnext (afterSample_goesOn hdone htimeout), by simp [hdone], by simp [hdone],
        fun _ hlimit hidle => absurd ⟨hlimit, hidle⟩ htimeout, fun _ _ => rfl⟩

/-- Settles O59: the segment is the Uart's step and then the test of its return value. -/
theorem emuRxStepsTheUartOncePerBit : Obligations.EmuRxStepsTheUartOncePerBit := by
  intro s b rest h hbusy hhold hc hbits
  obtain ⟨u, hexec, hstep⟩ := step_rbit h hbusy hhold hc hbits
  exact ⟨u, hexec, fun hdone => by rw [hstep, afterRbit_goesOn hdone], fun hdone => by rw [hstep, afterRbit_ends hdone]⟩

end

section
/-! PROOFS. Command words (R120, R122, R126, R341): the fields of each format, decoding an encoded command, the word of a
decoded command, and the legal words. -/

namespace Sys2Proof

open Machine

/-! ### The fields of a format's word -/

theorem fieldOp_getLsbD (cw : Word) (k : Nat) (hk : k < 8) : (fieldOp cw).getLsbD k = cw.getLsbD (k + 24) := by
  simp [fieldOp, hk, Nat.add_comm]

theorem fieldB_wordB (op : Byte) (b : Bool) : fieldB (wordB op b) = b := by
  rw [fieldB, wordB_getLsbD]
  simp

theorem fieldN_wordL (op : Byte) (n : Half) : fieldN (wordL op n) = n := by
  refine BitVec.eq_of_getLsbD_eq fun k hk => ?_
  simp [fieldN, wordL_getLsbD, hk]

theorem fieldI_wordS (op x y : Byte) : fieldI (wordS op x y) = x := by
  refine BitVec.eq_of_getLsbD_eq fun k hk => ?_
  simp [fieldI, wordS_getLsbD, hk, show 8 + k < 16 by omega]

theorem fieldQ_wordS (op x y : Byte) : fieldQ (wordS op x y) = y := by
  refine BitVec.eq_of_getLsbD_eq fun k hk => ?_
  simp [fieldQ, wordS_getLsbD, hk]

theorem fieldSel_wordT (op : Byte) (sel : BitVec 2) : fieldSel (wordT op sel) = sel := by
  refine BitVec.eq_of_getLsbD_eq fun k hk => ?_
  simp [fieldSel, wordT_getLsbD, hk]

/-! ### Decoding an encoded command -/

/-- Every command's word passes the checks of opcode and reserved bits (R120). -/
theorem tableRow (i : Instr) : Laws.TableRow.Statement i := by
  cases i with
  | tosendReset => exact Laws.TableRow.tosendReset
  | tosendStuff b => exact Laws.TableRow.tosendStuff b
  | tosendStuff4 b => exact Laws.TableRow.tosendStuff4 b
  | codeReader n => exact Laws.TableRow.codeReader n
  | codeTag n => exact Laws.TableRow.codeTag n
  | uartInit n => exact Laws.TableRow.uartInit n
  | uartStep b => exact Laws.TableRow.uartStep b
  | demodInit n => exact Laws.TableRow.demodInit n
  | demodStep x y => exact Laws.TableRow.demodStep x y
  | trxTxReader => exact Laws.TableRow.trxTxReader
  | trxTxTag sel => exact Laws.TableRow.trxTxTag sel
  | trxRxTag n => exact Laws.TableRow.trxRxTag n
  | trxCodeTxReader n => exact Laws.TableRow.trxCodeTxReader n
  | trxSetTimeout => exact Laws.TableRow.trxSetTimeout
  | trxSetMaxFrame => exact Laws.TableRow.trxSetMaxFrame
  | emuInit => exact Laws.TableRow.emuInit
  | emuField => exact Laws.TableRow.emuField
  | emuFrame => exact Laws.TableRow.emuFrame
  | emuRx n => exact Laws.TableRow.emuRx n

/-- Every command's word carries its operands in the fields of its format (R122). -/
theorem commandOf_encode (i : Instr) : commandOf i.opcode (encode i) = some i := by
  cases i <;>
    simp [commandOf, Instr.opcode, encode, fieldB_wordB, fieldN_wordL, fieldI_wordS, fieldQ_wordS, fieldSel_wordT]

theorem decode_encode {i : Instr} (h : i.wf = true) : decode (encode i) = .ok i := by
  obtain ⟨hop, f, hf, hmask⟩ := tableRow i
  exact (decode_eq_ok_iff ..).2 ⟨f, by rw [hop, hf], by rw [hop, commandOf_encode], by rw [hop, hmask], h⟩

theorem tableWord_toNat (cw : Word) : tableWord 32 cw.toNat = cw := by
  rw [tableWord, Nat.mod_eq_of_lt cw.isLt, BitVec.ofNat_toNat, BitVec.setWidth_eq]

/-! ### The word of a decoded command -/

/-- The word of a format with the operand fields of `cw` (R122). -/
def Format.word (f : Format) (op : Byte) (cw : Word) : Word :=
  match f with
  | .none => wordN op
  | .bit => wordB op (fieldB cw)
  | .sample => wordS op (fieldI cw) (fieldQ cw)
  | .length => wordL op (fieldN cw)
  | .source => wordT op (fieldSel cw)

/-- A command read from a word is encoded in the format of its opcode, with the fields of that word. -/
theorem encode_of_commandOf {op : Byte} {cw : Word} {f : Format} {i : Instr} (hf : formatOf op = some f)
    (hi : commandOf op cw = some i) : encode i = f.word op cw := by
  unfold commandOf at hi
  split at hi
  case h_20 => cases hi
  all_goals
    rename_i hop
    obtain ⟨-, rfl⟩ := BitVec.toNat_eq_nat.1 hop
    cases hi
    cases hf
    rfl

/-- A reserved bit of a word that passes the check of its fixed bits is 0 (R120, R122). -/
theorem reservedBit_eq_false {cw mask : Word} (h : cw &&& mask = matchOf (fieldOp cw)) {k : Nat} (hk : k < 24)
    (hm : mask.getLsbD k = true) : cw.getLsbD k = false := by
  have := congrArg (·.getLsbD k) h
  simpa [matchOf_getLsbD, hk, hm] using this

/-- How many low bits of a word a format gives its operands (R122). -/
def Format.operandBits : Format → Nat
  | .none => 0
  | .bit => 1
  | .sample => 16
  | .length => 16
  | .source => 2

/-- The bits that carry no operand are fixed (R122). -/
theorem Format.mask_getLsbD (f : Format) {k : Nat} (hk : k < 24) : f.mask.getLsbD k = decide (f.operandBits ≤ k) := by
  cases f <;> interval_cases k <;> rfl

/-- The word of a format: operand bits of `cw`, reserved bits 0, the opcode. -/
theorem Format.word_getLsbD (f : Format) (op : Byte) (cw : Word) (k : Nat) :
    (f.word op cw).getLsbD k =
      if k < f.operandBits then cw.getLsbD k else if k < 24 then false else op.getLsbD (k - 24) := by
  cases f with
  | none => exact wordN_getLsbD op k
  | bit =>
    rw [Format.word, wordB_getLsbD, Format.operandBits]
    refine if_ctx_congr Iff.rfl (fun hk => ?_) fun _ => rfl
    obtain rfl : k = 0 := by omega
    simp [fieldB]
  | sample =>
    rw [Format.word, wordS_getLsbD, Format.operandBits]
    by_cases h8 : k < 8
    · simp [fieldQ, h8, show k < 16 by omega]
    · by_cases h16 : k < 16
      · simp [fieldI, h8, h16, show k - 8 < 8 by omega, show 8 + (k - 8) = k by omega]
      · simp [h8, h16]
  | length =>
    rw [Format.word, wordL_getLsbD, Format.operandBits]
    exact if_ctx_congr Iff.rfl (fun hk => by simp [fieldN, hk]) fun _ => rfl
  | source =>
    rw [Format.word, wordT_getLsbD, Format.operandBits]
    exact if_ctx_congr Iff.rfl (fun hk => by simp [fieldSel, hk]) fun _ => rfl

/-- A word with 0 at every reserved bit is the word of its opcode and its fields. -/
theorem Format.word_eq {f : Format} {cw : Word} (h : cw &&& f.mask = matchOf (fieldOp cw)) :
    f.word (fieldOp cw) cw = cw := by
  refine BitVec.eq_of_getLsbD_eq fun k hk => ?_
  rw [f.word_getLsbD]
  split
  · rfl
  · rename_i hop
    split
    · rename_i h24
      exact (reservedBit_eq_false h h24 (by rw [f.mask_getLsbD h24]; simpa using hop)).symm
    · rw [fieldOp_getLsbD cw (k - 24) (by omega), Nat.sub_add_cancel (by omega)]

theorem encode_decode {cw : Word} {i : Instr} (h : decode cw = .ok i) : encode i = cw := by
  obtain ⟨f, hf, hi, hmask, -⟩ := (decode_eq_ok_iff ..).1 h
  rw [encode_of_commandOf hf hi, Format.word_eq hmask]

/-! ### Legal words -/

/-- The rows of the opcode map are the opcodes with a format, each with that format's mask (R126). -/
theorem mem_opcodeMap_iff (row : Nat × Nat) :
    row ∈ opcodeMap ↔ ∃ op f, formatOf op = some f ∧ row = (op.toNat, f.mask.toNat) := by
  constructor
  · have hrows : ∀ row ∈ opcodeMap,
        (BitVec.ofNat 8 row.1).toNat = row.1 ∧ (formatOf (BitVec.ofNat 8 row.1)).map (·.mask.toNat) = some row.2 := by
      decide
    intro h
    obtain ⟨hop, hmask⟩ := hrows row h
    obtain ⟨f, hf, hmask⟩ := Option.map_eq_some_iff.1 hmask
    exact ⟨_, f, hf, Prod.ext hop.symm hmask.symm⟩
  · rintro ⟨op, f, hf, rfl⟩
    unfold formatOf at hf
    split at hf <;> cases hf <;> rename_i hop <;> rw [hop] <;> decide

/-- An opcode with a format names a command (R126). -/
theorem exists_commandOf {op : Byte} {f : Format} (cw : Word) (hf : formatOf op = some f) :
    ∃ i, commandOf op cw = some i := by
  unfold formatOf at hf
  split at hf <;> cases hf <;> rename_i hop <;> simp [commandOf, hop]

/-- The selector is the word's low two bits (R122). -/
theorem fieldSel_eq_three_iff (cw : Word) : fieldSel cw = 3#2 ↔ cw &&& 3#32 = 3#32 := by
  have hand : (cw &&& 3#32).toNat = cw.toNat % 4 := by
    rw [BitVec.toNat_and]
    exact Nat.and_two_pow_sub_one_eq_mod cw.toNat 2
  rw [← BitVec.toNat_inj, ← BitVec.toNat_inj, hand]
  simp [fieldSel]

/-- The command a word names is ill-formed exactly at the reserved selector (R120). -/
theorem wf_commandOf {op : Byte} {cw : Word} {i : Instr} (hi : commandOf op cw = some i) :
    i.wf = true ↔ ¬ (op.toNat = 0x31 ∧ cw &&& 3 = 3) := by
  unfold commandOf at hi
  split at hi <;> cases hi <;> rename_i hop <;> simp [Instr.wf, hop, fieldSel_eq_three_iff]

/-- The opcode is the word's top byte (R122). -/
theorem fieldOp_eq_iff (cw : Word) (op : Byte) : cw >>> 24 = BitVec.ofNat 32 op.toNat ↔ fieldOp cw = op := by
  have hlt : cw.toNat >>> 24 < 256 := by have := cw.isLt; omega
  simp [← BitVec.toNat_inj, fieldOp]
  omega

theorem matchOf_eq_ofNat (op : Byte) : matchOf op = BitVec.ofNat 32 (op.toNat * 0x1000000) := by
  revert op
  decide +kernel

/-- A word decodes exactly when it is legal (R120, R126). -/
theorem exists_decode_iff (cw : Word) : (∃ i, decode cw = .ok i) ↔ legalWord cw := by
  have hmask (f : Format) : BitVec.ofNat 32 f.mask.toNat = f.mask := by cases f <;> rfl
  simp only [decode_eq_ok_iff, legalWord, mem_opcodeMap_iff]
  constructor
  · rintro ⟨i, f, hf, hi, hfixed, hwf⟩
    refine ⟨_, ⟨_, f, hf, rfl⟩, (fieldOp_eq_iff ..).2 rfl, ?_, (wf_commandOf hi).1 hwf⟩
    rw [hmask, hfixed, matchOf_eq_ofNat]
  · rintro ⟨_, ⟨op, f, hf, rfl⟩, hop, hfixed, hsel⟩
    obtain rfl := (fieldOp_eq_iff ..).1 hop
    obtain ⟨i, hi⟩ := exists_commandOf cw hf
    exact ⟨i, f, hf, hi, by rwa [hmask, ← matchOf_eq_ofNat] at hfixed, (wf_commandOf hi).2 hsel⟩

end Sys2Proof

open Sys2Proof Sys2Proof.Machine

/-- Settles O1: a command's word passes the checks of R120 and carries the operands in its fields. -/
theorem decodeReadsEveryEncodedCommand : Obligations.DecodeReadsEveryEncodedCommand := by
  refine ⟨fun i h => ⟨decode_encode h, ?_⟩, by decide⟩
  rw [decodeTableWord, tableWord_toNat, decode_encode h]
  rfl

/-- Settles O2: the fields and the fixed bits of a word are all of its bits. -/
theorem decodeIgnoresNoBit : Obligations.DecodeIgnoresNoBit := by
  intro cw i h
  obtain ⟨-, -, -, -, hwf⟩ := (decode_eq_ok_iff ..).1 h
  exact ⟨encode_decode h, hwf⟩

/-- Settles O3: the map's rows are the opcodes with a format, and an illegal word is refused at its submission. -/
theorem wordsOutsideTheMapAreIllegal : Obligations.WordsOutsideTheMapAreIllegal := by
  refine ⟨exists_decode_iff, fun s cw hf hb hnot => ?_⟩
  cases hd : decode cw with
  | ok i => exact absurd ((exists_decode_iff cw).1 ⟨i, hd⟩) hnot
  | error e =>
    calc hostWrite cmdAddr 4 cw s
        = submit cw s := hostWrite_cmd cw s
      _ = .next (s.raise .illegal cw) := submit_illegal hf hb hd
      _ = .next (faulted .illegal cw s) := congrArg _ (State.raise_first _ _ _ hf)

/-- Settles O4: each word by evaluation of the decoder. -/
theorem sampleWordsDecode : Obligations.SampleWordsDecode := by
  refine ⟨?_, ?_, ?_, ?_, ?_, ?_, ?_⟩ <;> rfl

/-- Settles O5: an idle engine takes the move, and the word passes every check of its submission. -/
theorem stepRunsTheDecodedCommand : Obligations.StepRunsTheDecodedCommand := by
  intro s cw rest i hf hb hm hd
  calc step s
      = hostWrite cmdAddr 4 cw (s.withMoves rest) := step_external (engineReady_idle hb) hm
    _ = submit cw (s.withMoves rest) := hostWrite_cmd ..
    _ = exec i (s.withMoves rest) := submit_exec hf hb hd

end

section
/-! SUPPORT. What the encoders append to the send buffer, bit by bit (R172 to R175), and the frames of R125 by position. -/

namespace Sys2Proof.Machine

variable {c : Config}

/-! ### Bits appended -/

/-- The send buffer of `y` is that of `x` with the bits `l` appended: older bits kept, no other byte touched (R172). -/
structure Stuffed (l : List Bool) (x y : SendState) : Prop where
  count : y.ts.bitCount = x.ts.bitCount + l.length
  old : ∀ p < x.ts.bitCount, bufferBit .tosend y.mem p = bufferBit .tosend x.mem p
  new : ∀ j < l.length, bufferBit .tosend y.mem (x.ts.bitCount + j) = l[j]?
  frame : ∀ a, ¬ (Window.tosend.base + x.ts.bitCount / 8 ≤ a ∧
    a < Window.tosend.base + (x.ts.bitCount + l.length + 7) / 8) → y.mem.read a = x.mem.read a

theorem Stuffed.refl (x : SendState) : Stuffed [] x x :=
  ⟨rfl, fun _ _ => rfl, fun j h => absurd h (Nat.not_lt_zero j), fun _ _ => rfl⟩

theorem Stuffed.trans {l l' : List Bool} {x y z : SendState} (h : Stuffed l x y) (h' : Stuffed l' y z) :
    Stuffed (l ++ l') x z where
  count := by rw [h'.count, h.count, List.length_append, Nat.add_assoc]
  old p hp := (h'.old p (by rw [h.count]; omega)).trans (h.old p hp)
  new j hj := by
    rw [List.length_append] at hj
    by_cases hl : j < l.length
    · rw [h'.old _ (by rw [h.count]; omega), h.new j hl, List.getElem?_append_left hl]
    · have hnew := h'.new (j - l.length) (by omega)
      rw [h.count, Nat.add_assoc, Nat.add_sub_cancel' (Nat.not_lt.1 hl)] at hnew
      rw [hnew, List.getElem?_append_right (Nat.not_lt.1 hl)]
  frame a ha := by
    have hcount := h.count
    rw [List.length_append] at ha
    rw [h'.frame a (by omega), h.frame a (by omega)]

theorem bufferBit_congr {m m' : Memory} {w : Window} {p : Nat} (h : m'.read (w.base + p / 8) = m.read (w.base + p / 8)) :
    bufferBit w m' p = bufferBit w m p := by
  rw [bufferBit, h, bufferBit]

/-- The bits of a byte up to bit `k` from the left, once stuff_bit has put that bit (R172). -/
theorem getLsbD_putBit (b : Bool) {v : Byte} {k j : Nat} (hk : k ≤ 7) (hj : j ≤ k) (htail : v <<< k = 0) :
    (if b then v ||| (0x80 : Byte) >>> k else v).getLsbD (7 - j) = if j = k then b else v.getLsbD (7 - j) := by
  have hmask : ((0x80 : Byte) >>> k).getLsbD (7 - j) = decide (j = k) := by
    interval_cases k <;> interval_cases j <;> rfl
  have hclear : v.getLsbD (7 - k) = false := by
    have htop : (v <<< k).getLsbD 7 = false := by rw [htail]; rfl
    rw [BitVec.getLsbD_shiftLeft] at htop
    simpa [show ¬ 7 < k by omega] using htop
  generalize (0x80 : Byte) >>> k = mask at hmask ⊢
  by_cases hjk : j = k
  · subst hjk
    cases b <;> simp [hmask, hclear]
  · cases b <;> simp [hmask, hjk]

/-- stuff_bit in an open byte appends its bit (R172). -/
theorem putBit_stuffed (b : Bool) {x : SendState} (h : OpenByte c x.ts x.mem) :
    ∃ y, putBit c b x = .ok y ∧ Stuffed [b] x y := by
  obtain ⟨v, hv, htail⟩ := h.tailClear
  have hlow := h.low
  have hbit := h.bit
  have hk : x.ts.max.toInt.toNat < Window.tosend.capacity c := by
    have := h.high
    simp only [Window.capacity]; omega
  have hcount := SendCursor.bitCount_of_nonneg hlow
  obtain ⟨m, hput, hread, hother⟩ : ∃ m,
      putBit c b x = .ok { ts := { x.ts with bit := x.ts.bit + 1 }, mem := m } ∧
      m.read (Window.tosend.base + x.ts.max.toInt.toNat) =
        some (if b then v ||| (0x80 : Byte) >>> x.ts.bit.toNat else v) ∧
      ∀ a, a ≠ Window.tosend.base + x.ts.max.toInt.toNat → m.read a = x.mem.read a := by
    cases b with
    | false => exact ⟨x.mem, rfl, hv, fun _ _ => rfl⟩
    | true =>
      have hset := (setBit_eq_ok_iff c x _).2
        ⟨hlow, v, _, (readByte_eq_ok_iff ..).2 ⟨hk, hv⟩, writeByte_ok _ _ _ _ _ hk, rfl⟩
      exact ⟨_, (putBit_eq_ok_iff ..).2 ⟨_, hset, rfl⟩, Memory.read_write_same .., fun _ => Memory.read_write_other _ _⟩
  refine ⟨_, hput, ?_⟩
  exact {
    count := by
      rw [hcount, SendCursor.bitCount_of_nonneg (by exact hlow)]
      simp; omega
    old := fun p hp => by
      by_cases hbyte : p / 8 = x.ts.max.toInt.toNat
      · rw [bufferBit, bufferBit, hbyte, hread, hv, Option.map_some, Option.map_some,
          getLsbD_putBit b hbit (by omega) htail, if_neg (by omega)]
      · exact bufferBit_congr (hother _ (by omega))
    new := fun j hj => by
      obtain rfl : j = 0 := by simpa using hj
      rw [bufferBit, hcount, show (8 * x.ts.max.toInt.toNat + x.ts.bit.toNat + 0) / 8 = x.ts.max.toInt.toNat by omega,
        show (8 * x.ts.max.toInt.toNat + x.ts.bit.toNat + 0) % 8 = x.ts.bit.toNat by omega, hread, Option.map_some,
        getLsbD_putBit b hbit le_rfl htail, if_pos rfl]
      rfl
    frame := fun a ha => hother a (by rw [hcount] at ha; simp only [List.length_singleton] at ha; omega) }

/-- A full send buffer has 8 bits a byte. -/
theorem SendInv.bitCount_of_full {t : SendCursor} {m : Memory} (h : SendInv c t m) (h8 : t.bit = 8) :
    t.bitCount = 8 * t.len := by
  have hlow := h.low
  by_cases h0 : 0 ≤ t.max.toInt
  · rw [SendCursor.bitCount_of_nonneg h0, SendCursor.len_of_nonneg h0, h8]
    simp; omega
  · have : t.len = 0 := by simp only [SendCursor.len]; omega
    simp [SendCursor.bitCount, this]

/-- A new byte opens at the end of a full send buffer that has room (R172). -/
theorem openByte_room (hc : c.wf = true) {x : SendState} (h : SendInv c x.ts x.mem) (hroom : x.ts.len < c.tosendSize) :
    ∃ y, openByte c x = .ok y ∧ y.ts.bitCount = 8 * x.ts.len ∧
      ∀ a, a ≠ Window.tosend.base + x.ts.len → y.mem.read a = x.mem.read a := by
  have hsize := (Config.wf_iff c).1 hc |>.1
  have hlow := h.low
  have hhigh := h.high
  have hmax : (x.ts.max + 1).toInt = x.ts.max.toInt + 1 := toInt_next hlow (by omega)
  have hlen : (x.ts.max + 1).toInt.toNat = x.ts.len := by rw [hmax, SendCursor.len]
  have hfull : tosendFull c x.ts = false := by
    simp only [SendCursor.len] at hroom
    simp only [tosendFull, decide_eq_false_iff_not]; omega
  have hwrite := writeByte_ok c .tosend x.ts.len 0 x.mem hroom
  refine ⟨_, (openByte_eq_ok_iff ..).2 ⟨hfull, by omega, _, by rw [hlen]; exact hwrite, rfl⟩, ?_, fun a ha =>
    Memory.read_write_other _ _ ha⟩
  rw [SendCursor.bitCount_of_nonneg (by simp only; omega), hlen]
  rfl

/-- stuff_bit appends its bit while the buffer has room (R172). -/
theorem stuffBit_stuffed (hc : c.wf = true) (b : Bool) {x : SendState} (h : SendInv c x.ts x.mem)
    (hroom : x.ts.bitCount < 8 * c.tosendSize) :
    ∃ y, stuffBit c b x = .ok y ∧ SendInv c y.ts y.mem ∧ Stuffed [b] x y := by
  obtain ⟨y, hy, hstuffed⟩ : ∃ y, stuffBit c b x = .ok y ∧ Stuffed [b] x y := by
    by_cases h8 : x.ts.bit = 8
    · have hcount := h.bitCount_of_full h8
      obtain ⟨z, hz, hzcount, hzother⟩ := openByte_room hc h (by omega)
      have hopen := openByte_safe hc h
      rw [hz, Res.safe_ok] at hopen
      obtain ⟨y, hy, hs⟩ := putBit_stuffed b hopen.1
      rw [← hcount] at hzcount
      refine ⟨y, (stuffBit_eq_ok_iff ..).2 (.inl ⟨h8, z, hz, hy⟩), ?_⟩
      exact {
        count := hzcount ▸ hs.count
        old := fun p hp => (hs.old p (by omega)).trans (bufferBit_congr (hzother _ (by omega)))
        new := hzcount ▸ hs.new
        frame := fun a ha => by
          rw [hs.frame a (by rwa [hzcount])]
          exact hzother a (by simp only [List.length_singleton] at ha; omega) }
    · obtain ⟨y, hy, hs⟩ := putBit_stuffed b (h.openByte h8)
      exact ⟨y, (stuffBit_eq_ok_iff ..).2 (.inr ⟨h8, hy⟩), hs⟩
  have hinv := stuffBit_safe hc b h
  rw [hy, Res.safe_ok] at hinv
  exact ⟨y, hy, hinv.1, hstuffed⟩

/-- stuff_bit of a list appends it while the buffer has room. -/
theorem stuffBits_stuffed (hc : c.wf = true) (l : List Bool) {x : SendState} (h : SendInv c x.ts x.mem)
    (hroom : x.ts.bitCount + l.length ≤ 8 * c.tosendSize) :
    ∃ y, stuffBits c l x = .ok y ∧ SendInv c y.ts y.mem ∧ Stuffed l x y := by
  induction l generalizing x with
  | nil => exact ⟨x, rfl, h, .refl x⟩
  | cons b rest ih =>
    rw [List.length_cons] at hroom
    obtain ⟨y, hy, hinv, hs⟩ := stuffBit_stuffed hc b h (by omega)
    have hcount := hs.count
    rw [List.length_singleton] at hcount
    obtain ⟨z, hz, hzinv, hzs⟩ := ih hinv (by omega)
    exact ⟨z, by simp only [stuffBits, hy, hz], hzinv, hs.trans hzs⟩

/-- stuff4 of an ETU appends four bits while the buffer has room (R173). -/
theorem stuff4_stuffed (hc : c.wf = true) (b : Bool) {x : SendState} (h : SendInv c x.ts x.mem)
    (hroom : x.ts.bitCount + 4 ≤ 8 * c.tosendSize) :
    ∃ y, stuff4 c b x = .ok y ∧ SendInv c y.ts y.mem ∧ Stuffed [b, b, b, b] x y := by
  have hno : ¬ (4 < x.ts.bit.toNat ∧ tosendFull c x.ts = true) := by
    rintro ⟨hbit, hfull⟩
    have hlow := h.low
    have hsize := (Config.wf_iff c).1 hc |>.1
    simp only [tosendFull, decide_eq_true_eq] at hfull
    rw [SendCursor.bitCount_of_nonneg (by omega)] at hroom
    omega
  rw [stuff4, if_neg (by simpa using hno)]
  exact stuffBits_stuffed hc _ h hroom

/-- stuff4 of each ETU appends the bits four a time (R175). -/
theorem stuffEtus_stuffed (hc : c.wf = true) (l : List Bool) {x : SendState} (h : SendInv c x.ts x.mem)
    (hroom : x.ts.bitCount + 4 * l.length ≤ 8 * c.tosendSize) :
    ∃ y, stuffEtus c l x = .ok y ∧ SendInv c y.ts y.mem ∧ Stuffed (sliced l) x y := by
  induction l generalizing x with
  | nil => exact ⟨x, rfl, h, .refl x⟩
  | cons b rest ih =>
    rw [List.length_cons] at hroom
    obtain ⟨y, hy, hinv, hs⟩ := stuff4_stuffed hc b h (by omega)
    have hcount : y.ts.bitCount = x.ts.bitCount + 4 := hs.count
    obtain ⟨z, hz, hzinv, hzs⟩ := ih hinv (by omega)
    exact ⟨z, by simp only [stuffEtus, hy, hz], hzinv, hs.trans hzs⟩

/-- How many bits the last byte holds, by the count of all of them. -/
theorem SendInv.bit_eq {t : SendCursor} {m : Memory} (h : SendInv c t m) (hpos : 0 < t.bitCount) :
    t.bit.toNat = (t.bitCount - 1) % 8 + 1 := by
  have h0 : 0 ≤ t.max.toInt := by
    by_contra hneg
    have : t.len = 0 := by simp only [SendCursor.len]; omega
    simp [SendCursor.bitCount, this] at hpos
  have hbit := h.openBit h0
  rw [SendCursor.bitCount_of_nonneg h0]
  omega

theorem padOnes_full {x : SendState} (h8 : x.ts.bit = 8) (n : Nat) : padOnes c n x = .ok x := by
  cases n <;> simp [padOnes, h8]

/-- The padding fills the open byte with ones (R174, R175). -/
theorem padOnes_stuffed (hc : c.wf = true) (n : Nat) {x : SendState} (h : SendInv c x.ts x.mem)
    (hn : 8 - x.ts.bit.toNat ≤ n) :
    ∃ y, padOnes c n x = .ok y ∧ SendInv c y.ts y.mem ∧ y.ts.bit = 8 ∧
      Stuffed (List.replicate (8 - x.ts.bit.toNat) true) x y := by
  by_cases h8 : x.ts.bit = 8
  · exact ⟨x, padOnes_full h8 n, h, h8, by rw [h8]; exact .refl x⟩
  have hopen := h.openByte h8
  have hbit := hopen.bit
  induction n generalizing x with
  | zero => omega
  | succ n ih =>
    have hcount := SendCursor.bitCount_of_nonneg hopen.low
    have hlow := hopen.low
    have hhigh := hopen.high
    have hone := (h.openBit hlow).1
    obtain ⟨y, hy, hinv, hs⟩ := stuffBit_stuffed hc true h (by omega)
    have hycount : y.ts.bitCount = x.ts.bitCount + 1 := hs.count
    have hybit := hinv.bit_eq (by omega)
    have hnext : y.ts.bit.toNat = x.ts.bit.toNat + 1 := by omega
    have hrest : 8 - x.ts.bit.toNat = (8 - y.ts.bit.toNat) + 1 := by omega
    simp only [padOnes, if_neg h8, hy, hrest, List.replicate_succ]
    by_cases hy8 : y.ts.bit = 8
    · rw [padOnes_full hy8, hy8]
      exact ⟨y, rfl, hinv, hy8, hs⟩
    · have hyopen := hinv.openByte hy8
      obtain ⟨z, hz, hzinv, hz8, hzs⟩ := ih hinv (by omega) hy8 hyopen hyopen.bit
      exact ⟨z, hz, hzinv, hz8, hs.trans hzs⟩

/-! ### A whole frame in the send buffer -/

/-- A frame of `n` whole bytes, built in an emptied send buffer over memory `m`: its cursor, its bits and its frame. -/
theorem Stuffed.whole (hc : c.wf = true) {l : List Bool} {m : Memory} {y : SendState} {n : Nat}
    (h : Stuffed l { ts := .empty, mem := m } y) (hinv : SendInv c y.ts y.mem) (h8 : y.ts.bit = 8)
    (hlen : l.length = 8 * n) (hn : 0 < n) :
    y.ts = { max := BitVec.ofNat 32 (n - 1), bit := 8 } ∧ (∀ p < 8 * n, bufferBit .tosend y.mem p = l[p]?) ∧
      unchangedOutside .tosend n m y.mem := by
  have hempty : SendCursor.empty.bitCount = 0 := by decide
  obtain ⟨hcount, -, hnew, hframe⟩ := h
  simp only [hempty, Nat.zero_add, hlen] at hcount hnew hframe
  refine ⟨?_, hnew, fun a ha => hframe a (by omega)⟩
  have hsize := (Config.wf_iff c).1 hc |>.1
  have hle := hinv.len_le
  have hbytes : y.ts.len = n := by have := hinv.bitCount_of_full h8; omega
  have hmax : y.ts.max = BitVec.ofNat 32 (n - 1) := by
    have hsmall : (BitVec.ofNat 32 (n - 1)).toInt = ((n - 1 : Nat) : Int) := by
      rw [BitVec.toInt_ofNat']
      exact Int.bmod_eq_of_le (by omega) (by omega)
    refine BitVec.eq_of_toInt_eq ?_
    rw [hsmall]
    simp only [SendCursor.len] at hbytes
    omega
  cases hts : y.ts
  simp_all

/-! ### The frames of R125 by position -/

theorem charactersBits_length (d : List Byte) : (charactersBits d).length = 10 * d.length := by
  have := tagEtus_length d
  simp [tagEtus, sofBits, eofBits] at this
  omega

theorem sofBits_getElem? {p : Nat} (hp : p < 12) : sofBits[p]? = some (decide (10 ≤ p)) := by
  interval_cases p <;> rfl

theorem eofBits_getElem? {p : Nat} (hp : p < 10) : eofBits[p]? = some false := by
  rw [eofBits, List.getElem?_replicate_of_lt hp]

theorem charactersBits_getElem? (d : List Byte) {r : Nat} (hr : r < 10 * d.length) :
    (charactersBits d)[r]? = some (characterBit d r) := by
  induction d generalizing r with
  | nil => simp at hr
  | cons b rest ih =>
    have hten : (characterBits b).length = 10 := rfl
    rw [charactersBits, List.flatMap_cons]
    by_cases hfirst : r < 10
    · rw [List.getElem?_append_left hfirst]
      interval_cases r <;> rfl
    · obtain ⟨r, rfl⟩ := Nat.exists_eq_add_of_le' (Nat.not_lt.1 hfirst)
      rw [List.getElem?_append_right (by omega), hten, Nat.add_sub_cancel, ← charactersBits,
        ih (by rw [List.length_cons] at hr; omega)]
      simp [characterBit, Nat.add_div_right]

theorem readerEtus_length (d : List Byte) : (readerEtus d).length = 22 + 10 * d.length := by
  simp [readerEtus, sofBits, eofBits, charactersBits_length]
  omega

/-- The reader column of R125. -/
theorem readerEtus_getElem? (d : List Byte) {p : Nat} (hp : p < 22 + 10 * d.length) :
    (readerEtus d)[p]? = some (readerBit d p) := by
  have hsof : sofBits.length = 12 := rfl
  have hchars := charactersBits_length d
  have hhead : (sofBits ++ charactersBits d).length = 12 + 10 * d.length := by rw [List.length_append, hsof, hchars]
  rw [readerEtus]
  by_cases h12 : p < 12
  · rw [List.getElem?_append_left (by omega), List.getElem?_append_left (by omega), sofBits_getElem? h12, readerBit]
    by_cases h10 : p < 10 <;> simp [h10, h12]
    omega
  · by_cases hdata : p < 12 + 10 * d.length
    · rw [List.getElem?_append_left (by omega), List.getElem?_append_right (by omega), hsof,
        charactersBits_getElem? d (by omega)]
      simp [readerBit, h12, hdata, show ¬ p < 10 by omega]
    · rw [List.getElem?_append_right (by omega), eofBits_getElem? (by omega)]
      simp [readerBit, h12, hdata, hp, show ¬ p < 10 by omega]

/-- A tag frame has TR1 before the reader frame's SOF, characters and EOF (R124). -/
theorem tagBit_add {d : List Byte} {p : Nat} (hp : p < 22 + 10 * d.length) : tagBit d (p + 20) = readerBit d p := by
  have hlt (k : Nat) : p + 20 < k + 20 ↔ p < k := Nat.add_lt_add_iff_right
  have hend : p + 20 < 42 + 10 * d.length ↔ p < 22 + 10 * d.length := by omega
  have hchars : p + 20 < 32 + 10 * d.length ↔ p < 12 + 10 * d.length := by omega
  simp only [tagBit, readerBit, hlt 0, hlt 10, hlt 12, hend, hchars, hp, if_true, Nat.not_lt_zero, if_false,
    show p + 20 - 32 = p - 12 by omega]

/-- The tag column of R125. -/
theorem tagEtus_getElem? (d : List Byte) {e : Nat} (he : e < 44 + 10 * d.length) :
    (tagEtus d)[e]? = some (tagBit d e) := by
  have htag : tagEtus d = List.replicate 20 true ++ readerEtus d ++ List.replicate 2 true := by
    simp [tagEtus, readerEtus]
  have hreader := readerEtus_length d
  have hhead : (List.replicate 20 true ++ readerEtus d).length = 42 + 10 * d.length := by
    rw [List.length_append, List.length_replicate, hreader]; omega
  rw [htag]
  by_cases h20 : e < 20
  · rw [List.getElem?_append_left (by omega), List.getElem?_append_left (by simpa using h20),
      List.getElem?_replicate_of_lt h20, tagBit, if_pos h20]
  · by_cases h42 : e < 42 + 10 * d.length
    · rw [List.getElem?_append_left (by omega), List.getElem?_append_right (by simpa using h20), List.length_replicate,
        readerEtus_getElem? d (by omega), ← tagBit_add (by omega), Nat.sub_add_cancel (Nat.not_lt.1 h20)]
    · rw [List.getElem?_append_right (by omega), List.getElem?_replicate_of_lt (by omega)]
      simp [tagBit, h20, h42, show ¬ e < 30 by omega, show ¬ e < 32 by omega, show ¬ e < 32 + 10 * d.length by omega]

theorem sliced_length (l : List Bool) : (sliced l).length = 4 * l.length := by
  induction l with
  | nil => rfl
  | cons b rest ih => rw [sliced, List.flatMap_cons, List.length_append, ← sliced, ih]; simp; omega

theorem sliced_getElem? (l : List Bool) (p : Nat) : (sliced l)[p]? = l[p / 4]? := by
  induction l generalizing p with
  | nil => simp [sliced]
  | cons b rest ih =>
    rw [sliced, List.flatMap_cons, ← sliced]
    by_cases hp : p < 4
    · rw [List.getElem?_append_left hp]
      interval_cases p <;> rfl
    · obtain ⟨p, rfl⟩ := Nat.exists_eq_add_of_le' (Nat.not_lt.1 hp)
      rw [List.getElem?_append_right (by simp), Nat.add_div_right _ (by decide), List.getElem?_cons_succ, ← ih]
      rfl

/-! ### The encoders -/

/-- code_as_reader builds the reader frame when it fits (R174, R176). -/
theorem encodeReader_encodes (hc : c.wf = true) (d : List Byte) (m : Memory) (hfit : readerLen d.length ≤ c.tosendSize) :
    ∃ x, encodeReader c d m = .ok x ∧ ReaderEncoded d m x.ts x.mem := by
  have hempty : SendCursor.empty.bitCount = 0 := by decide
  have hlen := readerEtus_length d
  simp only [readerLen] at hfit
  obtain ⟨y, hy, hinv, hs⟩ := stuffBits_stuffed hc (readerEtus d) (x := { ts := .empty, mem := m }) (sendInv_empty c m)
    (by simp only [hempty]; omega)
  have hcount : y.ts.bitCount = 22 + 10 * d.length := by rw [hs.count, hlen, hempty, Nat.zero_add]
  have hbit := hinv.bit_eq (by omega)
  obtain ⟨z, hz, hzinv, hz8, hzs⟩ := padOnes_stuffed hc 7 hinv (by omega)
  obtain ⟨hcursor, hbits, hframe⟩ := (hs.trans hzs).whole (n := (22 + 10 * d.length + 7) / 8) hc hzinv hz8
    (by rw [List.length_append, List.length_replicate, hlen]; omega) (by omega)
  refine ⟨z, by unfold encodeReader; simp only [hy, hz], hcursor, fun p hp => ?_, hframe⟩
  rw [hbits p hp]
  by_cases hpad : p < 22 + 10 * d.length
  · rw [List.getElem?_append_left (by omega), readerEtus_getElem? d hpad]
  · rw [List.getElem?_append_right (by omega), List.getElem?_replicate_of_lt (by omega)]
    simp [readerBit, hpad, show ¬ p < 10 by omega, show ¬ p < 12 by omega, show ¬ p < 12 + 10 * d.length by omega]

/-- code_as_tag builds the tag frame when it fits (R175, R176). -/
theorem encodeTag_encodes (hc : c.wf = true) (d : List Byte) (m : Memory) (hfit : tagLen d.length ≤ c.tosendSize) :
    ∃ x, encodeTag c d m = .ok x ∧ TagEncoded d m x.ts x.mem := by
  have hempty : SendCursor.empty.bitCount = 0 := by decide
  have hlen := tagEtus_length d
  simp only [tagLen] at hfit
  obtain ⟨y, hy, hinv, hs⟩ := stuffEtus_stuffed hc (tagEtus d) (x := { ts := .empty, mem := m }) (sendInv_empty c m)
    (by simp only [hempty]; omega)
  have hslen := sliced_length (tagEtus d)
  have hcount : y.ts.bitCount = 8 * (22 + 5 * d.length) := by rw [hs.count, hslen, hlen, hempty]; omega
  have h8 : y.ts.bit = 8 := by
    have := hinv.bit_eq (by omega)
    exact BitVec.eq_of_toNat_eq (by rw [this, hcount]; simp; omega)
  obtain ⟨hcursor, hbits, hframe⟩ := hs.whole (n := 22 + 5 * d.length) hc hinv h8 (by omega) (by omega)
  refine ⟨y, by unfold encodeTag; simp only [hy, padOnes_full h8], hcursor, fun p hp => ?_, hframe⟩
  rw [hbits p hp, sliced_getElem?, tagEtus_getElem? d (by omega)]

end Sys2Proof.Machine
end

section
/-! PROOFS. The encoding commands: their checks in order (R174, R175, R342), and the frames they build (R125). -/

namespace Sys2Proof.Machine

variable {s : State}

/-! ### The checks -/

/-- The operand bytes of an encoding command whose frame needs `need` bytes of the send buffer, past the checks RANGE,
UNWRITTEN and TOSEND_OVF in that order (R174, R175). -/
def encodingOperand (n : Half) (i : Instr) (need : Nat) (s : State) : Res (List Byte) :=
  match latchCommand n i s with
  | .error e => .error e
  | .ok d =>
    match checkTosend s.cfg need with
    | .error e => .error e
    | .ok () => .ok d

/-- code_as_reader is its checks, then the encoder (R174). -/
theorem codeAsReader_eq (n : Half) (i : Instr) (s : State) :
    codeAsReader n i s = (encodingOperand n i (readerLen n.toNat) s).bind fun d =>
      (encodeReader s.cfg d s.mem).map fun x => (d, x) := by
  unfold codeAsReader encodingOperand
  cases latchCommand n i s with
  | error e => rfl
  | ok d =>
    cases checkTosend s.cfg (readerLen n.toNat) with
    | error e => rfl
    | ok u => cases h : encodeReader s.cfg d s.mem <;> simp [h, Except.bind]

/-- code_as_tag is its checks, then the encoder (R175). -/
theorem codeAsTag_eq (n : Half) (i : Instr) (s : State) :
    codeAsTag n i s = (encodingOperand n i (tagLen n.toNat) s).bind fun d => encodeTag s.cfg d s.mem := by
  unfold codeAsTag encodingOperand
  cases latchCommand n i s with
  | error e => rfl
  | ok d => cases checkTosend s.cfg (tagLen n.toNat) <;> rfl

/-- CMDBUF[k .. k+n-1] is latched when its bytes have been written. -/
theorem latchFrom_of_written {k n : Nat} {m : Memory} (h : ∀ j < n, written .cmdbuf (k + j) m) :
    ∃ d, latchFrom k n m = .ok d := by
  induction n generalizing k with
  | zero => exact ⟨[], rfl⟩
  | succ n ih =>
    obtain ⟨v, hv⟩ := Option.isSome_iff_exists.1 (h 0 (Nat.succ_pos n))
    obtain ⟨d, hd⟩ := ih (k := k + 1) fun j hj => by rw [Nat.add_assoc, Nat.add_comm 1]; exact h (j + 1) (by omega)
    rw [Nat.add_zero] at hv
    exact ⟨v :: d, by simp only [latchFrom, hv, hd]⟩

/-- The bytes latched are those that stand in CMDBUF. -/
theorem latchFrom_of_read {k : Nat} {d : List Byte} {m : Memory}
    (h : ∀ j (hj : j < d.length), m.read (Window.cmdbuf.base + (k + j)) = some d[j]) : latchFrom k d.length m = .ok d := by
  induction d generalizing k with
  | nil => rfl
  | cons v rest ih =>
    have hv : m.read (Window.cmdbuf.base + k) = some v := h 0 (Nat.succ_pos _)
    have hrest := ih (k := k + 1) fun j hj => by
      rw [Nat.add_assoc, Nat.add_comm 1]
      exact h (j + 1) (by simpa using hj)
    simp only [List.length_cons, latchFrom, hv, hrest]

/-- The least unwritten operand byte raises UNWRITTEN at its address (R174). -/
theorem latchFrom_of_unwritten {k j n : Nat} {m : Memory} (hj : j < n) (hnone : m.read (Window.cmdbuf.base + (k + j)) = none)
    (hbelow : ∀ l < j, written .cmdbuf (k + l) m) :
    latchFrom k n m = .error (.raise .unwritten (BitVec.ofNat 32 (Window.cmdbuf.base + (k + j)))) := by
  induction n generalizing k j with
  | zero => omega
  | succ n ih =>
    cases j with
    | zero =>
      rw [Nat.add_zero] at hnone
      simp only [latchFrom, hnone, Nat.add_zero]
    | succ j =>
      obtain ⟨v, hv⟩ := Option.isSome_iff_exists.1 (hbelow 0 (Nat.succ_pos j))
      rw [Nat.add_zero] at hv
      have hshift (l : Nat) : k + 1 + l = k + (l + 1) := by omega
      have hrest := ih (k := k + 1) (j := j) (by omega) (by rwa [hshift]) fun l hl => by
        rw [hshift]; exact hbelow (l + 1) (by omega)
      rw [hshift] at hrest
      simp only [latchFrom, hv, hrest]

/-- The three commands that encode CMDBUF[0..n-1], each with the bytes its frame needs (R174, R175, R278). -/
def Encodes (n : Half) (i : Instr) (need : Nat) : Prop :=
  (i = .codeReader n ∨ i = .trxCodeTxReader n) ∧ need = readerLen n.toNat ∨ i = .codeTag n ∧ need = tagLen n.toNat

/-- A check that fails is the outcome of the command. -/
theorem Encodes.exec_raise {n : Half} {i : Instr} {need : Nat} (h : Encodes n i need) {code : FaultCode} {info : Word}
    (hcheck : encodingOperand n i need s = .error (.raise code info)) : exec i s = .next (s.raise code info) := by
  rcases h with ⟨rfl | rfl, rfl⟩ | ⟨rfl, rfl⟩
  · simp [exec, execCodeReader, commitSend, codeAsReader_eq, hcheck, Except.bind]
  · simp [exec, execTrxCodeTxReader, codeTxReader, codeAsReader_eq, hcheck, Except.bind]
  · simp [exec, execCodeTag, commitSend, codeAsTag_eq, hcheck, Except.bind]

/-- The operand of a command whose checks pass. -/
theorem encodingOperand_of_holds {n : Half} {i : Instr} {need : Nat} {d : List Byte} (hlen : d.length = n.toNat)
    (hsize : d.length ≤ s.cfg.cmdbufSize) (hd : holdsBytes .cmdbuf d s.mem) (hfit : need ≤ s.cfg.tosendSize) :
    encodingOperand n i need s = .ok d := by
  have hlatch : latchFrom 0 n.toNat s.mem = .ok d := by
    rw [← hlen]
    exact latchFrom_of_read fun j hj => by rw [Nat.zero_add]; exact hd j hj
  have hrange : checkRange n s.cfg.cmdbufSize i = .ok () := if_neg (by omega)
  have hroom : checkTosend s.cfg need = .ok () := if_neg (by omega)
  simp [encodingOperand, latchCommand, hrange, hlatch, hroom]

end Sys2Proof.Machine

open Sys2Proof Sys2Proof.Machine

/-- Settles O27: the checks pass, and the encoder appends the frame bit by bit. -/
theorem codeReaderBuildsTheReaderFrame : Obligations.CodeReaderBuildsTheReaderFrame := by
  intro n s d hc hlen hsize hd hfit
  obtain ⟨x, hx, hencoded⟩ := encodeReader_encodes hc d s.mem hfit
  have hcode : codeAsReader n (.codeReader n) s = .ok (d, x) := by
    rw [codeAsReader_eq, encodingOperand_of_holds hlen hsize hd (by rwa [← hlen])]
    simp [Except.bind, hx]
  exact ⟨s.withSend x, by simp [exec, execCodeReader, commitSend, hcode], rfl, hencoded⟩

/-- Settles O28: the checks pass, and the encoder appends the frame four bits an ETU. -/
theorem codeTagBuildsTheTagFrame : Obligations.CodeTagBuildsTheTagFrame := by
  intro n s d hc hlen hsize hd hfit
  obtain ⟨x, hx, hencoded⟩ := encodeTag_encodes hc d s.mem hfit
  have hcode : codeAsTag n (.codeTag n) s = .ok x := by
    rw [codeAsTag_eq, encodingOperand_of_holds hlen hsize hd (by rwa [← hlen])]
    exact hx
  exact ⟨s.withSend x, by simp [exec, execCodeTag, commitSend, hcode], rfl, hencoded⟩

/-- Settles O29: each check that fails, with the ones before it passed, is the outcome of the command. -/
theorem encodingChecksInOrder : Obligations.EncodingChecksInOrder := by
  intro n s i need h
  have hraise {code : FaultCode} {info : Word} := Encodes.exec_raise (s := s) (code := code) (info := info) h
  refine ⟨fun hn => hraise ?_, fun k hn hk hnone hbelow => hraise ?_, fun hn hall hneed => hraise ?_⟩
  · simp [encodingOperand, latchCommand, checkRange, hn]
  · have hrange : checkRange n s.cfg.cmdbufSize i = .ok () := if_neg (by omega)
    have hlatch := latchFrom_of_unwritten (k := 0) hk (by rwa [Nat.zero_add]) fun j hj => by
      rw [Nat.zero_add]; exact hbelow j hj
    rw [Nat.zero_add] at hlatch
    simp [encodingOperand, latchCommand, hrange, hlatch, Window.base]
  · have hrange : checkRange n s.cfg.cmdbufSize i = .ok () := if_neg (by omega)
    obtain ⟨d, hlatch⟩ := latchFrom_of_written (k := 0) fun j hj => by rw [Nat.zero_add]; exact hall j hj
    simp [encodingOperand, latchCommand, hrange, hlatch, checkTosend, hneed]

end

section
/-! PROOFS. CRC_B and the classifier (R131 to R134, R142), and the end of a valid character (R208). -/

namespace Sys2Proof.Machine

/-! ### CRC_B -/

theorem crcShifts_eq_iterate (n : Nat) (c : Half) : crcShifts n c = crcShift^[n] c := by
  induction n generalizing c with
  | zero => rfl
  | succ n ih => rw [crcShifts, ih, Function.iterate_succ_apply]

/-- One byte more: its loop runs on the register before the final complement (R131). -/
theorem crcB_append (b : List Byte) (x : Byte) :
    crcB (b ++ [x]) = crcShift^[8] ((crcB b ^^^ 0xFFFF) ^^^ x.setWidth 16) ^^^ 0xFFFF := by
  have hregister : crcB b ^^^ 0xFFFF = b.foldl crcByte 0xFFFF := by
    rw [crcB, BitVec.xor_assoc, BitVec.xor_self, BitVec.xor_zero]
  rw [hregister, crcB, List.foldl_append, List.foldl_cons, List.foldl_nil, crcByte, crcShifts_eq_iterate]

theorem checkCrc_appendCrc (b : List Byte) : checkCrc (appendCrc b) = true := by
  simp [checkCrc, appendCrc, crcBytes]

/-- A frame that verifies is the rest of it with the rest's CRC (R133). -/
theorem eq_appendCrc_of_checkCrc {f : List Byte} (h : checkCrc f = true) : f = appendCrc (f.take (f.length - 2)) := by
  simp only [checkCrc, Bool.and_eq_true, beq_iff_eq] at h
  rw [appendCrc, ← h.2, List.take_append_drop]

/-! ### The classifier -/

/-- The mask 0x08 tests bit 3 (R142). -/
theorem and_8_eq_zero_iff (b : Byte) : b &&& 0x08 = 0 ↔ b.getLsbD 3 = false := by
  revert b
  decide +kernel

/-- The tests of R142 in their order, as five cases that exclude each other. -/
theorem classify_cases (f : List Byte) :
    (f.length = 5 ∧ f[0]? = some 0x05 ∧ ∃ p, f[2]? = some p ∧
      (p.getLsbD 3 = true ∧ classify f = .wupb ∨ p.getLsbD 3 = false ∧ classify f = .reqb)) ∨
    (f.length = 11 ∧ f[0]? = some 0x1D ∧ classify f = .attrib) ∨
    (f.length = 7 ∧ f[0]? = some 0x50 ∧ classify f = .hltb) ∨
    (¬ (f.length = 5 ∧ f[0]? = some 0x05) ∧ ¬ (f.length = 11 ∧ f[0]? = some 0x1D) ∧
      ¬ (f.length = 7 ∧ f[0]? = some 0x50) ∧ classify f = .other) := by
  unfold classify
  split
  · rename_i b0 b1 b2 b3 b4
    by_cases h0 : b0 = 0x05
    · refine .inl ⟨rfl, congrArg some h0, b2, rfl, ?_⟩
      cases hbit : b2.getLsbD 3 with
      | true => exact .inl ⟨rfl, by rw [if_pos h0, if_pos (mt (and_8_eq_zero_iff b2).1 (by simp [hbit]))]⟩
      | false => exact .inr ⟨rfl, by rw [if_pos h0, if_neg (not_not.2 ((and_8_eq_zero_iff b2).2 hbit))]⟩
    · exact .inr (.inr (.inr ⟨by simpa using h0, by simp, by simp, if_neg h0⟩))
  · rename_i b0 rest hnot
    have h5 : ¬ (b0 :: rest).length = 5 := fun h => by
      obtain ⟨b1, b2, b3, b4, rfl⟩ := List.length_eq_four.1 (Nat.succ.inj h)
      exact hnot _ _ _ _ rfl
    by_cases h11 : (b0 :: rest).length = 11 ∧ b0 = 0x1D
    · exact .inr (.inl ⟨h11.1, congrArg some h11.2, if_pos h11⟩)
    · by_cases h7 : (b0 :: rest).length = 7 ∧ b0 = 0x50
      · exact .inr (.inr (.inl ⟨h7.1, congrArg some h7.2, by rw [if_neg h11, if_pos h7]⟩))
      · exact .inr (.inr (.inr ⟨fun h => h5 h.1, fun h => h11 ⟨h.1, Option.some.inj h.2⟩,
          fun h => h7 ⟨h.1, Option.some.inj h.2⟩, by rw [if_neg h11, if_neg h7]⟩))
  · simp

/-! ### A valid character -/

theorem characterByte_eq (r : BitVec 10) : characterByte r = r.extractLsb' 1 8 := by
  revert r
  decide +kernel

end Sys2Proof.Machine

open Sys2Proof Sys2Proof.Machine

/-- Settles O30: the recurrence by the fold, the constants by evaluation, and a frame split at its last two bytes. -/
theorem crcAppendThenVerifyIsAFixedPoint : Obligations.CrcAppendThenVerifyIsAFixedPoint :=
  ⟨by decide, crcB_append, by decide +kernel, by decide +kernel, by decide, fun _ => rfl, checkCrc_appendCrc,
    fun _ h => ⟨_, eq_appendCrc_of_checkCrc h⟩, by decide, by decide⟩

/-- Settles O56: each of the five cases of the tests gives its event and, by its length or first byte, no other. -/
theorem classifierTestsLengthAndFirstByte : Obligations.ClassifierTestsLengthAndFirstByte := by
  intro f
  rcases classify_cases f with ⟨hlen, h0, p, h2, ⟨hbit, he⟩ | ⟨hbit, he⟩⟩ | ⟨hlen, h0, he⟩ | ⟨hlen, h0, he⟩ |
      ⟨h5, h11, h7, he⟩ <;>
    rw [he] <;> grind

/-- Settles O34: at the limit before the store, or stored with room under R42. -/
theorem uartStoresAValidCharacter : Obligations.UartStoresAValidCharacter := by
  intro b s r hc h hi hstop hstart
  have hw : wellFramed r := ⟨hstop, hstart⟩
  by_cases hl : s.cfg.uartOvfCheck = .beforeStore ∧ s.uart.byteCntMax ≤ s.uart.byteCnt
  · exact ⟨_, exec_uartStep (uartStep_atLimit hi hw hl.1 hl.2), rfl, fun _ _ => ⟨rfl, rfl⟩, fun hno => absurd hl hno⟩
  · refine ⟨_, exec_uartStep (uartStep_stores hi hw hl (h.room_of_not_atLimit hc hl).1), rfl,
      fun hb hle => absurd ⟨hb, hle⟩ hl, fun _ => ⟨?_, fun a ha => Memory.read_write_other _ _ ha, ?_⟩⟩
    · rw [← characterByte_eq]
      exact Memory.read_write_same ..
    · rfl

end

section
/-! PROOFS. The acceptance of a tag transmission and of a receive (R276, R280), and which commands leave the engine busy
(R127). -/

namespace Sys2Proof.Machine

variable {s t : State}

/-- A tag transmission at TX_IDX 0 waits at its first byte, or ends at once where its source is empty (R276). -/
theorem tagNext_first (src : TxSource) (hidx : s.eng.txIdx = 0) :
    tagNext src s = if txLen src s = 0 then s.complete else s.holdAt (.tagByte src) := by
  by_cases h0 : txLen src s = 0
  · simp [tagNext, hidx, h0]
  · simp [tagNext, hidx, h0, Nat.pos_of_ne_zero]

/-- A tag transmission accepted (R276). -/
theorem startTag_eq_tagBegun (op : Byte) (src : TxSource) (s : State) : startTag op src s = tagBegun op src s := by
  have hfirst : startTag op src s = _ := tagNext_first src rfl
  by_cases h0 : txLen src s = 0
  · rw [hfirst, if_pos (by cases src <;> exact h0), tagBegun, if_pos h0]; rfl
  · rw [hfirst, if_neg (by cases src <;> exact h0), tagBegun, if_neg h0]; rfl

theorem exec_trxTxTag {sel : BitVec 2} {src : TxSource} (h : txSourceOf sel = some src) (s : State) :
    exec (.trxTxTag sel) s = .next (tagBegun 0x31 src s) := by
  rw [← startTag_eq_tagBegun]
  simp [exec, execTrxTxTag, trxTxTag, h]

theorem exec_trxTxTag_reserved {sel : BitVec 2} (h : txSourceOf sel = none) (s : State) :
    exec (.trxTxTag sel) s = .next (s.raise .illegal (encode (.trxTxTag sel))) := by
  simp [exec, execTrxTxTag, trxTxTag, h]

/-- The engine of a tag transmission begun: at its hold, or idle again (R276). -/
theorem tagBegun_eng (op : Byte) (src : TxSource) (s : State) :
    (txLen src s = 0 ∧ (tagBegun op src s).eng.busy = false) ∨
    ((tagBegun op src s).eng.busy = true ∧ (tagBegun op src s).eng.op = op ∧ (tagBegun op src s).eng.hold = .tagByte src) := by
  by_cases h0 : txLen src s = 0
  · exact .inl ⟨h0, by simp [tagBegun, h0, idled]⟩
  · exact .inr (by simp [tagBegun, h0])

/-- TRX.RX_TAG accepted, up to its first sample, or its RANGE fault (R280). -/
theorem exec_trxRxTag_cases (n : Half) (s : State) :
    (n.toNat ≤ s.cfg.doutSize ∧ exec (.trxRxTag n) s = .next { s with
      demod := demodReset n, dDone := false, ring := { s.ring with consumed := s.ring.produced }
      eng := { s.eng with
        busy := true, op := 0x32, hold := .sample, rxT0 := s.env.now, rxSamples := 0, rxLimit := s.arg0 } }) ∨
    (s.cfg.doutSize < n.toNat ∧ exec (.trxRxTag n) s = .next (s.raise .range (encode (.trxRxTag n)))) := by
  rcases demodInit_cases n (.trxRxTag n) s with ⟨hn, he⟩ | ⟨hn, he⟩
  · refine .inl ⟨hn, ?_⟩
    simp only [exec, execTrxRxTag, trxRxTag, he, commit_ok]
    rfl
  · exact .inr ⟨hn, by simp only [exec, execTrxRxTag, trxRxTag, he, commit_raise]⟩

/-- The effect of a command that does not wait leaves the engine as it is (R127). -/
theorem Effect.keeps_eng {i : Instr} (h : Effect s t i) (hw : waits i = false) : t.eng = s.eng := by
  cases i with
  | tosendReset | uartInit | demodInit => subst h; rfl
  | tosendStuff | tosendStuff4 | codeReader | codeTag | uartStep | demodStep => obtain ⟨x, -, rfl⟩ := h; rfl
  | trxSetTimeout | trxSetMaxFrame | emuField => obtain ⟨x, rfl⟩ := h; rfl
  | emuInit => obtain ⟨ts, m, e, rfl, -⟩ := h; rfl
  | trxTxReader | trxTxTag | trxRxTag | trxCodeTxReader | emuFrame | emuRx => cases hw

end Sys2Proof.Machine

open Sys2Proof Sys2Proof.Machine

/-- Settles O47: each selector names its source, the reserved one none. -/
theorem txTagIsAccepted : Obligations.TxTagIsAccepted := by
  intro s
  exact ⟨exec_trxTxTag rfl s, by decide, exec_trxTxTag rfl s, by decide, exec_trxTxTag rfl s, by decide,
    exec_trxTxTag_reserved rfl s⟩

/-- Settles O18: a fault or an effect that keeps the engine leaves it idle; a command that waits stands at its hold. -/
theorem onlyWaitingCommandsLeaveTheEngineBusy : Obligations.OnlyWaitingCommandsLeaveTheEngineBusy := by
  intro i s t h hexec
  refine ⟨fun hw => ?_, fun hw hf => ?_⟩
  · rcases exec_cases hexec with ⟨code, info, rfl⟩ | he
    · simp
    · rw [he.keeps_eng hw]
      exact ⟨h.idle, h.noOp⟩
  have hraised {code : FaultCode} {info : Word} : t ≠ s.raise code info := by
    rintro rfl
    simpa [hf] using State.raise_fault_isSome s code info
  have heffect : Effect s t i := (exec_cases hexec).resolve_left fun ⟨_, _, ht⟩ => hraised ht
  cases i with
  | trxTxReader => subst heffect; exact .inl ⟨rfl, rfl, nofun⟩
  | trxCodeTxReader n => obtain ⟨cmd, x, -, rfl⟩ := heffect; exact .inl ⟨rfl, rfl, nofun⟩
  | emuRx n => subst heffect; exact .inl ⟨rfl, rfl, nofun⟩
  | trxRxTag n =>
    rcases exec_trxRxTag_cases n s with ⟨-, he⟩ | ⟨-, he⟩ <;> obtain rfl := Host.Outcome.next.inj (hexec.symm.trans he)
    · exact .inl ⟨rfl, rfl, nofun⟩
    · exact absurd rfl hraised
  | trxTxTag sel =>
    cases hsrc : txSourceOf sel with
    | none => exact absurd (Host.Outcome.next.inj (hexec.symm.trans (exec_trxTxTag_reserved hsrc s))) hraised
    | some src =>
      obtain rfl := Host.Outcome.next.inj (hexec.symm.trans (exec_trxTxTag hsrc s))
      rcases tagBegun_eng 0x31 src s with ⟨hlen, hbusy⟩ | ⟨hbusy, hop, hhold⟩
      · exact .inr ⟨hbusy, .inl ⟨sel, src, rfl, hsrc, hlen⟩⟩
      · exact .inl ⟨hbusy, hop, by rw [hhold]; exact nofun⟩
  | emuFrame =>
    rcases heffect with rfl | ⟨x, f, rfl⟩
    · exact .inr ⟨h.idle, .inr rfl⟩
    · unfold emuAnswered
      split
      · exact .inr ⟨h.idle, .inr rfl⟩
      · rename_i src hsrc
        rw [startTag_eq_tagBegun]
        rcases tagBegun_eng 0x42 src (emuMoved x.1 x.2.2 f s) with ⟨-, hbusy⟩ | ⟨hbusy, hop, hhold⟩
        · exact .inr ⟨hbusy, .inr rfl⟩
        · exact .inl ⟨hbusy, hop, by rw [hhold]; exact nofun⟩
  | tosendReset | tosendStuff | tosendStuff4 | codeReader | codeTag | uartInit | uartStep | demodInit | demodStep
  | trxSetTimeout | trxSetMaxFrame | emuInit | emuField => cases hw

end

section
/-! SUPPORT. What a decoder that shifts ten-bit characters in does over whole runs of samples (R123, R208, R244): said once
for the Uart and the Demod, whatever either one's samples of a bit are. -/

namespace Sys2Proof.Machine

/-! ### Runs over samples -/

/-- Over the inputs `l` the steps of `R` lead from `x` to a place with `Q`. -/
def Leads {α σ : Type} (R : α → σ → σ → Prop) : List α → (σ → Prop) → σ → Prop
  | [], Q, x => Q x
  | a :: l, Q, x => ∃ y, R a x y ∧ Leads R l Q y

section

variable {α σ : Type} {R : α → σ → σ → Prop} {l l' : List α} {P Q : σ → Prop} {x : σ}

theorem Leads.mono (h : Leads R l P x) (hPQ : ∀ y, P y → Q y) : Leads R l Q x := by
  induction l generalizing x with
  | nil => exact hPQ x h
  | cons a l ih =>
    obtain ⟨y, hy, h⟩ := h
    exact ⟨y, hy, ih h⟩

theorem Leads.imp {R' : α → σ → σ → Prop} (h : Leads R l Q x) (hR : ∀ a x y, R a x y → R' a x y) : Leads R' l Q x := by
  induction l generalizing x with
  | nil => exact h
  | cons a l ih =>
    obtain ⟨y, hy, h⟩ := h
    exact ⟨y, hR a x y hy, ih h⟩

theorem leads_append : Leads R (l ++ l') Q x ↔ Leads R l (Leads R l' Q) x := by
  induction l generalizing x with
  | nil => exact Iff.rfl
  | cons a l ih => simp only [List.cons_append, Leads, ih]

theorem Leads.append (h : Leads R l P x) (h' : ∀ y, P y → Leads R l' Q y) : Leads R (l ++ l') Q x :=
  leads_append.2 (h.mono h')

/-- What leads somewhere does not stop on the way. -/
theorem Leads.take (h : Leads R l Q x) (k : Nat) : Leads R (l.take k) (fun _ => True) x := by
  rw [← List.take_append_drop k l, leads_append] at h
  exact h.mono fun _ _ => trivial

/-- Inputs that change nothing. -/
theorem Leads.stay (h : ∀ a ∈ l, R a x x) (hQ : Q x) : Leads R l Q x := by
  induction l with
  | nil => exact hQ
  | cons a l ih => exact ⟨x, h a List.mem_cons_self, ih fun b hb => h b (List.mem_cons_of_mem a hb)⟩

/-- One input over and over, counted. -/
theorem Leads.replicate {a : α} {n : Nat} {P : Nat → σ → Prop} (h : ∀ k < n, ∀ x, P k x → ∃ y, R a x y ∧ P (k + 1) y)
    (hP : P 0 x) : Leads R (List.replicate n a) (P n) x := by
  induction n generalizing x P with
  | zero => exact hP
  | succ n ih =>
    obtain ⟨y, hy, hP⟩ := h 0 n.succ_pos x hP
    exact ⟨y, hy, ih (P := fun k => P (k + 1)) (fun k hk => h (k + 1) (by omega)) hP⟩

end

/-! ### Ten-bit characters -/

/-- The shift register after more bits (R208, R244). -/
def shiftedIn (bits : List Bool) (r : BitVec 10) : BitVec 10 := bits.foldl (fun r b => shiftIn b r) r

/-- The ten bits of a byte's character shift in as a well-framed image of that byte (R123). -/
theorem shiftedIn_character (b : Byte) :
    wellFramed (shiftIn true (shiftedIn (dataBits b) 0)) ∧
      characterByte (shiftIn true (shiftedIn (dataBits b) 0)) = b := by
  unfold wellFramed
  revert b
  decide +kernel

/-- A decoder of characters, of which `ch b` are the samples of a bit: the places where it waits for a start bit with the
bytes `l` received, those where it has `k` bits of a character in its shift register, and how it goes from one to another.
It takes fewer than `limit` bytes before the last. -/
structure CharacterDecoder {α σ : Type} (R : α → σ → σ → Prop) (ch : Bool → List α) (limit : Nat) where
  ready : (l : List Byte) → σ → Prop
  receiving : (l : List Byte) → (k : Nat) → (r : BitVec 10) → σ → Prop
  start : ∀ {l x}, ready l x → Leads R (ch false) (receiving l 1 0) x
  bit : ∀ {l k r x} b, receiving l k r x → k < 9 → Leads R (ch b) (receiving l (k + 1) (shiftIn b r)) x
  store : ∀ {l r x}, receiving l 9 r x → wellFramed (shiftIn true r) → l.length < limit →
    Leads R (ch true) (ready (l ++ [characterByte (shiftIn true r)])) x

namespace CharacterDecoder

variable {α σ : Type} {R : α → σ → σ → Prop} {ch : Bool → List α} {limit : Nat} (D : CharacterDecoder R ch limit)
  {l : List Byte} {x : σ}

theorem bits {k : Nat} {r : BitVec 10} (h : D.receiving l k r x) (bits : List Bool) (hk : k + bits.length ≤ 9) :
    Leads R (bits.flatMap ch) (D.receiving l (k + bits.length) (shiftedIn bits r)) x := by
  induction bits generalizing k r x with
  | nil => exact h
  | cons b bits ih =>
    rw [List.length_cons] at hk ⊢
    refine (D.bit b h (by omega)).append fun y hy => ?_
    rw [show k + (bits.length + 1) = k + 1 + bits.length by omega]
    exact ih hy (by omega)

/-- A character is received as its byte. -/
theorem character (h : D.ready l x) (b : Byte) (hroom : l.length < limit) :
    Leads R ((characterBits b).flatMap ch) (D.ready (l ++ [b])) x := by
  obtain ⟨hframed, hbyte⟩ := shiftedIn_character b
  rw [characterBits, List.flatMap_cons, List.flatMap_append, List.flatMap_singleton]
  refine (D.start h).append fun y hy => (D.bits hy (dataBits b) le_rfl).append fun z hz => ?_
  have hstored := D.store hz hframed hroom
  rwa [hbyte] at hstored

/-- The characters of a frame are received as its bytes. -/
theorem characters (h : D.ready l x) (d : List Byte) (hroom : l.length + d.length ≤ limit) :
    Leads R ((charactersBits d).flatMap ch) (D.ready (l ++ d)) x := by
  induction d generalizing l x with
  | nil => rwa [List.append_nil]
  | cons b d ih =>
    rw [List.length_cons] at hroom
    rw [charactersBits, List.flatMap_cons, List.flatMap_append, ← charactersBits, List.append_cons]
    exact (D.character h b (by omega)).append fun y hy => ih hy (by rw [List.length_append, List.length_singleton]; omega)

/-- Nine zeros leave the shift register empty, one bit before an EOF's end (R124). -/
theorem nineZeros (h : D.ready l x) : Leads R ((List.replicate 9 false).flatMap ch) (D.receiving l 9 0) x :=
  (D.start h).append fun _ hy => D.bits hy (List.replicate 8 false) le_rfl

end CharacterDecoder

/-! ### Bytes received -/

/-- One byte written after the bytes of a buffer. -/
theorem holdsBytes_append {w : Window} {l : List Byte} {m : Memory} (h : holdsBytes w l m) (v : Byte) :
    holdsBytes w (l ++ [v]) (m.write (w.base + l.length) v) := by
  intro k hk
  rw [List.length_append, List.length_singleton] at hk
  rw [Memory.read_write, List.getElem_append]
  by_cases hlast : k < l.length
  · rw [if_neg (by omega), dif_pos hlast, h k hlast]
  · rw [if_pos (by omega), dif_neg hlast]
    simp

theorem holdsBytes_nil (w : Window) (m : Memory) : holdsBytes w [] m := fun _ hk => absurd hk (Nat.not_lt_zero _)

/-! ### Runs of the machine -/

theorem runCommands_append (l l' : List Instr) (s : State) :
    runCommands (l ++ l') s = andThen (runCommands l s) (runCommands l') := by
  induction l generalizing s with
  | nil => rfl
  | cons i l ih =>
    simp only [List.cons_append, runCommands]
    cases exec i s with
    | next t => exact ih t
    | fault r => rfl
    | refused r => rfl

theorem runSteps_add (j k : Nat) (s : State) : runSteps (j + k) s = andThen (runSteps j s) (runSteps k) := by
  induction j generalizing s with
  | zero => rw [Nat.zero_add]; rfl
  | succ j ih =>
    rw [Nat.succ_add]
    simp only [runSteps]
    cases step s with
    | next t => exact ih t
    | fault r => rfl
    | refused r => rfl

theorem runSteps_one (s : State) : runSteps 1 s = step s := by
  rw [runSteps]
  cases step s <;> rfl

section

variable {α σ : Type} {R : α → σ → σ → Prop} {l : List α} {Q : σ → Prop} {x : σ} {s : State}

/-- A decoder's run by commands, one a sample, where `P` says which states stand for a place of the decoder. -/
theorem Leads.runCommands {P : σ → State → Prop} {cmd : α → Instr} (h : Leads R l Q x)
    (hR : ∀ {a x y s}, R a x y → P x s → Answers (P y) (exec (cmd a) s)) (hs : P x s) :
    Answers (fun t => ∃ y, Q y ∧ P y t) (runCommands (l.map cmd) s) := by
  induction l generalizing x s with
  | nil => exact ⟨s, rfl, x, h, hs⟩
  | cons a l ih =>
    obtain ⟨y, hy, h⟩ := h
    obtain ⟨t, ht, hP⟩ := hR hy hs
    simp only [List.map_cons, Machine.runCommands, ht]
    exact ih h hP

/-- A decoder's run in a receive that takes one of the samples to come by every `n` steps. -/
theorem Leads.runSteps {P : σ → List α → State → Prop} {n : Nat} (h : Leads R l Q x)
    (hR : ∀ {a rest x y s}, R a x y → P x (a :: rest) s → Answers (P y rest) (runSteps n s)) {rest : List α}
    (hs : P x (l ++ rest) s) : Answers (fun t => ∃ y, Q y ∧ P y rest t) (runSteps (n * l.length) s) := by
  induction l generalizing x s with
  | nil => exact ⟨s, rfl, x, h, hs⟩
  | cons a l ih =>
    obtain ⟨y, hy, h⟩ := h
    obtain ⟨t, ht, hP⟩ := hR hy hs
    rw [List.length_cons, Nat.mul_succ, Nat.add_comm, runSteps_add, ht]
    exact ih h hP

end

end Sys2Proof.Machine
end

section
/-! SUPPORT. The Uart over the ideal channel of a reader frame (R200, R205 to R209): it receives the frame's bytes, and the
last mid-bit sample of the EOF is the first step that returns true. -/

namespace Sys2Proof.Machine

variable {c : Config} {n : Half} {l : List Byte} {u : Uart}

/-! ### Steps whatever memory holds besides the bytes received -/

/-- On the sample `b` the Uart goes from its registers and the bytes in UOUT of `x` to those of `y` and returns `done`. -/
def UartGoes (c : Config) (done b : Bool) (x y : Uart × List Byte) : Prop :=
  ∀ m, holdsBytes .uout x.2 m →
    ∃ m', uartStep c b x.1 m = .ok { uart := y.1, mem := m', done := done } ∧ holdsBytes .uout y.2 m'

/-- A step that stores nothing. -/
theorem UartGoes.of_step {u' : Uart} {done b : Bool}
    (h : ∀ m, uartStep c b u m = .ok { uart := u', mem := m, done := done }) : UartGoes c done b (u, l) (u', l) :=
  fun m hm => ⟨m, h m, hm⟩

theorem uartGoes_idle (hs : u.state = .awaitingStartBit) (hp : u.posCnt.toNat < 25) :
    UartGoes c false true (u, l) ({ u with posCnt := u.posCnt + 1 }, l) :=
  .of_step fun _ => by
    rw [uartStep_awaiting hs, uartAwaitStart_high, if_neg (by rw [BitVec.toNat_add]; simp; omega)]

/-- How many bytes the Uart stores before its limit is an overflow (R208). -/
def uartRoom (c : Config) (n : Half) : Nat := if c.uartOvfCheck = .beforeStore then n.toNat else n.toNat - 1

theorem uartRoom_le (c : Config) (n : Half) : uartRoom c n ≤ n.toNat := by
  unfold uartRoom; split <;> omega

/-- A valid character with room is stored after the bytes received (R208). -/
theorem uartGoes_store {b : Bool} {r : BitVec 10} (hi : uartImage b u r) (hw : wellFramed r)
    (hcount : u.byteCnt.toNat = l.length) (hmax : u.byteCntMax.toNat ≤ c.uoutSize)
    (hroom : l.length < uartRoom c u.byteCntMax) :
    UartGoes c false b (u, l) (uartNextCharacter { u with byteCnt := u.byteCnt + 1 }, l ++ [characterByte r]) := by
  intro m hm
  have hle := uartRoom_le c u.byteCntMax
  have hbefore : ¬ (c.uartOvfCheck = .beforeStore ∧ u.byteCntMax ≤ u.byteCnt) := by
    rw [BitVec.le_def]; omega
  have hafter : ¬ (c.uartOvfCheck = .afterStore ∧ u.byteCntMax ≤ u.byteCnt + 1) := by
    rintro ⟨hpolicy, hlimit⟩
    rw [uartRoom, if_neg (by simp [hpolicy])] at hroom
    rw [BitVec.le_def, BitVec.toNat_add] at hlimit
    simp at hlimit
    omega
  refine ⟨_, ?_, holdsBytes_append hm (characterByte r)⟩
  rw [uartStep_stores hi hw hbefore (by omega), if_neg hafter, hcount]

/-! ### The Uart as a decoder of characters -/

/-- The registers of a frame of which the bytes `l` have been received (R40, R42). -/
structure UartHolds (n : Half) (l : List Byte) (x : Uart × List Byte) : Prop where
  bytes : x.2 = l
  count : x.1.byteCnt.toNat = l.length
  limit : x.1.byteCntMax = n

/-- The Uart waits for a start bit (R207). -/
structure UartReady (n : Half) (l : List Byte) (x : Uart × List Byte) : Prop extends UartHolds n l x where
  state : x.1.state = .awaitingStartBit

/-- The Uart has `k` bits of a character in its shift register, and the last sample it took is number `p` of its bit (R208). -/
structure UartReceives (n : Half) (l : List Byte) (p k : Nat) (r : BitVec 10) (x : Uart × List Byte) : Prop
    extends UartHolds n l x where
  state : x.1.state = .receivingData
  pos : x.1.posCnt.toNat % 4 = p
  bits : x.1.bitCnt.toNat = k
  shift : x.1.shift = r

/-- The count of samples runs modulo 4 also where the register wraps. -/
theorem posCnt_next (pos : Byte) : (pos + 1).toNat % 4 = (pos.toNat % 4 + 1) % 4 := by
  rw [BitVec.toNat_add]; simp

theorem UartReady.start (c : Config) {x : Uart × List Byte} (h : UartReady n l x) :
    ∃ y, UartGoes c false false x y ∧ UartReceives n l 0 0 0 y := by
  obtain ⟨u, bytes⟩ := x
  exact ⟨({ u with state := .receivingData, posCnt := 0, bitCnt := 0, shift := 0 }, bytes),
    .of_step fun _ => uartStep_awaiting h.state false, ⟨h.bytes, h.count, h.limit⟩, rfl, rfl, rfl, rfl⟩

theorem UartReceives.between (c : Config) (b : Bool) {p k : Nat} {r : BitVec 10} {x : Uart × List Byte}
    (h : UartReceives n l p k r x) (hp : p ≠ 1) :
    ∃ y, UartGoes c false b x y ∧ UartReceives n l ((p + 1) % 4) k r y := by
  obtain ⟨u, bytes⟩ := x
  obtain ⟨⟨hbytes, hcount, hlimit⟩, hs, rfl, hbits, hshift⟩ := h
  refine ⟨({ u with posCnt := u.posCnt + 1 }, bytes), .of_step fun m => ?_, ⟨hbytes, hcount, hlimit⟩, hs,
    posCnt_next u.posCnt, hbits, hshift⟩
  have hmid : (u.posCnt.toNat + 1) % 4 ≠ 2 := by simp only at hp; omega
  rw [uartStep_receiving hs, uartReceiving_between b hmid]

/-- The mid-bit sample of one of the first nine bits shifts it in (R208). -/
theorem UartReceives.midBit (c : Config) (b : Bool) {k : Nat} {r : BitVec 10} {x : Uart × List Byte}
    (h : UartReceives n l 1 k r x) (hk : k < 9) :
    ∃ y, UartGoes c false b x y ∧ UartReceives n l 2 (k + 1) (shiftIn b r) y := by
  obtain ⟨u, bytes⟩ := x
  obtain ⟨⟨hbytes, hcount, hlimit⟩, hs, hp, rfl, rfl⟩ := h
  refine ⟨({ u with posCnt := u.posCnt + 1, bitCnt := u.bitCnt + 1, shift := shiftIn b u.shift }, bytes),
    .of_step fun m => ?_, ⟨hbytes, hcount, hlimit⟩, hs, (posCnt_next u.posCnt).trans (by rw [hp]), ?_, rfl⟩
  · have hmid : (u.posCnt.toNat + 1) % 4 = 2 := by simp only at hp; omega
    rw [uartStep_receiving hs, uartReceiving_bit b hmid hk]
  · simp only at hk ⊢
    rw [BitVec.toNat_add]; simp; omega

/-- At the mid-bit sample of the tenth bit the image is whole (R208). -/
theorem UartReceives.image {r : BitVec 10} {x : Uart × List Byte} (h : UartReceives n l 1 9 r x) (b : Bool) :
    uartImage b x.1 (shiftIn b r) := by
  have hp := h.pos
  exact ⟨h.state, by omega, h.bits, h.shift ▸ shiftIn_eq ..⟩

/-- A valid character with room is stored, and the Uart waits for the next one (R208). -/
theorem UartReceives.store (hn : n.toNat ≤ c.uoutSize) {r : BitVec 10} {x : Uart × List Byte}
    (h : UartReceives n l 1 9 r x) (hw : wellFramed (shiftIn true r)) (hroom : l.length < uartRoom c n) :
    ∃ y, UartGoes c false true x y ∧ UartReady n (l ++ [characterByte (shiftIn true r)]) y ∧ y.1.posCnt = 0 := by
  have hi := h.image true
  obtain ⟨u, bytes⟩ := x
  obtain ⟨rfl, hcount, rfl⟩ := h.toUartHolds
  simp only at hi hcount hn hroom hw ⊢
  refine ⟨_, uartGoes_store hi hw hcount hn hroom, ⟨⟨rfl, ?_, rfl⟩, rfl⟩, rfl⟩
  have hle := uartRoom_le c u.byteCntMax
  have hlt := u.byteCntMax.isLt
  simp [uartNextCharacter]
  omega

/-- The Uart decodes characters at four samples a bit (R207, R208). -/
def uartDecoder (hn : n.toNat ≤ c.uoutSize) :
    CharacterDecoder (UartGoes c false) (fun b => [b, b, b, b]) (uartRoom c n) where
  ready := UartReady n
  receiving l := UartReceives n l 3
  start := fun h => by
    obtain ⟨y₀, hy₀, h₀⟩ := h.start c
    obtain ⟨y₁, hy₁, h₁⟩ := h₀.between c false (by decide)
    obtain ⟨y₂, hy₂, h₂⟩ := h₁.midBit c false (by decide)
    obtain ⟨y₃, hy₃, h₃⟩ := h₂.between c false (by decide)
    exact ⟨y₀, hy₀, y₁, hy₁, y₂, hy₂, y₃, hy₃, h₃⟩
  bit := fun b h hk => by
    obtain ⟨y₀, hy₀, h₀⟩ := h.between c b (by decide)
    obtain ⟨y₁, hy₁, h₁⟩ := h₀.between c b (by decide)
    obtain ⟨y₂, hy₂, h₂⟩ := h₁.midBit c b hk
    obtain ⟨y₃, hy₃, h₃⟩ := h₂.between c b (by decide)
    exact ⟨y₀, hy₀, y₁, hy₁, y₂, hy₂, y₃, hy₃, h₃⟩
  store := fun h hw hroom => by
    obtain ⟨y₀, hy₀, h₀⟩ := h.between c true (by decide)
    obtain ⟨y₁, hy₁, h₁⟩ := h₀.between c true (by decide)
    obtain ⟨y₂, hy₂, h₂, hpos⟩ := h₁.store hn hw hroom
    exact ⟨y₀, hy₀, y₁, hy₁, y₂, hy₂, _, uartGoes_idle h₂.state (by simp [hpos]),
      ⟨h₂.bytes, h₂.count, h₂.limit⟩, h₂.state⟩

/-! ### The idle line, the SOF and the EOF -/

/-- The Uart `p` samples into the low phase of a SOF (R206). -/
def uartSof (n : Half) (p : Nat) : Uart :=
  { uartReset n with
    state := .gotFallingEdgeOfSof, bitCnt := BitVec.ofNat 8 ((p + 2) / 4), posCnt := BitVec.ofNat 8 p }

/-- The Uart `p` samples into the wait for the first start bit (R207). -/
def uartIdle (n : Half) (p : Nat) : Uart := { uartReset n with state := .awaitingStartBit, posCnt := BitVec.ofNat 8 p }

theorem uartSof_posCnt {p : Nat} (hp : p < 256) : (uartSof n p).posCnt.toNat = p := Nat.mod_eq_of_lt hp

theorem uartGoes_sofBetween (b : Bool) {p : Nat} (hp : p < 256) (hmid : (p + 1) % 4 ≠ 2) :
    UartGoes c false b (uartSof n p, l) (uartSof n (p + 1), l) :=
  .of_step fun m => by
    rw [uartStep_gotFalling rfl, uartGotFalling_between b (by rwa [uartSof_posCnt hp])]
    simp [uartSof, show (p + 1 + 2) / 4 = (p + 2) / 4 by omega, BitVec.ofNat_add]

theorem uartGoes_sofLow {p : Nat} (hp : p < 39) : UartGoes c false false (uartSof n p, l) (uartSof n (p + 1), l) := by
  by_cases hmid : (p + 1) % 4 = 2
  · refine .of_step fun m => ?_
    rw [uartStep_gotFalling rfl, uartGotFalling_low (by rwa [uartSof_posCnt (by omega)]), if_neg (by simp [uartSof]; omega)]
    simp [uartSof, show (p + 1 + 2) / 4 = (p + 2) / 4 + 1 by omega, BitVec.ofNat_add]
  · exact uartGoes_sofBetween false (by omega) hmid

theorem sliced_sofBits :
    sliced sofBits = false :: List.replicate 39 false ++ true :: true :: true :: List.replicate 5 true := rfl

/-- The idle samples and the SOF bring the Uart to the wait for the first start bit (R205 to R207). -/
theorem uart_leads_to_ready (c : Config) (n : Half) :
    Leads (UartGoes c false) (List.replicate 8 true ++ sliced sofBits) (UartReady n []) (uartReset n, []) := by
  rw [sliced_sofBits]
  refine (Leads.stay (Q := (· = (uartReset n, []))) (fun b hb => ?_) rfl).append ?_
  · obtain rfl := List.eq_of_mem_replicate hb
    exact .of_step fun _ => uartStep_unsynced rfl true
  rintro _ rfl
  refine ⟨(uartSof n 0, []), .of_step fun _ => uartStep_unsynced rfl false, ?_⟩
  refine (Leads.replicate (P := fun p x => x = (uartSof n p, []))
    (fun p hp _ hx => hx ▸ ⟨_, uartGoes_sofLow hp, rfl⟩) rfl).append ?_
  rintro _ rfl
  refine ⟨_, uartGoes_sofBetween true (by decide) (by decide), _, uartGoes_sofBetween true (by decide) (by decide),
    (uartIdle n 0, []), .of_step fun m => ?_, ?_⟩
  · rw [uartStep_gotFalling rfl, uartGotFalling_high (by rw [uartSof_posCnt (by decide)])]
    rfl
  refine (Leads.replicate (P := fun p x => x = (uartIdle n p, [])) (fun p hp _ hx => ?_) rfl).mono ?_
  · subst hx
    have hnext := uartGoes_idle (c := c) (l := []) (u := uartIdle n p) rfl (by simp [uartIdle]; omega)
    exact ⟨_, by simpa [uartIdle, BitVec.ofNat_add] using hnext, rfl⟩
  · rintro _ rfl
    exact ⟨⟨rfl, rfl, rfl⟩, rfl⟩

/-- The Uart at the last mid-bit sample of the EOF of a frame of bytes `d`: a low sample ends the frame (R203, R209). -/
def UartEnds (c : Config) (d : List Byte) (x : Uart × List Byte) : Prop :=
  ∃ u, UartGoes c true false x (u, d) ∧ u.byteCnt.toNat = d.length ∧ u.state = .unsynced

theorem UartReceives.ends {x : Uart × List Byte} (h : UartReceives n l 3 9 0 x) (hl : 1 ≤ l.length) :
    Leads (UartGoes c false) [false, false] (UartEnds c l) x := by
  obtain ⟨y, hy, h⟩ := h.between c false (by decide)
  obtain ⟨⟨u, bytes⟩, hz, h⟩ := h.between c false (by decide)
  have hi : uartImage false u 0 := h.image false
  obtain ⟨rfl, hcount, -⟩ := h.toUartHolds
  simp only at hcount
  refine ⟨y, hy, _, hz, uartFrameEnd u, .of_step fun m => ?_, hcount, rfl⟩
  rw [uartStep_eof hi, decide_eq_true (by simp only at hl; omega)]

/-! ### The whole channel -/

/-- The ideal channel of a reader frame before the last mid-bit sample of its EOF. -/
def readerLead (d : List Byte) : List Bool :=
  List.replicate 8 true ++ sliced sofBits ++ sliced (charactersBits d) ++ (sliced (List.replicate 9 false) ++ [false, false])

theorem map_readerBit (d : List Byte) : (List.range (22 + 10 * d.length)).map (readerBit d) = readerEtus d := by
  refine List.ext_getElem? fun p => ?_
  by_cases hp : p < 22 + 10 * d.length
  · rw [readerEtus_getElem? d hp, List.getElem?_map, List.getElem?_range hp, Option.map_some]
  · rw [List.getElem?_eq_none (by simpa using hp), List.getElem?_eq_none (by rw [readerEtus_length]; omega)]

theorem readerChannel_eq (d : List Byte) : readerChannel d = readerLead d ++ [false] ++ [false] := by
  have happend (l l' : List Bool) : sliced (l ++ l') = sliced l ++ sliced l' := List.flatMap_append ..
  have heof : sliced eofBits = sliced (List.replicate 9 false) ++ [false, false] ++ [false] ++ [false] := rfl
  rw [readerChannel, map_readerBit, readerEtus, happend, happend, heof, readerLead]
  simp only [List.append_assoc]

theorem readerChannel_dropLast (d : List Byte) : (readerChannel d).dropLast = readerLead d ++ [false] := by
  rw [readerChannel_eq, List.dropLast_concat]

theorem readerChannel_length (d : List Byte) : (readerChannel d).length - 1 = (readerLead d).length + 1 := by
  rw [readerChannel_eq, List.length_append, List.length_append]
  rfl

/-- A frame with room is received up to the last mid-bit sample of its EOF with no step that returns true (R178, R209). -/
theorem uart_decodes {d : List Byte} (hd : 1 ≤ d.length) (hn : n.toNat ≤ c.uoutSize)
    (hroom : d.length < n.toNat ∨ (d.length = n.toNat ∧ c.uartOvfCheck = .beforeStore)) :
    Leads (UartGoes c false) (readerLead d) (UartEnds c d) (uartReset n, []) := by
  have hlimit : d.length ≤ uartRoom c n := by
    unfold uartRoom
    split
    · omega
    · obtain hlt | ⟨-, hpolicy⟩ := hroom
      · omega
      · contradiction
  let D := uartDecoder hn
  refine ((uart_leads_to_ready c n).append fun y hy => D.characters (l := []) hy d (by simpa using hlimit)).append
    fun y hy => (D.nineZeros hy).append fun z hz => ?_
  exact UartReceives.ends hz hd

end Sys2Proof.Machine
end

section
/-! PROOFS. UART.STEP and EMU.RX over the ideal channel of a reader frame (R178, R209, R320). -/

namespace Sys2Proof.Machine

variable {s t : State} {n : Half} {x y : Uart × List Byte} {b done : Bool}

/-- `t` is `s` with the registers of `x`, its bytes in UOUT, and U_DONE 0. -/
def UartAt (s : State) (x : Uart × List Byte) (t : State) : Prop :=
  ∃ m, holdsBytes .uout x.2 m ∧ t = s.withUartRun { uart := x.1, mem := m, done := false }

theorem UartAt.exec (h : UartGoes s.cfg done b x y) (ht : UartAt s x t) :
    ∃ m, holdsBytes .uout y.2 m ∧
      exec (.uartStep b) t = .next (s.withUartRun { uart := y.1, mem := m, done := done }) := by
  obtain ⟨m, hm, rfl⟩ := ht
  obtain ⟨m', hstep, hm'⟩ := h m hm
  exact ⟨m', hm', exec_uartStep (s := s.withUartRun _) hstep⟩

/-- UART.INIT past its check, then UART.STEP over samples that lead a decoder somewhere (R201, R204). -/
theorem runCommands_uartInit (hn : n.toNat ≤ s.cfg.uoutSize) {l : List Bool} {Q : Uart × List Byte → Prop}
    (h : Leads (UartGoes s.cfg false) l Q (uartReset n, [])) :
    Answers (fun t => ∃ x, Q x ∧ UartAt s x t) (runCommands (.uartInit n :: l.map .uartStep) s) := by
  obtain ⟨-, hinit⟩ | ⟨hlt, -⟩ := uartInit_cases n (.uartInit n) s
  · have hexec : Machine.exec (.uartInit n) s = .next { s with uart := uartReset n, uDone := false } := by
      rw [Machine.exec, execUartInit, hinit, commit_ok]
    rw [runCommands, hexec]
    refine h.runCommands (P := UartAt s) (fun hg hP => ?_) ⟨s.mem, holdsBytes_nil _ _, rfl⟩
    obtain ⟨m, hm, hstep⟩ := hP.exec hg
    exact ⟨_, hstep, m, hm, rfl⟩
  · omega

/-! ### EMU.RX -/

/-- `s` with reader bits to come (R97). -/
def State.withRbits (bits : List Bool) (s : State) : State := { s with env := { s.env with rbits := bits } }

/-- One reader bit of EMU.RX: the bit is taken and the Uart steps on it (R97, R320). -/
theorem step_rbit_of_uartStep {rest : List Bool} {r : UartRun} (hbusy : s.eng.busy = true) (hhold : s.eng.hold = .rbit)
    (hc : s.env.cancel = false) (hbits : s.env.rbits = b :: rest) (hr : uartStep s.cfg b s.uart s.mem = .ok r) :
    step s = .next (afterRbit (r.done, (s.withRbits rest).withUartRun r)) := by
  have hstep : uartStepState b (s.withRbits rest) = .ok (r.done, (s.withRbits rest).withUartRun r) := by
    rw [uartStepState, show uartStep (s.withRbits rest).cfg b (s.withRbits rest).uart (s.withRbits rest).mem = .ok r from hr]
  rw [step_segment hbusy hc (by simp [holdReady, hhold, hbits]), segment, hhold]
  simp only [rbitSegment_cons hbits]
  rw [← State.withRbits, hstep, Res.map_ok, commit_ok]

/-- A state of EMU.RX waits for a reader bit, with CANCEL low (R97, R350). -/
structure AwaitsRbit (s : State) : Prop where
  busy : s.eng.busy = true
  hold : s.eng.hold = .rbit
  noCancel : s.env.cancel = false

/-- One of the bits to come is one step of the Uart (R320). -/
theorem AwaitsRbit.step (h : AwaitsRbit s) {rest : List Bool} (hg : UartGoes s.cfg done b x y)
    (ht : UartAt (s.withRbits (b :: rest)) x t) :
    ∃ m, holdsBytes .uout y.2 m ∧ step t =
      .next (afterRbit (done, (s.withRbits rest).withUartRun { uart := y.1, mem := m, done := done })) := by
  obtain ⟨m, hm, rfl⟩ := ht
  obtain ⟨m', hstep, hm'⟩ := hg m hm
  exact ⟨m', hm', step_rbit_of_uartStep
    (s := (s.withRbits (b :: rest)).withUartRun { uart := x.1, mem := m, done := false }) h.busy h.hold h.noCancel rfl hstep⟩

/-- Bits to come that lead the Uart somewhere are taken one a step (R320). -/
theorem AwaitsRbit.run (h : AwaitsRbit s) {l later : List Bool} {Q : Uart × List Byte → Prop}
    (hl : Leads (UartGoes s.cfg false) l Q x) (ht : UartAt (s.withRbits (l ++ later)) x t) :
    Answers (fun u => ∃ y, Q y ∧ UartAt (s.withRbits later) y u) (runSteps l.length t) := by
  have hrun := hl.runSteps (P := fun x bits t => UartAt (s.withRbits bits) x t) (n := 1) (fun hg hP => by
    obtain ⟨m, hm, hstep⟩ := h.step hg hP
    exact ⟨_, (runSteps_one _).trans hstep, m, hm, rfl⟩) ht
  rwa [Nat.one_mul] at hrun

end Sys2Proof.Machine

open Sys2Proof Sys2Proof.Machine

/-- Settles O36: the samples before the last mid-bit sample of the EOF are led through with no return of true, and that
sample ends the frame. -/
theorem uartDecodesTheReaderEncoding : Obligations.UartDecodesTheReaderEncoding := by
  intro n s d hd hn hroom
  have hleads := uart_decodes (c := s.cfg) hd hn hroom
  rw [readerChannel_dropLast, readerChannel_length]
  refine ⟨?_, fun k hk => ?_⟩
  · obtain ⟨t, ht, x, ⟨u, hends, hcount, hstate⟩, hat⟩ := runCommands_uartInit hn hleads
    obtain ⟨m, hm, hexec⟩ := hat.exec hends
    refine ⟨s.withUartRun { uart := u, mem := m, done := true }, ?_, rfl, hcount, hstate, hm⟩
    rw [List.map_append, ← List.cons_append, runCommands_append, ht]
    simp only [andThen, List.map_cons, List.map_nil, runCommands, hexec]
  · obtain ⟨t, ht, x, -, m, -, rfl⟩ := runCommands_uartInit hn (hleads.take k)
    have hprefix : (readerChannel d).take k = (readerLead d).take k := by
      rw [readerChannel_eq, List.append_assoc, List.take_append_of_le_length (by omega)]
    exact ⟨_, by rwa [hprefix], rfl⟩

/-- Settles O60: accepted, the command takes the samples before the last mid-bit sample of the EOF one a step, and ends at
that one. -/
theorem emuRxReceivesTheReaderEncoding : Obligations.EmuRxReceivesTheReaderEncoding := by
  intro n s d later hacc hc hd hn hroom hbits
  rw [readerChannel_dropLast, List.append_assoc, List.singleton_append] at hbits
  rw [readerChannel_length]
  obtain ⟨-, hinit⟩ | ⟨hlt, -⟩ := uartInit_cases n (.emuRx n) s
  · have hexec : exec (.emuRx n) s =
        .next ((s.begin 0x43 .rbit).withUartRun { uart := uartReset n, mem := s.mem, done := false }) := by
      simp only [exec, execEmuRx, emuRx, hinit, commit_ok]
      rfl
    have hwait : AwaitsRbit (s.begin 0x43 .rbit) := ⟨rfl, rfl, hc⟩
    have hat : UartAt ((s.begin 0x43 .rbit).withRbits (readerLead d ++ false :: later)) (uartReset n, [])
        ((s.begin 0x43 .rbit).withUartRun { uart := uartReset n, mem := s.mem, done := false }) :=
      ⟨s.mem, holdsBytes_nil _ _, by rw [← hbits]; rfl⟩
    obtain ⟨t, ht, x, ⟨u, hends, hcount, -⟩, hx⟩ := hwait.run (uart_decodes (c := s.cfg) hd hn hroom) hat
    obtain ⟨m, hm, hstep⟩ := hwait.step hends hx
    refine ⟨afterRbit (true, ((s.begin 0x43 .rbit).withRbits later).withUartRun { uart := u, mem := m, done := true }),
      ?_, ?_, rfl, hm, rfl, rfl, rfl, hacc.noFault⟩
    · rw [hexec, andThen, runSteps_add, ht, andThen, runSteps_one, hstep]
    · rw [← hcount, BitVec.ofNat_toNat]
      rfl
  · omega

end

section
/-! SUPPORT. The Demod over the ideal channel of a tag frame (R231, R239 to R248): it receives the frame's bytes, and the last
sample of the EOF is the first step that returns true. -/

namespace Sys2Proof.Machine

variable {c : Config} {i q : Byte} {n : Half} {l : List Byte} {x : Demod × List Byte}

/-! ### Steps whatever memory holds besides the bytes received -/

/-- Bytes `l` stand in a buffer that has room for them. -/
structure StandsIn (c : Config) (w : Window) (l : List Byte) (m : Memory) : Prop where
  fits : l.length ≤ w.capacity c
  holds : holdsBytes w l m

theorem standsIn_nil (c : Config) (w : Window) (m : Memory) : StandsIn c w [] m := ⟨Nat.zero_le _, holdsBytes_nil w m⟩

/-- On the sample `a` the Demod goes from its registers and the bytes in DOUT of `x` to those of `y` and returns `done`. -/
def DemodGoes (c : Config) (done : Bool) (a : Byte × Byte) (x y : Demod × List Byte) : Prop :=
  ∀ m, StandsIn c .dout x.2 m →
    ∃ m', demodStep c a.1 a.2 x.1 m = .ok { demod := y.1, mem := m', done := done } ∧ StandsIn c .dout y.2 m'

/-- A step that returns false and is in a frame after it: a receive does not time out there (R282). -/
def DemodFollows (c : Config) (a : Byte × Byte) (x y : Demod × List Byte) : Prop :=
  DemodGoes c false a x y ∧ y.1.state ≠ .unsynced

/-- A step that stores nothing. -/
theorem DemodGoes.of_step {d d' : Demod} {done : Bool} {a : Byte × Byte}
    (h : ∀ m, demodStep c a.1 a.2 d m = .ok { demod := d', mem := m, done := done }) : DemodGoes c done a (d, l) (d', l) :=
  fun m hm => ⟨m, h m, hm⟩

/-! ### The two phases -/

/-- A sample of a bit over the ideal channel: the reference phase for a 1, the opposite phase for a 0 (R231). -/
def phase (i q : Byte) (b : Bool) : Byte × Byte := if b then (i, q) else (-i, -q)

/-- The two samples of a bit (R231, R248). -/
def bitSamples (i q : Byte) (b : Bool) : List (Byte × Byte) := [phase i q b, phase i q b]

theorem sgn_mul (c : Config) (x : Int) {k : Int} (hk : 0 < k) : sgn c (k * x) * x = |x| := by
  rcases lt_trichotomy x 0 with hx | rfl | hx
  · have hneg : k * x < 0 := mul_neg_of_pos_of_neg hk hx
    rw [sgn, if_neg (by omega), if_pos hneg, abs_of_neg hx]
    omega
  · simp
  · rw [sgn, if_pos (mul_pos hk hx), abs_of_pos hx, one_mul]

/-- The sum of eight equal components does not wrap (R45, R240). -/
theorem toInt_eight_mul (b : Byte) : ((8 : Word) * sext32 b).toInt = 8 * b.toInt := by
  have h := toInt_byte b
  rw [BitVec.toInt_mul, toInt_sext32, show (8 : Word).toInt = 8 from rfl]
  exact Int.bmod_eq_of_le (by omega) (by omega)

theorem toInt_neg_byte {b : Byte} (hb : b ≠ 0x80) : (-b).toInt = -b.toInt :=
  BitVec.toInt_neg_of_ne_intMin hb

/-- A sample of amplitude above the threshold has a component that is not 0 (R232). -/
theorem components_pos (ha : 8 < amplitude i q) : 0 < |i.toInt| + |q.toInt| := by
  simp only [amplitude, Int.abs_eq_natAbs] at ha ⊢
  omega

/-- The sums of a training over eight equal samples give those samples and their opposites their signs (R234, R240). -/
theorem softDecision_trained {d : Demod} (hI : d.sumI = 8 * sext32 i) (hQ : d.sumQ = 8 * sext32 q)
    (ha : 8 < amplitude i q) (hi : i ≠ 0x80) (hq : q ≠ 0x80) :
    0 < softDecision c d i q ∧ softDecision c d (-i) (-q) < 0 := by
  have hpos := components_pos ha
  have hsI := sgn_mul c i.toInt (k := 8) (by decide)
  have hsQ := sgn_mul c q.toInt (k := 8) (by decide)
  unfold softDecision
  rw [hI, hQ, toInt_eight_mul, toInt_eight_mul, toInt_neg_byte hi, toInt_neg_byte hq, Int.mul_neg, Int.mul_neg, hsI, hsQ]
  omega

/-! ### The Demod as a decoder of characters -/

/-- The registers of a frame with reference `(i, q)` of which the bytes `l` have been received (R44 to R47). -/
structure DemodHolds (c : Config) (i q : Byte) (n : Half) (l : List Byte) (x : Demod × List Byte) : Prop where
  high : 0 < softDecision c x.1 i q
  low : softDecision c x.1 (-i) (-q) < 0
  bytes : x.2 = l
  count : x.1.len.toNat = l.length
  limit : x.1.maxLen = n
  noOverflow : x.1.overflow = false

/-- The Demod has counted `p` samples in a state before a character (R241 to R243). -/
structure DemodWaits (c : Config) (i q : Byte) (n : Half) (l : List Byte) (st : DState) (p : Nat)
    (x : Demod × List Byte) : Prop extends DemodHolds c i q n l x where
  state : x.1.state = st
  pos : x.1.posCount.toNat = p
  noBits : x.1.bitCount = 0

/-- The Demod has `k` bits of a character in its shift register and none of the next one's samples (R244). -/
structure DemodReceives (c : Config) (i q : Byte) (n : Half) (l : List Byte) (k : Nat) (r : BitVec 10)
    (x : Demod × List Byte) : Prop extends DemodHolds c i q n l x where
  state : x.1.state = .receivingData
  pos : x.1.posCount = 0
  bits : x.1.bitCount.toNat = k
  shift : x.1.shift = r

/-- The Demod has besides the first sample of a bit `b` (R244). -/
structure DemodHalfBit (c : Config) (i q : Byte) (n : Half) (l : List Byte) (k : Nat) (r : BitVec 10) (b : Bool)
    (x : Demod × List Byte) : Prop extends DemodHolds c i q n l x where
  state : x.1.state = .receivingData
  pos : x.1.posCount = 1
  bits : x.1.bitCount.toNat = k
  shift : x.1.shift = r
  half : x.1.thisBit = BitVec.ofInt 32 (softDecision c x.1 (phase i q b).1 (phase i q b).2)

/-- The soft decision of a sample has the sign of its bit (R234). -/
theorem DemodHolds.sign (h : DemodHolds c i q n l x) (b : Bool) :
    if b then 0 < softDecision c x.1 (phase i q b).1 (phase i q b).2
    else softDecision c x.1 (phase i q b).1 (phase i q b).2 < 0 := by
  cases b with
  | true => exact h.high
  | false => exact h.low

/-- One more sample counted before a character. -/
theorem DemodWaits.count_next {st : DState} {p : Nat} {a : Byte × Byte} (h : DemodWaits c i q n l st p x) (hp : p < 50)
    (hst : st ≠ .unsynced) (hstep : ∀ m, demodStep c a.1 a.2 x.1 m =
      .ok { demod := { x.1 with posCount := x.1.posCount + 1 }, mem := m, done := false }) :
    ∃ y, DemodFollows c a x y ∧ DemodWaits c i q n l st (p + 1) y := by
  obtain ⟨d, bytes⟩ := x
  obtain ⟨⟨hhigh, hlow, hbytes, hcount, hlimit, hover⟩, hs, hpos, hbits⟩ := h
  refine ⟨({ d with posCount := d.posCount + 1 }, bytes), ⟨.of_step hstep, fun h => hst (hs.symm.trans h)⟩,
    ⟨hhigh, hlow, hbytes, hcount, hlimit, hover⟩, hs, ?_, hbits⟩
  simp only at hpos ⊢
  rw [BitVec.toNat_add, hpos]
  simp; omega

/-- A low sample starts a character (R243). -/
theorem DemodWaits.start {p : Nat} (h : DemodWaits c i q n l .awaitingStartBit p x) :
    ∃ y, DemodFollows c (phase i q false) x y ∧ DemodHalfBit c i q n l 0 0 false y := by
  obtain ⟨d, bytes⟩ := x
  obtain ⟨⟨hhigh, hlow, hbytes, hcount, hlimit, hover⟩, hs, -, hbits⟩ := h
  refine ⟨({ d with
    thisBit := BitVec.ofInt 32 (softDecision c d (-i) (-q)), posCount := 1, shift := 0, state := .receivingData }, bytes),
    ⟨.of_step fun m => ?_, nofun⟩, ⟨hhigh, hlow, hbytes, hcount, hlimit, hover⟩, rfl, rfl, congrArg BitVec.toNat hbits,
    rfl, rfl⟩
  exact (demodStep_awaitStart hs).trans (congrArg Except.ok (demodAwaitStart_low (Int.le_of_lt hlow)))

theorem DemodReceives.first {k : Nat} {r : BitVec 10} (h : DemodReceives c i q n l k r x) (b : Bool) :
    ∃ y, DemodFollows c (phase i q b) x y ∧ DemodHalfBit c i q n l k r b y := by
  obtain ⟨d, bytes⟩ := x
  obtain ⟨⟨hhigh, hlow, hbytes, hcount, hlimit, hover⟩, hs, hpos, hbits, hshift⟩ := h
  refine ⟨({ d with thisBit := BitVec.ofInt 32 (softDecision c d (phase i q b).1 (phase i q b).2), posCount := 1 }, bytes),
    ⟨.of_step fun m => ?_, fun h => nomatch hs.symm.trans h⟩, ⟨hhigh, hlow, hbytes, hcount, hlimit, hover⟩, hs, rfl,
    hbits, hshift, rfl⟩
  rw [demodStep_receiving hs, demodReceiving_first hpos]

/-- The Demod after the second sample of a bit (R244). -/
def afterBit (c : Config) (i q : Byte) (b : Bool) (d : Demod) : Demod :=
  demodBit (softDecision c d (phase i q b).1 (phase i q b).2) d

/-- The second sample of a bit shifts it in (R244). -/
theorem DemodHalfBit.afterBit_shift {k : Nat} {r : BitVec 10} {b : Bool} (h : DemodHalfBit c i q n l k r b x) :
    (afterBit c i q b x.1).shift = shiftIn b r := by
  have hsign := h.sign b
  have hhalf := h.half
  have hv := softDecision_bounds c x.1 (phase i q b).1 (phase i q b).2
  rw [afterBit]
  generalize softDecision c x.1 (phase i q b).1 (phase i q b).2 = v at hsign hhalf hv ⊢
  have hsum : (x.1.thisBit + BitVec.ofInt 32 v).toInt = v + v := by
    have hsmall := toInt_ofInt_small hv
    rw [hhalf, toInt_add_small (by omega), hsmall]
  have hbit : decide (0 < v + v) = b := by
    cases b with
    | true => exact decide_eq_true (by simp only [if_true] at hsign; omega)
    | false => exact decide_eq_false (by simp only [Bool.false_eq_true, if_false] at hsign; omega)
  simp only [demodBit, hsum, hbit, h.shift]

theorem DemodHalfBit.second {k : Nat} {r : BitVec 10} {b : Bool} (h : DemodHalfBit c i q n l k r b x) (hk : k < 9) :
    ∃ y, DemodFollows c (phase i q b) x y ∧ DemodReceives c i q n l (k + 1) (shiftIn b r) y := by
  have hshift := h.afterBit_shift
  obtain ⟨d, bytes⟩ := x
  obtain ⟨⟨hhigh, hlow, hbytes, hcount, hlimit, hover⟩, hs, hpos, hbits, -, -⟩ := h
  simp only at hs hpos hbits
  have hnext : (d.bitCount + 1).toNat = k + 1 := by rw [BitVec.toNat_add, hbits]; simp; omega
  refine ⟨(afterBit c i q b d, bytes), ⟨.of_step fun m => ?_, fun h => nomatch hs.symm.trans h⟩,
    ⟨hhigh, hlow, hbytes, hcount, hlimit, hover⟩, hs, rfl, hnext, hshift⟩
  rw [demodStep_receiving hs, demodReceiving_second (by simp [hpos]), if_pos (by omega), afterBit]

/-- With the tenth bit the character is complete (R244, R245). -/
theorem DemodHalfBit.tenth {r : BitVec 10} {b : Bool} (h : DemodHalfBit c i q n l 9 r b x) (m : Memory) :
    demodStep c (phase i q b).1 (phase i q b).2 x.1 m = demodCharacter c (afterBit c i q b x.1) m := by
  have hnext : (x.1.bitCount + 1).toNat = 10 := by rw [BitVec.toNat_add, h.bits]; rfl
  rw [demodStep_receiving h.state, demodReceiving_second (by simp [h.pos]), if_neg (by omega), afterBit]

/-- A valid character with room is stored after the bytes received, and the Demod waits for the next one (R245). -/
theorem DemodHalfBit.store (hn : n.toNat ≤ c.doutSize) {r : BitVec 10} {b : Bool} (h : DemodHalfBit c i q n l 9 r b x)
    (hw : wellFramed (shiftIn b r)) (hroom : l.length < n.toNat) :
    ∃ y, DemodFollows c (phase i q b) x y ∧
      DemodWaits c i q n (l ++ [characterByte (shiftIn b r)]) .awaitingStartBit 0 y := by
  have htenth := h.tenth
  have hshift := h.afterBit_shift
  obtain ⟨d, bytes⟩ := x
  obtain ⟨hhigh, hlow, rfl, hcount, rfl, hover⟩ := h.toDemodHolds
  simp only at htenth hshift hcount hroom hn hw ⊢
  rw [← hshift] at hw ⊢
  have hlt : ¬ (afterBit c i q b d).maxLen ≤ (afterBit c i q b d).len := by
    rw [BitVec.le_def, show (afterBit c i q b d).len = d.len from rfl, show (afterBit c i q b d).maxLen = d.maxLen from rfl]
    omega
  refine ⟨(demodNextCharacter { afterBit c i q b d with len := d.len + 1 },
      bytes ++ [characterByte (afterBit c i q b d).shift]),
    ⟨fun m hm => ⟨_, ?_, ?_, holdsBytes_append hm.holds _⟩, nofun⟩, ⟨hhigh, hlow, rfl, ?_, rfl, hover⟩, rfl, rfl, rfl⟩
  · rw [htenth, demodCharacter_stores hw hlt (show d.len.toNat < c.doutSize by omega), ← hcount]
    rfl
  · rw [List.length_append, List.length_singleton, Window.capacity]
    omega
  · have := d.maxLen.isLt
    simp [demodNextCharacter]
    omega

/-- The Demod decodes characters at two samples a bit (R243 to R245). -/
def demodDecoder (i q : Byte) (hn : n.toNat ≤ c.doutSize) :
    CharacterDecoder (DemodFollows c) (bitSamples i q) n.toNat where
  ready l x := ∃ p, DemodWaits c i q n l .awaitingStartBit p x
  receiving := DemodReceives c i q n
  start := fun ⟨_, h⟩ => by
    obtain ⟨y, hy, h⟩ := h.start
    obtain ⟨z, hz, h⟩ := h.second (by decide)
    exact ⟨y, hy, z, hz, h⟩
  bit := fun b h hk => by
    obtain ⟨y, hy, h⟩ := h.first b
    obtain ⟨z, hz, h⟩ := h.second hk
    exact ⟨y, hy, z, hz, h⟩
  store := fun h hw hroom => by
    obtain ⟨y, hy, h⟩ := h.first true
    obtain ⟨z, hz, h⟩ := h.store hn hw hroom
    exact ⟨y, hy, z, hz, 0, h⟩

/-! ### Silence, TR1, the SOF and the EOF -/

/-- Silence leaves the Demod as DEMOD.INIT left it (R239). -/
theorem demodGoes_silence {a : Byte × Byte} (ha : amplitude a.1 a.2 ≤ 8) :
    DemodGoes c false a (demodReset n, l) (demodReset n, l) :=
  .of_step fun m => by
    rw [demodStep_unsynced rfl, demodUnsynced, if_neg (mt (aboveThreshold_iff ..).1 (by omega))]

/-- The Demod after `k` samples of its training, which ends with the eighth (R240). -/
def demodTrained (i q : Byte) (n : Half) (k : Nat) : Demod :=
  { demodReset n with
    state := if k < 8 then .phaseRefTraining else .awaitingFallingEdgeOfSof
    sumI := BitVec.ofNat 32 k * sext32 i, sumQ := BitVec.ofNat 32 k * sext32 q, posCount := BitVec.ofNat 8 k }

theorem demodTrained_state_ne (k : Nat) : (demodTrained i q n k).state ≠ .unsynced := by
  simp only [demodTrained]
  split <;> decide

theorem demodFollows_seed (ha : 8 < amplitude i q) : DemodFollows c (i, q) (demodReset n, l) (demodTrained i q n 1, l) := by
  refine ⟨.of_step fun m => ?_, demodTrained_state_ne 1⟩
  rw [demodStep_unsynced rfl, demodUnsynced, if_pos ((aboveThreshold_iff i q).2 ha)]
  simp [demodTrained, demodReset]

theorem demodFollows_training (ha : 8 < amplitude i q) {k : Nat} (hk : k < 8) :
    DemodFollows c (i, q) (demodTrained i q n k, l) (demodTrained i q n (k + 1), l) := by
  refine ⟨.of_step fun m => ?_, demodTrained_state_ne (k + 1)⟩
  have hstate : (demodTrained i q n k).state = .phaseRefTraining := if_pos hk
  have hsum (x : Word) : BitVec.ofNat 32 k * x + x = BitVec.ofNat 32 (k + 1) * x := by
    rw [BitVec.ofNat_add, BitVec.add_mul]; simp
  have hcount : BitVec.ofNat 8 k + 1#8 = BitVec.ofNat 8 (k + 1) := (BitVec.ofNat_add ..).symm
  have height : BitVec.ofNat 8 (k + 1) = 8#8 ↔ ¬ k + 1 < 8 := by
    rw [← BitVec.toNat_inj, BitVec.toNat_ofNat]
    simp; omega
  rw [demodStep_training hstate, demodTraining_above ha]
  by_cases hlast : k + 1 < 8 <;> simp [demodTrained, hsum, hcount, height, hlast, hk]

/-- After the training the Demod waits for the SOF with `(i, q)` as its reference (R240, R241). -/
theorem demodTrained_waits (ha : 8 < amplitude i q) (hi : i ≠ 0x80) (hq : q ≠ 0x80) :
    DemodWaits c i q n [] .awaitingFallingEdgeOfSof 8 (demodTrained i q n 8, []) := by
  obtain ⟨hhigh, hlow⟩ := softDecision_trained (c := c) (d := demodTrained i q n 8) rfl rfl ha hi hq
  exact ⟨⟨hhigh, hlow, rfl, rfl, rfl, rfl⟩, rfl, rfl, rfl⟩

/-- TR1 goes on (R241). -/
theorem DemodWaits.tr1 {p : Nat} (h : DemodWaits c i q n l .awaitingFallingEdgeOfSof p x) (hp : p < 50) :
    ∃ y, DemodFollows c (i, q) x y ∧ DemodWaits c i q n l .awaitingFallingEdgeOfSof (p + 1) y := by
  have hpos := h.pos
  refine h.count_next hp (by decide) fun m => ?_
  rw [demodStep_awaitFall h.state, demodAwaitFall_high (Int.le_of_lt h.high),
    if_neg (by rw [BitVec.toNat_add]; simp; omega)]

/-- The SOF's falling edge (R241). -/
theorem DemodWaits.fall {p : Nat} (h : DemodWaits c i q n l .awaitingFallingEdgeOfSof p x) :
    ∃ y, DemodFollows c (-i, -q) x y ∧ DemodWaits c i q n l .gotFallingEdgeOfSof 1 y := by
  obtain ⟨d, bytes⟩ := x
  obtain ⟨⟨hhigh, hlow, hbytes, hcount, hlimit, hover⟩, hs, -, hbits⟩ := h
  refine ⟨({ d with state := .gotFallingEdgeOfSof, posCount := 1 }, bytes), ⟨.of_step fun m => ?_, nofun⟩,
    ⟨hhigh, hlow, hbytes, hcount, hlimit, hover⟩, rfl, rfl, hbits⟩
  rw [demodStep_awaitFall hs, demodAwaitFall_low hlow]

/-- The SOF's low phase goes on (R242). -/
theorem DemodWaits.lowPhase {p : Nat} (h : DemodWaits c i q n l .gotFallingEdgeOfSof p x) (hp : p < 28) :
    ∃ y, DemodFollows c (-i, -q) x y ∧ DemodWaits c i q n l .gotFallingEdgeOfSof (p + 1) y := by
  have hpos := h.pos
  refine h.count_next (by omega) (by decide) fun m => ?_
  rw [demodStep_gotFall h.state, demodGotFall_low (Int.le_of_lt h.low), if_neg (by rw [BitVec.toNat_add]; simp; omega)]

/-- The SOF's rising edge, after 18 to 28 low samples, with no byte received yet (R242). -/
theorem DemodWaits.rise {p : Nat} (h : DemodWaits c i q n [] .gotFallingEdgeOfSof p x) (hp : 18 ≤ p) :
    ∃ y, DemodFollows c (i, q) x y ∧ DemodWaits c i q n [] .awaitingStartBit 0 y := by
  obtain ⟨d, bytes⟩ := x
  obtain ⟨⟨hhigh, hlow, hbytes, hcount, hlimit, hover⟩, hs, hpos, hbits⟩ := h
  refine ⟨({ d with state := .awaitingStartBit, posCount := 0, len := 0, bitCount := 0 }, bytes),
    ⟨.of_step fun m => ?_, nofun⟩, ⟨hhigh, hlow, hbytes, rfl, hlimit, hover⟩, rfl, rfl, rfl⟩
  rw [demodStep_gotFall hs, demodGotFall_high hhigh, if_pos (hpos ▸ hp)]

/-- High samples before a start bit (R243). -/
theorem DemodWaits.idle {p : Nat} (h : DemodWaits c i q n l .awaitingStartBit p x) (hp : p < 12) :
    ∃ y, DemodFollows c (i, q) x y ∧ DemodWaits c i q n l .awaitingStartBit (p + 1) y := by
  have hpos := h.pos
  refine h.count_next (by omega) (by decide) fun m => ?_
  rw [demodStep_awaitStart h.state, demodAwaitStart_high h.high h.noBits, if_neg (by rw [BitVec.toNat_add]; simp; omega)]

/-- The samples of a tag frame before its characters: TR1 and SOF (R124, R248). -/
theorem tagLead_samples (i q : Byte) : (List.replicate 20 true ++ sofBits).flatMap (bitSamples i q) =
    (i, q) :: List.replicate 7 (i, q) ++ List.replicate 32 (i, q) ++ (-i, -q) :: List.replicate 19 (-i, -q) ++
      (i, q) :: List.replicate 3 (i, q) := rfl

/-- TR1 and the SOF bring the Demod to the wait for the first start bit (R239 to R243). -/
theorem demod_leads_to_ready (ha : 8 < amplitude i q) (hi : i ≠ 0x80) (hq : q ≠ 0x80) :
    Leads (DemodFollows c) ((List.replicate 20 true ++ sofBits).flatMap (bitSamples i q))
      (fun x => ∃ p, DemodWaits c i q n [] .awaitingStartBit p x) (demodReset n, []) := by
  rw [tagLead_samples]
  have htraining : Leads (DemodFollows c) ((i, q) :: List.replicate 7 (i, q))
      (DemodWaits c i q n [] .awaitingFallingEdgeOfSof 8) (demodReset n, []) := by
    refine ⟨_, demodFollows_seed ha, (Leads.replicate (P := fun k x => x = (demodTrained i q n (k + 1), []))
      (fun k hk _ hx => hx ▸ ⟨_, demodFollows_training ha (by omega), rfl⟩) rfl).mono ?_⟩
    rintro _ rfl
    exact demodTrained_waits ha hi hq
  have htr1 (x) (h : DemodWaits c i q n [] .awaitingFallingEdgeOfSof 8 x) :
      Leads (DemodFollows c) (List.replicate 32 (i, q)) (DemodWaits c i q n [] .awaitingFallingEdgeOfSof 40) x :=
    Leads.replicate (P := fun k => DemodWaits c i q n [] .awaitingFallingEdgeOfSof (8 + k))
      (fun k hk x hx => hx.tr1 (by omega)) h
  have hlow (x) (h : DemodWaits c i q n [] .awaitingFallingEdgeOfSof 40 x) :
      Leads (DemodFollows c) ((-i, -q) :: List.replicate 19 (-i, -q)) (DemodWaits c i q n [] .gotFallingEdgeOfSof 20) x := by
    obtain ⟨y, hy, h⟩ := h.fall
    exact ⟨y, hy, Leads.replicate (P := fun k => DemodWaits c i q n [] .gotFallingEdgeOfSof (1 + k))
      (fun k hk x hx => hx.lowPhase (by omega)) h⟩
  have hhigh (x) (h : DemodWaits c i q n [] .gotFallingEdgeOfSof 20 x) :
      Leads (DemodFollows c) ((i, q) :: List.replicate 3 (i, q))
        (fun x => ∃ p, DemodWaits c i q n [] .awaitingStartBit p x) x := by
    obtain ⟨y, hy, h⟩ := h.rise (by decide)
    exact ⟨y, hy, (Leads.replicate (P := fun k => DemodWaits c i q n [] .awaitingStartBit k)
      (fun k hk x hx => hx.idle (by omega)) h).mono fun _ h => ⟨_, h⟩⟩
  exact ((htraining.append htr1).append hlow).append hhigh

/-- The Demod at the last sample of the EOF of a frame of bytes `d`: a low sample ends the frame (R237, R245). -/
def DemodFinishes (c : Config) (i q : Byte) (d : List Byte) (x : Demod × List Byte) : Prop :=
  ∃ r, DemodGoes c true (-i, -q) x (r, d) ∧ r.len.toNat = d.length ∧ r.overflow = false ∧ r.state = .unsynced

theorem DemodReceives.finishes (h : DemodReceives c i q n l 9 0 x) :
    Leads (DemodFollows c) [(-i, -q)] (DemodFinishes c i q l) x := by
  obtain ⟨⟨d, bytes⟩, hy, h⟩ := h.first false
  have htenth := h.tenth
  have hshift := h.afterBit_shift
  obtain ⟨-, -, rfl, hcount, -, hover⟩ := h.toDemodHolds
  refine ⟨_, hy, demodFrameEnd (afterBit c i q false d), .of_step fun m => ?_, hcount, hover, rfl⟩
  exact (htenth m).trans (demodCharacter_eof hshift)

/-! ### The whole channel -/

/-- The ideal channel of a tag frame before the last sample of its EOF. -/
def tagLead (i q : Byte) (d : List Byte) : List (Byte × Byte) :=
  (List.replicate 20 true ++ sofBits).flatMap (bitSamples i q) ++ (charactersBits d).flatMap (bitSamples i q) ++
    ((List.replicate 9 false).flatMap (bitSamples i q) ++ [(-i, -q)])

theorem map_tagBit (d : List Byte) :
    (List.range (42 + 10 * d.length)).map (tagBit d) = List.replicate 20 true ++ readerEtus d := by
  have htag : tagEtus d = List.replicate 20 true ++ readerEtus d ++ List.replicate 2 true := by
    simp [tagEtus, readerEtus]
  have hlen : (List.replicate 20 true ++ readerEtus d).length = 42 + 10 * d.length := by
    rw [List.length_append, List.length_replicate, readerEtus_length]; omega
  refine List.ext_getElem? fun p => ?_
  by_cases hp : p < 42 + 10 * d.length
  · have hbit := tagEtus_getElem? d (e := p) (by omega)
    rw [htag, List.getElem?_append_left (by omega)] at hbit
    rw [hbit, List.getElem?_map, List.getElem?_range hp, Option.map_some]
  · rw [List.getElem?_eq_none (by simpa using hp), List.getElem?_eq_none (by omega)]

theorem tagChannel_eq (i q : Byte) (d : List Byte) : tagChannel i q d = tagLead i q d ++ [(-i, -q)] := by
  have hsamples : tagChannel i q d = ((List.range (42 + 10 * d.length)).map (tagBit d)).flatMap (bitSamples i q) := by
    rw [tagChannel, List.flatMap_map]
    refine congrArg (List.flatMap · _) (funext fun e => ?_)
    cases tagBit d e <;> rfl
  have heof : eofBits.flatMap (bitSamples i q) =
      (List.replicate 9 false).flatMap (bitSamples i q) ++ [(-i, -q)] ++ [(-i, -q)] := rfl
  rw [hsamples, map_tagBit, readerEtus, ← List.append_assoc, ← List.append_assoc, List.flatMap_append, List.flatMap_append,
    heof, tagLead]
  simp only [List.append_assoc]

/-- A frame with room is received up to the last sample of its EOF with no step that returns true or gives it up (R178,
R248). -/
theorem demod_decodes {d : List Byte} (hd : d.length ≤ n.toNat) (hn : n.toNat ≤ c.doutSize) (ha : 8 < amplitude i q)
    (hi : i ≠ 0x80) (hq : q ≠ 0x80) :
    Leads (DemodFollows c) (tagLead i q d) (DemodFinishes c i q d) (demodReset n, []) := by
  let D := demodDecoder i q hn
  refine ((demod_leads_to_ready ha hi hq).append fun y hy => D.characters (l := []) hy d (by simpa using hd)).append
    fun y hy => (D.nineZeros hy).append fun z hz => ?_
  exact DemodReceives.finishes hz

end Sys2Proof.Machine
end

section
/-! PROOFS. DEMOD.STEP and TRX.RX_TAG over the ideal channel of a tag frame (R178, R248, R280, R283). -/

namespace Sys2Proof.Machine

variable {s t : State} {n : Half} {i q : Byte} {x y : Demod × List Byte} {a : Byte × Byte} {done : Bool}

/-! ### DEMOD.STEP -/

/-- `t` is `s` with the registers of `x`, its bytes in DOUT, and D_DONE 0. -/
def DemodAt (s : State) (x : Demod × List Byte) (t : State) : Prop :=
  ∃ m, StandsIn s.cfg .dout x.2 m ∧ t = s.withDemodRun { demod := x.1, mem := m, done := false }

theorem DemodAt.exec (h : DemodGoes s.cfg done a x y) (ht : DemodAt s x t) :
    ∃ m, StandsIn s.cfg .dout y.2 m ∧
      exec (.demodStep a.1 a.2) t = .next (s.withDemodRun { demod := y.1, mem := m, done := done }) := by
  obtain ⟨m, hm, rfl⟩ := ht
  obtain ⟨m', hstep, hm'⟩ := h m hm
  exact ⟨m', hm', exec_demodStep (s := s.withDemodRun _) hstep⟩

/-- DEMOD.INIT past its check, then DEMOD.STEP over samples that lead a decoder somewhere (R235, R238). -/
theorem runCommands_demodInit (hn : n.toNat ≤ s.cfg.doutSize) {l : List (Byte × Byte)} {Q : Demod × List Byte → Prop}
    (h : Leads (DemodGoes s.cfg false) l Q (demodReset n, [])) :
    Answers (fun t => ∃ x, Q x ∧ DemodAt s x t)
      (runCommands (.demodInit n :: l.map fun x => .demodStep x.1 x.2) s) := by
  obtain ⟨-, hinit⟩ | ⟨hlt, -⟩ := demodInit_cases n (.demodInit n) s
  · have hexec : Machine.exec (.demodInit n) s = .next { s with demod := demodReset n, dDone := false } := by
      rw [Machine.exec, execDemodInit, hinit, commit_ok]
    rw [runCommands, hexec]
    refine h.runCommands (P := DemodAt s) (fun hg hP => ?_) ⟨s.mem, standsIn_nil s.cfg .dout s.mem, rfl⟩
    obtain ⟨m, hm, hstep⟩ := hP.exec hg
    exact ⟨_, hstep, m, hm, rfl⟩
  · omega

/-- Silence and then a frame, up to the last sample of its EOF (R178, R239, R248). -/
theorem silence_leads {c : Config} {silence l : List (Byte × Byte)} {Q : Demod × List Byte → Prop}
    (hs : ∀ x ∈ silence, amplitude x.1 x.2 ≤ 8) (h : Leads (DemodFollows c) l Q (demodReset n, [])) :
    Leads (DemodGoes c false) (silence ++ l) Q (demodReset n, []) := by
  refine (Leads.stay (Q := (· = (demodReset n, []))) (fun a ha => demodGoes_silence (hs a ha)) rfl).append ?_
  rintro _ rfl
  exact h.imp fun _ _ _ hR => hR.1

/-! ### TRX.RX_TAG -/

/-- `s` with the next external move made, the delivery of one entry to the ring (R94). -/
def State.delivered (i q : Byte) (rest : List Move) (s : State) : State :=
  { s.withMoves rest with
    mem := putEntry s.cfg s.ring.produced i q s.mem
    ring := { s.ring with produced := s.ring.produced + 1 } }

/-- One sample of a receive: the entry is taken and counted, and the Demod steps on it (R95, R280). -/
theorem step_sample_of_demodStep {r : DemodRun} (hc : s.cfg.wf = true) (hbusy : s.eng.busy = true)
    (hhold : s.eng.hold = .sample) (hcancel : s.env.cancel = false) (hlt : s.ring.consumed < s.ring.produced)
    (hi : s.mem.read (slotAddr s.cfg s.ring.consumed) = some i)
    (hq : s.mem.read (slotAddr s.cfg s.ring.consumed + 1) = some q)
    (hr : demodStep s.cfg i q s.demod s.mem = .ok r) :
    step s = commit s (afterSample r.done ((sampled s).withDemodRun r)) := by
  have hstep : demodStepState i q (sampled s) = .ok (r.done, (sampled s).withDemodRun r) := by
    rw [demodStepState, show demodStep (sampled s).cfg i q (sampled s).demod (sampled s).mem = .ok r from hr]
  rw [step_segment hbusy hcancel (by simp only [holdReady, hhold, bne_iff_ne]; omega), segment, hhold]
  simp only
  rw [sampleSegment_ok (nextSample_of_read (Config.one_le_sringEntries hc) hi hq), hstep]
  rfl

/-- A state of TRX.RX_TAG waits for a sample, with CANCEL low and every entry of its ring taken (R95, R350). -/
structure AwaitsSample (s : State) : Prop where
  config : s.cfg.wf = true
  busy : s.eng.busy = true
  hold : s.eng.hold = .sample
  noCancel : s.env.cancel = false
  ringEmpty : s.ring.consumed = s.ring.produced

/-- A sample delivered to a waiting receive is taken by the next step, on which the Demod steps (R94, R95, R280). -/
theorem AwaitsSample.steps (h : AwaitsSample s) {rest : List Move} {r : DemodRun} {u : State}
    (hmoves : s.env.moves = .produce i q :: rest)
    (hr : demodStep s.cfg i q s.demod (putEntry s.cfg s.ring.produced i q s.mem) = .ok r)
    (hu : afterSample r.done ((sampled (s.delivered i q rest)).withDemodRun r) = .ok u) : runSteps 2 s = .next u := by
  have hempty := h.ringEmpty
  have hroom : s.ring.produced - s.ring.consumed < s.cfg.sringEntries := by
    have := Config.one_le_sringEntries h.config
    omega
  have hunready : engineReady s = false :=
    engineReady_unmet (.inr ⟨h.noCancel, by simp [holdReady, h.hold, hempty]⟩)
  have hproduce : step s = .next (s.delivered i q rest) :=
    (step_external hunready hmoves).trans
      (applyMove_produce (s := s.withMoves rest) (Config.one_le_sringEntries h.config) hroom)
  obtain ⟨hi, hq⟩ := putEntry_read_slot s.cfg s.ring.produced i q s.mem
  have hslot : slotAddr s.cfg s.ring.consumed = slotAddr s.cfg s.ring.produced := by rw [hempty]
  rw [← hslot] at hi hq
  have htake := step_sample_of_demodStep (s := s.delivered i q rest) h.config h.busy h.hold h.noCancel
    (show s.ring.consumed < s.ring.produced + 1 by omega) hi hq hr
  rw [runSteps, hproduce, andThen, runSteps_one, htake, hu, commit_ok]

/-- An entry is written inside SRING (R94). -/
theorem putEntry_writes {c : Config} (hc : c.wf = true) (p : Nat) (i q : Byte) (m : Memory) :
    WritesWithin c .sring m (putEntry c p i q m) := by
  have hslot := Nat.mod_lt p (Config.one_le_sringEntries hc)
  have hi : 2 * (p % c.sringEntries) < Window.sring.capacity c := by simp only [Window.capacity]; omega
  have hq : 2 * (p % c.sringEntries) + 1 < Window.sring.capacity c := by simp only [Window.capacity]; omega
  exact (WritesWithin.write i hi).trans (WritesWithin.write q hq)

/-- Writes of another window leave the bytes of a buffer as they are (R81). -/
theorem StandsIn.writes_other {c : Config} {w w' : Window} {l : List Byte} {m m' : Memory} (h : StandsIn c w l m)
    (hc : c.wf = true) (hw : WritesWithin c w' m m') (hne : w ≠ w') : StandsIn c w l m' :=
  ⟨h.fits, fun k hk => (hw.read_other hc hne (Nat.lt_of_lt_of_le hk h.fits)).trans (h.holds k hk)⟩

/-- The receive `s` with what the Demod's last step left, after `k` samples and with every entry taken (R280). -/
def State.receive (r : DemodRun) (p k : Nat) (moves : List Move) (s : State) : State :=
  { s.withMoves moves with
    demod := r.demod, mem := r.mem, dDone := r.done, ring := { produced := p, consumed := p }
    eng := { s.eng with rxSamples := BitVec.ofNat 32 k } }

/-- One sample delivered and taken. -/
theorem receive_delivered (r r' : DemodRun) (p k : Nat) (moves rest : List Move) (s : State) :
    (sampled ((s.receive r p k moves).delivered i q rest)).withDemodRun r' = s.receive r' (p + 1) (k + 1) rest := by
  have hsamples : BitVec.ofNat 32 k + 1 = BitVec.ofNat 32 (k + 1) := (BitVec.ofNat_add ..).symm
  simp only [State.receive, ← hsamples]
  rfl

/-- The moves that deliver samples (R94). -/
def deliveries (samples : List (Byte × Byte)) : List Move := samples.map fun x => .produce x.1 x.2

/-- `t` is the receive `s` with the registers of `x`, its bytes in DOUT, D_DONE 0, and of `total` samples those of `samples`
still to be delivered, before the moves `later` (R280). -/
def ReceiveAt (s : State) (total : Nat) (later : List Move) (x : Demod × List Byte) (samples : List (Byte × Byte))
    (t : State) : Prop :=
  samples.length ≤ total ∧ ∃ m p, StandsIn s.cfg .dout x.2 m ∧
    t = s.receive { demod := x.1, mem := m, done := false } p (total - samples.length) (deliveries samples ++ later)

/-- A sample to be delivered is one step of the Demod, after which the receive ends or goes on (R280). -/
theorem AwaitsSample.sample (h : AwaitsSample s) {total : Nat} {later : List Move} {samples : List (Byte × Byte)}
    (hg : DemodGoes s.cfg done a x y) (ht : ReceiveAt s total later x (a :: samples) t) :
    samples.length ≤ total ∧ ∃ m p, StandsIn s.cfg .dout y.2 m ∧ ∀ u,
      afterSample done (s.receive { demod := y.1, mem := m, done := done } p (total - samples.length)
        (deliveries samples ++ later)) = .ok u → runSteps 2 t = .next u := by
  obtain ⟨hle, m, p, hm, rfl⟩ := ht
  rw [List.length_cons] at hle ⊢
  obtain ⟨m', hstep, hm'⟩ := hg _ (hm.writes_other h.config (putEntry_writes h.config p a.1 a.2 m) (by decide))
  refine ⟨by omega, m', p + 1, hm', fun u hu => ?_⟩
  have hwait : AwaitsSample (s.receive { demod := x.1, mem := m, done := false } p (total - (samples.length + 1))
      (deliveries (a :: samples) ++ later)) := ⟨h.config, h.busy, h.hold, h.noCancel, rfl⟩
  refine hwait.steps (rest := deliveries samples ++ later) rfl hstep ?_
  rw [receive_delivered, show total - (samples.length + 1) + 1 = total - samples.length by omega]
  exact hu

/-- Within the budget, or in a frame, the receive goes on after a step that returned false (R280, R282). -/
theorem AwaitsSample.goesOn (h : AwaitsSample s) {total : Nat} {later : List Move} {samples : List (Byte × Byte)}
    (hg : DemodGoes s.cfg false a x y) (hon : total ≤ s.eng.rxLimit.toNat ∨ y.1.state ≠ .unsynced)
    (ht : ReceiveAt s total later x (a :: samples) t) : Answers (ReceiveAt s total later y samples) (runSteps 2 t) := by
  obtain ⟨hle, m, p, hm, hstep⟩ := h.sample hg ht
  refine ⟨_, hstep _ (afterSample_goesOn
    (s := s.receive { demod := y.1, mem := m, done := false } p (total - samples.length) (deliveries samples ++ later)) rfl ?_),
    hle, m, p, hm, rfl⟩
  rintro ⟨hlimit, hidle⟩
  rcases hon with hbudget | hframe
  · have hmod := Nat.mod_le (total - samples.length) (2 ^ 32)
    rw [BitVec.lt_def, State.receive, BitVec.toNat_ofNat] at hlimit
    simp only at hlimit
    omega
  · exact hframe hidle

/-- Samples to be delivered that lead the Demod somewhere within the budget or in a frame are taken (R280, R282). -/
theorem AwaitsSample.run (h : AwaitsSample s) {R : Byte × Byte → Demod × List Byte → Demod × List Byte → Prop}
    {total : Nat} {later : List Move} {l samples : List (Byte × Byte)} {Q : Demod × List Byte → Prop} (hl : Leads R l Q x)
    (hR : ∀ a x y, R a x y → DemodGoes s.cfg false a x y ∧ (total ≤ s.eng.rxLimit.toNat ∨ y.1.state ≠ .unsynced))
    (ht : ReceiveAt s total later x (l ++ samples) t) :
    Answers (fun u => ∃ y, Q y ∧ ReceiveAt s total later y samples u) (runSteps (2 * l.length) t) :=
  hl.runSteps (P := fun x samples t => ReceiveAt s total later x samples t)
    (fun hr hP => h.goesOn (hR _ _ _ hr).1 (hR _ _ _ hr).2 hP) ht

/-- The last sample of a frame ends the receive with the frame's length and end time (R280, R283). -/
theorem AwaitsSample.finish (h : AwaitsSample s) {total : Nat} {later : List Move} {d : List Byte}
    (hx : DemodFinishes s.cfg i q d x) (ht : ReceiveAt s total later x [(-i, -q)] t) :
    ∃ u, runSteps 2 t = .next u ∧ u.res0 = BitVec.ofNat 32 d.length ∧
      u.res1 = s.eng.rxT0 + BitVec.ofNat 32 (16 * total) - 32 ∧ holdsBytes .dout d u.mem ∧ u.eng.busy = false ∧
      u.fault = s.fault ∧ u.out.tx = s.out.tx ∧ u.env.moves = later := by
  obtain ⟨r, hends, hcount, hover, -⟩ := hx
  obtain ⟨-, m, p, hm, hstep⟩ := h.sample hends ht
  have hbytes : readBytes s.cfg .dout 0 r.len.toNat m = .ok d :=
    (readBytes_eq_ok_iff ..).2 ⟨hcount.symm, fun j hj =>
      (readByte_eq_ok_iff ..).2 ⟨by have := hm.fits; simp only at this; omega, by rw [Nat.zero_add]; exact hm.holds j hj⟩⟩
  refine ⟨_, hstep _ (afterSample_frame (s := s.receive { demod := r, mem := m, done := true } p total later) rfl hover hbytes
    hcount.symm), rfl, ?_, hm.holds, rfl, rfl, rfl, rfl⟩
  have hsamples : BitVec.ofNat 32 (16 * total) = 16 * BitVec.ofNat 32 total := BitVec.ofNat_mul ..
  rw [hsamples]
  rfl

/-- TRX.RX_TAG accepted, up to its first sample (R280). -/
def State.receiveBegun (n : Half) (s : State) : State :=
  { s with
    demod := demodReset n, dDone := false, ring := { s.ring with consumed := s.ring.produced }
    eng := { s.eng with
      busy := true, op := 0x32, hold := .sample, rxT0 := s.env.now, rxSamples := 0, rxLimit := s.arg0 } }

/-- A receive accepted before moves that deliver samples. -/
theorem receiveAt_begun {samples : List (Byte × Byte)} {later : List Move} (h : s.env.moves = deliveries samples ++ later) :
    ReceiveAt (s.receiveBegun n) samples.length later (demodReset n, []) samples (s.receiveBegun n) := by
  refine ⟨le_rfl, s.mem, s.ring.produced, standsIn_nil .., ?_⟩
  rw [Nat.sub_self, ← h]
  rfl

/-- With nothing left to be delivered more samples may follow. -/
theorem ReceiveAt.extend {total : Nat} {samples : List (Byte × Byte)} {later : List Move}
    (h : ReceiveAt s total (deliveries samples ++ later) x [] t) :
    ReceiveAt s (total + samples.length) later x samples t := by
  obtain ⟨-, m, p, hm, rfl⟩ := h
  refine ⟨Nat.le_add_left .., m, p, hm, ?_⟩
  rw [Nat.add_sub_cancel]
  rfl

end Sys2Proof.Machine

open Sys2Proof Sys2Proof.Machine

/-- Settles O41: the silence and the samples before the last of the EOF are led through with no return of true, and that
sample ends the frame. -/
theorem demodDecodesTheTagEncoding : Obligations.DemodDecodesTheTagEncoding := by
  intro n s d silence i q hd hn hs ha hi hq
  have hleads := silence_leads hs (demod_decodes (c := s.cfg) hd hn ha hi hq)
  rw [tagChannel_eq, ← List.append_assoc]
  refine ⟨?_, fun k hk => ?_⟩
  · obtain ⟨t, ht, x, ⟨r, hends, hcount, hover, hstate⟩, hat⟩ := runCommands_demodInit hn hleads
    obtain ⟨m, hm, hexec⟩ := hat.exec hends
    refine ⟨s.withDemodRun { demod := r, mem := m, done := true }, ?_, rfl, hcount, hover, hstate, hm.holds⟩
    rw [List.map_append, ← List.cons_append, runCommands_append, ht]
    simp only [andThen, List.map_cons, List.map_nil, runCommands, hexec]
  · rw [List.length_append, List.length_singleton] at hk
    obtain ⟨t, ht, x, -, m, -, rfl⟩ := runCommands_demodInit hn (hleads.take k)
    exact ⟨_, by rwa [List.take_append_of_le_length (by omega)], rfl⟩

/-- Settles O52: accepted, the command takes the silence within its budget, the frame with the Demod never idle, and ends at
the last sample of the EOF. -/
theorem rxTagReceivesTheTagEncoding : Obligations.RxTagReceivesTheTagEncoding := by
  intro n s d silence i q rest hinv hacc hcancel hd hn hs hbudget ha hi hq _ hmoves
  obtain ⟨-, hexec⟩ | ⟨hlt, -⟩ := exec_trxRxTag_cases n s
  · rw [← State.receiveBegun] at hexec
    have hwait : AwaitsSample (s.receiveBegun n) := ⟨hinv.config, rfl, rfl, hcancel, rfl⟩
    have hlead := demod_decodes (c := s.cfg) hd hn ha hi hq
    rw [tagChannel_eq] at hmoves ⊢
    have hsilence : Leads (DemodGoes s.cfg false) silence (· = (demodReset n, [])) (demodReset n, []) :=
      .stay (fun a h => demodGoes_silence (hs a h)) rfl
    have hat : ReceiveAt (s.receiveBegun n) silence.length (deliveries (tagLead i q d ++ [(-i, -q)]) ++ rest)
        (demodReset n, []) (silence ++ []) (s.receiveBegun n) := by
      rw [List.append_nil]
      exact receiveAt_begun (by rw [hmoves]; simp [deliveries])
    obtain ⟨t₁, ht₁, _, rfl, hat₁⟩ := hwait.run hsilence (fun a x y h => ⟨h, .inl hbudget⟩) hat
    obtain ⟨t₂, ht₂, x, hends, hat₂⟩ := hwait.run hlead (fun a x y h => ⟨h.1, .inr h.2⟩) hat₁.extend
    obtain ⟨t, ht, hres0, hres1, hm, hbusy, hfault, htx, hrest⟩ := hwait.finish hends hat₂
    refine ⟨t, ?_, hres0, ?_, hm, hbusy, hfault.trans hacc.noFault, htx, hrest⟩
    · have hcount : 2 * (silence ++ (tagLead i q d ++ [(-i, -q)])).length =
          2 * silence.length + (2 * (tagLead i q d).length + 2) := by
        simp only [List.length_append, List.length_singleton]; omega
      rw [hexec, hcount, andThen, runSteps_add, ht₁, andThen, runSteps_add, ht₂, andThen, ht]
    · rw [hres1, List.length_append (as := silence)]
      rfl
  · omega

end

section
/-! PROOFS. TOSEND.RESET, TOSEND.STUFF and TOSEND.STUFF4 (R171 to R173). -/

namespace Sys2Proof.Machine

variable {c : Config}

/-- The last bit of an open byte is ORed in, or left 0, and the cursor moves past it (R172). -/
theorem putBit_eq (b : Bool) {x : SendState} (h : OpenByte c x.ts x.mem) {v : Byte}
    (hv : x.mem.read (Window.tosend.base + x.ts.max.toInt.toNat) = some v) :
    ∃ m, putBit c b x = .ok { ts := { x.ts with bit := x.ts.bit + 1 }, mem := m } ∧
      m.read (Window.tosend.base + x.ts.max.toInt.toNat) =
        some (if b then v ||| ((0x80 : Byte) >>> x.ts.bit.toNat) else v) ∧
      ∀ a, a ≠ Window.tosend.base + x.ts.max.toInt.toNat → m.read a = x.mem.read a := by
  cases b with
  | false => exact ⟨x.mem, rfl, hv, fun _ _ => rfl⟩
  | true =>
    have hlow := h.low
    have hhigh := h.high
    have hk : x.ts.max.toInt.toNat < Window.tosend.capacity c := by simp only [Window.capacity]; omega
    have hset := (setBit_eq_ok_iff c x _).2
      ⟨hlow, v, _, (readByte_eq_ok_iff ..).2 ⟨hk, hv⟩, writeByte_ok _ _ _ _ _ hk, rfl⟩
    exact ⟨_, (putBit_eq_ok_iff ..).2 ⟨_, hset, rfl⟩, Memory.read_write_same .., fun _ => Memory.read_write_other _ _⟩

/-- A full buffer has no index for a new byte (R172). -/
theorem SendInv.tosendFull_iff {t : SendCursor} {m : Memory} (h : SendInv c t m) :
    tosendFull c t = true ↔ c.tosendSize ≤ t.len := by
  have hlow := h.low
  simp only [tosendFull, decide_eq_true_eq, SendCursor.len]
  omega

theorem stuffBit_full (b : Bool) {x : SendState} (h8 : x.ts.bit = 8) (hfull : tosendFull c x.ts = true) :
    stuffBit c b x = .error (tosendOverflow x.ts) := by
  simp only [stuffBit, if_pos h8, openByte, if_pos hfull]

/-- stuff_bit opens a byte with its bit in bit 7 when the last byte is full and the buffer is not (R172). -/
theorem stuffBit_newByte (hc : c.wf = true) (b : Bool) {x : SendState} (h : SendInv c x.ts x.mem) (h8 : x.ts.bit = 8)
    (hroom : x.ts.len < c.tosendSize) :
    ∃ m, stuffBit c b x = .ok { ts := { max := x.ts.max + 1, bit := 1 }, mem := m } ∧
      m.read (Window.tosend.base + x.ts.len) = some (if b then 0x80 else 0x00) ∧
      ∀ a, a ≠ Window.tosend.base + x.ts.len → m.read a = x.mem.read a := by
  obtain ⟨y, hy, -⟩ := openByte_room hc h hroom
  have hopen := openByte_safe hc h
  rw [hy, Res.safe_ok] at hopen
  obtain ⟨hopen, hts⟩ := hopen
  have hsize := (Config.wf_iff c).1 hc |>.1
  have hnext : y.ts.max.toInt.toNat = x.ts.len := by
    have hhigh := h.high
    rw [hts, SendCursor.len, toInt_next h.low (by omega)]
  obtain ⟨-, -, m, hw, rfl⟩ := (openByte_eq_ok_iff ..).1 hy
  obtain ⟨-, rfl⟩ := (writeByte_eq_ok_iff ..).1 hw
  simp only at hnext
  obtain ⟨m, hput, hread, hother⟩ := putBit_eq b hopen (v := 0) (Memory.read_write_same ..)
  simp only [hnext] at hput hread hother
  exact ⟨m, (stuffBit_eq_ok_iff ..).2 (.inl ⟨h8, _, hy, by rw [hnext]; exact hput⟩), hread,
    fun a ha => (hother a ha).trans (Memory.read_write_other _ _ ha)⟩

theorem exec_tosendStuff {b : Bool} {s : State} {x : SendState} (h : stuffBit s.cfg b s.send = .ok x) :
    exec (.tosendStuff b) s = .next (s.withSend x) := by
  rw [exec, execTosendStuff, commitSend, h, Res.map_ok, commit_ok]

/-- The four bits of stuff4 fit unless they need a byte the buffer does not have (R173). -/
theorem SendInv.room_of_not_overflow {t : SendCursor} {m : Memory} (h : SendInv c t m)
    (hno : ¬ (4 < t.bit.toNat ∧ c.tosendSize ≤ t.len)) : t.bitCount + 4 ≤ 8 * c.tosendSize := by
  by_cases h0 : 0 ≤ t.max.toInt
  · have hhigh := h.high
    have hbit := (h.openBit h0).2
    rw [SendCursor.len_of_nonneg h0] at hno
    rw [SendCursor.bitCount_of_nonneg h0]
    omega
  · have hlow := h.low
    have hbit : t.bit = 8 := h.emptyBit (by omega)
    have hcount := h.bitCount_le
    rw [hbit] at hno
    simp at hno
    omega

end Sys2Proof.Machine

open Sys2Proof Sys2Proof.Machine

/-- Settles O24: the cursor of the empty buffer, nothing else written. -/
theorem tosendResetEmptiesTheBuffer : Obligations.TosendResetEmptiesTheBuffer :=
  ⟨by decide, fun _ => ⟨rfl, by decide⟩⟩

/-- Settles O25: a full buffer raises, a full byte is followed by a new one, and an open byte takes the bit. -/
theorem stuffAppendsOneBit : Obligations.StuffAppendsOneBit := by
  refine ⟨by decide, by decide, fun b s hc h => ⟨fun h8 hfull => ?_, fun h8 hroom => ?_, fun h8 => ?_⟩⟩
  · have hover := stuffBit_full b (x := s.send) h8 (h.tosendFull_iff.2 hfull)
    rw [exec, execTosendStuff, commitSend, hover, Res.map_error]
    rfl
  · obtain ⟨m, hstuff, hread, hother⟩ := stuffBit_newByte hc b (x := s.send) h h8 hroom
    exact ⟨_, exec_tosendStuff hstuff, rfl, hread, hother⟩
  · have hopen := h.openByte h8
    obtain ⟨v, hv, -⟩ := hopen.tailClear
    obtain ⟨m, hput, hread, hother⟩ := putBit_eq b (x := s.send) hopen hv
    exact ⟨v, _, hv, exec_tosendStuff ((stuffBit_eq_ok_iff ..).2 (.inr ⟨h8, hput⟩)), rfl, hread, hother⟩

/-- Settles O26: past the one overflow test the buffer has room for the four bits. -/
theorem stuff4AppendsFourBits : Obligations.Stuff4AppendsFourBits := by
  refine ⟨by decide, by decide, fun b s hc h => ⟨fun hbit hfull => ?_, fun hno => ?_⟩⟩
  · have hover : stuff4 s.cfg b s.send = .error (tosendOverflow s.ts) :=
      if_pos (by simpa [State.send, hbit] using h.tosendFull_iff.2 hfull)
    rw [exec, execTosendStuff4, commitSend, hover, Res.map_error]
    rfl
  · obtain ⟨y, hy, hinv, hcount, hold, hnew, hframe⟩ := stuff4_stuffed hc b (x := s.send) h (h.room_of_not_overflow hno)
    have hexec : exec (.tosendStuff4 b) s = .next (s.withSend y) := by
      rw [exec, execTosendStuff4, commitSend, hy, Res.map_ok, commit_ok]
    have hbits : ([b, b, b, b] : List Bool) = List.replicate 4 b := rfl
    refine ⟨_, hexec, rfl, hcount, hinv, hold, fun p hp hp4 => ?_, fun a ha => hframe a ?_⟩
    · have hbit := hnew (p - s.ts.bitCount) (by simp; omega)
      rw [hbits, List.getElem?_replicate_of_lt (by omega)] at hbit
      rwa [show s.send.ts.bitCount + (p - s.ts.bitCount) = p from Nat.add_sub_cancel' hp] at hbit
    · have hlen : ([b, b, b, b] : List Bool).length = 4 := rfl
      simp only [hlen, State.send]
      omega

end

section
/-! PROOFS. UART.INIT and the acceptance of EMU.RX (R201, R320), and UART.STEP sample by sample and at the end of a
character (R204 to R210). -/

namespace Sys2Proof.Machine

variable {c : Config} {u : Uart} {m : Memory} {b : Bool}

/-! ### The commands that reset the Uart -/

/-- A format L word has its opcode at bit 24 and its length in the low half (R122). -/
theorem wordL_eq_or (op : Byte) (n : Half) : wordL op n = (op.setWidth 32 <<< 24) ||| n.setWidth 32 := by
  refine BitVec.eq_of_getLsbD_eq fun k hk => ?_
  rw [wordL_getLsbD, BitVec.getLsbD_or, BitVec.getLsbD_shiftLeft, BitVec.getLsbD_setWidth, BitVec.getLsbD_setWidth]
  by_cases h16 : k < 16
  · simp [h16, hk, show k < 24 by omega]
  · have hn : n.getLsbD k = false := BitVec.getLsbD_of_ge n k (by omega)
    by_cases h24 : k < 24
    · simp [h16, h24, hn]
    · simp [h16, h24, hk, hn, show k - 24 < 32 by omega]

theorem encode_uartInit (n : Half) : encode (.uartInit n) = 0x10000000 ||| n.setWidth 32 := wordL_eq_or 0x10 n

theorem encode_emuRx (n : Half) : encode (.emuRx n) = 0x43000000 ||| n.setWidth 32 := wordL_eq_or 0x43 n

theorem exec_uartInit_cases (n : Half) (s : State) :
    (n.toNat ≤ s.cfg.uoutSize ∧ exec (.uartInit n) s = .next { s with uart := uartReset n, uDone := false }) ∨
    (s.cfg.uoutSize < n.toNat ∧ exec (.uartInit n) s = .next (s.raise .range (encode (.uartInit n)))) := by
  rcases uartInit_cases n (.uartInit n) s with ⟨hn, he⟩ | ⟨hn, he⟩
  · exact .inl ⟨hn, by rw [exec, execUartInit, he, commit_ok]⟩
  · exact .inr ⟨hn, by rw [exec, execUartInit, he, commit_raise]⟩

/-- EMU.RX accepted, up to its first reader bit, or its RANGE fault (R320). -/
theorem exec_emuRx_cases (n : Half) (s : State) :
    (n.toNat ≤ s.cfg.uoutSize ∧ exec (.emuRx n) s =
      .next (State.begin 0x43 .rbit { s with uart := uartReset n, uDone := false })) ∨
    (s.cfg.uoutSize < n.toNat ∧ exec (.emuRx n) s = .next (s.raise .range (encode (.emuRx n)))) := by
  rcases uartInit_cases n (.emuRx n) s with ⟨hn, he⟩ | ⟨hn, he⟩
  · exact .inl ⟨hn, by simp only [exec, execEmuRx, emuRx, he, commit_ok]⟩
  · exact .inr ⟨hn, by simp only [exec, execEmuRx, emuRx, he, commit_raise]⟩

/-! ### The samples before the tenth mid-bit sample of a character -/

/-- A character takes one of its first nine bits, or a sample between two mid-bit samples (R208). -/
def uartShift (b : Bool) (u : Uart) : Uart :=
  if (u.posCnt.toNat + 1) % 4 = 2 then
    { u with posCnt := u.posCnt + 1, bitCnt := u.bitCnt + 1, shift := shiftIn b u.shift }
  else { u with posCnt := u.posCnt + 1 }

/-- The Uart after a sample that ends no character (R205 to R208). -/
def uartSample (b : Bool) (u : Uart) : Uart :=
  match u.state with
  | .unsynced => uartUnsynced b u
  | .gotFallingEdgeOfSof => uartGotFalling b u
  | .awaitingStartBit => uartAwaitStart b u
  | .receivingData => uartShift b u

theorem uartSample_unsynced (hs : u.state = .unsynced) (b : Bool) : uartSample b u = uartUnsynced b u := by
  rw [uartSample, hs]

theorem uartSample_gotFalling (hs : u.state = .gotFallingEdgeOfSof) (b : Bool) :
    uartSample b u = uartGotFalling b u := by
  rw [uartSample, hs]

theorem uartSample_awaiting (hs : u.state = .awaitingStartBit) (b : Bool) : uartSample b u = uartAwaitStart b u := by
  rw [uartSample, hs]

theorem uartSample_receiving (hs : u.state = .receivingData) (b : Bool) : uartSample b u = uartShift b u := by
  rw [uartSample, hs]

/-- The sample completes no character: the tenth mid-bit sample is still to come, or this is no mid-bit sample (R208). -/
def BeforeTenth (u : Uart) : Prop :=
  u.state = .receivingData → u.bitCnt.toNat < 9 ∨ (u.posCnt.toNat + 1) % 4 ≠ 2

theorem uartReceiving_shift (h : u.bitCnt.toNat < 9 ∨ (u.posCnt.toNat + 1) % 4 ≠ 2) (b : Bool) :
    uartReceiving c b u m = .ok { uart := uartShift b u, mem := m, done := false } := by
  by_cases hp : (u.posCnt.toNat + 1) % 4 = 2
  · rw [uartReceiving_bit b hp (h.resolve_right (not_not_intro hp)), uartShift, if_pos hp]
  · rw [uartReceiving_between b hp, uartShift, if_neg hp]

/-- UART.STEP on such a sample changes its registers alone and reports nothing. -/
theorem uartStep_sample (h : BeforeTenth u) (b : Bool) :
    uartStep c b u m = .ok { uart := uartSample b u, mem := m, done := false } := by
  cases hs : u.state with
  | unsynced => rw [uartStep_unsynced hs, uartSample_unsynced hs]
  | gotFallingEdgeOfSof => rw [uartStep_gotFalling hs, uartSample_gotFalling hs]
  | awaitingStartBit => rw [uartStep_awaiting hs, uartSample_awaiting hs]
  | receivingData => rw [uartStep_receiving hs, uartReceiving_shift (h hs), uartSample_receiving hs]

/-- GOT_FALLING_EDGE_OF_SOF, with the mid-bit samples told by the counter after the step (R206). -/
theorem uartGotFalling_eq (b : Bool) (u : Uart) :
    uartGotFalling b u =
      if (u.posCnt + 1).toNat % 4 = 2 then
        if b then
          if 9 < u.bitCnt.toNat then { u with state := .awaitingStartBit, posCnt := 0, bitCnt := 0, byteCnt := 0 }
          else uartLost u
        else if 12 < (u.bitCnt + 1).toNat then uartLost u
        else { u with posCnt := u.posCnt + 1, bitCnt := u.bitCnt + 1 }
      else { u with posCnt := u.posCnt + 1 } := by
  rw [posCnt_next, Nat.mod_add_mod]
  by_cases hp : (u.posCnt.toNat + 1) % 4 = 2
  · rw [if_pos hp]
    cases b with
    | true => exact uartGotFalling_high hp
    | false => exact uartGotFalling_low hp
  · rw [if_neg hp, uartGotFalling_between b hp]

theorem uartSample_byteCntMax (b : Bool) (u : Uart) : (uartSample b u).byteCntMax = u.byteCntMax := by
  cases hs : u.state with
  | unsynced => rw [uartSample_unsynced hs, uartUnsynced]; split <;> rfl
  | gotFallingEdgeOfSof => rw [uartSample_gotFalling hs, uartGotFalling_eq]; split_ifs <;> rfl
  | awaitingStartBit => rw [uartSample_awaiting hs, uartAwaitStart]; dsimp only; split_ifs <;> rfl
  | receivingData => rw [uartSample_receiving hs, uartShift]; split <;> rfl

/-! ### What a step reports and writes (R204, R209, R210) -/

theorem uartImage_unique {r r' : BitVec 10} (h : uartImage b u r) (h' : uartImage b u r') : r = r' := by
  obtain ⟨-, -, -, hr⟩ := h
  obtain ⟨-, -, -, hr'⟩ := h'
  exact hr.trans hr'.symm

theorem BeforeTenth.no_image (h : BeforeTenth u) (r : BitVec 10) : ¬ uartImage b u r := by
  rintro ⟨hs, hp, hbit, -⟩
  have := h hs
  omega

/-- Under R42 a sample that completes no character is one before the tenth mid-bit sample. -/
theorem UartInv.beforeTenth_or_image (h : UartInv c u m) (b : Bool) : BeforeTenth u ∨ ∃ r, uartImage b u r := by
  by_cases himage : u.state = .receivingData ∧ (u.posCnt.toNat + 1) % 4 = 2 ∧ u.bitCnt.toNat = 9
  · obtain ⟨hs, hp, hbit⟩ := himage
    exact .inr ⟨_, hs, hp, hbit, rfl⟩
  · refine .inl fun hs => ?_
    have hle := (h.receiving hs).1
    simp only [hs, true_and] at himage
    omega

/-- A step keeps the limit, reports a frame exactly at an EOF after a byte, keeps the count at an EOF, and writes at most
the next byte of UOUT, for a valid character. -/
structure UartEffect (b : Bool) (u : Uart) (m : Memory) (r : UartRun) : Prop where
  limit : r.uart.byteCntMax = u.byteCntMax
  reports : r.done = true ↔ uartImage b u 0 ∧ 0 < u.byteCnt.toNat
  eof : uartImage b u 0 → r.uart.state = .unsynced ∧ r.uart.byteCnt = u.byteCnt
  frame : ∀ a, (a = Window.uout.base + u.byteCnt.toNat → ¬ ∃ r, uartImage b u r ∧ wellFramed r) →
    r.mem.read a = m.read a

/-- A step that meets no EOF reports nothing. -/
theorem UartEffect.of_not_eof {u' : Uart} {m' : Memory} (h0 : ¬ uartImage b u 0) (hlimit : u'.byteCntMax = u.byteCntMax)
    (hframe : ∀ a, (a = Window.uout.base + u.byteCnt.toNat → ¬ ∃ r, uartImage b u r ∧ wellFramed r) →
      m'.read a = m.read a) :
    UartEffect b u m { uart := u', mem := m', done := false } where
  limit := hlimit
  reports := ⟨nofun, fun h => absurd h.1 h0⟩
  eof h := absurd h h0
  frame := hframe

theorem UartEffect.of_eof (hi : uartImage b u 0) :
    UartEffect b u m { uart := uartFrameEnd u, mem := m, done := decide (0 < u.byteCnt.toNat) } where
  limit := rfl
  reports := by rw [decide_eq_true_iff, and_iff_right hi]
  eof _ := ⟨rfl, rfl⟩
  frame _ _ := rfl

/-- The end of a character, by its image: at the limit or stored, an EOF, or a framing error (R208, R209). -/
theorem UartInv.image_effect (h : UartInv c u m) (hc : c.wf = true) {image : BitVec 10} (hi : uartImage b u image)
    {r : UartRun} (hr : uartStep c b u m = .ok r) : UartEffect b u m r := by
  by_cases h0 : image = 0
  · subst h0
    obtain rfl := Except.ok.inj ((uartStep_eof hi).symm.trans hr)
    exact .of_eof hi
  have hno : ¬ uartImage b u 0 := fun hz => h0 (uartImage_unique hi hz)
  by_cases hw : wellFramed image
  · by_cases hl : c.uartOvfCheck = .beforeStore ∧ u.byteCntMax ≤ u.byteCnt
    · obtain rfl := Except.ok.inj ((uartStep_atLimit hi hw hl.1 hl.2).symm.trans hr)
      exact .of_not_eof hno rfl fun _ _ => rfl
    · obtain rfl := Except.ok.inj ((uartStep_stores hi hw hl (h.room_of_not_atLimit hc hl).1).symm.trans hr)
      exact .of_not_eof hno (by split <;> rfl) fun _ ha =>
        Memory.read_write_other _ _ fun heq => ha heq ⟨image, hi, hw⟩
  · obtain rfl := Except.ok.inj ((uartStep_framing hi h0 hw).symm.trans hr)
    exact .of_not_eof hno rfl fun _ _ => rfl

theorem UartInv.step_effect (h : UartInv c u m) (hc : c.wf = true) {r : UartRun} (hr : uartStep c b u m = .ok r) :
    UartEffect b u m r := by
  obtain hbefore | ⟨image, hi⟩ := h.beforeTenth_or_image b
  · obtain rfl := Except.ok.inj ((uartStep_sample hbefore b).symm.trans hr)
    exact .of_not_eof (hbefore.no_image 0) (uartSample_byteCntMax b u) fun _ _ => rfl
  · exact h.image_effect hc hi hr

end Sys2Proof.Machine

open Sys2Proof Sys2Proof.Machine

/-- Settles O32: the invariant makes the step complete and is kept; what the step reports and writes follows from whether
the sample completes a character, and from that character's image. -/
theorem uartStepCompletes : Obligations.UartStepCompletes := by
  intro b s hc h
  obtain ⟨r, hr, hinv, -⟩ := h.step hc b
  have he := h.step_effect hc hr
  exact ⟨_, exec_uartStep hr, rfl, hinv, he.limit, he.reports, he.eof, he.frame⟩

/-- Settles O33: every such sample is `uartSample`, whose four states are the four clauses. -/
theorem uartStepsSampleBySample : Obligations.UartStepsSampleBySample := by
  intro b s h
  refine ⟨uartSample b s.uart, exec_uartStep (uartStep_sample h b), fun hs => ?_, fun hs => ?_, fun hs => ?_, fun hs => ?_⟩
  · exact uartSample_unsynced hs b
  · rw [uartSample_gotFalling hs, uartGotFalling_eq]
  · exact uartSample_awaiting hs b
  · rw [uartSample_receiving hs, uartShift, shiftIn_eq]

/-- Settles O31: the length passes its check and the Uart is reset, or it raises. -/
theorem uartInitResetsTheUart : Obligations.UartInitResetsTheUart := by
  intro n s
  rw [← encode_uartInit]
  obtain ⟨hn, he⟩ | ⟨hn, he⟩ := exec_uartInit_cases n s
  · exact ⟨rfl, fun _ => he, fun hlt => absurd hn (Nat.not_le.2 hlt)⟩
  · exact ⟨rfl, fun hle => absurd hn (Nat.not_lt.2 hle), fun _ => he⟩

/-- Settles O58: the length passes its check and the command waits for a reader bit, or it raises. -/
theorem emuRxIsAccepted : Obligations.EmuRxIsAccepted := by
  intro n s
  rw [← encode_emuRx]
  obtain ⟨hn, he⟩ | ⟨hn, he⟩ := exec_emuRx_cases n s
  · exact ⟨rfl, fun _ => he, fun hlt => absurd hn (Nat.not_le.2 hlt)⟩
  · exact ⟨rfl, fun hle => absurd hn (Nat.not_lt.2 hle), fun _ => he⟩

end

section
/-! PROOFS. The amplitude, the sign and the soft decision (R232 to R234), DEMOD.INIT and the acceptance of TRX.RX_TAG (R235,
R280), DEMOD.STEP sample by sample and at the end of a character (R238 to R249), and the SOF's low phase (R242). -/

namespace Sys2Proof.Machine

variable {c : Config} {d : Demod} {m : Memory} {i q : Byte} {v : Int}

/-! ### The commands that reset the Demod -/

theorem encode_demodInit (n : Half) : encode (.demodInit n) = 0x20000000 ||| n.setWidth 32 := wordL_eq_or 0x20 n

theorem encode_trxRxTag (n : Half) : encode (.trxRxTag n) = 0x32000000 ||| n.setWidth 32 := wordL_eq_or 0x32 n

theorem exec_demodInit_cases (n : Half) (s : State) :
    (n.toNat ≤ s.cfg.doutSize ∧ exec (.demodInit n) s = .next { s with demod := demodReset n, dDone := false }) ∨
    (s.cfg.doutSize < n.toNat ∧ exec (.demodInit n) s = .next (s.raise .range (encode (.demodInit n)))) := by
  rcases demodInit_cases n (.demodInit n) s with ⟨hn, he⟩ | ⟨hn, he⟩
  · exact .inl ⟨hn, by rw [exec, execDemodInit, he, commit_ok]⟩
  · exact .inr ⟨hn, by rw [exec, execDemodInit, he, commit_raise]⟩

/-! ### Amplitude and sign -/

theorem natAbs_byte_le (b : Byte) : b.toInt.natAbs ≤ 128 := by
  have := toInt_byte b
  omega

/-- The magnitude 128 is that of the least component alone (R232). -/
theorem natAbs_byte_eq_128_iff (b : Byte) : b.toInt.natAbs = 128 ↔ b = 0x80 := by
  have hb := toInt_byte b
  have hmin : (0x80 : Byte).toInt = -128 := by decide
  rw [← BitVec.toInt_inj, hmin]
  omega

theorem amplitude_le (i q : Byte) : amplitude i q ≤ 192 := by
  have hi := natAbs_byte_le i
  have hq := natAbs_byte_le q
  unfold amplitude
  omega

/-- The amplitude is largest where both magnitudes are (R232). -/
theorem amplitude_eq_192_iff (i q : Byte) : amplitude i q = 192 ↔ i = 0x80 ∧ q = 0x80 := by
  have hi := natAbs_byte_le i
  have hq := natAbs_byte_le q
  rw [← natAbs_byte_eq_128_iff, ← natAbs_byte_eq_128_iff, amplitude]
  omega

theorem amplitude_min_left (q : Byte) : amplitude 0x80 q = 128 + q.toInt.natAbs / 2 := by
  have hmin : (0x80 : Byte).toInt.natAbs = 128 := by decide
  rw [amplitude, hmin, max_eq_left (natAbs_byte_le q), min_eq_right (natAbs_byte_le q)]

theorem sgn_of_pos (c : Config) {x : Int} (hx : 0 < x) : sgn c x = 1 := if_pos hx

theorem sgn_of_neg (c : Config) {x : Int} (hx : x < 0) : sgn c x = -1 := by
  rw [sgn, if_neg (by omega), if_pos hx]

theorem sgn_zero (c : Config) : sgn c 0 = sgnZeroValue c.sgnZero := rfl

/-! ### The samples before the end of a character -/

/-- A counter at most `k` passes `k` with the next sample exactly when it stands at `k`. -/
theorem lt_next_iff {k p : Byte} (hp : p.toNat ≤ k.toNat) (hk : k.toNat < 255) : k.toNat < (p + 1).toNat ↔ p = k := by
  rw [← BitVec.toNat_inj, BitVec.toNat_add]
  simp; omega

theorem demodUnsynced_eq (i q : Byte) (d : Demod) :
    demodUnsynced i q d = if 8 < amplitude i q then
      { d with state := .phaseRefTraining, sumI := i.signExtend 32, sumQ := q.signExtend 32, posCount := 1 } else d := by
  simp only [demodUnsynced, aboveThreshold_iff, sext32]

/-- Training ends with its eighth sample, the seventh after the seed (R240). -/
theorem demodTraining_eq (hs : d.state = .phaseRefTraining) (i q : Byte) :
    demodTraining i q d = if 8 < amplitude i q then
      { d with
        state := if d.posCount = 7 then .awaitingFallingEdgeOfSof else .phaseRefTraining
        sumI := d.sumI + i.signExtend 32, sumQ := d.sumQ + q.signExtend 32, posCount := d.posCount + 1 }
      else demodLost d := by
  have h8 : d.posCount + 1 = 8 ↔ d.posCount = 7 := by bv_omega
  by_cases ha : 8 < amplitude i q
  · rw [if_pos ha, demodTraining_above ha]
    simp only [h8, hs, sext32]
    split <;> rfl
  · rw [if_neg ha, demodTraining_below (Nat.not_lt.1 ha)]

theorem DemodInv.awaitFall_eq (h : DemodInv c d m) (hs : d.state = .awaitingFallingEdgeOfSof) (v : Int) :
    demodAwaitFall v d = if v < 0 then { d with state := .gotFallingEdgeOfSof, posCount := 1 }
      else if d.posCount = 50 then demodLost d else { d with posCount := d.posCount + 1 } := by
  by_cases hv : v < 0
  · rw [if_pos hv, demodAwaitFall_low hv]
  · have hlast : 50 < (d.posCount + 1).toNat ↔ d.posCount = 50 :=
      lt_next_iff (k := 50) (h.awaitingFall hs).2 (by decide)
    simp only [if_neg hv, demodAwaitFall_high (Int.not_lt.1 hv), hlast]

theorem DemodInv.gotFall_eq (h : DemodInv c d m) (hs : d.state = .gotFallingEdgeOfSof) (v : Int) :
    demodGotFall v d = if 0 < v then
        if 18 ≤ d.posCount.toNat then { d with state := .awaitingStartBit, posCount := 0, len := 0, bitCount := 0 }
        else demodLost d
      else if d.posCount = 28 then demodLost d else { d with posCount := d.posCount + 1 } := by
  by_cases hv : 0 < v
  · rw [if_pos hv, demodGotFall_high hv]
  · have hlast : 28 < (d.posCount + 1).toNat ↔ d.posCount = 28 := lt_next_iff (k := 28) (h.gotFall hs).2 (by decide)
    simp only [if_neg hv, demodGotFall_low (Int.not_lt.1 hv), hlast]

/-- High samples before a start bit: the thirteenth ends the frame, which returns true if it is a SOF alone (R243). -/
theorem DemodInv.awaitStart_high_eq (h : DemodInv c d m) (hs : d.state = .awaitingStartBit) (hv : 0 < v) :
    demodAwaitStart v d m =
      if d.posCount = 12 then { demod := demodLost d, mem := m, done := decide (d.len = 0) }
      else { demod := { d with posCount := d.posCount + 1 }, mem := m, done := false } := by
  obtain ⟨hpos, hbit⟩ := h.awaiting hs
  have hlast : 12 < (d.posCount + 1).toNat ↔ d.posCount = 12 := lt_next_iff (k := 12) hpos (by decide)
  simp only [demodAwaitStart_high hv hbit, hlast]
  by_cases hlen : d.len = 0
  · simp only [hlen, if_true, demodFrameEnd, demodLost, decide_true]
  · simp only [hlen, if_false, decide_false]

/-- The second half of a bit before the tenth (R244). -/
theorem demodStep_bit (hs : d.state = .receivingData) (hp : d.posCount ≠ 0) (hbit : d.bitCount.toNat < 9) :
    demodStep c i q d m = .ok { demod := demodBit (softDecision c d i q) d, mem := m, done := false } := by
  have hnext : (d.bitCount + 1).toNat = d.bitCount.toNat + 1 := by simp; omega
  rw [demodStep_receiving hs, demodReceiving_second hp, if_pos (by omega)]

/-- What one bit's two halves leave, the sum of the soft decisions not wrapping (R244, R45). -/
theorem DemodInv.demodBit_eq (h : DemodInv c d m) (hs : d.state = .receivingData) (hp : d.posCount ≠ 0)
    (hv : -256 ≤ v ∧ v ≤ 256) :
    demodBit v d = { d with
      thisBit := d.thisBit + BitVec.ofInt 32 v, posCount := 0, bitCount := d.bitCount + 1
      shift := BitVec.ofBool (decide (0 < d.thisBit.toInt + v)) ++ d.shift.extractLsb' 1 9 } := by
  rw [demodBit, (h.toInt_bit hs hp hv).1, shiftIn_eq]

/-! ### What a step reports and writes (R238, R245, R246, R249) -/

/-- The thirteenth high sample after a SOF with no character (R243, R246). -/
def demodSofOnly (v : Int) (d : Demod) : Prop :=
  d.state = .awaitingStartBit ∧ 0 < v ∧ d.posCount.toNat = 12 ∧ d.len = 0

/-- The sample completes a valid character whose image is `r` (R244, R245). -/
def demodValid (v : Int) (d : Demod) (r : BitVec 10) : Prop := demodImage v d r ∧ wellFramed r

/-- A step keeps the limit, returns true at the EOF, the SOF-only frame and the overflow alone, raises the overflow flag at
the overflow alone, and writes the next byte of DOUT for a valid character below the limit and no other. -/
structure DemodEffect (v : Int) (d : Demod) (m : Memory) (x : DemodRun) : Prop where
  limit : x.demod.maxLen = d.maxLen
  reports : x.done = true ↔ demodImage v d 0 ∨ demodSofOnly v d ∨ (∃ r, demodValid v d r) ∧ d.maxLen ≤ d.len
  eof : demodImage v d 0 → x.demod = { demodLost d with len := d.len }
  sofOnly : demodSofOnly v d → x.demod = demodLost d
  overflow : (∃ r, demodValid v d r) ∧ d.maxLen ≤ d.len → x.demod = { demodLost d with overflow := true }
  flag : x.demod.overflow = true ↔ d.overflow = true ∨ (∃ r, demodValid v d r) ∧ d.maxLen ≤ d.len
  stores : ∀ r, demodValid v d r → d.len < d.maxLen →
    x.demod = { d with
      state := .awaitingStartBit, posCount := 0, bitCount := 0, thisBit := 0, shift := 0, len := d.len + 1 } ∧
    x.mem.read (Window.dout.base + d.len.toNat) = some (r.extractLsb' 1 8) ∧
    ∀ a, a ≠ Window.dout.base + d.len.toNat → x.mem.read a = m.read a
  frame : ¬ ((∃ r, demodValid v d r) ∧ d.len < d.maxLen) → ∀ a, x.mem.read a = m.read a

theorem demodImage_unique {r r' : BitVec 10} (h : demodImage v d r) (h' : demodImage v d r') : r = r' := by
  obtain ⟨-, -, -, hr⟩ := h
  obtain ⟨-, -, -, hr'⟩ := h'
  exact hr.trans hr'.symm

theorem demodValid_iff {r : BitVec 10} (hi : demodImage v d r) : (∃ r', demodValid v d r') ↔ wellFramed r :=
  ⟨fun ⟨_, hi', hw⟩ => demodImage_unique hi hi' ▸ hw, fun hw => ⟨r, hi, hw⟩⟩

theorem not_demodSofOnly_of_image {r : BitVec 10} (hi : demodImage v d r) : ¬ demodSofOnly v d :=
  fun hsof => absurd (hi.1.symm.trans hsof.1) (by decide)

/-- A sample that completes no character writes no memory and reports at most a SOF-only frame. -/
theorem DemodEffect.of_no_image {d' : Demod} {done : Bool} (hno : ∀ r, ¬ demodImage v d r) (hlimit : d'.maxLen = d.maxLen)
    (hflag : d'.overflow = d.overflow) (hdone : done = true ↔ demodSofOnly v d) (hsof : demodSofOnly v d → d' = demodLost d) :
    DemodEffect v d m { demod := d', mem := m, done := done } := by
  have hvalid : ¬ ∃ r, demodValid v d r := fun ⟨r, hi, _⟩ => hno r hi
  exact {
    limit := hlimit
    reports := by simp only [hno 0, hvalid, false_and, or_false, false_or, hdone]
    eof := fun h => absurd h (hno 0)
    sofOnly := hsof
    overflow := fun h => absurd h.1 hvalid
    flag := by simp only [hflag, hvalid, false_and, or_false]
    stores := fun r h => absurd ⟨r, h⟩ hvalid
    frame := fun _ _ => rfl }

theorem DemodEffect.of_silent {d' : Demod} (hno : ∀ r, ¬ demodImage v d r) (hsof : ¬ demodSofOnly v d)
    (hlimit : d'.maxLen = d.maxLen) (hflag : d'.overflow = d.overflow) :
    DemodEffect v d m { demod := d', mem := m, done := false } :=
  .of_no_image hno hlimit hflag ⟨nofun, fun h => absurd h hsof⟩ fun h => absurd h hsof

theorem not_demodImage_of_state_ne (hs : d.state ≠ .receivingData) (r : BitVec 10) : ¬ demodImage v d r :=
  fun hi => hs hi.1

theorem not_demodSofOnly_of_state_ne (hs : d.state ≠ .awaitingStartBit) : ¬ demodSofOnly v d := fun hsof => hs hsof.1

/-- The EOF, whose image is ten zeros (R237, R245). -/
theorem DemodEffect.of_eof (hi : demodImage v d 0) :
    DemodEffect v d m { demod := { demodLost d with len := d.len }, mem := m, done := true } := by
  have hvalid : ¬ ∃ r, demodValid v d r := mt (demodValid_iff hi).1 (by unfold wellFramed; decide)
  exact {
    limit := rfl
    reports := iff_of_true rfl (.inl hi)
    eof := fun _ => rfl
    sofOnly := fun hsof => absurd hsof (not_demodSofOnly_of_image hi)
    overflow := fun ho => absurd ho.1 hvalid
    flag := by simp only [demodLost, hvalid, false_and, or_false]
    stores := fun r hr => absurd ⟨r, hr⟩ hvalid
    frame := fun _ _ => rfl }

/-- A framing error (R245). -/
theorem DemodEffect.of_framing {r : BitVec 10} (hi : demodImage v d r) (h0 : r ≠ 0) (hw : ¬ wellFramed r) :
    DemodEffect v d m { demod := demodLost d, mem := m, done := false } := by
  have heof : ¬ demodImage v d 0 := fun hz => h0 (demodImage_unique hi hz)
  have hsof : ¬ demodSofOnly v d := not_demodSofOnly_of_image hi
  have hvalid : ¬ ∃ r, demodValid v d r := mt (demodValid_iff hi).1 hw
  exact {
    limit := rfl
    reports := by simp only [heof, hsof, hvalid, false_and, or_false, Bool.false_eq_true]
    eof := fun hz => absurd hz heof
    sofOnly := fun h => absurd h hsof
    overflow := fun ho => absurd ho.1 hvalid
    flag := by simp only [demodLost, hvalid, false_and, or_false]
    stores := fun r hr => absurd ⟨r, hr⟩ hvalid
    frame := fun _ _ => rfl }

theorem ne_zero_of_wellFramed {r : BitVec 10} (hw : wellFramed r) : r ≠ 0 := by
  rintro rfl
  revert hw
  unfold wellFramed
  decide

/-- A valid character at the limit (R245). -/
theorem DemodEffect.of_overflow {r : BitVec 10} (hr : demodValid v d r) (hl : d.maxLen ≤ d.len) :
    DemodEffect v d m { demod := { demodLost d with overflow := true }, mem := m, done := true } where
  limit := rfl
  reports := iff_of_true rfl (.inr (.inr ⟨⟨r, hr⟩, hl⟩))
  eof hz := absurd (demodImage_unique hr.1 hz) (ne_zero_of_wellFramed hr.2)
  sofOnly hsof := absurd hsof (not_demodSofOnly_of_image hr.1)
  overflow _ := rfl
  flag := iff_of_true rfl (.inr ⟨⟨r, hr⟩, hl⟩)
  stores _ _ hlt := absurd hl (BitVec.not_le.2 hlt)
  frame _ _ := rfl

/-- A valid character below the limit (R245). -/
theorem DemodEffect.of_store {r : BitVec 10} (hr : demodValid v d r) (hl : ¬ d.maxLen ≤ d.len) :
    DemodEffect v d m {
      demod := { d with
        state := .awaitingStartBit, posCount := 0, bitCount := 0, thisBit := 0, shift := 0, len := d.len + 1 }
      mem := m.write (Window.dout.base + d.len.toNat) (characterByte r), done := false } := by
  have heof : ¬ demodImage v d 0 := fun hz => ne_zero_of_wellFramed hr.2 (demodImage_unique hr.1 hz)
  have hsof : ¬ demodSofOnly v d := not_demodSofOnly_of_image hr.1
  exact {
    limit := rfl
    reports := by simp only [heof, hsof, hl, and_false, or_false, Bool.false_eq_true]
    eof := fun hz => absurd hz heof
    sofOnly := fun h => absurd h hsof
    overflow := fun ho => absurd ho.2 hl
    flag := by simp only [hl, and_false, or_false]
    stores := fun r' hr' _ => by
      obtain rfl := demodImage_unique hr.1 hr'.1
      exact ⟨rfl, by rw [Memory.read_write_same, characterByte_eq], fun a ha => Memory.read_write_other _ _ ha⟩
    frame := fun hno => absurd ⟨⟨r, hr⟩, BitVec.not_le.1 hl⟩ hno }

theorem DemodInv.step_eof (h : DemodInv c d m) (hi : demodImage (softDecision c d i q) d 0) :
    demodStep c i q d m = .ok { demod := { demodLost d with len := d.len }, mem := m, done := true } := by
  rw [h.step_image hi, demodCharacter_eof rfl]
  rfl

theorem DemodInv.step_store (h : DemodInv c d m) {r : BitVec 10} (hi : demodImage (softDecision c d i q) d r)
    (hw : wellFramed r) (hl : ¬ d.maxLen ≤ d.len) :
    demodStep c i q d m = .ok {
      demod := { d with
        state := .awaitingStartBit, posCount := 0, bitCount := 0, thisBit := 0, shift := 0, len := d.len + 1 }
      mem := m.write (Window.dout.base + d.len.toNat) (characterByte r), done := false } := by
  have hroom : d.len.toNat < c.doutSize := Nat.lt_of_lt_of_le (BitVec.not_le.1 hl) h.limit
  exact (h.step_image hi).trans
    (demodCharacter_stores (d := { demodBit (softDecision c d i q) d with shift := r }) hw hl hroom)

/-- The end of a character, by its image: at the limit or stored, an EOF, or a framing error (R245). -/
theorem DemodInv.image_effect (h : DemodInv c d m) {r : BitVec 10} (hi : demodImage (softDecision c d i q) d r)
    {x : DemodRun} (hx : demodStep c i q d m = .ok x) : DemodEffect (softDecision c d i q) d m x := by
  by_cases hw : wellFramed r
  · by_cases hl : d.maxLen ≤ d.len
    · obtain rfl := Except.ok.inj ((h.step_overflow ⟨r, hi, hw, hl⟩).symm.trans hx)
      exact .of_overflow ⟨hi, hw⟩ hl
    · obtain rfl := Except.ok.inj ((h.step_store hi hw hl).symm.trans hx)
      exact .of_store ⟨hi, hw⟩ hl
  · by_cases h0 : r = 0
    · subst h0
      obtain rfl := Except.ok.inj ((h.step_eof hi).symm.trans hx)
      exact .of_eof hi
    · obtain rfl := Except.ok.inj ((h.step_of_error (.inr (.inr (.inr (.inr (.inr ⟨r, hi, h0, hw⟩)))))).symm.trans hx)
      exact .of_framing hi h0 hw

/-- A sample in AWAITING_START_BIT (R243). -/
theorem DemodInv.awaitStart_effect (h : DemodInv c d m) (hs : d.state = .awaitingStartBit) (v : Int) :
    DemodEffect v d m (demodAwaitStart v d m) := by
  have hno : ∀ r, ¬ demodImage v d r := not_demodImage_of_state_ne (by simp [hs])
  by_cases hv : 0 < v
  · have hpos : d.posCount = 12 ↔ d.posCount.toNat = 12 := (BitVec.toNat_inj (y := 12)).symm
    rw [h.awaitStart_high_eq hs hv]
    split <;> rename_i hp
    · refine .of_no_image hno rfl rfl ?_ fun _ => rfl
      rw [decide_eq_true_iff]
      exact ⟨fun hlen => ⟨hs, hv, hpos.1 hp, hlen⟩, fun ⟨_, _, _, hlen⟩ => hlen⟩
    · exact .of_silent hno (fun ⟨_, _, hp', _⟩ => hp (hpos.2 hp')) rfl rfl
  · rw [demodAwaitStart_low (Int.not_lt.1 hv)]
    exact .of_silent hno (fun ⟨_, hv', _⟩ => hv hv') rfl rfl

/-- A sample in RECEIVING_DATA: the first half of a bit, the second half before the tenth, or the end of a character
(R244). -/
theorem DemodInv.receiving_effect (h : DemodInv c d m) (hs : d.state = .receivingData) {x : DemodRun}
    (hx : demodStep c i q d m = .ok x) : DemodEffect (softDecision c d i q) d m x := by
  have hsof : ¬ demodSofOnly (softDecision c d i q) d := not_demodSofOnly_of_state_ne (by simp [hs])
  by_cases hp : d.posCount = 0
  · obtain rfl := Except.ok.inj ((demodReceiving_first hp).symm.trans ((demodStep_receiving hs).symm.trans hx))
    exact .of_silent (fun _ ⟨_, hp', _⟩ => hp' hp) hsof rfl rfl
  · by_cases h9 : d.bitCount.toNat = 9
    · exact h.image_effect ⟨hs, hp, h9, rfl⟩ hx
    · obtain ⟨-, hle, -⟩ := h.receiving hs
      obtain rfl := Except.ok.inj ((demodStep_bit hs hp (by omega)).symm.trans hx)
      exact .of_silent (fun _ ⟨_, _, h9', _⟩ => h9 h9') hsof rfl rfl

/-- A step outside AWAITING_START_BIT and RECEIVING_DATA that keeps limit and overflow flag. -/
theorem DemodEffect.of_step {d' : Demod} {x : DemodRun} (hr : d.state ≠ .receivingData) (ha : d.state ≠ .awaitingStartBit)
    (heq : demodStep c i q d m = .ok { demod := d', mem := m, done := false }) (hx : demodStep c i q d m = .ok x)
    (hkept : d'.maxLen = d.maxLen ∧ d'.overflow = d.overflow) : DemodEffect v d m x := by
  obtain rfl := Except.ok.inj (heq.symm.trans hx)
  obtain ⟨hlimit, hflag⟩ := hkept
  exact .of_silent (not_demodImage_of_state_ne hr) (not_demodSofOnly_of_state_ne ha) hlimit hflag

theorem DemodInv.step_effect (h : DemodInv c d m) {x : DemodRun} (hx : demodStep c i q d m = .ok x) :
    DemodEffect (softDecision c d i q) d m x := by
  cases hs : d.state with
  | unsynced =>
    refine .of_step (by simp [hs]) (by simp [hs]) (demodStep_unsynced hs) hx ?_
    rw [demodUnsynced_eq]
    split <;> exact ⟨rfl, rfl⟩
  | phaseRefTraining =>
    refine .of_step (by simp [hs]) (by simp [hs]) (demodStep_training hs) hx ?_
    rw [demodTraining_eq hs]
    split <;> exact ⟨rfl, rfl⟩
  | awaitingFallingEdgeOfSof =>
    refine .of_step (by simp [hs]) (by simp [hs]) (demodStep_awaitFall hs) hx ?_
    rw [h.awaitFall_eq hs]
    split_ifs <;> exact ⟨rfl, rfl⟩
  | gotFallingEdgeOfSof =>
    refine .of_step (by simp [hs]) (by simp [hs]) (demodStep_gotFall hs) hx ?_
    rw [h.gotFall_eq hs]
    split_ifs <;> exact ⟨rfl, rfl⟩
  | awaitingStartBit =>
    obtain rfl := Except.ok.inj ((demodStep_awaitStart hs).symm.trans hx)
    exact h.awaitStart_effect hs _
  | receivingData => exact h.receiving_effect hs hx

/-! ### The SOF's low phase (R241, R242, R248) -/

section

variable {α σ : Type} {R : α → σ → σ → Prop} {x : σ}

/-- Samples led through one by one, `P k` holding after `k` of them. -/
theorem Leads.counted {l : List α} {P : Nat → σ → Prop}
    (h : ∀ k < l.length, ∀ a ∈ l, ∀ x, P k x → ∃ y, R a x y ∧ P (k + 1) y) (h0 : P 0 x) : Leads R l (P l.length) x := by
  induction l generalizing P x with
  | nil => exact h0
  | cons a l ih =>
    obtain ⟨y, hy, h1⟩ := h 0 (Nat.zero_lt_succ _) a List.mem_cons_self x h0
    exact ⟨y, hy, ih (P := fun k => P (k + 1))
      (fun k hk b hb => h (k + 1) (Nat.succ_lt_succ hk) b (List.mem_cons_of_mem a hb)) h1⟩

end

/-- On the sample `a` the Demod goes from registers `d` to `d'`, writes nothing and returns false. -/
def DemodMoves (c : Config) (a : Byte × Byte) (d d' : Demod) : Prop :=
  ∀ m, demodStep c a.1 a.2 d m = .ok { demod := d', mem := m, done := false }

/-- `t` is `s` with Demod registers `d`, whatever D_DONE is. -/
def DemodStands (s : State) (d : Demod) (t : State) : Prop :=
  ∃ done, t = s.withDemodRun { demod := d, mem := s.mem, done := done }

theorem DemodStands.exec {s t : State} {a : Byte × Byte} {d' : Demod} (h : DemodMoves s.cfg a d d')
    (ht : DemodStands s d t) : Answers (DemodStands s d') (exec (.demodStep a.1 a.2) t) := by
  obtain ⟨done, rfl⟩ := ht
  exact ⟨_, exec_demodStep (s := s.withDemodRun _) (h s.mem), false, rfl⟩

theorem DemodStands.runCommands {s t : State} {l : List (Byte × Byte)} {Q : Demod → Prop}
    (h : Leads (DemodMoves s.cfg) l Q d) (ht : DemodStands s d t) :
    Answers (fun u => ∃ y, Q y ∧ DemodStands s y u) (runCommands (l.map fun x => .demodStep x.1 x.2) t) :=
  h.runCommands (fun hm hP => hP.exec hm) ht

/-- The Demod that waits for the SOF with registers `d`, after a low phase of `k` samples (R241, R242). -/
def demodLow (d : Demod) (k : Nat) : Demod :=
  if k ≤ 28 then { d with state := .gotFallingEdgeOfSof, posCount := BitVec.ofNat 8 k } else demodLost d

theorem demodLow_of_le {k : Nat} (hk : k ≤ 28) :
    demodLow d k = { d with state := .gotFallingEdgeOfSof, posCount := BitVec.ofNat 8 k } := if_pos hk

theorem demodLow_state {k : Nat} (hk : k ≤ 28) : (demodLow d k).state = .gotFallingEdgeOfSof := by rw [demodLow_of_le hk]

theorem demodLow_posCount {k : Nat} (hk : k ≤ 28) : (demodLow d k).posCount.toNat = k := by
  rw [demodLow_of_le hk, BitVec.toNat_ofNat]
  omega

theorem softDecision_demodLow {k : Nat} (hk : k ≤ 28) (c : Config) (d : Demod) (i q : Byte) :
    softDecision c (demodLow d k) i q = softDecision c d i q := by
  rw [demodLow_of_le hk]
  rfl

theorem demodMoves_falling {a : Byte × Byte} (hs : d.state = .awaitingFallingEdgeOfSof)
    (ha : softDecision c d a.1 a.2 < 0) : DemodMoves c a d (demodLow d 1) := fun m => by
  rw [demodStep_awaitFall hs, demodAwaitFall_low ha, demodLow_of_le (by decide)]
  rfl

theorem demodMoves_low {a : Byte × Byte} {k : Nat} (hk : k ≤ 28) (ha : softDecision c d a.1 a.2 < 0) :
    DemodMoves c a (demodLow d k) (demodLow d (k + 1)) := fun m => by
  have hnext : (demodLow d k).posCount + 1 = BitVec.ofNat 8 (k + 1) := by
    rw [demodLow_of_le hk]
    exact (BitVec.ofNat_add ..).symm
  have hcount : (BitVec.ofNat 8 (k + 1)).toNat = k + 1 := by rw [BitVec.toNat_ofNat]; omega
  rw [← softDecision_demodLow hk] at ha
  rw [demodStep_gotFall (demodLow_state hk), demodGotFall_low (Int.le_of_lt ha), hnext, hcount]
  by_cases hlast : k + 1 ≤ 28
  · rw [if_neg (Nat.not_lt.2 hlast), demodLow_of_le hk, demodLow_of_le hlast]
  · rw [if_pos (Nat.not_le.1 hlast), demodLow_of_le hk, demodLow, if_neg hlast]
    rfl

/-- The sample after a low phase: the SOF is taken, or the Demod starts again (R239, R242). -/
theorem demodMoves_high {a : Byte × Byte} {k : Nat} (ha : 0 < softDecision c d a.1 a.2) :
    ∃ d', DemodMoves c a (demodLow d k) d' ∧ (d'.state = .awaitingStartBit ↔ 18 ≤ k ∧ k ≤ 28) := by
  by_cases hk : k ≤ 28
  · rw [← softDecision_demodLow hk] at ha
    refine ⟨_, fun m => demodStep_gotFall (demodLow_state hk), ?_⟩
    rw [demodGotFall_high ha, demodLow_posCount hk]
    split <;> rename_i h18 <;> simp [h18, hk, demodLost]
  · refine ⟨_, fun m => demodStep_unsynced (by rw [demodLow, if_neg hk]; rfl), ?_⟩
    rw [demodUnsynced_eq, demodLow, if_neg hk]
    split <;> simp [hk, demodLost]

/-- A low phase of `l` and then a high sample bring the Demod to AWAITING_START_BIT exactly if it takes the SOF. -/
theorem demod_leads_through_low {l : List (Byte × Byte)} (hs : d.state = .awaitingFallingEdgeOfSof) (h1 : 1 ≤ l.length)
    (h29 : l.length ≤ 29) (hlow : ∀ x ∈ l, softDecision c d x.1 x.2 < 0) (hhigh : 0 < softDecision c d i q) :
    Leads (DemodMoves c) (l ++ [(i, q)]) (fun d' => d'.state = .awaitingStartBit ↔ 18 ≤ l.length ∧ l.length ≤ 28) d := by
  match l, h1 with
  | a :: l, _ =>
    rw [List.length_cons] at h29
    have hrest : Leads (DemodMoves c) l (· = demodLow d (l.length + 1)) (demodLow d 1) :=
      .counted (P := fun k x => x = demodLow d (k + 1))
        (fun k hk b hb x hx => hx ▸ ⟨_, demodMoves_low (by omega) (hlow b (List.mem_cons_of_mem a hb)), rfl⟩) rfl
    refine ⟨_, demodMoves_falling hs (hlow a List.mem_cons_self), hrest.append ?_⟩
    rintro _ rfl
    exact demodMoves_high hhigh

end Sys2Proof.Machine

open Sys2Proof Sys2Proof.Machine

/-- Settles O37: the length passes its check and the Demod is reset, or it raises. -/
theorem demodInitResetsTheDemod : Obligations.DemodInitResetsTheDemod := by
  intro n s
  rw [← encode_demodInit]
  obtain ⟨hn, he⟩ | ⟨hn, he⟩ := exec_demodInit_cases n s
  · exact ⟨rfl, fun _ => he, fun hlt => absurd hn (Nat.not_le.2 hlt)⟩
  · exact ⟨rfl, fun hle => absurd hn (Nat.not_lt.2 hle), fun _ => he⟩

/-- Settles O49: the length passes its check and the command waits for a sample, or it raises. -/
theorem rxTagIsAccepted : Obligations.RxTagIsAccepted := by
  intro n s
  rw [← encode_trxRxTag]
  obtain ⟨hn, he⟩ | ⟨hn, he⟩ := exec_trxRxTag_cases n s
  · exact ⟨rfl, fun _ => he, fun hlt => absurd hn (Nat.not_le.2 hlt)⟩
  · exact ⟨rfl, fun hle => absurd hn (Nat.not_lt.2 hle), fun _ => he⟩

/-- Settles O39: magnitudes are at most 128, which -128 alone has, and a sign is 1, -1 or the parameter's value. -/
theorem amplitudeAndSoftDecision : Obligations.AmplitudeAndSoftDecision := by
  refine ⟨fun i q => ⟨rfl, amplitude_le i q, amplitude_eq_192_iff i q, amplitude_min_left q, aboveThreshold_iff i q⟩,
    fun c x => ⟨sgn_of_pos c, sgn_of_neg c, ?_⟩, fun c d i q => ⟨rfl, softDecision_bounds c d i q⟩⟩
  rintro rfl
  rw [sgn_zero]
  exact ⟨congrArg sgnZeroValue, congrArg sgnZeroValue, congrArg sgnZeroValue⟩

/-- Settles O38: the invariant makes the step complete and is kept; what the step reports and writes follows from whether the
sample completes a character, and the samples before that are the states' own equations. -/
theorem demodStepCompletes : Obligations.DemodStepCompletes := by
  intro i q s h
  obtain ⟨x, hx, hinv, -⟩ := h.step i q
  have he := h.step_effect hx
  refine ⟨⟨_, exec_demodStep hx, rfl, hinv, he.limit, he.reports, he.eof, he.sofOnly, he.overflow, he.flag, he.stores,
    he.frame⟩, fun hs => ?_, fun hs => ?_, fun hs => ?_, fun hs => ?_, fun hs => ?_, fun hs hp => ?_, fun hs hp hbit => ?_⟩
  · rw [← demodUnsynced_eq]
    exact exec_demodStep (demodStep_unsynced hs)
  · rw [← demodTraining_eq hs]
    exact exec_demodStep (demodStep_training hs)
  · rw [← h.awaitFall_eq hs]
    exact exec_demodStep (demodStep_awaitFall hs)
  · rw [← h.gotFall_eq hs]
    exact exec_demodStep (demodStep_gotFall hs)
  · have hexec := exec_demodStep (demodStep_awaitStart hs (i := i) (q := q))
    split <;> rename_i hv
    · rw [h.awaitStart_high_eq hs hv] at hexec
      split <;> rename_i hp
      · rwa [if_pos hp] at hexec
      · rwa [if_neg hp] at hexec
    · rwa [demodAwaitStart_low (Int.not_lt.1 hv)] at hexec
  · exact exec_demodStep ((demodStep_receiving hs).trans (demodReceiving_first hp))
  · rw [← h.demodBit_eq hs hp (softDecision_bounds ..)]
    exact exec_demodStep (demodStep_bit hs hp hbit)

/-- Settles O40: the low samples count up to 28, a twenty-ninth gives up the frame, and the high sample tells. -/
theorem demodAcceptsLowPhasesOf18To28Samples : Obligations.DemodAcceptsLowPhasesOf18To28Samples := by
  intro s lows i q hs h1 h29 hlow hhigh
  have hlead := demod_leads_through_low hs h1 h29 hlow hhigh
  obtain ⟨_, ht, d, hd, done, rfl⟩ := DemodStands.runCommands hlead ⟨s.dDone, rfl⟩
  exact ⟨_, ht, hd⟩

end

section
/-! PROOFS. The transmissions from their first hold to their end (R272, R273, R276, R278), and the acceptance of
TRX.CODE_TX_READER. -/

namespace Sys2Proof.Machine

variable {s : State} {ws : List TxWord} {k : Nat}

/-! ### Words that left the block -/

/-- Stages of `j` steps each, one after another. -/
theorem runSteps_stages {f : Nat → State} {j n : Nat} (h : ∀ k < n, runSteps j (f k) = .next (f (k + 1))) :
    runSteps (j * n) (f 0) = .next (f n) := by
  induction n with
  | zero => rfl
  | succ n ih =>
    rw [Nat.mul_succ, runSteps_add, ih fun k hk => h k (by omega)]
    exact h n n.lt_succ_self

/-- A transmission begun in `s` of which the words `ws` have left and item `k` is the next (R272, log entry 11). -/
def State.sent (ws : List TxWord) (k : Nat) (s : State) : State :=
  { s with
    eng := { s.eng with txIdx := BitVec.ofNat 32 k }
    env := { s.env with txReady := s.env.txReady - ws.length }
    out := { s.out with tx := s.out.tx ++ ws } }

theorem sent_nil (h : s.eng.txIdx = 0) : s.sent [] 0 = s := by
  have hidx : BitVec.ofNat 32 0 = s.eng.txIdx := h.symm
  simp only [State.sent, hidx, List.length_nil, Nat.sub_zero, List.append_nil]

/-- One more word leaves. -/
theorem sent_emitTx (w : TxWord) : (s.sent ws k).emitTx w = s.sent (ws ++ [w]) k := by
  simp only [State.sent, State.emitTx, List.length_append, List.length_singleton, List.append_assoc, Nat.sub_sub]

/-- TX_IDX moves to the next item (R272). -/
def State.nextItem (s : State) : State := { s with eng := { s.eng with txIdx := s.eng.txIdx + 1 } }

theorem sent_nextItem : (s.sent ws k).nextItem = s.sent ws (k + 1) := by
  have hidx : BitVec.ofNat 32 k + 1 = BitVec.ofNat 32 (k + 1) := (BitVec.ofNat_add ..).symm
  simp only [State.sent, State.nextItem, hidx]

theorem sent_txIdx (hk : k < 2 ^ 32) : (s.sent ws k).eng.txIdx.toNat = k := by
  rw [State.sent, BitVec.toNat_ofNat, Nat.mod_eq_of_lt hk]

theorem holdAt_self {h : Hold} (hhold : s.eng.hold = h) : s.holdAt h = s := by
  subst hhold
  rfl

/-! ### Reader transmission -/

/-- Each of the two words of bit `p` of the send buffer (R273, R275). -/
def bitWord (m : Memory) (p : Nat) : TxWord := .tx16 (if bufferBit .tosend m p = some true then 0x0000 else 0xFFFF)

/-- The words of the first `k` bits of the send buffer. -/
def bitWords (m : Memory) (k : Nat) : List TxWord := (List.range k).flatMap fun p => [bitWord m p, bitWord m p]

theorem bitWords_succ (m : Memory) (k : Nat) : bitWords m (k + 1) = bitWords m k ++ [bitWord m k] ++ [bitWord m k] := by
  rw [bitWords, List.range_succ, List.flatMap_append, List.flatMap_singleton, List.append_assoc]
  rfl

theorem bitWords_length (m : Memory) (k : Nat) : (bitWords m k).length = 2 * k := by
  induction k with
  | zero => rfl
  | succ k ih => rw [bitWords_succ, List.length_append, List.length_append, ih]; rfl

/-- The bit a reader transmission sends is the send buffer's bit TX_IDX in append order (R91, R272). -/
theorem SendInv.sendBit (h : SendInv s.cfg s.ts s.mem) (hlt : s.eng.txIdx.toNat < 8 * s.ts.len) :
    ∃ b, sendBit s = .ok b ∧ bufferBit .tosend s.mem s.eng.txIdx.toNat = some b := by
  have hlen := h.len_le
  obtain ⟨v, hv, hread⟩ := readByte_of_written (c := s.cfg) (w := .tosend) (k := s.eng.txIdx.toNat / 8) (m := s.mem)
    (by simp only [Window.capacity]; omega) (h.bytesWritten _ (by omega))
  exact ⟨v.getLsbD (7 - s.eng.txIdx.toNat % 8), by simp only [Machine.sendBit, hv],
    by simp only [bufferBit, hread, Option.map_some]⟩

/-- The next hold of a reader transmission does not depend on the present one (R273). -/
theorem readerNext_holdAt (frame : Option (List Byte)) (h : Hold) (s : State) :
    readerNext frame (s.holdAt h) = readerNext frame s := by
  cases frame <;> rfl

/-- A reader transmission of a good send buffer is in flight, with CANCEL low (R39, R273, R350). -/
structure SendsBuffer (s : State) : Prop where
  config : s.cfg.wf = true
  send : SendInv s.cfg s.ts s.mem
  busy : s.eng.busy = true
  noCancel : s.env.cancel = false

/-- TX_IDX does not wrap within a send buffer. -/
theorem SendsBuffer.txIdx (h : SendsBuffer s) (ws : List TxWord) (hk : k ≤ 8 * s.ts.len) :
    (s.sent ws k).eng.txIdx.toNat = k := by
  have hlen := h.send.len_le
  have hsize := Config.wf_iff _ |>.1 h.config
  exact sent_txIdx (by omega)

/-- With the consumer ready a word of bit TX_IDX leaves (R272, R273). -/
theorem SendsBuffer.step_word (h : SendsBuffer s) {second : Bool} {frame : Option (List Byte)}
    (hhold : s.eng.hold = .readerWord second frame) (hready : 0 < s.env.txReady) (hidx : s.eng.txIdx.toNat = k)
    (hk : k < 8 * s.ts.len) : step s = .next (if second then readerNext frame (s.emitTx (bitWord s.mem k)).nextItem
      else (s.emitTx (bitWord s.mem k)).holdAt (.readerWord true frame)) := by
  obtain ⟨b, hb, hbit⟩ := h.send.sendBit (hidx.trans_lt hk)
  have hword : bitWord s.mem k = .tx16 (askWord b) := by
    simp only [bitWord, ← hidx, hbit, Option.some.injEq, askWord]
  rw [step_segment h.busy h.noCancel (by simpa only [holdReady, hhold, decide_eq_true_eq]), segment, hhold, hword]
  dsimp only
  rw [readerSegment, hb]
  cases second <;> rfl

/-- The word of bit `k` leaves after the words `ws`. -/
theorem SendsBuffer.word (h : SendsBuffer s) (hk : k < 8 * s.ts.len) (hws : ws.length < s.env.txReady) (second : Bool)
    (frame : Option (List Byte)) : step ((s.sent ws k).holdAt (.readerWord second frame)) = .next (if second
      then readerNext frame (s.sent (ws ++ [bitWord s.mem k]) (k + 1))
      else (s.sent (ws ++ [bitWord s.mem k]) k).holdAt (.readerWord true frame)) := by
  have hheld : SendsBuffer ((s.sent ws k).holdAt (.readerWord second frame)) := ⟨h.config, h.send, h.busy, h.noCancel⟩
  rw [hheld.step_word rfl (Nat.sub_pos_of_lt hws) (h.txIdx ws hk.le) hk, ← sent_nextItem, ← sent_emitTx]
  cases second with
  | false => rfl
  | true =>
    exact congrArg _ (readerNext_holdAt frame (.readerWord true frame) ((s.sent ws k).emitTx (bitWord s.mem k)).nextItem)

/-- A bit of a reader transmission is two steps, one for each of its words (R273). -/
theorem SendsBuffer.bit (h : SendsBuffer s) (hk : k < 8 * s.ts.len) (hready : 2 * k + 2 ≤ s.env.txReady)
    (frame : Option (List Byte)) : runSteps 2 (readerNext frame (s.sent (bitWords s.mem k) k)) =
      .next (readerNext frame (s.sent (bitWords s.mem (k + 1)) (k + 1))) := by
  have hnext : readerNext frame (s.sent (bitWords s.mem k) k) =
      (s.sent (bitWords s.mem k) k).holdAt (.readerWord false frame) :=
    if_pos (by rw [h.txIdx _ hk.le]; exact hk)
  have hlen := bitWords_length s.mem k
  have hfirst := h.word hk (ws := bitWords s.mem k) (by omega) false frame
  have hsecond := h.word hk (ws := bitWords s.mem k ++ [bitWord s.mem k])
    (by rw [List.length_append, List.length_singleton]; omega) true frame
  rw [hnext, runSteps, hfirst, andThen, runSteps_one, bitWords_succ]
  exact hsecond

/-- The whole transmission, from its slot wait to its end (R273). -/
theorem SendsBuffer.run (h : SendsBuffer s) {frame : Option (List Byte)} (hhold : s.eng.hold = .slot frame)
    (hidx : s.eng.txIdx = 0) (hslot : s.eng.txTarget ≤ s.env.now) (hready : 16 * s.ts.len ≤ s.env.txReady) :
    runSteps (1 + 16 * s.ts.len) s =
      .next (finishReader frame (s.sent (bitWords s.mem (8 * s.ts.len)) (8 * s.ts.len))) := by
  have hstart : step s = .next (readerNext frame s) := by
    rw [step_segment h.busy h.noCancel (by simp only [holdReady, hhold, hslot, decide_true]), segment, hhold]
    rfl
  have hbits := runSteps_stages (f := fun k => readerNext frame (s.sent (bitWords s.mem k) k)) (j := 2) (n := 8 * s.ts.len)
    fun k hk => h.bit hk (by omega) frame
  have hend : readerNext frame (s.sent (bitWords s.mem (8 * s.ts.len)) (8 * s.ts.len)) = finishReader frame _ :=
    if_neg (by rw [h.txIdx _ le_rfl]; exact lt_irrefl _)
  rw [show bitWords s.mem 0 = [] from rfl, sent_nil hidx, show 2 * (8 * s.ts.len) = 16 * s.ts.len by omega] at hbits
  rw [runSteps_add, runSteps_one, hstart, andThen, hbits, hend]

/-! ### Tag transmission -/

/-- With the consumer ready byte TX_IDX of the source leaves (R276). -/
theorem step_tagByte {src : TxSource} {v : Byte} (hbusy : s.eng.busy = true) (hcancel : s.env.cancel = false)
    (hhold : s.eng.hold = .tagByte src) (hready : 0 < s.env.txReady) (hidx : s.eng.txIdx.toNat = k)
    (hk : k < src.window.capacity s.cfg) (hv : s.mem.read (src.window.base + k) = some v) :
    step s = .next (tagNext src (s.emitTx (.tx8 v)).nextItem) := by
  have hread : readByte s.cfg src.window s.eng.txIdx.toNat s.mem = .ok v := by
    rw [hidx]
    exact (readByte_eq_ok_iff ..).2 ⟨hk, hv⟩
  rw [step_segment hbusy hcancel (by simpa only [holdReady, hhold, decide_eq_true_eq]), segment, hhold]
  dsimp only
  rw [tagSegment, hread]
  rfl

/-- Before its last byte a tag transmission stays at its hold (R276). -/
theorem tagNext_sent {src : TxSource} (hhold : s.eng.hold = .tagByte src) (hk : k < 2 ^ 32) (hlen : k < txLen src s) :
    tagNext src (s.sent ws k) = s.sent ws k := by
  have hlt : (s.sent ws k).eng.txIdx.toNat < txLen src (s.sent ws k) := by
    rw [sent_txIdx hk]
    cases src <;> exact hlen
  rw [tagNext, if_pos hlt]
  exact holdAt_self hhold

/-- After its last byte a tag transmission is complete (R276). -/
theorem tagNext_sent_all {src : TxSource} (hk : k < 2 ^ 32) (hlen : k = txLen src s) :
    tagNext src (s.sent ws k) = (s.sent ws k).complete := by
  refine if_neg ?_
  rw [sent_txIdx hk, hlen]
  cases src <;> exact lt_irrefl _

end Sys2Proof.Machine

open Sys2Proof Sys2Proof.Machine

/-- Settles O45: two steps for each bit, and then the results. -/
theorem readerTransmissionRunsToItsEnd : Obligations.ReaderTransmissionRunsToItsEnd := by
  intro s frame hc hsend hbusy hhold hidx hcancel hslot hready
  rw [SendsBuffer.run ⟨hc, hsend, hbusy, hcancel⟩ hhold hidx hslot hready]
  have hlen : (bitWords s.mem (8 * s.ts.len)).length = 16 * s.ts.len := by rw [bitWords_length]; omega
  cases frame with
  | none =>
    simp only [finishReader, State.sent, hlen, Option.toList_none, List.map_nil, List.append_nil]
    rfl
  | some bytes =>
    simp only [finishReader, State.sent, hlen]
    rfl

/-- Settles O48: one step for each byte. -/
theorem tagTransmissionRunsToItsEnd : Obligations.TagTransmissionRunsToItsEnd := by
  intro s src bytes hbusy hhold hidx hcancel hlen hpos hcap hsize hbytes hready
  have hstage (k : Nat) (hk : k < bytes.length) :
      runSteps 1 (tagNext src (s.sent ((bytes.take k).map .tx8) k)) =
        .next (tagNext src (s.sent ((bytes.take (k + 1)).map .tx8) (k + 1))) := by
    have hbyte := step_tagByte (s := s.sent ((bytes.take k).map .tx8) k) hbusy hcancel hhold
      (Nat.sub_pos_of_lt (by rw [List.length_map, List.length_take]; omega)) (sent_txIdx (by omega))
      (hk.trans_le hcap) (hbytes k hk)
    rw [runSteps_one, tagNext_sent hhold (by omega) (hlen ▸ hk), hbyte, sent_emitTx, sent_nextItem, List.take_add_one,
      List.getElem?_eq_getElem hk, List.map_append]
    rfl
  have hrun := runSteps_stages (f := fun k => tagNext src (s.sent ((bytes.take k).map .tx8) k)) hstage
  rw [List.take_zero, List.map_nil, tagNext_sent hhold (by decide) (by omega), sent_nil hidx, List.take_length,
    tagNext_sent_all (by omega) hlen, Nat.one_mul] at hrun
  rw [hrun, State.sent, List.length_map]
  rfl

/-- Settles O46: the checks pass, the encoder builds the frame, and the transmission waits for its slot. -/
theorem codeTxReaderIsAccepted : Obligations.CodeTxReaderIsAccepted := by
  intro n s d hc hlen hsize hd hfit
  obtain ⟨x, hx, hencoded⟩ := encodeReader_encodes hc d s.mem hfit
  have hcode : codeAsReader n (.trxCodeTxReader n) s = .ok (d, x) := by
    rw [codeAsReader_eq, encodingOperand_of_holds hlen hsize hd (by rwa [← hlen])]
    simp [Except.bind, hx]
  exact ⟨startReader 0x33 (some d) (s.withSend x),
    by simp [exec, execTrxCodeTxReader, codeTxReader, hcode], hencoded, rfl⟩

end

section
/-! PROOFS. The reader TX slot (R271, R274, R383) and the session parameters (R286, R287). -/

namespace Sys2Proof.Machine

variable {c : Config} {t st : Word}

/-- Clearing the low four bits rounds down to a multiple of 16 (R274). -/
theorem toNat_and_0xFFFFFFF0 (x : Word) : (x &&& 0xFFFFFFF0).toNat = x.toNat / 16 * 16 := by
  have hmask : (0xFFFFFFF0 : Word) = BitVec.allOnes 32 <<< 4 := by decide
  rw [hmask, ← BitVec.shiftLeft_ushiftRight, BitVec.toNat_shiftLeft, BitVec.toNat_ushiftRight, Nat.shiftLeft_eq,
    Nat.shiftRight_eq_div_pow]
  have hx := x.isLt
  exact Nat.mod_eq_of_lt (by omega)

/-- The slot before any slip (R271, R274). -/
theorem slotFor_toNat (st : Word) : (slotFor st).toNat = (max st.toNat 16 - 16) / 16 * 16 := by
  have hstart : ((if st < armToTag then armToTag else st) - armToTag).toNat = max st.toNat 16 - 16 := by
    by_cases h : st < armToTag
    · have hlt : st.toNat < 16 := h
      rw [if_pos h, BitVec.sub_self, max_eq_right hlt.le]
      rfl
    · have hle : armToTag ≤ st := BitVec.not_lt.1 h
      have hle' : 16 ≤ st.toNat := hle
      rw [if_neg h, BitVec.toNat_sub_of_le hle, max_eq_left hle']
      rfl
  rw [slotFor, toNat_and_0xFFFFFFF0, hstart]

/-- A slot not before the clock's reading is kept (R271). -/
theorem txSlot_inTime (h : ¬ slotFor st < t) : txSlot c t st = slotFor st := if_neg h

/-- A late slot slips by 16 ticks, which cannot wrap: the last slot of a clock's turn is 32 before its end (R271). -/
theorem txSlot_targetPlus16 (h : slotFor st < t) (hc : c.slipPolicy = .targetPlus16) :
    (txSlot c t st).toNat = (slotFor st).toNat + 16 := by
  have hslip : txSlot c t st = slotFor st + 16 := by simp only [txSlot, if_pos h, hc]
  have hst := st.isLt
  rw [hslip, BitVec.toNat_add, slotFor_toNat]
  exact Nat.mod_eq_of_lt (show _ + 16 < 2 ^ 32 by omega)

/-- A late slot slips to the first slot after the clock's reading, away from its wrap (R271, R383). -/
theorem txSlot_nextSlotAfterNow (h : slotFor st < t) (hc : c.slipPolicy = .nextSlotAfterNow)
    (hwrap : t.toNat + 16 < 2 ^ 32) : (txSlot c t st).toNat = (t.toNat + 16) / 16 * 16 := by
  have hslip : txSlot c t st = (t + 16) &&& 0xFFFFFFF0 := by simp only [txSlot, if_pos h, hc]
  rw [hslip, toNat_and_0xFFFFFFF0, BitVec.toNat_add]
  exact congrArg (· / 16 * 16) (Nat.mod_eq_of_lt hwrap)

/-- Slipping never makes a slot earlier, away from the clock's wrap (R271, R383). -/
theorem slotFor_le_txSlot (c : Config) (st : Word) (hwrap : t.toNat + 16 < 2 ^ 32) :
    (slotFor st).toNat ≤ (txSlot c t st).toNat := by
  by_cases hlate : slotFor st < t
  · have hlt : (slotFor st).toNat < t.toNat := hlate
    cases hc : c.slipPolicy with
    | nextSlotAfterNow => rw [txSlot_nextSlotAfterNow hlate hc hwrap]; omega
    | targetPlus16 => rw [txSlot_targetPlus16 hlate hc]; omega
  · rw [txSlot_inTime hlate]

end Sys2Proof.Machine

open Sys2Proof Sys2Proof.Machine

/-- Settles O43: the unslipped slot as a number, and what each policy makes of a late one. -/
theorem slotsAreMultiplesOf16AndSlipByPolicy : Obligations.SlotsAreMultiplesOf16AndSlipByPolicy := by
  intro c now st
  refine ⟨(and_0xF_eq_zero_iff _).1 (txSlot_and_0xF ..), slotFor_toNat st, fun hle => txSlot_inTime (Nat.not_lt.2 hle),
    txSlot_targetPlus16, fun hlate hc hwrap => ?_, slotFor_le_txSlot c st⟩
  rw [txSlot_nextSlotAfterNow hlate hc hwrap]
  omega

/-- Settles O53: the two clamps compare as unsigned numbers. -/
theorem sessionParametersAreClamped : Obligations.SessionParametersAreClamped := by
  refine ⟨by decide, by decide, fun s => ⟨?_, ?_⟩⟩
  · simp only [exec, execTrxSetTimeout, BitVec.le_def]
  · simp only [exec, execTrxSetMaxFrame, BitVec.lt_def]
    rfl

end

section
/-! PROOFS. What writes TX_MODE (R277, R370): a transmission accepted, a cancellation, RESET, and nothing else. -/

namespace Sys2Proof.Machine

variable {s t : State}

/-! ### Segments -/

theorem readerNext_txMode (frame : Option (List Byte)) (s : State) : (readerNext frame s).txMode = s.txMode := by
  unfold readerNext
  split
  · rfl
  · cases frame <;> rfl

theorem readerSegment_txMode {second : Bool} {frame : Option (List Byte)} (h : readerSegment second frame s = .ok t) :
    t.txMode = s.txMode := by
  unfold readerSegment at h
  split at h
  · cases h
  · split at h <;> cases h
    · exact readerNext_txMode ..
    · rfl

theorem afterSample_txMode {done : Bool} (h : afterSample done s = .ok t) : t.txMode = s.txMode := by
  unfold afterSample finishReceive at h
  split at h
  · split at h
    · cases h; rfl
    · split at h <;> cases h
      rfl
  · split at h <;> cases h <;> rfl

theorem demodStepState_txMode {i q : Byte} {x : Bool × State} (h : demodStepState i q s = .ok x) :
    x.2.txMode = s.txMode := by
  unfold demodStepState at h
  split at h <;> cases h
  rfl

theorem uartStepState_txMode {b : Bool} {x : Bool × State} (h : uartStepState b s = .ok x) : x.2.txMode = s.txMode := by
  unfold uartStepState at h
  split at h <;> cases h
  rfl

theorem sampleSegment_txMode (h : sampleSegment s = .ok t) : t.txMode = s.txMode := by
  unfold sampleSegment at h
  split at h
  · cases h
  · rename_i hnext
    obtain ⟨-, -, rfl⟩ := (nextSample_eq_ok_iff ..).1 hnext
    split at h
    · cases h
    · rename_i hstep
      exact (afterSample_txMode h).trans (demodStepState_txMode hstep)

theorem rbitSegment_txMode (h : rbitSegment s = .ok t) : t.txMode = s.txMode := by
  unfold rbitSegment at h
  split at h
  · cases h; rfl
  · split at h
    · cases h
    · rename_i hstep
      split at h <;> cases h <;> exact uartStepState_txMode hstep

/-- No segment writes TX_MODE: a transmission that completes leaves it as it is (R277). -/
theorem segment_txMode (h : segment s = .ok t) : t.txMode = s.txMode := by
  unfold segment at h
  split at h
  · cases h; rfl
  · cases h; exact readerNext_txMode ..
  · exact readerSegment_txMode h
  · obtain ⟨v, e, rfl⟩ := tagSegment_ok h
    rfl
  · exact sampleSegment_txMode h
  · exact rbitSegment_txMode h

/-- The engine writes TX_MODE by a cancellation alone (R350). -/
theorem engineMove_txMode (h : engineMove s = .next t) :
    t.txMode = s.txMode ∨ t.txMode = .off ∧ s.env.cancel = true := by
  rcases engineMove_cases s with ⟨hc, he⟩ | ⟨-, he⟩ <;> rw [he] at h
  · cases h
    exact .inr ⟨rfl, hc⟩
  · rcases commit_next_cases h segment_txMode with ⟨code, info, rfl⟩ | hk
    · exact .inl (State.raise_txMode ..)
    · exact .inl hk

/-! ### Commands -/

/-- What a command that begins a transmission leaves in TX_MODE (R273, R276, R278, R313). -/
def BeginsTransmission (i : Instr) (mode : TxMode) : Prop :=
  (mode = .readerAsk ∧ (i = .trxTxReader ∨ ∃ n, i = .trxCodeTxReader n)) ∨
    (mode = .tagBpsk ∧ (i = .emuFrame ∨ ∃ sel, i = .trxTxTag sel))

theorem Effect.txMode {i : Instr} (h : Effect s t i) : t.txMode = s.txMode ∨ BeginsTransmission i t.txMode := by
  cases i with
  | tosendReset | uartInit | demodInit | emuRx => subst h; exact .inl rfl
  | tosendStuff | tosendStuff4 | codeReader | codeTag | uartStep | demodStep => obtain ⟨x, -, rfl⟩ := h; exact .inl rfl
  | trxRxTag | trxSetTimeout | trxSetMaxFrame | emuField => obtain ⟨x, rfl⟩ := h; exact .inl rfl
  | emuInit => obtain ⟨ts, m, e, rfl, -⟩ := h; exact .inl rfl
  | trxTxReader => subst h; exact .inr (.inl ⟨rfl, .inl rfl⟩)
  | trxCodeTxReader n => obtain ⟨cmd, x, -, rfl⟩ := h; exact .inr (.inl ⟨rfl, .inr ⟨n, rfl⟩⟩)
  | trxTxTag sel =>
    obtain ⟨src, rfl⟩ := h
    rw [startTag_eq]
    exact .inr (.inr ⟨rfl, .inr ⟨sel, rfl⟩⟩)
  | emuFrame =>
    rcases h with rfl | ⟨x, f, rfl⟩
    · exact .inl rfl
    · unfold emuAnswered
      split
      · exact .inl rfl
      · rw [startTag_eq]
        exact .inr (.inr ⟨rfl, .inl rfl⟩)

theorem exec_txMode {i : Instr} (h : exec i s = .next t) : t.txMode = s.txMode ∨ BeginsTransmission i t.txMode := by
  rcases exec_cases h with ⟨code, info, rfl⟩ | he
  · exact .inl (State.raise_txMode ..)
  · exact he.txMode

/-- A word written to CMD writes TX_MODE only by a command it is accepted as (R120). -/
theorem submit_txMode {cw : Word} (h : submit cw s = .next t) :
    t.txMode = s.txMode ∨ ∃ i, decode cw = .ok i ∧ BeginsTransmission i t.txMode := by
  unfold submit at h
  split at h
  · cases h; exact .inl rfl
  · split at h
    · cases h; exact .inl (State.raise_txMode ..)
    · split at h
      · cases h; exact .inl (State.raise_txMode ..)
      · rename_i i hd
        exact (exec_txMode h).imp_right fun hb => ⟨i, hd, hb⟩

/-! ### External moves -/

theorem hostRead_txMode (addr : Half) (n : Nat) (s : State) : (hostRead addr n s).txMode = s.txMode := by
  rcases hostRead_cases addr n s with ⟨v, he⟩ | ⟨code, info, he⟩ <;> rw [he]
  · rfl
  · exact State.raise_txMode ..

theorem hostWrite_txMode {addr : Half} {n : Nat} {v : Word} (h : hostWrite addr n v s = .next t) :
    t.txMode = s.txMode ∨ (n = 4 ∧ addr = cmdAddr) ∧ ∃ i, decode v = .ok i ∧ BeginsTransmission i t.txMode := by
  unfold hostWrite at h
  split at h
  · rename_i hcmd
    exact (submit_txMode h).imp_right (⟨hcmd, ·⟩)
  · split at h
    · cases h; exact .inl rfl
    · split at h <;> cases h
      · exact .inl rfl
      · exact .inl (State.raise_txMode ..)

theorem producerWrite_txMode {x y : Byte} (h : producerWrite x y s = .ok t) : t.txMode = s.txMode := by
  simp only [producerWrite] at h
  repeat' split at h
  all_goals cases h
  rfl

/-- An external move writes TX_MODE by RESET or by a command accepted (R277, R370). -/
theorem applyMove_txMode {mv : Move} (h : applyMove mv s = .next t) :
    t.txMode = s.txMode ∨ (t.txMode = .off ∧ mv = .reset) ∨
      ∃ cw i, mv = .hostWrite cmdAddr 4 cw ∧ decode cw = .ok i ∧ BeginsTransmission i t.txMode := by
  cases mv with
  | hostWrite addr n v =>
    rcases hostWrite_txMode h with hk | ⟨⟨rfl, rfl⟩, i, hd, hb⟩
    · exact .inl hk
    · exact .inr (.inr ⟨v, i, rfl, hd, hb⟩)
  | hostRead addr n => cases h; exact .inl (hostRead_txMode ..)
  | produce x y =>
    rcases commit_next_cases h producerWrite_txMode with ⟨code, info, rfl⟩ | hk
    · exact .inl (State.raise_txMode ..)
    · exact .inl hk
  | readerBit | clock | txReady | field | cancel => cases h; exact .inl rfl
  | reset => cases h; exact .inr (.inl ⟨rfl, rfl⟩)

end Sys2Proof.Machine

open Sys2Proof Sys2Proof.Machine

/-- Settles O21: the engine's move can only cancel, and an external move can only reset or submit a transmit command. -/
theorem txModeIsWrittenByTransmissionsAndCancellation : Obligations.TxModeIsWrittenByTransmissionsAndCancellation := by
  intro s t h hne
  rcases step_cases s with ⟨hready, he⟩ | ⟨hready, mv, rest, hmoves, he⟩ | ⟨-, -, he⟩ <;> rw [he] at h
  · obtain ⟨hoff, hcancel⟩ := (engineMove_txMode h).resolve_left hne
    exact .inl ⟨hoff, .inl ⟨hready, hcancel⟩⟩
  · rcases (applyMove_txMode h).resolve_left hne with ⟨hoff, rfl⟩ | ⟨cw, i, rfl, hd, hb⟩
    · exact .inl ⟨hoff, .inr (by rw [hmoves]; rfl)⟩
    · exact .inr ⟨hready, cw, i, rest, hmoves, hd, hb⟩
  · cases h
    exact absurd rfl hne

end

section
/-! PROOFS. A receive in silence (R282, R352). -/

namespace Sys2Proof.Machine

variable {s : State} {i q : Byte} {rest : List Move}

/-- The Demod in UNSYNCED does not move on a sample at or below the threshold (R239). -/
theorem demodStep_silence {c : Config} {d : Demod} {m : Memory} (hs : d.state = .unsynced) (ha : amplitude i q ≤ 8) :
    demodStep c i q d m = .ok { demod := d, mem := m, done := false } := by
  rw [demodStep_unsynced hs, demodUnsynced, if_neg (mt (aboveThreshold_iff ..).1 (Nat.not_lt.2 ha))]

/-- A receive whose next sample was delivered and taken, the Demod as it was (R239, R280). -/
def State.silentlySampled (i q : Byte) (rest : List Move) (s : State) : State :=
  { sampled (s.delivered i q rest) with dDone := false }

/-- A receive still waits after a silent sample. -/
theorem AwaitsSample.silentlySampled (h : AwaitsSample s) (i q : Byte) (rest : List Move) :
    AwaitsSample (s.silentlySampled i q rest) :=
  ⟨h.config, h.busy, h.hold, h.noCancel, congrArg (· + 1) h.ringEmpty⟩

/-- A silent sample is two steps, its delivery and the Demod's step on it, before the test of the budget (R282, R352). -/
theorem AwaitsSample.silent_steps (h : AwaitsSample s) (hs : s.demod.state = .unsynced) (ha : amplitude i q ≤ 8)
    (hmoves : s.env.moves = .produce i q :: rest) {u : State}
    (hu : afterSample false (s.silentlySampled i q rest) = .ok u) : runSteps 2 s = .next u :=
  h.steps hmoves (demodStep_silence hs ha) hu

theorem toNat_add_one {x : Word} (h : x.toNat + 1 < 2 ^ 32) : (x + 1).toNat = x.toNat + 1 :=
  (BitVec.toNat_add ..).trans (Nat.mod_eq_of_lt h)

/-- A receive that has timed out, begun in `s` and ended after `n` samples (R282). -/
structure TimedOut (s : State) (n : Nat) (rest : List Move) (t : State) : Prop where
  res0 : t.res0 = 0xFFFFFFFF
  res1 : t.res1 = s.res1
  idle : t.eng.busy = false
  samples : t.eng.rxSamples.toNat = n
  fault : t.fault = s.fault
  out : t.out = s.out
  moves : t.env.moves = rest

/-- Silence up to one sample past what is left of the budget ends the receive there (R282). -/
theorem AwaitsSample.silence (h : AwaitsSample s) (hs : s.demod.state = .unsynced) (a : Byte × Byte)
    (silence : List (Byte × Byte)) (hlen : s.eng.rxSamples.toNat + silence.length = s.eng.rxLimit.toNat)
    (hlimit : s.eng.rxLimit.toNat + 1 < 2 ^ 32) (hall : ∀ x ∈ a :: silence, amplitude x.1 x.2 ≤ 8)
    (hmoves : s.env.moves = deliveries (a :: silence) ++ rest) :
    Answers (TimedOut s (s.eng.rxLimit.toNat + 1) rest) (runSteps (2 * (silence.length + 1)) s) := by
  induction silence generalizing s a with
  | nil =>
    have hcount : (s.eng.rxSamples + 1).toNat = s.eng.rxLimit.toNat + 1 := by
      rw [List.length_nil, Nat.add_zero] at hlen
      rw [toNat_add_one (hlen ▸ hlimit), hlen]
    have hover : s.eng.rxLimit < s.eng.rxSamples + 1 := by rw [BitVec.lt_def, hcount]; exact Nat.lt_succ_self _
    have hstep := h.silent_steps hs (hall a List.mem_cons_self) hmoves
      (afterSample_timeout (s := s.silentlySampled a.1 a.2 rest) rfl ⟨hover, hs⟩)
    exact ⟨_, hstep, rfl, rfl, rfl, hcount, rfl, rfl, rfl⟩
  | cons b silence ih =>
    rw [List.length_cons] at hlen
    have hcount : (s.eng.rxSamples + 1).toNat = s.eng.rxSamples.toNat + 1 := toNat_add_one (by omega)
    have hwithin : ¬ s.eng.rxLimit < s.eng.rxSamples + 1 := by rw [BitVec.lt_def, hcount]; omega
    have hstep := h.silent_steps hs (hall a List.mem_cons_self) hmoves
      (afterSample_goesOn (s := s.silentlySampled a.1 a.2 (deliveries (b :: silence) ++ rest)) rfl fun hc => hwithin hc.1)
    obtain ⟨t, ht, hend⟩ := ih (h.silentlySampled a.1 a.2 (deliveries (b :: silence) ++ rest)) hs b
      (show (s.eng.rxSamples + 1).toNat + silence.length = s.eng.rxLimit.toNat by omega) hlimit
      (fun x hx => hall x (List.mem_cons_of_mem a hx)) rfl
    refine ⟨t, ?_, { hend with }⟩
    rw [List.length_cons, Nat.mul_succ, Nat.add_comm, runSteps_add, hstep]
    exact ht

end Sys2Proof.Machine

open Sys2Proof Sys2Proof.Machine

/-- Settles O51: the samples within the budget change no register a receive answers with, and the one past it ends it. -/
theorem silenceTimesOut : Obligations.SilenceTimesOut := by
  intro s silence rest h hbusy hhold hcancel hs hsamples hempty hlen hsmall hall hmoves
  have hwait : AwaitsSample s := ⟨h.config, hbusy, hhold, hcancel, hempty⟩
  cases silence with
  | nil => cases hlen
  | cons a silence =>
    rw [List.length_cons] at hlen hsmall
    have hbudget : s.eng.rxSamples.toNat + silence.length = s.eng.rxLimit.toNat := by
      rw [hsamples, ← Nat.succ.inj hlen]
      exact Nat.zero_add _
    obtain ⟨t, ht, hend⟩ := hwait.silence hs a silence hbudget (hlen ▸ hsmall) hall hmoves
    exact ⟨t, ht, hend.res0, hend.res1, hend.idle, hend.samples.trans hlen.symm,
      hend.fault.trans (h.engine.noFault hbusy), hend.out, hend.moves⟩

end

section
/-! PROOFS. The emulator's commands EMU.INIT, EMU.FIELD and EMU.FRAME (R311 to R319). -/

namespace Sys2Proof.Machine

variable {s : State} {c : Config} {w : Window} {d : List Byte} {m m' : Memory}

/-! ### Responses built through the send buffer -/

/-- The copy of the send buffer's first `n` bytes, address by address (R311). -/
theorem copyTosend_read {n : Nat} (h : copyTosend c w n m = .ok m') (a : Nat) :
    m'.read a = if w.base ≤ a ∧ a < w.base + n then m.read (Window.tosend.base + (a - w.base)) else m.read a := by
  unfold copyTosend at h
  split at h
  · cases h
  · rename_i bytes hbytes
    obtain ⟨hlen, hsame⟩ := (readBytes_eq_ok_iff ..).1 hbytes
    rw [writeBytes_read h, Nat.add_zero, hlen]
    by_cases ha : w.base ≤ a ∧ a < w.base + n
    · have hbyte := hsame (a - w.base) (by omega)
      rw [Nat.zero_add] at hbyte
      rw [if_pos ha, if_pos ha, ((readByte_eq_ok_iff ..).1 hbyte).2, List.getElem?_eq_getElem]
    · rw [if_neg ha, if_neg ha]

/-- The copied bytes have the bits of the send buffer. -/
theorem copyTosend_bufferBit {n p : Nat} (h : copyTosend c w n m = .ok m') (hp : p < 8 * n) :
    bufferBit w m' p = bufferBit .tosend m p := by
  rw [bufferBit, copyTosend_read h, if_pos (by omega), Nat.add_sub_cancel_left, bufferBit]

theorem written_of_bufferBit {k : Nat} {b : Bool} (h : bufferBit w m (8 * k) = some b) : written w k m := by
  rw [bufferBit, Nat.mul_div_cancel_left k (by decide)] at h
  obtain ⟨v, hv, -⟩ := Option.map_eq_some_iff.1 h
  exact Option.isSome_iff_exists.2 ⟨v, hv⟩

/-- What encoding the frame `d` over memory `m` and keeping its image in window `w` leaves in `y` (R311): the cursor of the
tag frame, its bits in the send buffer and in the window, every other byte as before. -/
structure ResponseBuilt (w : Window) (d : List Byte) (m : Memory) (y : SendState) : Prop where
  cursor : y.ts = { max := BitVec.ofNat 32 (22 + 5 * d.length - 1), bit := 8 }
  sent : ∀ p < 8 * tagLen d.length, bufferBit .tosend y.mem p = some (tagBit d (p / 4))
  kept : ∀ p < 8 * tagLen d.length, bufferBit w y.mem p = some (tagBit d (p / 4))
  frame : ∀ a, ¬ (Window.tosend.base ≤ a ∧ a < Window.tosend.base + tagLen d.length) →
    ¬ (w.base ≤ a ∧ a < w.base + tagLen d.length) → y.mem.read a = m.read a

/-- A response is built when the send buffer and its window have room for its tag frame (R311). -/
theorem buildResponse_builds (hc : c.wf = true) (m : Memory) (hw : w ≠ .tosend) (hfit : tagLen d.length ≤ c.tosendSize)
    (hroom : tagLen d.length ≤ w.capacity c) :
    ∃ y, buildResponse c d w (tagLen d.length) m = .ok y ∧ ResponseBuilt w d m y := by
  obtain ⟨x, hx, hcursor, hbits, hframe⟩ := encodeTag_encodes hc d m hfit
  obtain ⟨m', hcopy, hwrites, -⟩ := copyTosend_of_written (m := x.mem) hfit hroom fun k hk =>
    written_of_bufferBit (hbits (8 * k) (Nat.mul_lt_mul_of_pos_left hk (by decide)))
  refine ⟨{ x with mem := m' }, by unfold buildResponse; simp only [hx, hcopy], hcursor, fun p hp => ?_, fun p hp => ?_,
    fun a hsend hwindow => ?_⟩
  · have hlow : p / 8 < Window.tosend.capacity c := Nat.lt_of_lt_of_le (Nat.div_lt_of_lt_mul hp) hfit
    rw [bufferBit_congr (hwrites.read_other hc hw.symm hlow)]
    exact hbits p hp
  · rw [copyTosend_bufferBit hcopy hp]
    exact hbits p hp
  · rw [copyTosend_read hcopy, if_neg hwindow]
    exact hframe a hsend

theorem holdsBytes_of_writeBytes (h : writeBytes c w 0 d m = .ok m') : holdsBytes w d m' := fun k hk => by
  rw [writeBytes_read h, if_pos (by omega), Nat.add_zero, Nat.add_sub_cancel_left, List.getElem?_eq_getElem hk]

/-- The build of the OK response reaches neither ATQB nor EATQB, and no build reaches any other buffer (R311). -/
theorem responses_survive {m₀ : Memory} {x y : SendState} (hm : writeBytes c .atqb 0 d m₀ = .ok m) (hlen : d.length = 14)
    (hx : ResponseBuilt .eatqb d m x) (hy : ResponseBuilt .eok okFrame x.mem y) :
    holdsBytes .atqb d y.mem ∧ (∀ p < 8 * 92, bufferBit .eatqb y.mem p = some (tagBit d (p / 4))) ∧
      ∀ a, ¬ (0x2000 ≤ a ∧ a < 0x2000 + 92) → ¬ (0x5000 ≤ a ∧ a < 0x5000 + 14) → ¬ (0x5100 ≤ a ∧ a < 0x5100 + 92) →
        ¬ (0x5200 ≤ a ∧ a < 0x5200 + 37) → y.mem.read a = m₀.read a := by
  obtain ⟨-, -, hkept, hxframe⟩ := hx
  have hyframe := hy.frame
  simp only [tagLen, hlen, okFrame, List.length, Window.base] at hkept hxframe hyframe
  refine ⟨fun k hk => ?_, fun p hp => ?_, fun a hsend hatqb heatqb heok => ?_⟩
  · have hheld : m.read (0x5000 + k) = some d[k] := holdsBytes_of_writeBytes hm k hk
    rw [Window.base, hyframe _ (by omega) (by omega), hxframe _ (by omega) (by omega), hheld]
  · rw [bufferBit_congr (hyframe (0x5100 + p / 8) (by omega) (by omega))]
    exact hkept p hp
  · rw [hyframe a (by omega) heok, hxframe a hsend heatqb, writeBytes_read hm, hlen]
    exact if_neg hatqb

/-- EMU.INIT in a send buffer of 92 bytes or more (R311): ATQB written, then EATQB built over it, then EOK. -/
theorem emuInit_builds (hc : s.cfg.wf = true) (hsize : 92 ≤ s.cfg.tosendSize) :
    ∃ m x y, writeBytes s.cfg .atqb 0 (atqbFor s.arg0) s.mem = .ok m ∧
      ResponseBuilt .eatqb (atqbFor s.arg0) m x ∧ ResponseBuilt .eok okFrame x.mem y ∧
      exec .emuInit s = .next { s.withSend y with emu := { state := .nofield, eatqbLen := 92, eokLen := 37 } } := by
  have hatqb : tagLen (atqbFor s.arg0).length = 92 := by rw [atqbFor_length]; rfl
  have hok : tagLen okFrame.length = 37 := rfl
  have hcheck : checkTosend s.cfg 92 = .ok () := if_neg (Nat.not_lt.2 hsize)
  obtain ⟨m, hm⟩ := (writeBytes_isOk_iff s.cfg .atqb 0 (atqbFor s.arg0) s.mem).2
    (.inr (by rw [atqbFor_length]; exact Nat.le_refl 14))
  obtain ⟨x, hx, hxb⟩ := buildResponse_builds (w := .eatqb) (d := atqbFor s.arg0) hc m (by decide) (hatqb ▸ hsize)
    (Nat.le_of_eq hatqb)
  obtain ⟨y, hy, hyb⟩ := buildResponse_builds (w := .eok) (d := okFrame) hc x.mem (by decide)
    (Nat.le_trans (by decide) hsize) (Nat.le_of_eq hok)
  rw [hatqb] at hx
  rw [hok] at hy
  exact ⟨m, x, y, hm, hxb, hyb, by simp only [exec, execEmuInit, emuInit, hcheck, hm, hx, hy, commit_ok]⟩

/-! ### The field -/

/-- The field-detect transition on the numbers (R312). -/
theorem fieldTransition_eq (c : Config) (v : Word) (e : EState) : fieldTransition c v e =
    if e = .nofield then (if c.fieldThreshold.toNat < v.toNat then .idle else .nofield)
    else (if v.toNat ≤ c.fieldThreshold.toNat then .nofield else e) := by
  cases e with
  | nofield => rfl
  | idle | selecting | halting | halted | work | acknowledge => rfl

/-! ### The transition table -/

/-- The bytes that stand in a window are those the engine reads there. -/
theorem readBytes_of_holds (hfit : d.length ≤ w.capacity c) (h : holdsBytes w d m) :
    readBytes c w 0 d.length m = .ok d := by
  refine (readBytes_eq_ok_iff ..).2 ⟨rfl, fun j hj => (readByte_eq_ok_iff ..).2 ?_⟩
  rw [Nat.zero_add]
  exact ⟨Nat.lt_of_lt_of_le hj hfit, h j hj⟩

/-- The rows and the immediate rows compose to the table (R319). -/
theorem transition_of_emuTable {e : EState} {ev : FrameEvent} {x : EState × Option TxSource × TraceKind} :
    emuTable e ev = some x → transition e ev = x := by
  cases e with
  | selecting | halting | acknowledge => exact nofun
  | nofield | idle | halted | work => cases ev <;> exact Option.some.inj

/-- EMU.FRAME answers by the table in every state that has rows; the row of NOFIELD leaves the state as it is (R317). -/
theorem emuFrame_of_emuTable {x : EState × Option TxSource × TraceKind}
    (hread : readBytes s.cfg .uout 0 s.uart.byteCnt.toNat s.mem = .ok d)
    (hrow : emuTable s.emu.state (classify d) = some x) : emuFrame s = .ok (emuAnswered x d s) := by
  by_cases hfield : s.emu.state = .nofield
  · rw [hfield] at hrow
    obtain rfl : (.nofield, none, .none) = x := Option.some.inj hrow
    have hsame : emuAnswered (.nofield, none, .none) d s = s := by
      simp [emuAnswered, emuMoved, frameRecords, ← hfield]
    rw [emuFrame_nofield hfield, hsame]
  · rw [emuFrame_answers hfield hread, transition_of_emuTable hrow]

end Sys2Proof.Machine

open Sys2Proof Sys2Proof.Machine

/-- Settles O54: the ATQB and its image survive the build of the OK response, whose image the send buffer keeps. -/
theorem emuInitBuildsTheResponses : Obligations.EmuInitBuildsTheResponses := by
  refine ⟨by decide, fun s hc => ⟨fun hsmall => ?_, fun hsize => ?_⟩⟩
  · have hcheck : checkTosend s.cfg 92 = .error (.raise .tosendOvf (BitVec.ofNat 32 s.cfg.tosendSize)) := if_pos hsmall
    simp only [exec, execEmuInit, emuInit, hcheck, commit_raise]
  · obtain ⟨m, x, y, hm, hx, hy, hexec⟩ := emuInit_builds hc hsize
    have hlen := atqbFor_length s.arg0
    obtain ⟨hatqb, heatqb, hframe⟩ := responses_survive hm hlen hx hy
    exact ⟨_, hexec, by rw [State.withSend, hy.cursor]; rfl, hlen, hatqb, heatqb, hy.kept, hy.sent, hframe⟩

/-- Settles O55: the threshold itself is no field in either direction. -/
theorem emuFieldFollowsTheThreshold : Obligations.EmuFieldFollowsTheThreshold := by
  refine ⟨by decide, fun s => ?_⟩
  rw [← fieldTransition_eq]
  rfl

/-- Settles O57: EMU.FRAME reads the frame the Uart holds and answers by the row of the table. -/
theorem emuFrameFollowsTheTable : Obligations.EmuFrameFollowsTheTable := by
  refine ⟨by decide, fun s f next resp kind hu hlen hf hrow => ?_⟩
  have hfit : f.length ≤ s.cfg.uoutSize := hlen ▸ Nat.le_trans (BitVec.le_def.1 hu.count) hu.limit
  have hread := readBytes_of_holds (c := s.cfg) (w := .uout) hfit hf
  rw [hlen] at hread
  have hexec : exec .emuFrame s = .next (emuAnswered (next, resp, kind) f s) := by
    simp only [exec, execEmuFrame, emuFrame_of_emuTable hread hrow, commit_ok]
  refine ⟨?_, ?_⟩
  · rintro rfl
    exact hexec
  · rintro src rfl
    exact hexec.trans (congrArg Host.Outcome.next (startTag_eq_tagBegun ..))

end

section
/-! PROOFS. Faults (R340 to R342): the ones a command raises by itself, each in the state before it, and what a fault leaves
working. -/

namespace Sys2Proof.Machine

variable {s t : State}

/-! ### Rules that fail as a command's rule may -/

/-- How a command's rule may fail: by ILLEGAL, RANGE, UNWRITTEN or TOSEND_OVF (R341), or by a stop of the model. -/
def Abort.Own : Abort → Prop
  | .raise code _ => code ∈ [FaultCode.illegal, .range, .unwritten, .tosendOvf]
  | .stop _ => True

@[simp] theorem Abort.own_raise (code : FaultCode) (info : Word) :
    (Abort.raise code info).Own ↔ code ∈ [FaultCode.illegal, .range, .unwritten, .tosendOvf] := Iff.rfl

/-- A rule answers a value with property `P`, or fails as a command's rule may. -/
def Res.Own {α : Type} (r : Res α) (P : α → Prop) : Prop :=
  match r with
  | .ok a => P a
  | .error e => e.Own

/-- A rule that fails only as a command's rule may, whatever it answers. -/
abbrev Res.OwnFaults {α : Type} (r : Res α) : Prop := Res.Own r fun _ => True

theorem Res.Own.of_error {α : Type} {r : Res α} {P : α → Prop} {e : Abort} (h : Res.Own r P) (he : r = .error e) :
    e.Own := by
  rwa [he] at h

theorem Res.Own.map {α β : Type} {r : Res α} {f : α → β} {P : α → Prop} {Q : β → Prop} (h : Res.Own r P)
    (hf : ∀ a, P a → Q (f a)) : Res.Own (r.map f) Q := by
  cases r with
  | ok a => exact hf a h
  | error e => exact h

/-! ### The engine's buffer accesses and the checks of operands -/

theorem readByte_own (c : Config) (w : Window) (k : Nat) (m : Memory) : Res.OwnFaults (readByte c w k m) := by
  unfold readByte
  split
  · split <;> trivial
  · trivial

theorem writeByte_own (c : Config) (w : Window) (k : Nat) (v : Byte) (m : Memory) :
    Res.OwnFaults (writeByte c w k v m) := by
  unfold writeByte
  split <;> trivial

theorem readBytes_own (c : Config) (w : Window) (k n : Nat) (m : Memory) : Res.OwnFaults (readBytes c w k n m) := by
  induction n generalizing k with
  | zero => trivial
  | succ n ih =>
    unfold readBytes
    split
    · trivial
    · exact (readByte_own ..).of_error ‹_›
    · exact (ih _).of_error ‹_›

theorem writeBytes_own (c : Config) (w : Window) (k : Nat) (l : List Byte) (m : Memory) :
    Res.OwnFaults (writeBytes c w k l m) := by
  induction l generalizing k m with
  | nil => trivial
  | cons v rest ih =>
    unfold writeBytes
    split
    · exact ih ..
    · exact (writeByte_own ..).of_error ‹_›

theorem checkRange_own (n : Half) (size : Nat) (i : Instr) : Res.OwnFaults (checkRange n size i) := by
  rcases checkRange_cases n size i with ⟨-, h⟩ | ⟨-, h⟩ <;> rw [h]
  · trivial
  · simp [Res.Own]

theorem checkTosend_own (c : Config) (need : Nat) : Res.OwnFaults (checkTosend c need) := by
  rcases checkTosend_cases c need with ⟨-, h⟩ | ⟨-, h⟩ <;> rw [h]
  · trivial
  · simp [Res.Own]

theorem latchFrom_own (k n : Nat) (m : Memory) : Res.OwnFaults (latchFrom k n m) := by
  induction n generalizing k with
  | zero => trivial
  | succ n ih =>
    unfold latchFrom
    split
    · simp [Res.Own]
    · split
      · trivial
      · exact (ih _).of_error ‹_›

theorem latchCommand_own (n : Half) (i : Instr) (s : State) : Res.OwnFaults (latchCommand n i s) := by
  unfold latchCommand
  split
  · exact (checkRange_own ..).of_error ‹_›
  · exact latchFrom_own ..

/-! ### The send buffer and the encoders -/

theorem tosendIndex_own (t : SendCursor) : Res.OwnFaults (tosendIndex t) := by
  unfold tosendIndex
  split <;> trivial

theorem tosendOverflow_own (t : SendCursor) : (tosendOverflow t).Own := by simp [tosendOverflow]

theorem openByte_own (c : Config) (x : SendState) : Res.OwnFaults (openByte c x) := by
  unfold openByte
  split
  · exact tosendOverflow_own x.ts
  · dsimp only
    split
    · exact (tosendIndex_own _).of_error ‹_›
    · split
      · exact (writeByte_own ..).of_error ‹_›
      · trivial

theorem setBit_own (c : Config) (x : SendState) : Res.OwnFaults (setBit c x) := by
  unfold setBit
  split
  · exact (tosendIndex_own _).of_error ‹_›
  · split
    · exact (readByte_own ..).of_error ‹_›
    · split
      · exact (writeByte_own ..).of_error ‹_›
      · trivial

theorem putBit_own (c : Config) (b : Bool) (x : SendState) : Res.OwnFaults (putBit c b x) := by
  cases b with
  | false => trivial
  | true =>
    unfold putBit
    rw [if_pos rfl]
    split
    · exact (setBit_own ..).of_error ‹_›
    · trivial

theorem stuffBit_own (c : Config) (b : Bool) (x : SendState) : Res.OwnFaults (stuffBit c b x) := by
  unfold stuffBit
  split
  · split
    · exact (openByte_own ..).of_error ‹_›
    · exact putBit_own ..
  · exact putBit_own ..

theorem stuffBits_own (c : Config) (l : List Bool) (x : SendState) : Res.OwnFaults (stuffBits c l x) := by
  induction l generalizing x with
  | nil => trivial
  | cons b rest ih =>
    unfold stuffBits
    split
    · exact (stuffBit_own ..).of_error ‹_›
    · exact ih _

theorem stuff4_own (c : Config) (b : Bool) (x : SendState) : Res.OwnFaults (stuff4 c b x) := by
  unfold stuff4
  split
  · exact tosendOverflow_own x.ts
  · exact stuffBits_own ..

theorem stuffEtus_own (c : Config) (l : List Bool) (x : SendState) : Res.OwnFaults (stuffEtus c l x) := by
  induction l generalizing x with
  | nil => trivial
  | cons b rest ih =>
    unfold stuffEtus
    split
    · exact (stuff4_own ..).of_error ‹_›
    · exact ih _

theorem padOnes_own (c : Config) (n : Nat) (x : SendState) : Res.OwnFaults (padOnes c n x) := by
  induction n generalizing x with
  | zero => trivial
  | succ n ih =>
    unfold padOnes
    split
    · trivial
    · split
      · exact (stuffBit_own ..).of_error ‹_›
      · exact ih _

theorem encodeReader_own (c : Config) (cmd : List Byte) (m : Memory) : Res.OwnFaults (encodeReader c cmd m) := by
  unfold encodeReader
  split
  · exact (stuffBits_own ..).of_error ‹_›
  · exact padOnes_own ..

theorem encodeTag_own (c : Config) (cmd : List Byte) (m : Memory) : Res.OwnFaults (encodeTag c cmd m) := by
  unfold encodeTag
  split
  · exact (stuffEtus_own ..).of_error ‹_›
  · exact padOnes_own ..

theorem codeAsReader_own (n : Half) (i : Instr) (s : State) : Res.OwnFaults (codeAsReader n i s) := by
  unfold codeAsReader
  split
  · exact (latchCommand_own ..).of_error ‹_›
  · split
    · exact (checkTosend_own ..).of_error ‹_›
    · split
      · exact (encodeReader_own ..).of_error ‹_›
      · trivial

theorem codeAsTag_own (n : Half) (i : Instr) (s : State) : Res.OwnFaults (codeAsTag n i s) := by
  unfold codeAsTag
  split
  · exact (latchCommand_own ..).of_error ‹_›
  · split
    · exact (checkTosend_own ..).of_error ‹_›
    · exact encodeTag_own ..

/-! ### The decoders -/

theorem uartCharacter_own (c : Config) (u : Uart) (m : Memory) : Res.OwnFaults (uartCharacter c u m) := by
  have hstore : Res.OwnFaults (uartStore c u m) := by
    unfold uartStore
    split
    · exact (writeByte_own ..).of_error ‹_›
    · trivial
  unfold uartCharacter
  split
  · split
    · trivial
    · split
      · exact hstore.of_error ‹_›
      · trivial
  · split
    · exact hstore.of_error ‹_›
    · split <;> trivial

theorem uartStep_own (c : Config) (b : Bool) (u : Uart) (m : Memory) : Res.OwnFaults (uartStep c b u m) := by
  cases hs : u.state with
  | unsynced => rw [uartStep_unsynced hs]; trivial
  | gotFallingEdgeOfSof => rw [uartStep_gotFalling hs]; trivial
  | awaitingStartBit => rw [uartStep_awaiting hs]; trivial
  | receivingData =>
    simp only [uartStep_receiving hs, uartReceiving, uartTenBits]
    split
    · split
      · trivial
      · split
        · exact uartCharacter_own ..
        · split <;> trivial
    · trivial

theorem demodCharacter_own (c : Config) (d : Demod) (m : Memory) : Res.OwnFaults (demodCharacter c d m) := by
  unfold demodCharacter
  split
  · split
    · trivial
    · split
      · exact (writeByte_own ..).of_error ‹_›
      · trivial
  · split <;> trivial

theorem demodStep_own (c : Config) (i q : Byte) (d : Demod) (m : Memory) : Res.OwnFaults (demodStep c i q d m) := by
  cases hs : d.state with
  | unsynced => rw [demodStep_unsynced hs]; trivial
  | phaseRefTraining => rw [demodStep_training hs]; trivial
  | awaitingFallingEdgeOfSof => rw [demodStep_awaitFall hs]; trivial
  | gotFallingEdgeOfSof => rw [demodStep_gotFall hs]; trivial
  | awaitingStartBit => rw [demodStep_awaitStart hs]; trivial
  | receivingData =>
    simp only [demodStep_receiving hs, demodReceiving]
    split
    · trivial
    · split
      · trivial
      · exact demodCharacter_own ..

/-! ### The emulator -/

theorem copyTosend_own (c : Config) (w : Window) (n : Nat) (m : Memory) : Res.OwnFaults (copyTosend c w n m) := by
  unfold copyTosend
  split
  · exact (readBytes_own ..).of_error ‹_›
  · exact writeBytes_own ..

theorem buildResponse_own (c : Config) (frame : List Byte) (w : Window) (n : Nat) (m : Memory) :
    Res.OwnFaults (buildResponse c frame w n m) := by
  unfold buildResponse
  split
  · exact (encodeTag_own ..).of_error ‹_›
  · split
    · exact (copyTosend_own ..).of_error ‹_›
    · trivial

/-! ### Commands -/

/-- A state with the fault of `s`. -/
abbrev SameFault (s t : State) : Prop := t.fault = s.fault

theorem uartInit_own (n : Half) (i : Instr) (s : State) : Res.Own (uartInit n i s) (SameFault s) := by
  unfold uartInit
  split
  · exact (checkRange_own ..).of_error ‹_›
  · rfl

theorem demodInit_own (n : Half) (i : Instr) (s : State) : Res.Own (demodInit n i s) (SameFault s) := by
  unfold demodInit
  split
  · exact (checkRange_own ..).of_error ‹_›
  · rfl

theorem uartStepState_own (b : Bool) (s : State) : Res.Own (uartStepState b s) fun x => SameFault s x.2 := by
  unfold uartStepState
  split
  · exact (uartStep_own ..).of_error ‹_›
  · rfl

theorem demodStepState_own (i q : Byte) (s : State) : Res.Own (demodStepState i q s) fun x => SameFault s x.2 := by
  unfold demodStepState
  split
  · exact (demodStep_own ..).of_error ‹_›
  · rfl

theorem trxTxTag_own (sel : BitVec 2) (s : State) : Res.Own (trxTxTag sel s) (SameFault s) := by
  unfold trxTxTag
  split
  · simp [Res.Own]
  · rw [startTag_eq]; rfl

theorem trxRxTag_own (n : Half) (s : State) : Res.Own (trxRxTag n s) (SameFault s) := by
  unfold trxRxTag
  rcases demodInit_cases n (.trxRxTag n) s with ⟨-, h⟩ | ⟨-, h⟩ <;> rw [h]
  · rfl
  · simp [Res.Own]

theorem codeTxReader_own (n : Half) (s : State) : Res.Own (codeTxReader n s) (SameFault s) := by
  unfold codeTxReader
  split
  · exact (codeAsReader_own ..).of_error ‹_›
  · rfl

theorem emuInit_own (s : State) : Res.Own (emuInit s) (SameFault s) := by
  unfold emuInit
  split
  · exact (checkTosend_own ..).of_error ‹_›
  · split
    · exact (writeBytes_own ..).of_error ‹_›
    · split
      · exact (buildResponse_own ..).of_error ‹_›
      · split
        · exact (buildResponse_own ..).of_error ‹_›
        · rfl

theorem emuFrame_own (s : State) : Res.Own (emuFrame s) (SameFault s) := by
  rcases emuFrame_cases s with he | ⟨e, hread, he⟩ | ⟨f, -, he⟩ <;> rw [he]
  · rfl
  · exact (readBytes_own ..).of_error hread
  · obtain ⟨mode, eng, hx⟩ := emuAnswered_eq (transition s.emu.state (classify f)) f s
    rw [hx]
    rfl

theorem emuRx_own (n : Half) (s : State) : Res.Own (emuRx n s) (SameFault s) := by
  unfold emuRx
  rcases uartInit_cases n (.emuRx n) s with ⟨-, h⟩ | ⟨-, h⟩ <;> rw [h]
  · rfl
  · simp [Res.Own]

theorem commitSend_own {r : Res SendState} (h : Res.OwnFaults r) :
    ∃ r', commitSend s r = commit s r' ∧ Res.Own r' (SameFault s) :=
  ⟨_, rfl, h.map fun _ _ => rfl⟩

/-- A command is a rule that raises no fault, or fails as a command's rule may in the state before it. -/
theorem exec_own (i : Instr) (s : State) : ∃ r, exec i s = commit s r ∧ Res.Own r (SameFault s) := by
  cases i with
  | tosendReset | trxTxReader | trxSetTimeout | trxSetMaxFrame | emuField => exact ⟨.ok _, rfl, rfl⟩
  | tosendStuff b => exact commitSend_own (stuffBit_own ..)
  | tosendStuff4 b => exact commitSend_own (stuff4_own ..)
  | codeReader n => exact commitSend_own ((codeAsReader_own ..).map fun _ _ => trivial)
  | codeTag n => exact commitSend_own (codeAsTag_own ..)
  | uartInit n => exact ⟨_, rfl, uartInit_own ..⟩
  | uartStep b => exact ⟨_, rfl, (uartStepState_own b s).map fun _ h => h⟩
  | demodInit n => exact ⟨_, rfl, demodInit_own ..⟩
  | demodStep x y => exact ⟨_, rfl, (demodStepState_own x y s).map fun _ h => h⟩
  | trxTxTag sel => exact ⟨_, rfl, trxTxTag_own sel s⟩
  | trxRxTag n => exact ⟨_, rfl, trxRxTag_own n s⟩
  | trxCodeTxReader n => exact ⟨_, rfl, codeTxReader_own n s⟩
  | emuInit => exact ⟨_, rfl, emuInit_own s⟩
  | emuFrame => exact ⟨_, rfl, emuFrame_own s⟩
  | emuRx n => exact ⟨_, rfl, emuRx_own n s⟩

/-! ### What a raise leaves -/

theorem raise_eq_faulted (code : FaultCode) (info : Word) (hf : s.fault = none) :
    s.raise code info = faulted code info s := State.raise_first _ _ _ hf

/-- A fault of a command leaves the state before it but for the fault (R340). -/
theorem exec_precise {i : Instr} (hf : s.fault = none) (h : exec i s = .next t) (ht : t.fault ≠ none) :
    ∃ code ∈ [FaultCode.illegal, .range, .unwritten, .tosendOvf], ∃ info, t = faulted code info s := by
  obtain ⟨r, hr, hown⟩ := exec_own i s
  rw [hr] at h
  rcases (commit_next_iff ..).1 h with rfl | ⟨code, info, rfl, rfl⟩
  · exact absurd ((show t.fault = s.fault from hown).trans hf) ht
  · exact ⟨code, hown, info, raise_eq_faulted code info hf⟩

/-- An entry into a full ring is an overrun, for every size of the ring (R96). -/
theorem producerWrite_full {i q : Byte} (h : s.cfg.sringEntries ≤ s.ring.produced - s.ring.consumed) :
    producerWrite i q s = .error (.raise .overrun (BitVec.ofNat 32 s.ring.produced)) := if_pos h

end Sys2Proof.Machine

open Sys2Proof Sys2Proof.Machine

/-- Settles O7: a command's rule fails by its own faults alone and its success raises none; the rest is what
the bus, the ring and a raise do. -/
theorem faultsArePreciseAndAbandonTheCommand : Obligations.FaultsArePreciseAndAbandonTheCommand := by
  refine ⟨fun code info s => ⟨raise_eq_faulted code info, State.raise_later s code info⟩,
    fun i s t hf h ht => exec_precise hf h ht, fun s cw hf hbusy => ?_, fun s i q hf hfull => ?_, fun s hf =>
    ⟨fun cw => (hostWrite_cmd cw s).trans (submit_ignored cw (Option.isSome_iff_ne_none.2 hf)),
      fun v => hostWrite_arg0 v s, fun k v hk hsize => ?_, fun addr v hv => ?_, fun addr w k v hk ha hv => ?_,
      hostRead_keepsFault hf⟩⟩
  · calc hostWrite cmdAddr 4 cw s
        = submit cw s := hostWrite_cmd cw s
      _ = .next (s.raise .busy cw) := submit_busy cw hf hbusy
      _ = .next (faulted .busy cw s) := congrArg _ (raise_eq_faulted _ _ hf)
  · rw [applyMove, producerWrite_full hfull.ge, commit_raise, raise_eq_faulted _ _ hf]
  · exact hostWrite_cmdbuf hk (by simp; omega) v
  · obtain ⟨hlt, halign, -⟩ := registerTable_addr s _ hv
    have haddr : (BitVec.ofNat 16 addr).toNat = addr := by simp; omega
    exact hostRead_of_readReg (by rwa [haddr]) (by rwa [haddr]) (by rwa [haddr, readReg_eq_some_iff])
  · rw [hostRead_byte hk ha, hv]
    rfl

end

section
/-! PROOFS. Cancellation (R350): the engine's move with CANCEL high, and commands that do not look at CANCEL before their
first hold. -/

namespace Sys2Proof.Machine

variable {s t : State}

/-! ### The move -/

/-- With a command in flight and CANCEL high, the step cancels it, whatever its hold (R350). -/
theorem step_cancels (hbusy : s.eng.busy = true) (hc : s.env.cancel = true) : step s = .next s.cancelled := by
  rw [step_engine (by simp [engineReady, hbusy, hc]), engineMove, if_pos hc]

/-- No command writes an input port (R53). -/
theorem exec_env {i : Instr} (h : exec i s = .next t) : t.env = s.env := by
  obtain ⟨-, -, henv, -⟩ := commandsWriteOnlyTheirOwnState i s t h
  exact henv

/-! ### The acceptance -/

/-- A state with another level of CANCEL. -/
def State.withCancel (level : Bool) (s : State) : State := { s with env := { s.env with cancel := level } }

variable {level : Bool}

theorem raise_withCancel (code : FaultCode) (info : Word) (s : State) :
    (s.withCancel level).raise code info = (s.raise code info).withCancel level := by
  by_cases hf : s.fault = none
  · rw [State.raise_first _ _ _ hf, State.raise_first (s.withCancel level) _ _ hf]
    rfl
  · rw [State.raise_later _ _ _ hf, State.raise_later (s.withCancel level) _ _ hf]
    rfl

/-- A rule that does not look at CANCEL does not when it is committed. -/
theorem commit_withCancel {r r' : Res State} (h : r' = r.map (State.withCancel level)) :
    commit (s.withCancel level) r' = mapNext (State.withCancel level) (commit s r) := by
  subst h
  match r with
  | .ok t => rfl
  | .error (.raise code info) => simp only [Res.map_error, commit_raise, raise_withCancel]; rfl
  | .error (.stop f) => rfl

theorem commitSend_withCancel (r : Res SendState) :
    commitSend (s.withCancel level) r = mapNext (State.withCancel level) (commitSend s r) :=
  commit_withCancel (by cases r <;> rfl)

theorem uartInit_withCancel (n : Half) (i : Instr) (s : State) :
    uartInit n i (s.withCancel level) = (uartInit n i s).map (State.withCancel level) := by
  simp only [uartInit, State.withCancel]
  cases checkRange n s.cfg.uoutSize i <;> rfl

theorem demodInit_withCancel (n : Half) (i : Instr) (s : State) :
    demodInit n i (s.withCancel level) = (demodInit n i s).map (State.withCancel level) := by
  simp only [demodInit, State.withCancel]
  cases checkRange n s.cfg.doutSize i <;> rfl

theorem uartStepState_withCancel (b : Bool) (s : State) :
    (uartStepState b (s.withCancel level)).map Prod.snd =
      ((uartStepState b s).map Prod.snd).map (State.withCancel level) := by
  simp only [uartStepState, State.withCancel]
  cases uartStep s.cfg b s.uart s.mem <;> rfl

theorem demodStepState_withCancel (i q : Byte) (s : State) :
    (demodStepState i q (s.withCancel level)).map Prod.snd =
      ((demodStepState i q s).map Prod.snd).map (State.withCancel level) := by
  simp only [demodStepState, State.withCancel]
  cases demodStep s.cfg i q s.demod s.mem <;> rfl

theorem startTag_withCancel (op : Byte) (src : TxSource) (s : State) :
    startTag op src (s.withCancel level) = (startTag op src s).withCancel level := by
  rw [startTag_eq_tagBegun, startTag_eq_tagBegun]
  cases src <;> rfl

theorem trxTxTag_withCancel (sel : BitVec 2) (s : State) :
    trxTxTag sel (s.withCancel level) = (trxTxTag sel s).map (State.withCancel level) := by
  simp only [trxTxTag, startTag_withCancel]
  cases txSourceOf sel <;> rfl

theorem trxRxTag_withCancel (n : Half) (s : State) :
    trxRxTag n (s.withCancel level) = (trxRxTag n s).map (State.withCancel level) := by
  simp only [trxRxTag, demodInit_withCancel]
  cases demodInit n (.trxRxTag n) s <;> rfl

theorem emuRx_withCancel (n : Half) (s : State) :
    emuRx n (s.withCancel level) = (emuRx n s).map (State.withCancel level) := by
  simp only [emuRx, uartInit_withCancel]
  cases uartInit n (.emuRx n) s <;> rfl

theorem emuAnswered_withCancel (x : EState × Option TxSource × TraceKind) (f : List Byte) (s : State) :
    emuAnswered x f (s.withCancel level) = (emuAnswered x f s).withCancel level := by
  obtain ⟨next, resp, kind⟩ := x
  cases resp with
  | none => rfl
  | some src => exact startTag_withCancel 0x42 src (emuMoved next kind f s)

theorem emuFrame_withCancel (s : State) :
    emuFrame (s.withCancel level) = (emuFrame s).map (State.withCancel level) := by
  by_cases h : s.emu.state = .nofield
  · rw [emuFrame_nofield h, emuFrame_nofield (s := s.withCancel level) h]
    rfl
  · cases hread : readBytes s.cfg .uout 0 s.uart.byteCnt.toNat s.mem with
    | error e =>
      rw [emuFrame_unread h hread, emuFrame_unread (s := s.withCancel level) h hread]
      rfl
    | ok f =>
      rw [emuFrame_answers h hread, emuFrame_answers (s := s.withCancel level) h hread]
      exact congrArg Except.ok (emuAnswered_withCancel ..)

theorem emuInit_withCancel (s : State) :
    emuInit (s.withCancel level) = (emuInit s).map (State.withCancel level) := by
  simp only [emuInit, State.withCancel]
  repeat' split
  all_goals rfl

theorem codeTxReader_withCancel (n : Half) (s : State) :
    codeTxReader n (s.withCancel level) = (codeTxReader n s).map (State.withCancel level) := by
  have hcode : codeAsReader n (.trxCodeTxReader n) (s.withCancel level) = codeAsReader n (.trxCodeTxReader n) s := rfl
  simp only [codeTxReader, hcode]
  cases codeAsReader n (.trxCodeTxReader n) s <;> rfl

/-- No command's acceptance looks at CANCEL (R350). -/
theorem exec_withCancel (i : Instr) (s : State) (level : Bool) :
    exec i (s.withCancel level) = mapNext (State.withCancel level) (exec i s) := by
  cases i with
  | tosendReset | trxTxReader | trxSetTimeout | trxSetMaxFrame | emuField => rfl
  | tosendStuff | tosendStuff4 | codeReader | codeTag => exact commitSend_withCancel _
  | uartInit n => exact commit_withCancel (uartInit_withCancel ..)
  | uartStep b => exact commit_withCancel (uartStepState_withCancel ..)
  | demodInit n => exact commit_withCancel (demodInit_withCancel ..)
  | demodStep x y => exact commit_withCancel (demodStepState_withCancel ..)
  | trxTxTag sel => exact commit_withCancel (trxTxTag_withCancel ..)
  | trxRxTag n => exact commit_withCancel (trxRxTag_withCancel ..)
  | trxCodeTxReader n => exact commit_withCancel (codeTxReader_withCancel ..)
  | emuInit => exact commit_withCancel (emuInit_withCancel s)
  | emuFrame => exact commit_withCancel (emuFrame_withCancel s)
  | emuRx n => exact commit_withCancel (emuRx_withCancel ..)

end Sys2Proof.Machine

open Sys2Proof Sys2Proof.Machine

/-- Settles O8: a cancelled step at any hold, and rules that commute with the level of CANCEL. -/
theorem cancelEndsTheCommandAtItsHold : Obligations.CancelEndsTheCommandAtItsHold :=
  ⟨fun _ => step_cancels, exec_withCancel, fun _ _ _ hc h hbusy => step_cancels hbusy (by rw [exec_env h]; exact hc)⟩

end

section
/-! PROOFS. Trace records (R359 to R361): which segments and which moves append one, and what stands in it. -/

namespace Sys2Proof.Machine

variable {s t : State}

/-- From `s` to `t` the trace stays, or gains one record with property `P`. -/
def Traces (P : TraceRec → Prop) (s t : State) : Prop :=
  t.out.trace = s.out.trace ∨ ∃ r, t.out.trace = s.out.trace ++ [r] ∧ P r

theorem Traces.mono {P Q : TraceRec → Prop} (h : Traces P s t) (hPQ : ∀ r, P r → Q r) : Traces Q s t :=
  h.imp_right fun ⟨r, hr, hP⟩ => ⟨r, hr, hPQ r hP⟩

/-- A fault is not traced (R340, R360). -/
theorem raise_traces (P : TraceRec → Prop) (code : FaultCode) (info : Word) (s : State) : Traces P s (s.raise code info) :=
  .inl (by rw [State.raise_out])

/-! ### Segments -/

/-- A record of TRX.CODE_TX_READER, made as the command completes in `t` (R278). -/
def ReaderRecord (f : List Byte) (t : State) (r : TraceRec) : Prop :=
  r.bytes = f ∧ r.crcOk = none ∧ r.direction = .reader ∧ t.eng.busy = false

/-- The end of a reader transmission records the frame it has latched, if any (R278). -/
theorem readerNext_traces (frame : Option (List Byte)) (s : State) :
    Traces (fun r => ∃ f, frame = some f ∧ ReaderRecord f (readerNext frame s) r) s (readerNext frame s) := by
  unfold readerNext
  split
  · exact .inl rfl
  · cases frame with
    | none => exact .inl rfl
    | some f => exact .inr ⟨_, rfl, f, rfl, rfl, rfl, rfl, rfl⟩

theorem readerSegment_traces {second : Bool} {frame : Option (List Byte)} (h : readerSegment second frame s = .ok t) :
    Traces (fun r => second = true ∧ ∃ f, frame = some f ∧ ReaderRecord f t r) s t := by
  unfold readerSegment at h
  split at h
  · cases h
  · split at h <;> cases h
    · exact (readerNext_traces frame _).mono fun r hr => ⟨‹_›, hr⟩
    · exact .inl rfl

/-- A record of TRX.RX_TAG, made as it completes in `t` with a frame (R280). -/
def ReceiveRecord (t : State) (r : TraceRec) : Prop :=
  t.dDone = true ∧ t.demod.overflow = false ∧ r.crcOk = none ∧ r.direction = .tag ∧ t.eng.busy = false

/-- A receive records the frame it ends with, not an overflow or a timeout (R280). -/
theorem afterSample_traces (h : afterSample s.dDone s = .ok t) : Traces (ReceiveRecord t) s t := by
  unfold afterSample finishReceive at h
  split at h
  · rename_i hdone
    split at h
    · cases h; exact .inl rfl
    · rename_i hover
      split at h <;> cases h
      exact .inr ⟨_, rfl, hdone, Bool.eq_false_iff.2 hover, rfl, rfl, rfl⟩
  · split at h <;> cases h <;> exact .inl rfl

theorem sampleSegment_traces (h : sampleSegment s = .ok t) : Traces (ReceiveRecord t) s t := by
  unfold sampleSegment at h
  split at h
  · cases h
  · rename_i hnext
    obtain ⟨-, -, rfl⟩ := (nextSample_eq_ok_iff ..).1 hnext
    unfold demodStepState at h
    split at h
    · cases h
    · rename_i hstep
      split at hstep <;> cases hstep
      rename_i run _
      exact afterSample_traces (s := (sampled s).withDemodRun run) h

theorem rbitSegment_out (h : rbitSegment s = .ok t) : t.out = s.out := by
  unfold rbitSegment at h
  split at h
  · cases h; rfl
  · unfold uartStepState at h
    split at h
    · cases h
    · rename_i hstep
      split at hstep <;> cases hstep
      split at h <;> cases h <;> rfl

/-- A record of a segment: the end of a TRX.CODE_TX_READER, or a successful end of a TRX.RX_TAG (R360). -/
def SegmentRecord (s t : State) (r : TraceRec) : Prop :=
  (∃ f, (s.eng.hold = .slot (some f) ∨ s.eng.hold = .readerWord true (some f)) ∧ ReaderRecord f t r) ∨
    (s.eng.hold = .sample ∧ ReceiveRecord t r)

theorem segment_traces (h : segment s = .ok t) : Traces (SegmentRecord s t) s t := by
  unfold segment at h
  split at h
  · cases h; exact .inl rfl
  · rename_i hhold
    cases h
    refine (readerNext_traces _ s).mono ?_
    rintro r ⟨f, rfl, hr⟩
    exact .inl ⟨f, .inl hhold, hr⟩
  · rename_i hhold
    refine (readerSegment_traces h).mono ?_
    rintro r ⟨rfl, f, rfl, hr⟩
    exact .inl ⟨f, .inr hhold, hr⟩
  · obtain ⟨v, e, rfl⟩ := tagSegment_ok h
    exact .inl rfl
  · rename_i hhold
    exact (sampleSegment_traces h).mono fun r hr => .inr ⟨hhold, hr⟩
  · exact .inl (congrArg Out.trace (rbitSegment_out h))

theorem engineMove_traces (h : engineMove s = .next t) : Traces (SegmentRecord s t) s t := by
  rcases engineMove_cases s with ⟨-, he⟩ | ⟨-, he⟩ <;> rw [he] at h
  · cases h; exact .inl rfl
  · rcases commit_next_cases h segment_traces with ⟨code, info, rfl⟩ | hr
    · exact raise_traces ..
    · exact hr

/-! ### Commands and external moves -/

/-- A record of EMU.FRAME, both timestamps the clock's reading (R314, R316). -/
def FrameRecord (now : Word) (r : TraceRec) : Prop := r.direction = .reader ∧ r.startTs = now ∧ r.endTs = now

/-- EMU.FRAME makes one record at most (R313). -/
theorem frameRecords_cases (kind : TraceKind) (f : List Byte) (now : Word) :
    frameRecords kind f now = [] ∨ ∃ r, frameRecords kind f now = [r] ∧ FrameRecord now r := by
  cases kind with
  | none => exact .inl rfl
  | reader | log => exact .inr ⟨_, rfl, rfl, rfl, rfl⟩

theorem emuAnswered_traces (x : EState × Option TxSource × TraceKind) (f : List Byte) (s : State) :
    Traces (FrameRecord s.env.now) s (emuAnswered x f s) := by
  obtain ⟨mode, e, hx⟩ := emuAnswered_eq x f s
  rw [hx]
  rcases frameRecords_cases x.2.2 f s.env.now with hnone | ⟨r, hone, hr⟩
  · exact .inl (by simp [emuMoved, hnone])
  · exact .inr ⟨r, by simp [emuMoved, hone], hr⟩

/-- The effect of a command records nothing, EMU.FRAME apart (R360). -/
theorem Effect.traces {i : Instr} (h : Effect s t i) : Traces (fun r => i = .emuFrame ∧ FrameRecord s.env.now r) s t := by
  cases i with
  | tosendReset | uartInit | demodInit | trxTxReader | emuRx => subst h; exact .inl rfl
  | tosendStuff | tosendStuff4 | codeReader | codeTag | uartStep | demodStep => obtain ⟨x, -, rfl⟩ := h; exact .inl rfl
  | trxRxTag | trxSetTimeout | trxSetMaxFrame | emuField => obtain ⟨x, rfl⟩ := h; exact .inl rfl
  | trxTxTag => obtain ⟨src, rfl⟩ := h; rw [startTag_eq]; exact .inl rfl
  | trxCodeTxReader => obtain ⟨cmd, x, -, rfl⟩ := h; exact .inl rfl
  | emuInit => obtain ⟨ts, m, e, rfl, -⟩ := h; exact .inl rfl
  | emuFrame =>
    rcases h with rfl | ⟨x, f, rfl⟩
    · exact .inl rfl
    · exact (emuAnswered_traces x f s).mono fun r hr => ⟨rfl, hr⟩

theorem submit_traces {cw : Word} (h : submit cw s = .next t) :
    Traces (fun r => decode cw = .ok .emuFrame ∧ FrameRecord s.env.now r) s t := by
  unfold submit at h
  split at h
  · cases h; exact .inl rfl
  · split at h
    · cases h; exact raise_traces ..
    · split at h
      · cases h; exact raise_traces ..
      · rename_i i hd
        rcases exec_cases h with ⟨code, info, rfl⟩ | he
        · exact raise_traces ..
        · refine he.traces.mono ?_
          rintro r ⟨rfl, hr⟩
          exact ⟨hd, hr⟩

theorem hostWrite_traces {addr : Half} {n : Nat} {v : Word} (h : hostWrite addr n v s = .next t) :
    Traces (fun r => (n = 4 ∧ addr = cmdAddr) ∧ decode v = .ok .emuFrame ∧ FrameRecord s.env.now r) s t := by
  unfold hostWrite at h
  split at h
  · exact (submit_traces h).mono fun r hr => ⟨‹_›, hr⟩
  · split at h
    · cases h; exact .inl rfl
    · split at h <;> cases h
      · exact .inl rfl
      · exact raise_traces ..

theorem producerWrite_out {x y : Byte} (h : producerWrite x y s = .ok t) : t.out = s.out := by
  simp only [producerWrite] at h
  repeat' split at h
  all_goals cases h
  rfl

/-- An external move records nothing but by an EMU.FRAME submitted (R360). -/
theorem applyMove_traces {mv : Move} (h : applyMove mv s = .next t) :
    Traces (fun r => (∃ cw, mv = .hostWrite cmdAddr 4 cw ∧ decode cw = .ok .emuFrame) ∧ FrameRecord s.env.now r)
      s t := by
  cases mv with
  | hostWrite addr n v =>
    refine (hostWrite_traces h).mono ?_
    rintro r ⟨⟨rfl, rfl⟩, hd, hr⟩
    exact ⟨⟨v, rfl, hd⟩, hr⟩
  | hostRead addr n =>
    cases h
    rcases hostRead_cases addr n s with ⟨v, he⟩ | ⟨code, info, he⟩ <;> rw [he]
    · exact .inl rfl
    · exact raise_traces ..
  | produce x y =>
    rcases commit_next_cases h producerWrite_out with ⟨code, info, rfl⟩ | hout
    · exact raise_traces ..
    · exact .inl (congrArg Out.trace hout)
  | readerBit | clock | txReady | field | cancel | reset => cases h; exact .inl rfl

end Sys2Proof.Machine

open Sys2Proof Sys2Proof.Machine

/-- Settles O22: the engine's move records by the segments of two holds, an external move by the acceptance of EMU.FRAME. -/
theorem traceRecordsComeFromThreeCommands : Obligations.TraceRecordsComeFromThreeCommands := by
  intro s t h hne
  rcases step_cases s with ⟨-, he⟩ | ⟨hready, mv, rest, hmoves, he⟩ | ⟨-, -, he⟩ <;> rw [he] at h
  · obtain ⟨r, hr, hend | hreceived⟩ := (engineMove_traces h).resolve_left hne
    · exact ⟨r, hr, .inl hend⟩
    · exact ⟨r, hr, .inr (.inl hreceived)⟩
  · obtain ⟨r, hr, ⟨cw, rfl, hd⟩, hframe⟩ := (applyMove_traces h).resolve_left hne
    exact ⟨r, hr, .inr (.inr ⟨hready, ⟨cw, rest, hmoves, hd⟩, hframe⟩)⟩
  · cases h
    exact absurd rfl hne

end

section
/-! PROOFS. RESET as an external move (R370, R371). -/

namespace Sys2Proof.Machine

/-- RESET answers the state after RESET, with the parameters, the input ports and what has left the block kept (R371). -/
theorem applyMove_reset (s : State) : applyMove .reset s = .next (State.afterReset s.cfg s.env s.out) := rfl

theorem afterReset_mem (c : Config) (env : Env) (out : Out) : (State.afterReset c env out).mem = [] := rfl

/-- No buffer byte is written after RESET (R370). -/
theorem afterReset_mem_read (c : Config) (env : Env) (out : Out) (a : Nat) :
    (State.afterReset c env out).mem.read a = none := by
  rw [afterReset_mem, Memory.read_nil]

end Sys2Proof.Machine

open Sys2Proof Sys2Proof.Machine

/-- Settles O10: RESET answers the state after RESET, whose registers are those of the table (R57). -/
theorem resetGivesEveryRegisterItsResetValue : Obligations.ResetGivesEveryRegisterItsResetValue :=
  fun s => ⟨_, applyMove_reset s, afterReset_mem .., afterReset_mem_read _ _ _, rfl⟩

end
